-- ==== Sys2Proof/Word.lean ====
section
/-! DEFINITION. The word types of the model and the sorted tables that hold sparse state. -/

namespace Sys2Proof

abbrev Byte := BitVec 8
abbrev W32 := BitVec 32
abbrev W64 := BitVec 64

/-- A sparse table: values by a natural key, keys strictly rising (`Tab.wf`). -/
abbrev Tab (α : Type) := List (Nat × α)

namespace Tab

variable {α β : Type}

/-- The value listed at key `k`, if any. -/
def look : Tab α → Nat → Option α
  | [], _ => none
  | (j, v) :: l, k => if j = k then some v else look l k

/-- The value listed at `k`, or `d`. -/
def lookD (l : Tab α) (k : Nat) (d : α) : α := (look l k).getD d

/-- Put `v` at `k`, keeping the keys sorted. -/
def put : Tab α → Nat → α → Tab α
  | [], k, v => [(k, v)]
  | (j, w) :: l, k, v =>
    if k < j then (k, v) :: (j, w) :: l
    else if k = j then (k, v) :: l
    else (j, w) :: put l k v

/-- Remove key `k`. -/
def rem : Tab α → Nat → Tab α
  | [], _ => []
  | (j, w) :: l, k => if j = k then rem l k else (j, w) :: rem l k

/-- Put `v` at `k` where unlisted keys read as `d`: the default is never listed. -/
def cput [DecidableEq α] (d : α) (l : Tab α) (k : Nat) (v : α) : Tab α :=
  if v = d then rem l k else put l k v

/-- Apply `f` to every value, keys unchanged. -/
def mapv (f : Nat → α → β) : Tab α → Tab β
  | [] => []
  | (k, v) :: l => (k, f k v) :: mapv f l

/-- Every listed key lies above `k`. -/
def above : Tab α → Nat → Bool
  | [], _ => true
  | (j, _) :: l, k => decide (k < j) && above l k

/-- Keys strictly rising. -/
def wf : Tab α → Bool
  | [] => true
  | (j, _) :: l => above l j && wf l

/-- The listed keys. -/
def keys (l : Tab α) : List Nat := l.map Prod.fst

/-- The listed values. -/
def vals (l : Tab α) : List α := l.map Prod.snd

end Tab

/-- Sorted lists of keys without repeats, used as sets. -/
abbrev KeySet := List Nat

namespace KeySet

def ins : KeySet → Nat → KeySet
  | [], k => [k]
  | j :: l, k => if k < j then k :: j :: l else if k = j then j :: l else j :: ins l k

def del : KeySet → Nat → KeySet
  | [], _ => []
  | j :: l, k => if j = k then del l k else j :: del l k

def has : KeySet → Nat → Bool
  | [], _ => false
  | j :: l, k => decide (j = k) || has l k

end KeySet

end Sys2Proof
end

