-- ==== Sys2Proof/Syntax.lean ====
section
/-! DEFINITION. The instructions and engine steps of the GX7: one constructor per row of spec/opcode_table.json.
Encoded instructions carry the fields of R108 to R111; the steps of engines, supervisor cores and the fabric carry
what names the unit they act on. -/

namespace Sys2Proof

/-- Word 0 of an instruction without LEN and OP (R108), with the literal of the literal form (R111) where it has one. -/
structure Base where
  u : Bool
  d : BitVec 7
  a : BitVec 7
  b : BitVec 7
  la : Bool
  lb : Bool
  deriving DecidableEq, Repr

/-- The fields of an extended instruction (R108, R109) less LEN, OP and FN, and its literal (LEN 11, R111).
In the branch group MODB and MODA together are OFF (R110). -/
structure Ext where
  u : Bool
  d : BitVec 7
  a : BitVec 7
  b : BitVec 7
  la : Bool
  lb : Bool
  c : BitVec 7
  lc : Bool
  pr : BitVec 3
  pn : Bool
  hold : BitVec 2
  ty : BitVec 6
  rnd : BitVec 3
  sat : Bool
  modA : BitVec 12
  modB : BitVec 12
  imm : BitVec 8
  lit : Option W64
  deriving DecidableEq, Repr

/-- A capability: 128 bits and a tag (R80). -/
structure Cap where
  bits : BitVec 128
  tag : Bool
  deriving DecidableEq, Repr

/-- What Mydal answers to one SYS request (R192): 32-bit results by thread, and capabilities that replace C[A][t]. -/
structure SysReplyData where
  results : Tab W32
  caps : Tab Cap
  deriving DecidableEq, Repr

/-- An Add Capacity event or its acceptance (R427, R429, R433). -/
structure AddCapMsg where
  idx : Nat
  peer : BitVec 12
  lid : W32
  mode : Byte
  ebase : W32
  elen : W32
  expiry : W64
  deriving DecidableEq, Repr

/-- A forwarded access of a peer to a line homed here (R422): a read of `len` bytes, or a write of `data` with the tags of its
granules, bit i for the one 16·i bytes on. -/
structure FwdReq where
  write : Bool
  pa : Nat
  len : Nat
  data : List Byte
  peer : BitVec 12
  tags : BitVec 8
  deriving DecidableEq, Repr

/-- Roles on the fabric (R438). -/
inductive FabricRole where
  | member | standby | manager
  deriving DecidableEq, Repr

/-- Roles of a link port (R437). -/
inductive PortRole where
  | none | fabric | upstream | downstream
  deriving DecidableEq, Repr

/-- The event rings (R366, R430, R442). -/
inductive RingName where
  | core (core : Nat)
  | lease
  | system
  deriving DecidableEq, Repr

/-- What an uncorrectable soft error strikes: a 64-byte unit of physical memory or of vault SRAM (R305), or the slot or
tile data of one quarter of a team's tile (R364). -/
inductive ErrUnit where
  | memory (pa : Nat)
  | vault (core off : Nat)
  | quarter (team tile q : Nat)
  deriving DecidableEq, Repr

/-- Registers that a write stores into (R105, R308, R366, R418, R420, R428, R442, R450). A write of PWCTL, RVCMD, TCMD, RFCTL,
LCMD, RSCTL or KSCMD is the command of its value (R370, R105, R418, R420, R428, R308, R450). -/
inductive Reg where
  | pwsel (core : Nat) | pwtid (core : Nat) | pwidx (core : Nat)
  | savebase (core : Nat) | evbase (core : Nat) | evsize (core : Nat) | pwctl (core : Nat)
  | rvtab | rvnum | rvcmd
  | tcmd | rfctl (link : Nat) | lcmd | rsctl (die : Nat) | kscmd
  | tva | tlen | tgensel | tbase | tdump | tdlen | tthr
  | rfasid (link : Nat) | rfva (link : Nat) | rflen (link : Nat)
  | larg | levbase | levsize
  | lender (idx off : Nat) | slot (idx off : Nat)
  | rsbase (die : Nat) | rslen (die : Nat)
  | ksva | kspa | kssel
  | sevbase | sevsize
  deriving DecidableEq, Repr

/-- One constructor per row of the opcode table. -/
inductive Instr where
  | clauseHeader (wait : BitVec 12) (set0 set1 count : BitVec 4)
  | iadd (o : Base)
  | iaddLit (o : Base) (lit : W64)
  | iaddX (o : Ext)
  | isub (o : Base)
  | isubLit (o : Base) (lit : W64)
  | isubX (o : Ext)
  | imul (o : Base)
  | imulLit (o : Base) (lit : W64)
  | imulX (o : Ext)
  | andI (o : Base)
  | andLit (o : Base) (lit : W64)
  | andX (o : Ext)
  | orI (o : Base)
  | orLit (o : Base) (lit : W64)
  | orX (o : Ext)
  | xorI (o : Base)
  | xorLit (o : Base) (lit : W64)
  | xorX (o : Ext)
  | shl (o : Base)
  | shlLit (o : Base) (lit : W64)
  | shlX (o : Ext)
  | shr (o : Base)
  | shrLit (o : Base) (lit : W64)
  | shrX (o : Ext)
  | sar (o : Base)
  | sarLit (o : Base) (lit : W64)
  | sarX (o : Ext)
  | imin (o : Base)
  | iminLit (o : Base) (lit : W64)
  | iminX (o : Ext)
  | imax (o : Base)
  | imaxLit (o : Base) (lit : W64)
  | imaxX (o : Ext)
  | mov (o : Base)
  | movLit (o : Base) (lit : W64)
  | movX (o : Ext)
  | sel (o : Base)
  | selLit (o : Base) (lit : W64)
  | selX (o : Ext)
  | fadd (o : Base)
  | faddLit (o : Base) (lit : W64)
  | faddX (o : Ext)
  | fsub (o : Base)
  | fsubLit (o : Base) (lit : W64)
  | fsubX (o : Ext)
  | fmul (o : Base)
  | fmulLit (o : Base) (lit : W64)
  | fmulX (o : Ext)
  | ffma (o : Base)
  | ffmaLit (o : Base) (lit : W64)
  | ffmaX (o : Ext)
  | fmin (o : Base)
  | fminLit (o : Base) (lit : W64)
  | fminX (o : Ext)
  | fmax (o : Base)
  | fmaxLit (o : Base) (lit : W64)
  | fmaxX (o : Ext)
  | ldw (o : Base)
  | ldwLit (o : Base) (lit : W64)
  | stw (o : Base)
  | stwLit (o : Base) (lit : W64)
  | ill (len : BitVec 2) (rest : BitVec 24)
  | imulh (o : Ext)
  | imad (o : Ext)
  | idiv (o : Ext)
  | irem (o : Ext)
  | iabs (o : Ext)
  | ineg (o : Ext)
  | andn (o : Ext)
  | rol (o : Ext)
  | popc (o : Ext)
  | clz (o : Ext)
  | brev (o : Ext)
  | bfe (o : Ext)
  | bfi (o : Ext)
  | icmp (o : Ext)
  | fcmp (o : Ext)
  | fclass (o : Ext)
  | fround (o : Ext)
  | ffract (o : Ext)
  | frcp (o : Ext)
  | frsq (o : Ext)
  | fsqrt (o : Ext)
  | fdiv (o : Ext)
  | fexp2 (o : Ext)
  | flog2 (o : Ext)
  | fsin (o : Ext)
  | fcos (o : Ext)
  | hadd2 (o : Ext)
  | hmul2 (o : Ext)
  | hfma2 (o : Ext)
  | idp4 (o : Ext)
  | fdp2 (o : Ext)
  | cvt (o : Ext)
  | pack (o : Ext)
  | unpk (o : Ext)
  | bfpenc (o : Ext)
  | prev (o : Ext)
  | nextI (o : Ext)
  | scan (o : Ext)
  | segscan (o : Ext)
  | red (o : Ext)
  | vote (o : Ext)
  | rank (o : Ext)
  | compact (o : Ext)
  | topk (o : Ext)
  | pset (o : Ext)
  | psetLead (o : Ext)
  | pand (o : Ext)
  | por (o : Ext)
  | pxor (o : Ext)
  | pnot (o : Ext)
  | pmov (o : Ext)
  | bra (o : Ext)
  | brc (o : Ext)
  | jmp (o : Ext)
  | call (o : Ext)
  | callr (o : Ext)
  | ret (o : Ext)
  | exit (o : Ext)
  | yield (o : Ext)
  | nop (o : Ext)
  | bar (o : Ext)
  | barc (o : Ext)
  | spawn (o : Ext)
  | bincfg (o : Ext)
  | time (o : Ext)
  | atI (o : Ext)
  | sleep (o : Ext)
  | sys (o : Ext)
  | trap (o : Ext)
  | eret (o : Ext)
  | trapcfg (o : Ext)
  | rget (o : Ext)
  | rset (o : Ext)
  | sregr (o : Ext)
  | sregw (o : Ext)
  | ld (o : Ext)
  | lda (o : Ext)
  | pref (o : Ext)
  | st (o : Ext)
  | stl (o : Ext)
  | ldc (o : Ext)
  | stc (o : Ext)
  | amoAdd (o : Ext)
  | amoAnd (o : Ext)
  | amoOr (o : Ext)
  | amoXor (o : Ext)
  | amoMin (o : Ext)
  | amoMax (o : Ext)
  | amoSwap (o : Ext)
  | amoCas (o : Ext)
  | amocSwap (o : Ext)
  | amocCas (o : Ext)
  | fence (o : Ext)
  | tld (o : Ext)
  | tst (o : Ext)
  | refadr (o : Ext)
  | refbase (o : Ext)
  | reflen (o : Ext)
  | refperm (o : Ext)
  | reftype (o : Ext)
  | refseta (o : Ext)
  | refadd (o : Ext)
  | refnar (o : Ext)
  | refnarx (o : Ext)
  | refdrop (o : Ext)
  | refwrap (o : Ext)
  | refunwr (o : Ext)
  | refchk (o : Ext)
  | refvoid (o : Ext)
  | refdiff (o : Ext)
  | refeq (o : Ext)
  | refmint (o : Ext)
  | refmov (o : Ext)
  | cpy (o : Ext)
  | cpyc (o : Ext)
  | cpyw (o : Ext)
  | setfmt (o : Ext)
  | claim (o : Ext)
  | release (o : Ext)
  | mma (o : Ext)
  | mmz (o : Ext)
  | accrd (o : Ext)
  | accwr (o : Ext)
  | fork (o : Ext)
  | join (o : Ext)
  | hwait (o : Ext)
  | htest (o : Ext)
  | hcancel (o : Ext)
  | sth (o : Ext)
  | ldh (o : Ext)
  | launch (o : Ext)
  | longLatencyComplete (gk idx : Nat)
  | ldwReturn (gk : Nat)
  | rowFreed (core part : Nat)
  | evict (core part : Nat)
  | evictedReturn (core : Nat)
  | stopFaultDeliver (gk : Nat)
  | sweepEndTrap (gk : Nat)
  | handlerEntry (gk : Nat)
  | owedRefresh (core : Nat)
  | yieldExpiry (gk : Nat)
  | overrideEnter (gk : Nat)
  | overrideEnd (gk : Nat)
  | barrierComplete (cluster : Bool) (owner num : Nat)
  | atRelease (gk : Nat)
  | sleepExpiry (gk : Nat)
  | sysReply (gk seq : Nat) (rep : SysReplyData)
  | sysAlloc (gk seq : Nat) (bases : List (Nat × Nat)) (perms : BitVec 16)
  | sysFree (gk seq : Nat)
  | vaultWindow (gk seq : Nat)
  | attest (gk seq : Nat)
  | binTimerExpiry (core bin : Nat)
  | spawnGroupForm (core bin : Nat)
  | groupRetire (gk : Nat)
  | launchSubmit (core pa asid world : Nat)
  | launchRecordRead (lid : Nat)
  | launchDepsDone (lid : Nat)
  | launchStartTime (lid : Nat)
  | distributorConsider
  | headAgingExpiry
  | genPassDone (core : Nat) (dev : Bool)
  | l1Fill (core : Nat)
  | copyAccept (core ch : Nat)
  | copyServeBegin (core ch : Nat)
  | copyRowDeliver (core ch : Nat)
  | copyRowSkip (core ch : Nat)
  | copyStop (core ch : Nat)
  | copyCancel (core ch : Nat)
  | quarterArrive (core : Nat)
  | passWindowExpiry (core : Nat)
  | passStart (core : Nat)
  | passWriteback (core : Nat)
  | tileOpEffect (core : Nat)
  | claimGrant (core : Nat)
  | releaseDone (team : Nat)
  | programStart (core sq : Nat)
  | programEnd (core sq : Nat)
  | parkComplete (gk : Nat)
  | unitRestore (unit : Nat)
  | worldScrub (world : Nat)
  | park (core : Nat)
  | resume (core : Nat)
  | reflect (core : Nat)
  | terminate (core : Nat)
  | capload (core : Nat)
  | capstore (core : Nat)
  | pwdataRead (core : Nat)
  | pwdataWrite (core : Nat) (val : W64)
  | registerWrite (reg : Reg) (val : W64)
  | rvStart
  | revokeWalkGroups
  | revokeWalkPages
  | revokeSweepDone
  | rsStep (die : Nat) (val : BitVec 16)
  | residencyStepApply (die : Nat)
  | rsEnable (die world : Nat)
  | rsDisable (die : Nat)
  | rsClrovf (die : Nat)
  | residencyLoadDone (die : Nat)
  | bump (asid : Nat)
  | invalidateRange (asid : Nat)
  | invalidateRangeAll
  | dumpCounters (asid : Nat)
  | translationCmdDone
  | rfctlAll
  | rfctlAsid
  | rfctlRange
  | rfctlRangeAllAsids
  | rfctlIcache (kind : BitVec 2)
  | rfRequestDone
  | leaseOffer (idx : Nat)
  | leaseGrant (idx : Nat)
  | leaseWithdraw (idx : Nat)
  | lenderRenew (idx : Nat)
  | leaseRecall (idx : Nat)
  | leaseClear (idx : Nat)
  | slotClaim (idx : Nat)
  | borrowerRenew (idx : Nat)
  | leaseReturn (idx : Nat)
  | slotRelease (idx : Nat)
  | leaseCancel (idx : Nat)
  | addCapacity (lenderSide : Bool) (msg : AddCapMsg)
  | grantRefused (idx : Nat)
  | forcedRelease (idx : Nat)
  | lenderExpiry (idx : Nat)
  | slotExpiry (idx : Nat)
  | leaseFlushDone (idx : Nat)
  | returnArrive (idx : Nat)
  | lenderLost (idx : Nat)
  | slotLost (idx : Nat)
  | backInvalidate (slot off : Nat)
  | forwardedAccess (req : FwdReq)
  | inboundWrite (port : Nat) (va : W64) (data : List Byte)
  | ksCreate (world : Nat) (prot : Bool)
  | ksMeasure (world : Nat)
  | ksFinal (world : Nat)
  | ksDestroy (world : Nat)
  | beacon
  | beaconReceived (serial : W64) (role : FabricRole) (cand : Bool)
  | managerTimeout
  | managerStepDown (serial : W64)
  | syncGained (time : W64)
  | syncLost
  | linkUp (port : Nat) (role : PortRole) (width : BitVec 4) (tags : Bool)
  | linkDown (port : Nat)
  | upstreamHotReset (port : Nat)
  | sequenceWarning (port : Nat)
  | debugD0 (world : Nat)
  | debugD1
  | debugD2
  | debugD3
  | coldBoot
  | coreClose (core : Nat)
  | coreReopen (core : Nat)
  | clockStepDown
  | thermalShutdown
  | firmwareUpdate (image : W64)
  | contextSwitch (unit : Nat)
  | supervisorFence (core : Nat)
  | evtail (ring : RingName) (val : W64)
  | uncorrectableSoftError (unit : ErrUnit)
  | clockStepUp
  | powerGate (core : Nat) (retained : Bool)
  | wakeWithZeroing (core : Nat)
  | pbrIdentifierAssign (pbr : BitVec 12)
  | inboundRead (port : Nat) (va : W64) (len : Nat)
  deriving DecidableEq, Repr

end Sys2Proof
end

