-- ==== Sys2Proof/Machine/Legal.lean ====
section
/-! DEFINITION. The operand maps of R126 to R131 and the legality of an instruction's fields (R134): whatever this
file refuses is an ILLEGAL_INSTRUCTION when it would execute (R135). -/

namespace Sys2Proof.Machine

/-- Roles of a register field (R125): `cas` is the compare and new value of AMO .cas, `v8` the operand block of CPY. -/
inductive Role where
  | v | vs | v4 | v8 | g | c | c2 | p | h | n (lim : Nat) | cas | no
  deriving DecidableEq, Repr

/-- When a field of role v names a 64-bit pair: never, when TYPE is 64 bits wide, when the source type of CVT is,
when the special register is wider than 32 bits, or always. -/
inductive Wide where
  | no | ty | src | sreg | always
  deriving DecidableEq, Repr

/-- Modifier acceptance (R118); `off` marks the branch group, whose modifiers are OFF (R110). -/
inductive ModKind where
  | a | p | no | off
  deriving DecidableEq, Repr

/-- The TYPE codes an instruction accepts, by family. -/
inductive TyKind where
  | zero | int | fp | fpSmall | half | mov | dot | cvt | pack | bfp | exch | topk | memt | amo | amof
  deriving DecidableEq, Repr

/-- The values of IMM8 an instruction accepts. -/
inductive ImmKind where
  | zero | any | lt (n : Nat) | cvt | unpk | scan | red | qLd | qLda | qStl | qTile
  deriving DecidableEq, Repr

/-- Whether the instruction rounds, so that RND = 111 is illegal (R62). -/
inductive RndKind where
  | yes | no | cvt | scan
  deriving DecidableEq, Repr

/-- One row of the maps R126 to R131. -/
structure Form where
  maj : Nat
  fn : Nat
  d : Role
  a : Role
  b : Role
  c : Role
  wd : Wide
  wa : Wide
  wb : Wide
  wc : Wide
  m : ModKind
  uOk : Bool
  ll : Bool
  eng : Bool
  litOk : Bool
  ty : TyKind
  imm : ImmKind
  rnd : RndKind
  deriving DecidableEq, Repr

/-- Width in bits of a scalar TYPE code (R49); 0 for a code that names no scalar type. -/
def tyWidth (t : BitVec 6) : Nat :=
  match t.toNat with
  | 0x00 => 8 | 0x01 => 16 | 0x02 => 32 | 0x03 => 64 | 0x04 => 8 | 0x05 => 16 | 0x06 => 32 | 0x07 => 64
  | 0x08 => 4 | 0x09 => 4
  | 0x10 => 64 | 0x11 => 32 | 0x12 => 16 | 0x13 => 16 | 0x14 => 8 | 0x15 => 8 | 0x16 => 6 | 0x17 => 6 | 0x18 => 4
  | 0x19 => 8
  | _ => 0

/-- Signed integer TYPE codes (R49). -/
def tySigned (t : BitVec 6) : Bool := [4, 5, 6, 7, 9].contains t.toNat

/-- Floating TYPE codes, without the block scale .e8m0 (R49). -/
def tyFloat (t : BitVec 6) : Bool := decide (0x10 ≤ t.toNat ∧ t.toNat ≤ 0x18)

/-- Integer TYPE codes (R49). -/
def tyInt (t : BitVec 6) : Bool := decide (t.toNat ≤ 9)

/-- A conversion between two floating types that the destination holds exactly for every value (R71, first row). -/
def widensExactly (src dst : BitVec 6) : Bool :=
  let s := src.toNat
  let d := dst.toNat
  s == d || d == 0x10 || (d == 0x11 && 0x12 ≤ s) || (d == 0x12 && 0x14 ≤ s) || (d == 0x13 && 0x14 ≤ s) ||
    (d == 0x14 && 0x16 ≤ s) || (d == 0x15 && (s == 0x16 || s == 0x18)) || (d == 0x16 && s == 0x18) ||
    (d == 0x17 && s == 0x18)

/-- Does CVT round on this pair of types (R160)? -/
def cvtRounds (src dst : BitVec 6) : Bool :=
  if tyInt src then tyFloat dst
  else if tyFloat src then tyInt dst || (tyFloat dst && !widensExactly src dst)
  else src == 0x19 && (dst == 0x12 || decide (0x14 ≤ dst.toNat ∧ dst.toNat ≤ 0x18))

/-- The pairs of types CVT accepts (R160). -/
def cvtPairOk (src dst : BitVec 6) : Bool :=
  (tyInt src || tyFloat src || src == 0x19) && (tyInt dst || tyFloat dst || dst == 0x19) &&
    !(src == 0x19 && tyInt dst) && !(tyInt src && dst == 0x19)

def tyOk (k : TyKind) (t : BitVec 6) (imm : BitVec 8) : Bool :=
  let n := t.toNat
  match k with
  | .zero => n == 0
  | .int => decide (n ≤ 7)
  | .fp => decide (0x10 ≤ n ∧ n ≤ 0x13)
  | .fpSmall => decide (0x11 ≤ n ∧ n ≤ 0x13)
  | .half => decide (0x12 ≤ n ∧ n ≤ 0x13)
  | .mov => decide (n ≤ 7) || decide (0x10 ≤ n ∧ n ≤ 0x19)
  | .dot => [0, 4, 8, 9].contains n
  | .cvt => cvtPairOk (imm.extractLsb' 0 6) t
  | .pack => [0, 1, 4, 5, 8, 9].contains n || decide (0x12 ≤ n ∧ n ≤ 0x19)
  | .bfp => decide (0x20 ≤ n ∧ n ≤ 0x22)
  | .exch => decide (n ≤ 7) || decide (0x10 ≤ n ∧ n ≤ 0x13)
  | .topk => decide (n ≤ 2) || decide (4 ≤ n ∧ n ≤ 6) || decide (0x11 ≤ n ∧ n ≤ 0x13)
  | .memt => decide (n ≤ 7) || decide (0x10 ≤ n ∧ n ≤ 0x15) || n == 0x19
  | .amo => [2, 3, 6, 7].contains n
  | .amof => [2, 3, 6, 7, 0x11].contains n

/-- The fields of the memory qualifier byte (R132). -/
def qScope (q : BitVec 8) : Nat := (q.extractLsb' 0 3).toNat
def qCache (q : BitVec 8) : Nat := (q.extractLsb' 3 2).toNat
def qRem (q : BitVec 8) : Bool := q.getLsbD 5
def qAon (q : BitVec 8) : Bool := q.getLsbD 6

/-- IMM8 where the map or the description limits it (R126, R134); the qualifier byte by R203. -/
def immOk (k : ImmKind) (t : BitVec 6) (q : BitVec 8) : Bool :=
  match k with
  | .zero => q == 0
  | .any => true
  | .lt n => decide (q.toNat < n)
  | .cvt => decide (q.toNat < 64)
  | .unpk => decide (q.toNat < 32 / tyWidth t)
  | .scan => decide (q.toNat < 32 ∧ q.toNat % 16 ≤ 5) && !(decide (3 ≤ q.toNat % 16) && tyFloat t)
  | .red => decide (q.toNat ≤ 5) && !(decide (3 ≤ q.toNat) && tyFloat t)
  | .qLd => decide (qScope q = 0 ∧ qCache q ≤ 2) && !qRem q && !qAon q && !q.getLsbD 7
  | .qLda => decide (qScope q ≤ 4 ∧ qCache q = 0) && (!qRem q || decide (1 ≤ qScope q)) && !qAon q && !q.getLsbD 7
  | .qStl => decide (qScope q ≤ 4 ∧ qCache q = 0) && !qRem q && !qAon q && !q.getLsbD 7
  | .qTile => !qRem q && !q.getLsbD 7 &&
      (if qAon q then decide (1 ≤ qScope q ∧ qScope q ≤ 4 ∧ qCache q ≤ 1) else decide (qScope q = 0 ∧ qCache q ≤ 2))

def rounds (k : RndKind) (t : BitVec 6) (q : BitVec 8) : Bool :=
  match k with
  | .yes => true
  | .no => false
  | .cvt => cvtRounds (q.extractLsb' 0 6) t
  | .scan => tyFloat t && decide (q.toNat % 16 = 0)

/-- Special registers wider than 32 bits (R37). -/
def sregWide (n : Nat) : Bool := [7, 10, 11, 12, 13, 15, 16].contains n

def isWide (w : Wide) (t : BitVec 6) (q : BitVec 8) : Bool :=
  match w with
  | .no => false
  | .ty => tyWidth t == 64
  | .src => tyWidth (q.extractLsb' 0 6) == 64
  | .sreg => sregWide q.toNat
  | .always => true

/-- Plain bit [2]: the source reads the group register of the same number (R29, R116). -/
def modG (m : BitVec 12) : Bool := decide (m.extractLsb' 10 2 = 0) && m.getLsbD 2
def modClass (m : BitVec 12) : Nat := (m.extractLsb' 10 2).toNat
def modSeg (m : BitVec 12) : Nat := 2 ^ ((m.extractLsb' 7 3).toNat + 1)
def modDist (m : BitVec 12) : Nat := (m.extractLsb' 0 7).toNat

/-- A register field within its role's context (R30, R125) and, for a 64-bit value under U = 0, even (R28). -/
def roleOk (r : Role) (u wide gbit : Bool) (x : BitVec 7) : Bool :=
  let n := x.toNat
  match r with
  | .v => if u then decide (n < 64) else if gbit then decide (n < 64) else !wide || decide (n % 2 = 0)
  | .vs => if u then decide (n < 64) else !wide || decide (n % 2 = 0)
  | .v4 => decide (n % 4 = 0) && (!u || decide (n < 64))
  | .v8 => decide (n % 8 = 0) && (!u || decide (n < 64))
  | .g => decide (n < 64)
  | .c => decide (n < 48)
  | .c2 => decide (n < 48 ∧ n % 2 = 0)
  | .p => decide (n < 8)
  | .h => decide (n < 16)
  | .n lim => decide (n < lim)
  | .cas => decide (n % (if wide then 4 else 2) = 0)
  | .no => n == 0

/-- A last-read bit stands only on a row source under U = 0, or on the handle field of STH (R114). -/
def lastOk (r : Role) (u gbit isC bit : Bool) : Bool :=
  !bit || ((r == .v || r == .cas || r == .v8) && !u && !gbit) || (isC && r == .h)

/-- A source modifier within R116 to R118. -/
def modOk (k : ModKind) (r : Role) (u : Bool) (m : BitVec 12) : Bool :=
  match k with
  | .off => true
  | .no => m == 0
  | _ =>
    if r != .v then m == 0
    else if modClass m = 0 then
      decide (m.extractLsb' 3 7 = 0) && (k == .a || (!m.getLsbD 0 && !m.getLsbD 1)) && !(u && m.getLsbD 2)
    else !u && decide (modDist m < modSeg m)

/-- The capability fields of the memory and capability chapter (R200, R220, R194). -/
def capFieldsOk (f : Form) (e : Ext) : Bool :=
  let isC := fun (r : Role) => r == .c || r == .c2
  let uni := fun (x : BitVec 7) => decide (32 ≤ x.toNat)
  let chap := f.maj == 0x16 || f.maj == 0x17 || (decide (0x2A ≤ f.maj) && decide (f.maj ≤ 0x30))
  (!(chap && e.u) || ((!isC f.d || uni e.d) && (!isC f.a || uni e.a) && (!isC f.b || uni e.b) && (!isC f.c || uni e.c))) &&
  (!(chap && !e.u && isC f.d && !(f.maj == 0x2C && f.fn == 2)) || !uni e.d) &&
  (!(f.maj == 0x2F || (f.maj == 0x29 && f.fn == 4)) || uni e.a)

/-- OFF is zero on a branch member that takes none (R110). -/
def offOk (f : Form) (e : Ext) : Bool :=
  !(f.maj == 0x27 && f.m == .no) || (e.modA == 0 && e.modB == 0)

/-- BAR, BARC, AT and SLEEP are unpredicated (R184, R191). -/
def prOk (f : Form) (e : Ext) : Bool :=
  !(e.u || (f.maj == 0x28 && (f.fn == 1 || f.fn == 2 || f.fn == 6 || f.fn == 7))) || (e.pr == 7 && !e.pn)

/-- The literal takes the place of B, which must be of role v or g; B, LB and MODB are then zero (R111). -/
def litOk (f : Form) (e : Ext) : Bool :=
  e.lit.isNone || (f.litOk && (f.b == .v || f.b == .g) && e.b == 0 && !e.lb && (e.modB == 0))

/-- Every static condition on the fields of an instruction of form `f` (R134). -/
def legalExt (f : Form) (e : Ext) : Bool :=
  let gA := modG e.modA && (f.m == .a || f.m == .p)
  let gB := modG e.modB && (f.m == .a || f.m == .p)
  (f.uOk || !e.u) && tyOk f.ty e.ty e.imm && immOk f.imm e.ty e.imm && !(rounds f.rnd e.ty e.imm && e.rnd == 7) &&
  roleOk f.d e.u (isWide f.wd e.ty e.imm) false e.d &&
  roleOk f.a e.u (isWide f.wa e.ty e.imm) gA e.a &&
  (e.lit.isSome || roleOk f.b e.u (isWide f.wb e.ty e.imm) gB e.b) &&
  roleOk f.c e.u (isWide f.wc e.ty e.imm) false e.c &&
  lastOk f.a e.u gA false e.la && lastOk f.b e.u gB false e.lb && lastOk f.c e.u false true e.lc &&
  modOk f.m f.a e.u e.modA && modOk f.m (if e.lit.isSome then .no else f.b) e.u e.modB &&
  capFieldsOk f e && offOk f e && prOk f e && litOk f e

/-- A base form as an extended one: unpredicated, nearest even, not saturating, TYPE as R126 gives it. The base forms
of FFMA and SEL read D and p0 (R126). -/
def Ext.ofBase (o : Base) (lit : Option W64) (ty : BitVec 6) (c : BitVec 7) : Ext :=
  { u := o.u, d := o.d, a := o.a, b := o.b, la := o.la, lb := o.lb, c := c, lc := false, pr := 7, pn := false, hold := 0,
    ty := ty, rnd := 0, sat := false, modA := 0, modB := 0, imm := 0, lit := lit }

/-- The form of each encoded instruction, with its operands in extended form; none for the header, ILL and the steps
that no word encodes. -/
def formOf : Instr → Option (Form × Ext)
  | .iadd o => some (⟨0x1, 0, .v, .v, .v, .no, .no, .no, .no, .no, .no, true, false, true, true, .int, .zero, .no⟩, Ext.ofBase o none 0x06 0)
  | .iaddLit o l => some (⟨0x1, 0, .v, .v, .v, .no, .no, .no, .no, .no, .no, true, false, true, true, .int, .zero, .no⟩, Ext.ofBase o (some l) 0x06 0)
  | .iaddX o => some (⟨0x20, 0x1, .v, .v, .v, .no, .ty, .ty, .ty, .no, .a, true, false, true, true, .int, .zero, .no⟩, o)
  | .isub o => some (⟨0x2, 0, .v, .v, .v, .no, .no, .no, .no, .no, .no, true, false, true, true, .int, .zero, .no⟩, Ext.ofBase o none 0x06 0)
  | .isubLit o l => some (⟨0x2, 0, .v, .v, .v, .no, .no, .no, .no, .no, .no, true, false, true, true, .int, .zero, .no⟩, Ext.ofBase o (some l) 0x06 0)
  | .isubX o => some (⟨0x20, 0x2, .v, .v, .v, .no, .ty, .ty, .ty, .no, .a, true, false, true, true, .int, .zero, .no⟩, o)
  | .imul o => some (⟨0x3, 0, .v, .v, .v, .no, .no, .no, .no, .no, .no, true, false, true, true, .int, .zero, .no⟩, Ext.ofBase o none 0x06 0)
  | .imulLit o l => some (⟨0x3, 0, .v, .v, .v, .no, .no, .no, .no, .no, .no, true, false, true, true, .int, .zero, .no⟩, Ext.ofBase o (some l) 0x06 0)
  | .imulX o => some (⟨0x20, 0x3, .v, .v, .v, .no, .ty, .ty, .ty, .no, .a, true, false, true, true, .int, .zero, .no⟩, o)
  | .andI o => some (⟨0x4, 0, .v, .v, .v, .no, .no, .no, .no, .no, .no, true, false, true, true, .int, .zero, .no⟩, Ext.ofBase o none 0x06 0)
  | .andLit o l => some (⟨0x4, 0, .v, .v, .v, .no, .no, .no, .no, .no, .no, true, false, true, true, .int, .zero, .no⟩, Ext.ofBase o (some l) 0x06 0)
  | .andX o => some (⟨0x20, 0x4, .v, .v, .v, .no, .ty, .ty, .ty, .no, .p, true, false, true, true, .int, .zero, .no⟩, o)
  | .orI o => some (⟨0x5, 0, .v, .v, .v, .no, .no, .no, .no, .no, .no, true, false, true, true, .int, .zero, .no⟩, Ext.ofBase o none 0x06 0)
  | .orLit o l => some (⟨0x5, 0, .v, .v, .v, .no, .no, .no, .no, .no, .no, true, false, true, true, .int, .zero, .no⟩, Ext.ofBase o (some l) 0x06 0)
  | .orX o => some (⟨0x20, 0x5, .v, .v, .v, .no, .ty, .ty, .ty, .no, .p, true, false, true, true, .int, .zero, .no⟩, o)
  | .xorI o => some (⟨0x6, 0, .v, .v, .v, .no, .no, .no, .no, .no, .no, true, false, true, true, .int, .zero, .no⟩, Ext.ofBase o none 0x06 0)
  | .xorLit o l => some (⟨0x6, 0, .v, .v, .v, .no, .no, .no, .no, .no, .no, true, false, true, true, .int, .zero, .no⟩, Ext.ofBase o (some l) 0x06 0)
  | .xorX o => some (⟨0x20, 0x6, .v, .v, .v, .no, .ty, .ty, .ty, .no, .p, true, false, true, true, .int, .zero, .no⟩, o)
  | .shl o => some (⟨0x7, 0, .v, .v, .v, .no, .no, .no, .no, .no, .no, true, false, true, true, .int, .zero, .no⟩, Ext.ofBase o none 0x06 0)
  | .shlLit o l => some (⟨0x7, 0, .v, .v, .v, .no, .no, .no, .no, .no, .no, true, false, true, true, .int, .zero, .no⟩, Ext.ofBase o (some l) 0x06 0)
  | .shlX o => some (⟨0x20, 0x7, .v, .v, .v, .no, .ty, .ty, .no, .no, .p, true, false, true, true, .int, .zero, .no⟩, o)
  | .shr o => some (⟨0x8, 0, .v, .v, .v, .no, .no, .no, .no, .no, .no, true, false, true, true, .int, .zero, .no⟩, Ext.ofBase o none 0x06 0)
  | .shrLit o l => some (⟨0x8, 0, .v, .v, .v, .no, .no, .no, .no, .no, .no, true, false, true, true, .int, .zero, .no⟩, Ext.ofBase o (some l) 0x06 0)
  | .shrX o => some (⟨0x20, 0x8, .v, .v, .v, .no, .ty, .ty, .no, .no, .p, true, false, true, true, .int, .zero, .no⟩, o)
  | .sar o => some (⟨0x9, 0, .v, .v, .v, .no, .no, .no, .no, .no, .no, true, false, true, true, .int, .zero, .no⟩, Ext.ofBase o none 0x06 0)
  | .sarLit o l => some (⟨0x9, 0, .v, .v, .v, .no, .no, .no, .no, .no, .no, true, false, true, true, .int, .zero, .no⟩, Ext.ofBase o (some l) 0x06 0)
  | .sarX o => some (⟨0x20, 0x9, .v, .v, .v, .no, .ty, .ty, .no, .no, .p, true, false, true, true, .int, .zero, .no⟩, o)
  | .imin o => some (⟨0xa, 0, .v, .v, .v, .no, .no, .no, .no, .no, .no, true, false, true, true, .int, .zero, .no⟩, Ext.ofBase o none 0x06 0)
  | .iminLit o l => some (⟨0xa, 0, .v, .v, .v, .no, .no, .no, .no, .no, .no, true, false, true, true, .int, .zero, .no⟩, Ext.ofBase o (some l) 0x06 0)
  | .iminX o => some (⟨0x20, 0xa, .v, .v, .v, .no, .ty, .ty, .ty, .no, .a, true, false, true, true, .int, .zero, .no⟩, o)
  | .imax o => some (⟨0xb, 0, .v, .v, .v, .no, .no, .no, .no, .no, .no, true, false, true, true, .int, .zero, .no⟩, Ext.ofBase o none 0x06 0)
  | .imaxLit o l => some (⟨0xb, 0, .v, .v, .v, .no, .no, .no, .no, .no, .no, true, false, true, true, .int, .zero, .no⟩, Ext.ofBase o (some l) 0x06 0)
  | .imaxX o => some (⟨0x20, 0xb, .v, .v, .v, .no, .ty, .ty, .ty, .no, .a, true, false, true, true, .int, .zero, .no⟩, o)
  | .mov o => some (⟨0xc, 0, .v, .no, .v, .no, .no, .no, .no, .no, .no, true, false, true, true, .mov, .zero, .no⟩, Ext.ofBase o none 0x06 0)
  | .movLit o l => some (⟨0xc, 0, .v, .no, .v, .no, .no, .no, .no, .no, .no, true, false, true, true, .mov, .zero, .no⟩, Ext.ofBase o (some l) 0x06 0)
  | .movX o => some (⟨0x20, 0xc, .v, .no, .v, .no, .ty, .no, .ty, .no, .p, true, false, true, true, .mov, .zero, .no⟩, o)
  | .sel o => some (⟨0xd, 0, .v, .v, .v, .p, .no, .no, .no, .no, .no, false, false, false, true, .mov, .zero, .no⟩, Ext.ofBase o none 0x06 0)
  | .selLit o l => some (⟨0xd, 0, .v, .v, .v, .p, .no, .no, .no, .no, .no, false, false, false, true, .mov, .zero, .no⟩, Ext.ofBase o (some l) 0x06 0)
  | .selX o => some (⟨0x20, 0xd, .v, .v, .v, .p, .ty, .ty, .ty, .no, .p, false, false, false, true, .mov, .zero, .no⟩, o)
  | .fadd o => some (⟨0xf, 0, .v, .v, .v, .no, .no, .no, .no, .no, .no, true, false, true, true, .fp, .zero, .no⟩, Ext.ofBase o none 0x11 0)
  | .faddLit o l => some (⟨0xf, 0, .v, .v, .v, .no, .no, .no, .no, .no, .no, true, false, true, true, .fp, .zero, .no⟩, Ext.ofBase o (some l) 0x11 0)
  | .faddX o => some (⟨0x21, 0xf, .v, .v, .v, .no, .ty, .ty, .ty, .no, .a, true, false, false, true, .fp, .zero, .yes⟩, o)
  | .fsub o => some (⟨0x10, 0, .v, .v, .v, .no, .no, .no, .no, .no, .no, true, false, true, true, .fp, .zero, .no⟩, Ext.ofBase o none 0x11 0)
  | .fsubLit o l => some (⟨0x10, 0, .v, .v, .v, .no, .no, .no, .no, .no, .no, true, false, true, true, .fp, .zero, .no⟩, Ext.ofBase o (some l) 0x11 0)
  | .fsubX o => some (⟨0x21, 0x10, .v, .v, .v, .no, .ty, .ty, .ty, .no, .a, true, false, false, true, .fp, .zero, .yes⟩, o)
  | .fmul o => some (⟨0x11, 0, .v, .v, .v, .no, .no, .no, .no, .no, .no, true, false, true, true, .fp, .zero, .no⟩, Ext.ofBase o none 0x11 0)
  | .fmulLit o l => some (⟨0x11, 0, .v, .v, .v, .no, .no, .no, .no, .no, .no, true, false, true, true, .fp, .zero, .no⟩, Ext.ofBase o (some l) 0x11 0)
  | .fmulX o => some (⟨0x21, 0x11, .v, .v, .v, .no, .ty, .ty, .ty, .no, .a, true, false, false, true, .fp, .zero, .yes⟩, o)
  | .ffma o => some (⟨0x12, 0, .v, .v, .v, .v, .no, .no, .no, .no, .no, true, false, true, true, .fp, .zero, .no⟩, Ext.ofBase o none 0x11 o.d)
  | .ffmaLit o l => some (⟨0x12, 0, .v, .v, .v, .v, .no, .no, .no, .no, .no, true, false, true, true, .fp, .zero, .no⟩, Ext.ofBase o (some l) 0x11 o.d)
  | .ffmaX o => some (⟨0x21, 0x12, .v, .v, .v, .v, .ty, .ty, .ty, .ty, .a, true, false, false, true, .fp, .zero, .yes⟩, o)
  | .fmin o => some (⟨0x13, 0, .v, .v, .v, .no, .no, .no, .no, .no, .no, true, false, true, true, .fp, .zero, .no⟩, Ext.ofBase o none 0x11 0)
  | .fminLit o l => some (⟨0x13, 0, .v, .v, .v, .no, .no, .no, .no, .no, .no, true, false, true, true, .fp, .zero, .no⟩, Ext.ofBase o (some l) 0x11 0)
  | .fminX o => some (⟨0x21, 0x13, .v, .v, .v, .no, .ty, .ty, .ty, .no, .a, true, false, false, true, .fp, .zero, .no⟩, o)
  | .fmax o => some (⟨0x14, 0, .v, .v, .v, .no, .no, .no, .no, .no, .no, true, false, true, true, .fp, .zero, .no⟩, Ext.ofBase o none 0x11 0)
  | .fmaxLit o l => some (⟨0x14, 0, .v, .v, .v, .no, .no, .no, .no, .no, .no, true, false, true, true, .fp, .zero, .no⟩, Ext.ofBase o (some l) 0x11 0)
  | .fmaxX o => some (⟨0x21, 0x14, .v, .v, .v, .no, .ty, .ty, .ty, .no, .a, true, false, false, true, .fp, .zero, .no⟩, o)
  | .ldw o => some (⟨0x16, 0, .v, .c, .v, .no, .no, .no, .no, .no, .no, true, false, true, true, .memt, .zero, .no⟩, Ext.ofBase o none 0x06 0)
  | .ldwLit o l => some (⟨0x16, 0, .v, .c, .v, .no, .no, .no, .no, .no, .no, true, false, true, true, .memt, .zero, .no⟩, Ext.ofBase o (some l) 0x06 0)
  | .stw o => some (⟨0x17, 0, .vs, .c, .v, .no, .no, .no, .no, .no, .no, true, false, true, true, .memt, .zero, .no⟩, Ext.ofBase o none 0x06 0)
  | .stwLit o l => some (⟨0x17, 0, .vs, .c, .v, .no, .no, .no, .no, .no, .no, true, false, true, true, .memt, .zero, .no⟩, Ext.ofBase o (some l) 0x06 0)
  | .imulh o => some (⟨0x20, 0x10, .v, .v, .v, .no, .ty, .ty, .ty, .no, .a, true, false, true, true, .int, .zero, .no⟩, o)
  | .imad o => some (⟨0x20, 0x11, .v, .v, .v, .v, .ty, .ty, .ty, .ty, .a, true, false, true, true, .int, .zero, .no⟩, o)
  | .idiv o => some (⟨0x20, 0x12, .v, .v, .v, .no, .ty, .ty, .ty, .no, .a, true, false, true, true, .int, .zero, .no⟩, o)
  | .irem o => some (⟨0x20, 0x13, .v, .v, .v, .no, .ty, .ty, .ty, .no, .a, true, false, true, true, .int, .zero, .no⟩, o)
  | .iabs o => some (⟨0x20, 0x14, .v, .v, .no, .no, .ty, .ty, .no, .no, .p, true, false, true, true, .int, .zero, .no⟩, o)
  | .ineg o => some (⟨0x20, 0x15, .v, .v, .no, .no, .ty, .ty, .no, .no, .p, true, false, true, true, .int, .zero, .no⟩, o)
  | .andn o => some (⟨0x20, 0x16, .v, .v, .v, .no, .ty, .ty, .ty, .no, .p, true, false, true, true, .int, .zero, .no⟩, o)
  | .rol o => some (⟨0x20, 0x17, .v, .v, .v, .no, .ty, .ty, .no, .no, .p, true, false, true, true, .int, .zero, .no⟩, o)
  | .popc o => some (⟨0x20, 0x18, .v, .v, .no, .no, .no, .ty, .no, .no, .p, true, false, true, true, .int, .zero, .no⟩, o)
  | .clz o => some (⟨0x20, 0x19, .v, .v, .no, .no, .no, .ty, .no, .no, .p, true, false, true, true, .int, .zero, .no⟩, o)
  | .brev o => some (⟨0x20, 0x1a, .v, .v, .no, .no, .ty, .ty, .no, .no, .p, true, false, true, true, .int, .zero, .no⟩, o)
  | .bfe o => some (⟨0x20, 0x1b, .v, .v, .v, .no, .ty, .ty, .no, .no, .p, true, false, true, true, .int, .zero, .no⟩, o)
  | .bfi o => some (⟨0x20, 0x1c, .v, .v, .v, .v, .ty, .ty, .no, .ty, .p, true, false, true, true, .int, .zero, .no⟩, o)
  | .icmp o => some (⟨0x20, 0x1d, .p, .v, .v, .no, .no, .ty, .ty, .no, .a, false, false, false, true, .int, (.lt 6), .no⟩, o)
  | .fcmp o => some (⟨0x21, 0x20, .p, .v, .v, .no, .no, .ty, .ty, .no, .a, false, false, false, true, .fp, (.lt 16), .no⟩, o)
  | .fclass o => some (⟨0x21, 0x21, .v, .v, .no, .no, .no, .ty, .no, .no, .p, true, false, false, true, .fp, .zero, .no⟩, o)
  | .fround o => some (⟨0x21, 0x22, .v, .v, .no, .no, .ty, .ty, .no, .no, .a, true, false, false, true, .fp, .zero, .yes⟩, o)
  | .ffract o => some (⟨0x21, 0x23, .v, .v, .no, .no, .ty, .ty, .no, .no, .a, true, false, false, true, .fp, .zero, .no⟩, o)
  | .frcp o => some (⟨0x22, 0x1, .v, .v, .no, .no, .ty, .ty, .no, .no, .a, true, true, false, true, .fp, .zero, .yes⟩, o)
  | .frsq o => some (⟨0x22, 0x2, .v, .v, .no, .no, .ty, .ty, .no, .no, .a, true, true, false, true, .fp, .zero, .yes⟩, o)
  | .fsqrt o => some (⟨0x22, 0x3, .v, .v, .no, .no, .ty, .ty, .no, .no, .a, true, true, false, true, .fp, .zero, .yes⟩, o)
  | .fdiv o => some (⟨0x22, 0x4, .v, .v, .v, .no, .ty, .ty, .ty, .no, .a, true, true, false, true, .fp, .zero, .yes⟩, o)
  | .fexp2 o => some (⟨0x22, 0x5, .v, .v, .no, .no, .ty, .ty, .no, .no, .a, true, true, false, true, .fpSmall, .zero, .yes⟩, o)
  | .flog2 o => some (⟨0x22, 0x6, .v, .v, .no, .no, .ty, .ty, .no, .no, .a, true, true, false, true, .fpSmall, .zero, .yes⟩, o)
  | .fsin o => some (⟨0x22, 0x7, .v, .v, .no, .no, .ty, .ty, .no, .no, .a, true, true, false, true, .fpSmall, .zero, .yes⟩, o)
  | .fcos o => some (⟨0x22, 0x8, .v, .v, .no, .no, .ty, .ty, .no, .no, .a, true, true, false, true, .fpSmall, .zero, .yes⟩, o)
  | .hadd2 o => some (⟨0x23, 0x1, .v, .v, .v, .no, .no, .no, .no, .no, .p, true, false, false, true, .half, .zero, .yes⟩, o)
  | .hmul2 o => some (⟨0x23, 0x2, .v, .v, .v, .no, .no, .no, .no, .no, .p, true, false, false, true, .half, .zero, .yes⟩, o)
  | .hfma2 o => some (⟨0x23, 0x3, .v, .v, .v, .v, .no, .no, .no, .no, .p, true, false, false, true, .half, .zero, .yes⟩, o)
  | .idp4 o => some (⟨0x23, 0x4, .v, .v, .v, .v, .no, .no, .no, .no, .p, true, false, false, true, .dot, .zero, .no⟩, o)
  | .fdp2 o => some (⟨0x23, 0x5, .v, .v, .v, .v, .no, .no, .no, .no, .p, true, false, false, true, .half, .zero, .yes⟩, o)
  | .cvt o => some (⟨0x24, 0x1, .v, .v, .no, .no, .ty, .src, .no, .no, .p, true, false, false, true, .cvt, .cvt, .cvt⟩, o)
  | .pack o => some (⟨0x24, 0x2, .v, .v, .v, .no, .no, .no, .no, .no, .p, true, false, false, true, .pack, .zero, .no⟩, o)
  | .unpk o => some (⟨0x24, 0x3, .v, .v, .no, .no, .no, .no, .no, .no, .p, true, false, false, true, .pack, .unpk, .no⟩, o)
  | .bfpenc o => some (⟨0x24, 0x4, .v, .v, .no, .no, .no, .no, .no, .no, .p, false, true, false, true, .bfp, .zero, .no⟩, o)
  | .prev o => some (⟨0x25, 0x1, .v, .v, .v, .no, .ty, .ty, .ty, .no, .p, false, false, false, true, .exch, .zero, .no⟩, o)
  | .nextI o => some (⟨0x25, 0x2, .v, .v, .v, .no, .ty, .ty, .ty, .no, .p, false, true, false, true, .exch, .zero, .no⟩, o)
  | .scan o => some (⟨0x25, 0x3, .v, .v, .no, .no, .ty, .ty, .no, .no, .p, false, false, false, true, .exch, .scan, .scan⟩, o)
  | .segscan o => some (⟨0x25, 0x4, .v, .v, .no, .p, .ty, .ty, .no, .no, .p, false, false, false, true, .exch, .scan, .scan⟩, o)
  | .red o => some (⟨0x25, 0x5, .v, .v, .no, .no, .ty, .ty, .no, .no, .p, false, true, false, true, .exch, .red, .scan⟩, o)
  | .vote o => some (⟨0x25, 0x6, .v, .no, .no, .p, .no, .no, .no, .no, .no, false, true, false, true, .zero, (.lt 5), .no⟩, o)
  | .rank o => some (⟨0x25, 0x7, .v, .v, .no, .no, .ty, .ty, .no, .no, .p, false, true, false, true, .exch, .zero, .no⟩, o)
  | .compact o => some (⟨0x25, 0x8, .v, .v, .no, .p, .ty, .ty, .no, .no, .p, false, true, false, true, .exch, .zero, .no⟩, o)
  | .topk o => some (⟨0x25, 0x9, .v, .v, .v, .no, .always, .no, .no, .no, .p, false, true, false, true, .topk, .any, .no⟩, o)
  | .pset o => some (⟨0x26, 0x1, .p, .v, .no, .no, .no, .ty, .no, .no, .p, false, false, false, true, .int, .zero, .no⟩, o)
  | .psetLead o => some (⟨0x26, 0x2, .p, .no, .no, .no, .no, .no, .no, .no, .no, false, false, false, true, .zero, .zero, .no⟩, o)
  | .pand o => some (⟨0x26, 0x3, .p, .p, .p, .no, .no, .no, .no, .no, .no, false, false, false, true, .zero, .zero, .no⟩, o)
  | .por o => some (⟨0x26, 0x4, .p, .p, .p, .no, .no, .no, .no, .no, .no, false, false, false, true, .zero, .zero, .no⟩, o)
  | .pxor o => some (⟨0x26, 0x5, .p, .p, .p, .no, .no, .no, .no, .no, .no, false, false, false, true, .zero, .zero, .no⟩, o)
  | .pnot o => some (⟨0x26, 0x6, .p, .p, .no, .no, .no, .no, .no, .no, .no, false, false, false, true, .zero, .zero, .no⟩, o)
  | .pmov o => some (⟨0x26, 0x7, .p, .p, .no, .no, .no, .no, .no, .no, .no, false, false, false, true, .zero, .zero, .no⟩, o)
  | .bra o => some (⟨0x27, 0x1, .no, .no, .no, .no, .no, .no, .no, .no, .off, false, false, true, false, .zero, .zero, .no⟩, o)
  | .brc o => some (⟨0x27, 0x2, .no, .g, .no, .no, .no, .no, .no, .no, .off, false, false, true, false, .zero, .zero, .no⟩, o)
  | .jmp o => some (⟨0x27, 0x3, .no, .c, .no, .no, .no, .no, .no, .no, .no, false, false, false, false, .zero, .zero, .no⟩, o)
  | .call o => some (⟨0x27, 0x4, .no, .no, .no, .no, .no, .no, .no, .no, .off, false, false, false, false, .zero, .zero, .no⟩, o)
  | .callr o => some (⟨0x27, 0x5, .no, .c, .no, .no, .no, .no, .no, .no, .no, false, false, false, false, .zero, .zero, .no⟩, o)
  | .ret o => some (⟨0x27, 0x6, .no, .no, .no, .no, .no, .no, .no, .no, .no, false, false, false, false, .zero, .zero, .no⟩, o)
  | .exit o => some (⟨0x27, 0x7, .no, .no, .no, .no, .no, .no, .no, .no, .no, false, false, true, false, .zero, .zero, .no⟩, o)
  | .yield o => some (⟨0x27, 0x8, .no, .no, .no, .no, .no, .no, .no, .no, .no, false, false, false, false, .zero, .zero, .no⟩, o)
  | .nop o => some (⟨0x27, 0x9, .no, .no, .no, .no, .no, .no, .no, .no, .no, false, false, true, false, .zero, .zero, .no⟩, o)
  | .bar o => some (⟨0x28, 0x1, .no, .no, .no, .no, .no, .no, .no, .no, .no, false, false, false, true, .zero, (.lt 16), .no⟩, o)
  | .barc o => some (⟨0x28, 0x2, .no, .no, .no, .no, .no, .no, .no, .no, .no, false, false, false, true, .zero, (.lt 8), .no⟩, o)
  | .spawn o => some (⟨0x28, 0x3, .no, .c, .v4, .no, .no, .no, .no, .no, .no, false, false, false, true, .zero, .zero, .no⟩, o)
  | .bincfg o => some (⟨0x28, 0x4, .no, .g, .no, .no, .no, .no, .no, .no, .no, false, false, false, true, .zero, (.lt 16), .no⟩, o)
  | .time o => some (⟨0x28, 0x5, .v, .no, .no, .no, .always, .no, .no, .no, .no, true, false, true, true, .zero, .zero, .no⟩, o)
  | .atI o => some (⟨0x28, 0x6, .no, .g, .no, .no, .no, .no, .no, .no, .no, false, false, true, true, .zero, .zero, .no⟩, o)
  | .sleep o => some (⟨0x28, 0x7, .no, .g, .no, .no, .no, .no, .no, .no, .no, false, false, true, true, .zero, .zero, .no⟩, o)
  | .sys o => some (⟨0x29, 0x1, .no, .c, .v, .no, .no, .no, .no, .no, .p, false, false, false, true, .zero, .any, .no⟩, o)
  | .trap o => some (⟨0x29, 0x2, .no, .no, .no, .no, .no, .no, .no, .no, .no, false, false, false, true, .zero, .any, .no⟩, o)
  | .eret o => some (⟨0x29, 0x3, .no, .no, .no, .no, .no, .no, .no, .no, .no, false, false, false, true, .zero, .zero, .no⟩, o)
  | .trapcfg o => some (⟨0x29, 0x4, .no, .c, .no, .no, .no, .no, .no, .no, .no, false, false, false, true, .zero, .zero, .no⟩, o)
  | .rget o => some (⟨0x29, 0x5, .v, .v, .no, .no, .no, .no, .no, .no, .no, false, false, false, true, .zero, .zero, .no⟩, o)
  | .rset o => some (⟨0x29, 0x6, .no, .v, .v, .no, .no, .no, .no, .no, .no, false, false, false, true, .zero, .zero, .no⟩, o)
  | .sregr o => some (⟨0x29, 0x7, .v, .no, .no, .no, .sreg, .no, .no, .no, .no, true, false, true, true, .zero, .any, .no⟩, o)
  | .sregw o => some (⟨0x29, 0x8, .no, .v, .no, .no, .no, .sreg, .no, .no, .no, true, false, false, true, .zero, .any, .no⟩, o)
  | .ld o => some (⟨0x2a, 0x1, .v, .c, .v, .no, .ty, .no, .no, .no, .p, true, true, true, true, .memt, .qLd, .no⟩, o)
  | .lda o => some (⟨0x2a, 0x2, .v, .c, .v, .no, .ty, .no, .no, .no, .p, true, true, false, true, .memt, .qLda, .no⟩, o)
  | .pref o => some (⟨0x2a, 0x3, .no, .c, .v, .no, .no, .no, .no, .no, .p, true, false, true, true, .zero, .qLd, .no⟩, o)
  | .st o => some (⟨0x2b, 0x1, .vs, .c, .v, .no, .ty, .no, .no, .no, .p, true, false, true, true, .memt, .qLd, .no⟩, o)
  | .stl o => some (⟨0x2b, 0x2, .vs, .c, .v, .no, .ty, .no, .no, .no, .p, true, false, false, true, .memt, .qStl, .no⟩, o)
  | .ldc o => some (⟨0x2c, 0x1, .c, .c, .v, .no, .no, .no, .no, .no, .p, true, true, false, true, .zero, .qLd, .no⟩, o)
  | .stc o => some (⟨0x2c, 0x2, .c, .c, .v, .no, .no, .no, .no, .no, .p, true, false, false, true, .zero, .qLd, .no⟩, o)
  | .amoAdd o => some (⟨0x2d, 0x1, .v, .c, .v, .v, .ty, .no, .no, .ty, .p, false, true, false, true, .amof, .qLda, .no⟩, o)
  | .amoAnd o => some (⟨0x2d, 0x2, .v, .c, .v, .v, .ty, .no, .no, .ty, .p, false, true, false, true, .amo, .qLda, .no⟩, o)
  | .amoOr o => some (⟨0x2d, 0x3, .v, .c, .v, .v, .ty, .no, .no, .ty, .p, false, true, false, true, .amo, .qLda, .no⟩, o)
  | .amoXor o => some (⟨0x2d, 0x4, .v, .c, .v, .v, .ty, .no, .no, .ty, .p, false, true, false, true, .amo, .qLda, .no⟩, o)
  | .amoMin o => some (⟨0x2d, 0x5, .v, .c, .v, .v, .ty, .no, .no, .ty, .p, false, true, false, true, .amof, .qLda, .no⟩, o)
  | .amoMax o => some (⟨0x2d, 0x6, .v, .c, .v, .v, .ty, .no, .no, .ty, .p, false, true, false, true, .amof, .qLda, .no⟩, o)
  | .amoSwap o => some (⟨0x2d, 0x7, .v, .c, .v, .v, .ty, .no, .no, .ty, .p, false, true, false, true, .amo, .qLda, .no⟩, o)
  | .amoCas o => some (⟨0x2d, 0x8, .v, .c, .v, .cas, .ty, .no, .no, .ty, .p, false, true, false, true, .amo, .qLda, .no⟩, o)
  | .amocSwap o => some (⟨0x2d, 0x9, .c, .c, .v, .c, .no, .no, .no, .no, .p, false, true, false, true, .zero, .qLda, .no⟩, o)
  | .amocCas o => some (⟨0x2d, 0xa, .c, .c, .v, .c2, .no, .no, .no, .no, .p, false, true, false, true, .zero, .qLda, .no⟩, o)
  | .fence o => some (⟨0x2e, 0x1, .no, .no, .no, .no, .no, .no, .no, .no, .no, true, false, true, false, .zero, .qStl, .no⟩, o)
  | .tld o => some (⟨0x2f, 0x1, .v, .c, .v, .no, .ty, .no, .no, .no, .p, false, true, false, true, .memt, .qTile, .no⟩, o)
  | .tst o => some (⟨0x2f, 0x2, .vs, .c, .v, .no, .ty, .no, .no, .no, .p, false, false, false, true, .memt, .qTile, .no⟩, o)
  | .refadr o => some (⟨0x30, 0x1, .v, .c, .no, .no, .always, .no, .no, .no, .no, true, false, false, true, .zero, .zero, .no⟩, o)
  | .refbase o => some (⟨0x30, 0x2, .v, .c, .no, .no, .always, .no, .no, .no, .no, true, false, false, true, .zero, .zero, .no⟩, o)
  | .reflen o => some (⟨0x30, 0x3, .v, .c, .no, .no, .always, .no, .no, .no, .no, true, false, false, true, .zero, .zero, .no⟩, o)
  | .refperm o => some (⟨0x30, 0x4, .v, .c, .no, .no, .no, .no, .no, .no, .no, true, false, false, true, .zero, .zero, .no⟩, o)
  | .reftype o => some (⟨0x30, 0x5, .v, .c, .no, .no, .no, .no, .no, .no, .no, true, false, false, true, .zero, .zero, .no⟩, o)
  | .refseta o => some (⟨0x30, 0x6, .c, .c, .v, .no, .no, .no, .always, .no, .p, true, false, false, true, .zero, .zero, .no⟩, o)
  | .refadd o => some (⟨0x30, 0x7, .c, .c, .v, .no, .no, .no, .no, .no, .p, true, false, true, true, .zero, .zero, .no⟩, o)
  | .refnar o => some (⟨0x30, 0x8, .c, .c, .v, .no, .no, .no, .always, .no, .p, true, false, false, true, .zero, .zero, .no⟩, o)
  | .refnarx o => some (⟨0x30, 0x9, .c, .c, .v, .no, .no, .no, .always, .no, .p, true, false, false, true, .zero, .zero, .no⟩, o)
  | .refdrop o => some (⟨0x30, 0xa, .c, .c, .v, .no, .no, .no, .no, .no, .p, true, false, false, true, .zero, .zero, .no⟩, o)
  | .refwrap o => some (⟨0x30, 0xb, .c, .c, .c, .no, .no, .no, .no, .no, .no, true, false, false, true, .zero, .any, .no⟩, o)
  | .refunwr o => some (⟨0x30, 0xc, .c, .c, .c, .no, .no, .no, .no, .no, .no, true, false, false, true, .zero, .zero, .no⟩, o)
  | .refchk o => some (⟨0x30, 0xd, .p, .c, .no, .no, .no, .no, .no, .no, .no, false, false, false, true, .zero, .zero, .no⟩, o)
  | .refvoid o => some (⟨0x30, 0xe, .c, .c, .no, .no, .no, .no, .no, .no, .no, true, false, false, true, .zero, .zero, .no⟩, o)
  | .refdiff o => some (⟨0x30, 0xf, .v, .c, .c, .no, .always, .no, .no, .no, .no, true, false, false, true, .zero, .zero, .no⟩, o)
  | .refeq o => some (⟨0x30, 0x10, .p, .c, .c, .no, .no, .no, .no, .no, .no, false, false, false, true, .zero, .zero, .no⟩, o)
  | .refmint o => some (⟨0x30, 0x11, .c, .c, .v4, .no, .no, .no, .no, .no, .no, true, false, false, true, .zero, .zero, .no⟩, o)
  | .refmov o => some (⟨0x30, 0x12, .c, .c, .no, .no, .no, .no, .no, .no, .no, true, false, true, true, .zero, .zero, .no⟩, o)
  | .cpy o => some (⟨0x31, 0x1, .h, .c, .v8, .c, .no, .no, .no, .no, .no, true, true, true, false, .zero, (.lt 4), .no⟩, o)
  | .cpyc o => some (⟨0x31, 0x2, .h, .c, .v8, .c, .no, .no, .no, .no, .no, true, true, true, false, .zero, .any, .no⟩, o)
  | .cpyw o => some (⟨0x31, 0x3, .v, .no, .no, .no, .always, .no, .no, .no, .no, true, false, true, false, .zero, (.lt 4), .no⟩, o)
  | .setfmt o => some (⟨0x32, 0x1, .no, .v, .no, .no, .no, .no, .no, .no, .no, true, false, true, false, .zero, .zero, .no⟩, o)
  | .claim o => some (⟨0x32, 0x2, .p, .g, .no, .no, .no, .no, .no, .no, .no, false, true, false, false, .zero, .zero, .no⟩, o)
  | .release o => some (⟨0x32, 0x3, .no, .g, .no, .no, .no, .no, .no, .no, .no, false, false, false, false, .zero, .zero, .no⟩, o)
  | .mma o => some (⟨0x32, 0x4, .no, (.n 64), (.n 64), (.n 16), .no, .no, .no, .no, .no, false, true, true, false, .zero, (.lt 4), .no⟩, o)
  | .mmz o => some (⟨0x32, 0x5, .no, .no, .no, (.n 16), .no, .no, .no, .no, .no, false, true, true, false, .zero, .zero, .no⟩, o)
  | .accrd o => some (⟨0x32, 0x6, .v, .no, .no, (.n 16), .no, .no, .no, .no, .no, false, true, false, false, .zero, .any, .no⟩, o)
  | .accwr o => some (⟨0x32, 0x7, .no, .v, .no, (.n 16), .no, .no, .no, .no, .p, false, true, false, false, .zero, .any, .no⟩, o)
  | .fork o => some (⟨0x33, 0x1, .h, .c, .g, .no, .no, .no, .no, .no, .no, false, true, false, true, .zero, (.lt 4), .no⟩, o)
  | .join o => some (⟨0x33, 0x2, .no, .no, .g, .no, .no, .no, .no, .no, .no, false, false, true, true, .zero, .zero, .no⟩, o)
  | .hwait o => some (⟨0x33, 0x3, .no, .h, .no, .no, .no, .no, .no, .no, .no, false, false, true, true, .zero, .zero, .no⟩, o)
  | .htest o => some (⟨0x33, 0x4, .v, .h, .no, .no, .no, .no, .no, .no, .no, true, false, true, true, .zero, .zero, .no⟩, o)
  | .hcancel o => some (⟨0x33, 0x5, .no, .h, .no, .no, .no, .no, .no, .no, .no, false, false, true, true, .zero, .zero, .no⟩, o)
  | .sth o => some (⟨0x33, 0x6, .no, .c, .v, .h, .no, .no, .no, .no, .p, false, false, false, true, .zero, .zero, .no⟩, o)
  | .ldh o => some (⟨0x33, 0x7, .h, .c, .v, .no, .no, .no, .no, .no, .p, false, true, false, true, .zero, .zero, .no⟩, o)
  | .launch o => some (⟨0x34, 0x1, .h, .c, .no, .no, .no, .no, .no, .no, .no, false, true, false, false, .zero, .zero, .no⟩, o)
  | .clauseHeader _ _ _ _ => none
  | .ill _ _ => none
  | .longLatencyComplete _ _ => none
  | .ldwReturn _ => none
  | .rowFreed _ _ => none
  | .evict _ _ => none
  | .evictedReturn _ => none
  | .stopFaultDeliver _ => none
  | .sweepEndTrap _ => none
  | .handlerEntry _ => none
  | .owedRefresh _ => none
  | .yieldExpiry _ => none
  | .overrideEnter _ => none
  | .overrideEnd _ => none
  | .barrierComplete _ _ _ => none
  | .atRelease _ => none
  | .sleepExpiry _ => none
  | .sysReply _ _ _ => none
  | .sysAlloc _ _ _ _ => none
  | .sysFree _ _ => none
  | .vaultWindow _ _ => none
  | .attest _ _ => none
  | .binTimerExpiry _ _ => none
  | .spawnGroupForm _ _ => none
  | .groupRetire _ => none
  | .launchSubmit _ _ _ _ => none
  | .launchRecordRead _ => none
  | .launchDepsDone _ => none
  | .launchStartTime _ => none
  | .distributorConsider => none
  | .headAgingExpiry => none
  | .genPassDone _ _ => none
  | .l1Fill _ => none
  | .copyAccept _ _ => none
  | .copyServeBegin _ _ => none
  | .copyRowDeliver _ _ => none
  | .copyRowSkip _ _ => none
  | .copyStop _ _ => none
  | .copyCancel _ _ => none
  | .quarterArrive _ => none
  | .passWindowExpiry _ => none
  | .passStart _ => none
  | .passWriteback _ => none
  | .tileOpEffect _ => none
  | .claimGrant _ => none
  | .releaseDone _ => none
  | .programStart _ _ => none
  | .programEnd _ _ => none
  | .parkComplete _ => none
  | .unitRestore _ => none
  | .worldScrub _ => none
  | .park _ => none
  | .resume _ => none
  | .reflect _ => none
  | .terminate _ => none
  | .capload _ => none
  | .capstore _ => none
  | .pwdataRead _ => none
  | .pwdataWrite _ _ => none
  | .registerWrite _ _ => none
  | .rvStart => none
  | .revokeWalkGroups => none
  | .revokeWalkPages => none
  | .revokeSweepDone => none
  | .rsStep _ _ => none
  | .residencyStepApply _ => none
  | .rsEnable _ _ => none
  | .rsDisable _ => none
  | .rsClrovf _ => none
  | .residencyLoadDone _ => none
  | .bump _ => none
  | .invalidateRange _ => none
  | .invalidateRangeAll => none
  | .dumpCounters _ => none
  | .translationCmdDone => none
  | .rfctlAll => none
  | .rfctlAsid => none
  | .rfctlRange => none
  | .rfctlRangeAllAsids => none
  | .rfctlIcache _ => none
  | .rfRequestDone => none
  | .leaseOffer _ => none
  | .leaseGrant _ => none
  | .leaseWithdraw _ => none
  | .lenderRenew _ => none
  | .leaseRecall _ => none
  | .leaseClear _ => none
  | .slotClaim _ => none
  | .borrowerRenew _ => none
  | .leaseReturn _ => none
  | .slotRelease _ => none
  | .leaseCancel _ => none
  | .addCapacity _ _ => none
  | .grantRefused _ => none
  | .forcedRelease _ => none
  | .lenderExpiry _ => none
  | .slotExpiry _ => none
  | .leaseFlushDone _ => none
  | .returnArrive _ => none
  | .lenderLost _ => none
  | .slotLost _ => none
  | .backInvalidate _ _ => none
  | .forwardedAccess _ => none
  | .inboundWrite _ _ _ => none
  | .ksCreate _ _ => none
  | .ksMeasure _ => none
  | .ksFinal _ => none
  | .ksDestroy _ => none
  | .beacon => none
  | .beaconReceived _ _ _ => none
  | .managerTimeout => none
  | .managerStepDown _ => none
  | .syncGained _ => none
  | .syncLost => none
  | .linkUp _ _ _ _ => none
  | .linkDown _ => none
  | .upstreamHotReset _ => none
  | .sequenceWarning _ => none
  | .debugD0 _ => none
  | .debugD1 => none
  | .debugD2 => none
  | .debugD3 => none
  | .coldBoot => none
  | .coreClose _ => none
  | .coreReopen _ => none
  | .clockStepDown => none
  | .thermalShutdown => none
  | .firmwareUpdate _ => none
  | .contextSwitch _ => none
  | .supervisorFence _ => none
  | .evtail _ _ => none
  | .uncorrectableSoftError _ => none
  | .clockStepUp => none
  | .powerGate _ _ => none
  | .wakeWithZeroing _ => none
  | .pbrIdentifierAssign _ => none
  | .inboundRead _ _ _ => none

/-- A legal clause header binds flags 0 to 11 or none, and SET1 only with SET0 (R119, R123). -/
def headerOk (set0 set1 : BitVec 4) : Bool :=
  let ok := fun (x : BitVec 4) => decide (x.toNat < 12) || x == 15
  ok set0 && ok set1 && !(set0 == 15 && set1 != 15)

/-- Static legality of an instruction (R134). The steps that no word encodes are legal; ILL never is (R124). -/
def legal (i : Instr) : Bool :=
  match i with
  | .clauseHeader _ s0 s1 _ => headerOk s0 s1
  | .ill _ _ => false
  | i =>
    match formOf i with
    | some (f, e) => legalExt f e
    | none => true

/-- Length in bytes of an encoded instruction (R106); 4 for what has one word. -/
def instrLen (i : Instr) : Nat :=
  match formOf i with
  | some (f, e) =>
    if f.maj < 0x20 then (if e.lit.isSome then 12 else 4) else if e.lit.isSome then 20 else 12
  | none => 4

/-- Instructions that end their clause (R121). -/
def endsClause (i : Instr) : Bool :=
  match i with
  | .bra _ | .brc _ | .jmp _ | .call _ | .callr _ | .ret _ | .exit _ | .yield _ | .bar _ | .barc _ | .sys _ | .eret _ => true
  | _ => false

end Sys2Proof.Machine
end

