-- ==== Sys2Proof/WellFormed.lean ====
section
/-! DEFINITION. Well-formed instructions: the static legality of R134, one name for what the decoder's users rely on. -/

namespace Sys2Proof

/-- The check itself stands in Machine/Legal.lean. -/
abbrev Instr.wf (i : Instr) : Bool := Machine.legal i

end Sys2Proof
end

