-- ==== Sys2Proof/Decode.lean ====
section
/-! DEFINITION. The decoder, total on any words (R106 to R111, R119, R124 to R131), and the encoder written from the
same layouts. Legality of the operand fields is Machine/Legal.lean's, so that an instruction with an illegal operand
decodes and then raises ILLEGAL_INSTRUCTION (R135). -/

namespace Sys2Proof

open Machine

/-- Why words are no instruction (R107, R124, R134). -/
inductive DecodeError where
  | truncated | reservedMajor (op : Nat) | reservedMinor (op fn : Nat) | lengthNotAccepted (op len : Nat)
  deriving DecidableEq, Repr

/-- Word 0 (R108). -/
def base0 (w : W32) : Base :=
  { u := w.getLsbD 8, d := w.extractLsb' 9 7, a := w.extractLsb' 16 7, b := w.extractLsb' 23 7,
    la := w.getLsbD 30, lb := w.getLsbD 31 }

/-- W1 and W2 (R109). -/
def ext12 (o : Base) (w1 w2 : W32) (lit : Option W64) : Ext :=
  { u := o.u, d := o.d, a := o.a, b := o.b, la := o.la, lb := o.lb,
    c := w1.extractLsb' 8 7, lc := w1.getLsbD 15, pr := w1.extractLsb' 16 3, pn := w1.getLsbD 19,
    hold := w1.extractLsb' 20 2, ty := w1.extractLsb' 22 6, rnd := w1.extractLsb' 28 3, sat := w1.getLsbD 31,
    modA := w2.extractLsb' 0 12, modB := w2.extractLsb' 12 12, imm := w2.extractLsb' 24 8, lit := lit }

def bit1 (b : Bool) : BitVec 1 := BitVec.ofBool b

/-- Word 0 from its fields (R108). -/
def word0 (len : BitVec 2) (op : BitVec 6) (u : Bool) (d a b : BitVec 7) (la lb : Bool) : W32 :=
  bit1 lb ++ bit1 la ++ b ++ a ++ d ++ bit1 u ++ op ++ len

/-- W1 from its fields (R109). -/
def word1 (fn : BitVec 8) (e : Ext) : W32 :=
  bit1 e.sat ++ e.rnd ++ e.ty ++ e.hold ++ bit1 e.pn ++ e.pr ++ bit1 e.lc ++ e.c ++ fn

/-- W2 from its fields (R109). -/
def word2 (e : Ext) : W32 := e.imm ++ e.modB ++ e.modA

/-- A literal's two words, low half first (R7). -/
def litWords (l : W64) : List W32 := [l.extractLsb' 0 32, l.extractLsb' 32 32]

/-- Base majors of R126, LEN 00. -/
def baseInstr (op : Nat) (o : Base) : Option Instr :=
  match op with
  | 0x1 => some (.iadd o)
  | 0x2 => some (.isub o)
  | 0x3 => some (.imul o)
  | 0x4 => some (.andI o)
  | 0x5 => some (.orI o)
  | 0x6 => some (.xorI o)
  | 0x7 => some (.shl o)
  | 0x8 => some (.shr o)
  | 0x9 => some (.sar o)
  | 0xa => some (.imin o)
  | 0xb => some (.imax o)
  | 0xc => some (.mov o)
  | 0xd => some (.sel o)
  | 0xf => some (.fadd o)
  | 0x10 => some (.fsub o)
  | 0x11 => some (.fmul o)
  | 0x12 => some (.ffma o)
  | 0x13 => some (.fmin o)
  | 0x14 => some (.fmax o)
  | 0x16 => some (.ldw o)
  | 0x17 => some (.stw o)
  | _ => none

/-- Base majors of R126 with a literal, LEN 10. -/
def litInstr (op : Nat) (o : Base) (l : W64) : Option Instr :=
  match op with
  | 0x1 => some (.iaddLit o l)
  | 0x2 => some (.isubLit o l)
  | 0x3 => some (.imulLit o l)
  | 0x4 => some (.andLit o l)
  | 0x5 => some (.orLit o l)
  | 0x6 => some (.xorLit o l)
  | 0x7 => some (.shlLit o l)
  | 0x8 => some (.shrLit o l)
  | 0x9 => some (.sarLit o l)
  | 0xa => some (.iminLit o l)
  | 0xb => some (.imaxLit o l)
  | 0xc => some (.movLit o l)
  | 0xd => some (.selLit o l)
  | 0xf => some (.faddLit o l)
  | 0x10 => some (.fsubLit o l)
  | 0x11 => some (.fmulLit o l)
  | 0x12 => some (.ffmaLit o l)
  | 0x13 => some (.fminLit o l)
  | 0x14 => some (.fmaxLit o l)
  | 0x16 => some (.ldwLit o l)
  | 0x17 => some (.stwLit o l)
  | _ => none

/-- Minors of major 0x20 (R127 to R131). -/
def ext20 (fn : Nat) (e : Ext) : Option Instr :=
  match fn with
  | 0x1 => some (.iaddX e)
  | 0x2 => some (.isubX e)
  | 0x3 => some (.imulX e)
  | 0x4 => some (.andX e)
  | 0x5 => some (.orX e)
  | 0x6 => some (.xorX e)
  | 0x7 => some (.shlX e)
  | 0x8 => some (.shrX e)
  | 0x9 => some (.sarX e)
  | 0xa => some (.iminX e)
  | 0xb => some (.imaxX e)
  | 0xc => some (.movX e)
  | 0xd => some (.selX e)
  | 0x10 => some (.imulh e)
  | 0x11 => some (.imad e)
  | 0x12 => some (.idiv e)
  | 0x13 => some (.irem e)
  | 0x14 => some (.iabs e)
  | 0x15 => some (.ineg e)
  | 0x16 => some (.andn e)
  | 0x17 => some (.rol e)
  | 0x18 => some (.popc e)
  | 0x19 => some (.clz e)
  | 0x1a => some (.brev e)
  | 0x1b => some (.bfe e)
  | 0x1c => some (.bfi e)
  | 0x1d => some (.icmp e)
  | _ => none

/-- Minors of major 0x21 (R127 to R131). -/
def ext21 (fn : Nat) (e : Ext) : Option Instr :=
  match fn with
  | 0xf => some (.faddX e)
  | 0x10 => some (.fsubX e)
  | 0x11 => some (.fmulX e)
  | 0x12 => some (.ffmaX e)
  | 0x13 => some (.fminX e)
  | 0x14 => some (.fmaxX e)
  | 0x20 => some (.fcmp e)
  | 0x21 => some (.fclass e)
  | 0x22 => some (.fround e)
  | 0x23 => some (.ffract e)
  | _ => none

/-- Minors of major 0x22 (R127 to R131). -/
def ext22 (fn : Nat) (e : Ext) : Option Instr :=
  match fn with
  | 0x1 => some (.frcp e)
  | 0x2 => some (.frsq e)
  | 0x3 => some (.fsqrt e)
  | 0x4 => some (.fdiv e)
  | 0x5 => some (.fexp2 e)
  | 0x6 => some (.flog2 e)
  | 0x7 => some (.fsin e)
  | 0x8 => some (.fcos e)
  | _ => none

/-- Minors of major 0x23 (R127 to R131). -/
def ext23 (fn : Nat) (e : Ext) : Option Instr :=
  match fn with
  | 0x1 => some (.hadd2 e)
  | 0x2 => some (.hmul2 e)
  | 0x3 => some (.hfma2 e)
  | 0x4 => some (.idp4 e)
  | 0x5 => some (.fdp2 e)
  | _ => none

/-- Minors of major 0x24 (R127 to R131). -/
def ext24 (fn : Nat) (e : Ext) : Option Instr :=
  match fn with
  | 0x1 => some (.cvt e)
  | 0x2 => some (.pack e)
  | 0x3 => some (.unpk e)
  | 0x4 => some (.bfpenc e)
  | _ => none

/-- Minors of major 0x25 (R127 to R131). -/
def ext25 (fn : Nat) (e : Ext) : Option Instr :=
  match fn with
  | 0x1 => some (.prev e)
  | 0x2 => some (.nextI e)
  | 0x3 => some (.scan e)
  | 0x4 => some (.segscan e)
  | 0x5 => some (.red e)
  | 0x6 => some (.vote e)
  | 0x7 => some (.rank e)
  | 0x8 => some (.compact e)
  | 0x9 => some (.topk e)
  | _ => none

/-- Minors of major 0x26 (R127 to R131). -/
def ext26 (fn : Nat) (e : Ext) : Option Instr :=
  match fn with
  | 0x1 => some (.pset e)
  | 0x2 => some (.psetLead e)
  | 0x3 => some (.pand e)
  | 0x4 => some (.por e)
  | 0x5 => some (.pxor e)
  | 0x6 => some (.pnot e)
  | 0x7 => some (.pmov e)
  | _ => none

/-- Minors of major 0x27 (R127 to R131). -/
def ext27 (fn : Nat) (e : Ext) : Option Instr :=
  match fn with
  | 0x1 => some (.bra e)
  | 0x2 => some (.brc e)
  | 0x3 => some (.jmp e)
  | 0x4 => some (.call e)
  | 0x5 => some (.callr e)
  | 0x6 => some (.ret e)
  | 0x7 => some (.exit e)
  | 0x8 => some (.yield e)
  | 0x9 => some (.nop e)
  | _ => none

/-- Minors of major 0x28 (R127 to R131). -/
def ext28 (fn : Nat) (e : Ext) : Option Instr :=
  match fn with
  | 0x1 => some (.bar e)
  | 0x2 => some (.barc e)
  | 0x3 => some (.spawn e)
  | 0x4 => some (.bincfg e)
  | 0x5 => some (.time e)
  | 0x6 => some (.atI e)
  | 0x7 => some (.sleep e)
  | _ => none

/-- Minors of major 0x29 (R127 to R131). -/
def ext29 (fn : Nat) (e : Ext) : Option Instr :=
  match fn with
  | 0x1 => some (.sys e)
  | 0x2 => some (.trap e)
  | 0x3 => some (.eret e)
  | 0x4 => some (.trapcfg e)
  | 0x5 => some (.rget e)
  | 0x6 => some (.rset e)
  | 0x7 => some (.sregr e)
  | 0x8 => some (.sregw e)
  | _ => none

/-- Minors of major 0x2a (R127 to R131). -/
def ext2a (fn : Nat) (e : Ext) : Option Instr :=
  match fn with
  | 0x1 => some (.ld e)
  | 0x2 => some (.lda e)
  | 0x3 => some (.pref e)
  | _ => none

/-- Minors of major 0x2b (R127 to R131). -/
def ext2b (fn : Nat) (e : Ext) : Option Instr :=
  match fn with
  | 0x1 => some (.st e)
  | 0x2 => some (.stl e)
  | _ => none

/-- Minors of major 0x2c (R127 to R131). -/
def ext2c (fn : Nat) (e : Ext) : Option Instr :=
  match fn with
  | 0x1 => some (.ldc e)
  | 0x2 => some (.stc e)
  | _ => none

/-- Minors of major 0x2d (R127 to R131). -/
def ext2d (fn : Nat) (e : Ext) : Option Instr :=
  match fn with
  | 0x1 => some (.amoAdd e)
  | 0x2 => some (.amoAnd e)
  | 0x3 => some (.amoOr e)
  | 0x4 => some (.amoXor e)
  | 0x5 => some (.amoMin e)
  | 0x6 => some (.amoMax e)
  | 0x7 => some (.amoSwap e)
  | 0x8 => some (.amoCas e)
  | 0x9 => some (.amocSwap e)
  | 0xa => some (.amocCas e)
  | _ => none

/-- Minors of major 0x2e (R127 to R131). -/
def ext2e (fn : Nat) (e : Ext) : Option Instr :=
  match fn with
  | 0x1 => some (.fence e)
  | _ => none

/-- Minors of major 0x2f (R127 to R131). -/
def ext2f (fn : Nat) (e : Ext) : Option Instr :=
  match fn with
  | 0x1 => some (.tld e)
  | 0x2 => some (.tst e)
  | _ => none

/-- Minors of major 0x30 (R127 to R131). -/
def ext30 (fn : Nat) (e : Ext) : Option Instr :=
  match fn with
  | 0x1 => some (.refadr e)
  | 0x2 => some (.refbase e)
  | 0x3 => some (.reflen e)
  | 0x4 => some (.refperm e)
  | 0x5 => some (.reftype e)
  | 0x6 => some (.refseta e)
  | 0x7 => some (.refadd e)
  | 0x8 => some (.refnar e)
  | 0x9 => some (.refnarx e)
  | 0xa => some (.refdrop e)
  | 0xb => some (.refwrap e)
  | 0xc => some (.refunwr e)
  | 0xd => some (.refchk e)
  | 0xe => some (.refvoid e)
  | 0xf => some (.refdiff e)
  | 0x10 => some (.refeq e)
  | 0x11 => some (.refmint e)
  | 0x12 => some (.refmov e)
  | _ => none

/-- Minors of major 0x31 (R127 to R131). -/
def ext31 (fn : Nat) (e : Ext) : Option Instr :=
  match fn with
  | 0x1 => some (.cpy e)
  | 0x2 => some (.cpyc e)
  | 0x3 => some (.cpyw e)
  | _ => none

/-- Minors of major 0x32 (R127 to R131). -/
def ext32 (fn : Nat) (e : Ext) : Option Instr :=
  match fn with
  | 0x1 => some (.setfmt e)
  | 0x2 => some (.claim e)
  | 0x3 => some (.release e)
  | 0x4 => some (.mma e)
  | 0x5 => some (.mmz e)
  | 0x6 => some (.accrd e)
  | 0x7 => some (.accwr e)
  | _ => none

/-- Minors of major 0x33 (R127 to R131). -/
def ext33 (fn : Nat) (e : Ext) : Option Instr :=
  match fn with
  | 0x1 => some (.fork e)
  | 0x2 => some (.join e)
  | 0x3 => some (.hwait e)
  | 0x4 => some (.htest e)
  | 0x5 => some (.hcancel e)
  | 0x6 => some (.sth e)
  | 0x7 => some (.ldh e)
  | _ => none

/-- Minors of major 0x34 (R127 to R131). -/
def ext34 (fn : Nat) (e : Ext) : Option Instr :=
  match fn with
  | 0x1 => some (.launch e)
  | _ => none

/-- Extended majors of R124. -/
def extInstr (op fn : Nat) (e : Ext) : Option Instr :=
  match op with
  | 0x20 => ext20 fn e
  | 0x21 => ext21 fn e
  | 0x22 => ext22 fn e
  | 0x23 => ext23 fn e
  | 0x24 => ext24 fn e
  | 0x25 => ext25 fn e
  | 0x26 => ext26 fn e
  | 0x27 => ext27 fn e
  | 0x28 => ext28 fn e
  | 0x29 => ext29 fn e
  | 0x2a => ext2a fn e
  | 0x2b => ext2b fn e
  | 0x2c => ext2c fn e
  | 0x2d => ext2d fn e
  | 0x2e => ext2e fn e
  | 0x2f => ext2f fn e
  | 0x30 => ext30 fn e
  | 0x31 => ext31 fn e
  | 0x32 => ext32 fn e
  | 0x33 => ext33 fn e
  | 0x34 => ext34 fn e
  | _ => none

/-- Majors that take no literal in the extended form (R107). -/
def noLitMajor (op : Nat) : Bool := op == 0x27 || op == 0x2E || op == 0x31 || op == 0x32 || op == 0x34

/-- Base forms: LEN 00 and 10 only (R107). -/
def decodeBase (op len : Nat) (o : Base) (rest : List W32) : Except DecodeError (Instr × List W32) :=
  if len = 0 then
    match baseInstr op o with
    | some i => .ok (i, rest)
    | none => .error (.reservedMajor op)
  else if len = 2 then
    match rest with
    | l :: h :: rest =>
      match litInstr op o (h ++ l) with
      | some i => .ok (i, rest)
      | none => .error (.reservedMajor op)
    | _ => .error .truncated
  else .error (.lengthNotAccepted op len)

/-- Extended forms: LEN 01, and 11 where the major accepts it (R107). -/
def decodeExt (op len : Nat) (o : Base) (rest : List W32) : Except DecodeError (Instr × List W32) :=
  match rest with
  | w1 :: w2 :: rest =>
    let fn := (w1.extractLsb' 0 8).toNat
    if len = 1 then
      match extInstr op fn (ext12 o w1 w2 none) with
      | some i => .ok (i, rest)
      | none => .error (.reservedMinor op fn)
    else if len = 3 && !noLitMajor op then
      match rest with
      | l :: h :: rest =>
        match extInstr op fn (ext12 o w1 w2 (some (h ++ l))) with
        | some i => .ok (i, rest)
        | none => .error (.reservedMinor op fn)
      | _ => .error .truncated
    else .error (.lengthNotAccepted op len)
  | _ => .error .truncated

/-- One instruction or header from the words of a stream, with the words after it. -/
def decode (ws : List W32) : Except DecodeError (Instr × List W32) :=
  match ws with
  | [] => .error .truncated
  | w :: rest =>
    let len := (w.extractLsb' 0 2).toNat
    let op := (w.extractLsb' 2 6).toNat
    if op = 0 then
      if len = 0 then
        .ok (.clauseHeader (w.extractLsb' 8 12) (w.extractLsb' 20 4) (w.extractLsb' 24 4) (w.extractLsb' 28 4), rest)
      else .error (.lengthNotAccepted op len)
    else if op = 0x3F then .ok (.ill (w.extractLsb' 0 2) (w.extractLsb' 8 24), rest)
    else if op < 0x18 then decodeBase op len (base0 w) rest
    else if 0x20 ≤ op ∧ op ≤ 0x34 then decodeExt op len (base0 w) rest
    else .error (.reservedMajor op)

/-- The words of an instruction (R106 to R111, R119); none for the steps that no word encodes. -/
def encode (i : Instr) : List W32 :=
  match i with
  | .clauseHeader wait s0 s1 n => [n ++ s1 ++ s0 ++ wait ++ (0 : BitVec 8)]
  | .ill len rest => [rest ++ (0x3F : BitVec 6) ++ len]
  | i =>
    match formOf i with
    | none => []
    | some (f, e) =>
      if f.maj < 0x20 then
        match e.lit with
        | none => [word0 0 (BitVec.ofNat 6 f.maj) e.u e.d e.a e.b e.la e.lb]
        | some l => word0 2 (BitVec.ofNat 6 f.maj) e.u e.d e.a e.b e.la e.lb :: litWords l
      else
        match e.lit with
        | none => [word0 1 (BitVec.ofNat 6 f.maj) e.u e.d e.a e.b e.la e.lb, word1 (BitVec.ofNat 8 f.fn) e, word2 e]
        | some l => word0 3 (BitVec.ofNat 6 f.maj) e.u e.d e.a e.b e.la e.lb :: word1 (BitVec.ofNat 8 f.fn) e ::
            word2 e :: litWords l

/-- Little-endian words of a byte string (R7); a tail of fewer than four bytes is dropped. -/
def wordsOf : List Byte → List W32
  | a :: b :: c :: d :: rest => (d ++ c ++ b ++ a) :: wordsOf rest
  | _ => []

/-- Little-endian bytes of a word (R7). -/
def bytesOfWord (w : W32) : List Byte :=
  [w.extractLsb' 0 8, w.extractLsb' 8 8, w.extractLsb' 16 8, w.extractLsb' 24 8]

/-- Decode from bytes at ascending addresses. -/
def decodeBytes (bs : List Byte) : Except DecodeError (Instr × List W32) := decode (wordsOf bs)

/-- The five words of an instruction whose low `nbits` bits are `w` and whose other bits are zero. -/
def tableWords (nbits w : Nat) : List W32 :=
  let v := w % 2 ^ nbits
  [BitVec.ofNat 32 v, BitVec.ofNat 32 (v / 2 ^ 32), BitVec.ofNat 32 (v / 2 ^ 64), BitVec.ofNat 32 (v / 2 ^ 96),
    BitVec.ofNat 32 (v / 2 ^ 128)]

/-- What the decoder reads from an opcode-table word. -/
def decodeTableWord (nbits w : Nat) : Option Instr :=
  match decode (tableWords nbits w) with
  | .ok (i, _) => some i
  | .error _ => none

end Sys2Proof
end

