-- ==== Sys2Proof/Config.lean ====
section
/-! DEFINITION. What an implementation fixes and the values the spec leaves free. Every free value is opaque: no proof
can see what it is, so a statement about it holds whatever it is. -/

namespace Sys2Proof.Config

/-- The n-th stochastic rounding draw, uniform on 0 to 2^16 - 1 (R63; log 5). -/
opaque draw : Nat → BitVec 16

/-- Whether the n-th read of a register whose long-latency write is pending returns the value written (R23; log 4). -/
opaque pendNew : Nat → Bool

/-- Byte i of what the n-th load from a device register returns whose behaviour the spec does not give (R210; log 10). -/
opaque deviceRead : Nat → Nat → Byte

/-- The token the key store draws when a world slot is created (R448; log 14). -/
opaque keyToken : Nat → BitVec 52

/-- The n-th byte of the certificate chain, and what its length is drawn from: at most 3,072 (R450; log 14). -/
opaque certByte : Nat → Byte
opaque certDraw : Nat
abbrev certLen : Nat := certDraw % 3073

/-- The serial number fixed at manufacture (R438; log 14). -/
opaque serial : W64

/-- The measurements of the boot chain with an image installed, and of Mydal, byte by byte (R456, R458; log 14). -/
opaque firmwareHash : W64 → Nat → Byte
opaque kernelHash : Nat → Byte

/-- The signature of the n-th report, byte by byte, over the report's first 416 bytes (R454 to R456; log 14). -/
opaque signature : Nat → List Byte → Nat → Byte

/-- The address space in which a launch runs whose KEY names another world (R448; log 15). -/
opaque worldAsid : Nat → BitVec 16

/-- Whether the n-th keep that could meet the cap of a slice met it: the slice of a line and the lines present are the device's
own (R305, R307; log 35). -/
opaque keepFull : Nat → Bool

/-- Whether the n-th access to the pool or a leased line missed the L2 (R423; log 16). -/
opaque l2Miss : Nat → Bool

/-- Byte i of what a 16-byte block of memory gives when it is read under another key than it was written under: the keys that
wrote it and that read it, its number and its contents (R378, R451; log 62). -/
opaque wrongKey : Nat → Nat → Nat → List Byte → Nat → Byte

/-- Byte i of the n-th challenge of the debug port, and whether a response to a challenge is a signature under the key of a tier
and world (R457; log 64). -/
opaque challenge : Nat → Nat → Byte
opaque signed : Nat → Nat → List Byte → List Byte → Bool

/-- The home slices and other placements that software never sees need no constant. Cores of the package (R3). -/
abbrev nCores : Nat := 192
abbrev coresPerDie : Nat := 24

end Sys2Proof.Config
end

