-- ==== Sys2Proof/Machine/Num.lean ====
section
/-! DEFINITION. Number formats and arithmetic (R49 to R79): exact values, one rounding function, conversions,
block formats. -/

namespace Sys2Proof.Machine

/-! ### Integers (R52) -/

/-- The low n bits of a 64-bit pattern as an integer of the given signedness. -/
def toInt (n : Nat) (signed : Bool) (x : W64) : Int :=
  let v := x.toNat % 2 ^ n
  if signed && decide (2 ^ (n - 1) ≤ v) then (v : Int) - 2 ^ n else v

/-- The 64-bit pattern of an integer. -/
def ofInt (x : Int) : W64 := BitVec.ofInt 64 x

/-- The range of an integer type (R52). -/
def intMin (n : Nat) (signed : Bool) : Int := if signed then -(2 ^ (n - 1)) else 0
def intMax (n : Nat) (signed : Bool) : Int := if signed then 2 ^ (n - 1) - 1 else 2 ^ n - 1

/-- The value of an N-bit pattern extended to 64 bits: by sign for signed types, by zeros otherwise (R50, R29). -/
def extend (n : Nat) (signed : Bool) (x : W64) : W64 := ofInt (toInt n signed x)

/-- fpst bits (R66). -/
abbrev Flags := BitVec 6
def fNV : Flags := 1
def fDZ : Flags := 2
def fOF : Flags := 4
def fUF : Flags := 8
def fNX : Flags := 16
def fSAT : Flags := 32

/-- Narrow an exact integer to N bits: wrap, or clamp and report SAT (R52). The result is extended to 64 bits. -/
def narrow (n : Nat) (signed sat : Bool) (x : Int) : W64 × Flags :=
  if sat then
    let y := max (intMin n signed) (min (intMax n signed) x)
    (extend n signed (ofInt y), if y = x then 0 else fSAT)
  else (extend n signed (ofInt x), 0)

/-! ### Floating-point formats (R54, R55) -/

/-- How a format uses its largest encodings. -/
inductive FKind where
  | ieee     -- X all ones: infinity or NaN
  | e4m3     -- only S.1111.111 is NaN
  | finite   -- every encoding is a number
  deriving DecidableEq, Repr

structure Fmt where
  e : Nat
  f : Nat
  bias : Nat
  kind : FKind
  deriving DecidableEq, Repr

def fmt64 : Fmt := ⟨11, 52, 1023, .ieee⟩
def fmt32 : Fmt := ⟨8, 23, 127, .ieee⟩

/-- The format of a floating TYPE code (R55); .f32 for any other. -/
def fmtOf (t : BitVec 6) : Fmt :=
  match t.toNat with
  | 0x10 => fmt64
  | 0x12 => ⟨5, 10, 15, .ieee⟩
  | 0x13 => ⟨8, 7, 127, .ieee⟩
  | 0x14 => ⟨4, 3, 7, .e4m3⟩
  | 0x15 => ⟨5, 2, 15, .ieee⟩
  | 0x16 => ⟨3, 2, 3, .finite⟩
  | 0x17 => ⟨2, 3, 1, .finite⟩
  | 0x18 => ⟨2, 1, 1, .finite⟩
  | _ => fmt32

def Fmt.width (m : Fmt) : Nat := 1 + m.e + m.f

/-- Bits of the largest finite magnitude. -/
def Fmt.maxBits (m : Fmt) : Nat :=
  match m.kind with
  | .ieee => (2 ^ m.e - 1) * 2 ^ m.f - 1
  | .e4m3 => 2 ^ (m.e + m.f) - 2
  | .finite => 2 ^ (m.e + m.f) - 1

/-- Bits of +infinity of an IEEE format. -/
def Fmt.infBits (m : Fmt) : Nat := (2 ^ m.e - 1) * 2 ^ m.f

/-- The canonical quiet NaN (R57). -/
def Fmt.nanBits (m : Fmt) : Nat :=
  match m.kind with
  | .ieee => m.infBits + 2 ^ (m.f - 1)
  | .e4m3 => 2 ^ (m.e + m.f) - 1
  | .finite => m.maxBits

/-- The exponent of the unit of a format's subnormals, so that the smallest subnormal is 2 to it. -/
def Fmt.qmin (m : Fmt) : Int := 1 - (m.bias : Int) - (m.f : Int)

/-- A floating-point value: a NaN, an infinity, or (-1)^neg · m · 2^e exactly. -/
inductive FVal where
  | nan (neg sig : Bool)
  | inf (neg : Bool)
  | fin (neg : Bool) (m : Nat) (e : Int)
  deriving DecidableEq, Repr

/-- The value of an encoding (R54, R55, R57). -/
def fdecode (m : Fmt) (x : W64) : FVal :=
  let v := x.toNat % 2 ^ m.width
  let neg := decide (2 ^ (m.e + m.f) ≤ v)
  let mag := v % 2 ^ (m.e + m.f)
  let ex := mag / 2 ^ m.f
  let fr := mag % 2 ^ m.f
  if m.kind = .ieee ∧ ex = 2 ^ m.e - 1 then
    if fr = 0 then .inf neg else .nan neg (decide (fr < 2 ^ (m.f - 1)))
  else if m.kind = .e4m3 ∧ mag = 2 ^ (m.e + m.f) - 1 then .nan neg false
  else if ex = 0 then .fin neg fr m.qmin
  else .fin neg (2 ^ m.f + fr) (m.qmin + ((ex : Int) - 1))

/-- Sign bit and magnitude bits as a pattern. -/
def fpack (m : Fmt) (neg : Bool) (mag : Nat) : W64 :=
  BitVec.ofNat 64 ((if neg then 2 ^ (m.e + m.f) else 0) + mag)

/-! ### Rounding (R62 to R64) -/

/-- An exact magnitude to be rounded: `m · 2^e`, and with `sticky` a value strictly between that and `(m+1) · 2^e`. -/
structure Exact where
  neg : Bool
  m : Nat
  e : Int
  sticky : Bool
  deriving DecidableEq, Repr

/-- Resolved rounding modes (R62): RND 110 reads fpctl.RM before this. -/
inductive RMode where
  | nearestEven | towardZero | down | up | nearestAway | stochastic
  deriving DecidableEq, Repr

def rmodeOf (rnd rm : BitVec 3) : RMode :=
  let r := if rnd = 6 then rm else rnd
  match r.toNat with
  | 1 => .towardZero | 2 => .down | 3 => .up | 4 => .nearestAway | 5 => .stochastic | _ => .nearestEven

/-- Divide `m · 2^e` by `2^q`: quotient, and whether and how the rest rounds up. -/
def quantise (mode : RMode) (neg : Bool) (rho : BitVec 16) (m : Nat) (e : Int) (sticky : Bool) (q : Int) : Nat × Bool :=
  if q ≤ e then
    let n := m * 2 ^ (e - q).toNat
    -- with sticky the rest is below one unit of 2^e; callers give enough bits that it lies below any tie
    let up := sticky && (match mode with | .down => neg | .up => !neg | _ => false)
    (if up then n + 1 else n, sticky)
  else
    let d := (q - e).toNat
    let n := m / 2 ^ d
    let r := m % 2 ^ d
    let half := 2 ^ (d - 1)
    let inexact := decide (r ≠ 0) || sticky
    let above := decide (half < r) || (decide (r = half) && sticky)
    let tie := decide (r = half) && !sticky
    let up := inexact && (match mode with
      | .nearestEven => above || (tie && decide (n % 2 = 1))
      | .towardZero => false
      | .down => neg
      | .up => !neg
      | .nearestAway => above || tie
      | .stochastic => decide (rho.toNat < r * 2 ^ 16 / 2 ^ d))
    (if up then n + 1 else n, inexact)

/-- The result of an overflow (R64). -/
def overflowBits (m : Fmt) (mode : RMode) (sat neg : Bool) : W64 :=
  let toMax := sat || m.kind = .finite || (match mode with
    | .towardZero => true | .down => !neg | .up => neg | _ => false)
  if toMax then fpack m neg m.maxBits
  else if m.kind = .e4m3 then BitVec.ofNat 64 m.nanBits
  else fpack m neg m.infBits

/-- Is the magnitude `n · 2^q` beyond the largest finite value of the format? -/
def beyondMax (m : Fmt) (n : Nat) (q : Int) : Bool :=
  match fdecode m (BitVec.ofNat 64 m.maxBits) with
  | .fin _ mm me => if q ≤ me then decide (mm * 2 ^ (me - q).toNat < n) else decide (mm < n * 2 ^ (q - me).toNat)
  | _ => false

/-- Round an exact value to a format once, with its flags (R59, R62 to R66). A zero keeps the sign given. -/
def roundTo (m : Fmt) (mode : RMode) (sat : Bool) (rho : BitVec 16) (x : Exact) : W64 × Flags :=
  if x.m = 0 ∧ !x.sticky then (fpack m x.neg 0, 0)
  else
    let top : Int := (Nat.log2 x.m : Int) + x.e
    let qn : Int := top - (m.f : Int)
    let q := max qn m.qmin
    -- a stochastic rounding of a value above the largest finite one makes no draw (R63)
    let mode' := if mode = .stochastic ∧ (beyondMax m x.m x.e ∨
        (x.sticky ∧ beyondMax m (x.m + 1) x.e)) then RMode.nearestAway else mode
    let (n, inexact) := quantise mode' x.neg rho x.m x.e x.sticky q
    let (nu, _) := quantise mode' x.neg rho x.m x.e x.sticky qn
    let ovf := beyondMax m nu qn || (mode = .stochastic && mode' = .nearestAway)
    if ovf then (overflowBits m mode sat x.neg, fOF ||| fNX)
    else
      let tiny := !(decide (2 ^ m.f ≤ nu ∧ m.qmin ≤ qn) || decide (2 ^ (m.f + 1) ≤ nu ∧ m.qmin ≤ qn + 1))
      let (n, q) := if 2 ^ (m.f + 1) ≤ n then (n / 2, q + 1) else (n, q)
      let mag := if n < 2 ^ m.f then n else ((q - m.qmin).toNat + 1) * 2 ^ m.f + (n - 2 ^ m.f)
      (fpack m x.neg mag, (if inexact then fNX else 0) ||| (if tiny && inexact then fUF else 0))

/-- The canonical NaN of a format, with flags. -/
def nanOut (m : Fmt) (fl : Flags) : W64 × Flags := (BitVec.ofNat 64 m.nanBits, fl)

/-! ### Arithmetic (R57, R59, R69, R152) -/

/-- Rounding context of one operation. -/
structure RCtx where
  mode : RMode
  sat : Bool
  rho : BitVec 16
  deriving DecidableEq, Repr

def isSig : FVal → Bool
  | .nan _ s => s
  | _ => false

def isNan : FVal → Bool
  | .nan _ _ => true
  | _ => false

def fneg (m : Fmt) (x : W64) : W64 := x ^^^ BitVec.ofNat 64 (2 ^ (m.e + m.f))
def fabs (m : Fmt) (x : W64) : W64 := BitVec.ofNat 64 (x.toNat % 2 ^ (m.e + m.f))

/-- The exact sum of finite addends, as an integer multiple of 2^e. -/
def sumTo (e : Int) : List (Bool × Nat × Int) → Int
  | [] => 0
  | (neg, m, x) :: l =>
    let v : Int := m * 2 ^ (x - e).toNat
    (if neg then -v else v) + sumTo e l

def minExp : List (Bool × Nat × Int) → Int
  | [] => 0
  | [(_, _, x)] => x
  | (_, _, x) :: l => min x (minExp l)

/-- A zero sum: the common sign of zero addends, else -0 under down and +0 otherwise (R152, R159). -/
def zeroSign (mode : RMode) (l : List (Bool × Nat × Int)) : Bool :=
  if l.all (fun a => a.2.1 == 0 && a.1) then true
  else if l.all (fun a => a.2.1 == 0 && !a.1) then false
  else decide (mode = .down)

/-- Sum of addends given as values: NaN, infinities and exact zeros as R69 and R152 say, one rounding (R59). -/
def fsum (m : Fmt) (r : RCtx) (l : List FVal) : W64 × Flags :=
  if l.any isNan then nanOut m (if l.any isSig then fNV else 0)
  else
    let pinf := l.any (fun v => v == .inf false)
    let ninf := l.any (fun v => v == .inf true)
    if pinf && ninf then nanOut m fNV
    else if pinf then (fpack m false m.infBits, 0)
    else if ninf then (fpack m true m.infBits, 0)
    else
      let fs := l.filterMap (fun v => match v with | .fin n a e => some (n, a, e) | _ => none)
      let e := minExp fs
      let s := sumTo e fs
      if s = 0 then (fpack m (zeroSign r.mode fs) 0, 0)
      else roundTo m r.mode r.sat r.rho ⟨decide (s < 0), s.natAbs, e, false⟩

/-- The exact product of two values; none when it is 0 × ∞. NaN operands are the caller's. -/
def fprod (a b : FVal) : Option FVal :=
  match a, b with
  | .fin n x e, .fin n' x' e' => some (.fin (n != n') (x * x') (e + e'))
  | .inf n, .fin n' x' _ => if x' = 0 then none else some (.inf (n != n'))
  | .fin n x _, .inf n' => if x = 0 then none else some (.inf (n != n'))
  | .inf n, .inf n' => some (.inf (n != n'))
  | a, b => some (if isNan a then a else b)

/-- Products plus addends with one rounding: FFMA, FDP2. A 0 × ∞ term or opposite infinities among the terms are
invalid beside a NaN operand too (R69, R152, R159). -/
def fdot (m : Fmt) (r : RCtx) (prods : List (FVal × FVal)) (adds : List FVal) : W64 × Flags :=
  let ops := prods.flatMap (fun p => [p.1, p.2]) ++ adds
  let sig := ops.any isSig
  let terms := prods.filterMap (fun p => fprod p.1 p.2) ++ adds
  let bad := prods.any (fun p => !isNan p.1 && !isNan p.2 && (fprod p.1 p.2).isNone) ||
    (terms.any (fun v => v == .inf false) && terms.any (fun v => v == .inf true))
  if ops.any isNan then nanOut m (if sig || bad then fNV else 0)
  else if bad then nanOut m fNV
  else fsum m r terms

def fadd (m : Fmt) (r : RCtx) (a b : W64) : W64 × Flags := fsum m r [fdecode m a, fdecode m b]
def fsub (m : Fmt) (r : RCtx) (a b : W64) : W64 × Flags := fsum m r [fdecode m a, fdecode m (fneg m b)]

/-- A product: its sign is the XOR of the signs, an exact zero included (R152). -/
def fmul (m : Fmt) (r : RCtx) (a b : W64) : W64 × Flags :=
  let x := fdecode m a
  let y := fdecode m b
  if isNan x || isNan y then nanOut m (if isSig x || isSig y then fNV else 0)
  else
    match fprod x y with
    | none => nanOut m fNV
    | some (.inf n) => (fpack m n m.infBits, 0)
    | some (.fin n v e) => roundTo m r.mode r.sat r.rho ⟨n, v, e, false⟩
    | some _ => nanOut m 0

def ffma (m : Fmt) (r : RCtx) (a b c : W64) : W64 × Flags :=
  fdot m r [(fdecode m a, fdecode m b)] [fdecode m c]

/-- The order of non-NaN values, -0 below +0 where `zeros` is set (R153, R154): a key as sign and magnitude. -/
def fkey (m : Fmt) (x : W64) : Int :=
  let mag := x.toNat % 2 ^ (m.e + m.f)
  if x.getLsbD (m.e + m.f) then -(mag : Int) - 1 else mag

/-- minimumNumber and maximumNumber of IEEE 754-2019 (R153). -/
def fminmax (m : Fmt) (isMax : Bool) (a b : W64) : W64 × Flags :=
  let x := fdecode m a
  let y := fdecode m b
  let fl := if isSig x || isSig y then fNV else 0
  let low := fun (v : W64) => BitVec.ofNat 64 (v.toNat % 2 ^ m.width)
  if isNan x && isNan y then nanOut m fl
  else if isNan x then (low b, fl)
  else if isNan y then (low a, fl)
  else
    let le := decide (fkey m a ≤ fkey m b)
    (if le != isMax then low a else low b, fl)

/-- The four relations of a comparison (R154): less, equal, greater, unordered. -/
def fcmpRel (m : Fmt) (a b : W64) : Nat :=
  let x := fdecode m a
  let y := fdecode m b
  if isNan x || isNan y then 3
  else
    let z := fun (v : W64) => if v.toNat % 2 ^ (m.e + m.f) = 0 then (0 : Int) else
      let k := fkey m v
      if k < 0 then k + 1 else k
    if z a < z b then 0 else if z a = z b then 1 else 2

/-- FCMP's predicate and flags by IMM8 (R154). -/
def fcmp (m : Fmt) (imm : BitVec 8) (a b : W64) : Bool × Flags :=
  let r := fcmpRel m a b
  let p := match imm.toNat % 8 with
    | 0 => r == 1 | 1 => r != 1 | 2 => r == 0 | 3 => r == 0 || r == 1
    | 4 => r == 2 | 5 => r == 2 || r == 1 | 6 => r == 3 | _ => r != 3
  let sig := isSig (fdecode m a) || isSig (fdecode m b)
  (p, if sig || (imm.getLsbD 3 && r == 3) then fNV else 0)

/-- FCLASS (R155). -/
def fclass (m : Fmt) (a : W64) : W64 :=
  let mag := a.toNat % 2 ^ (m.e + m.f)
  let bit := match fdecode m a with
    | .nan _ s => if s then 8 else 9
    | .inf n => if n then 0 else 7
    | .fin n x _ =>
      if x = 0 then (if n then 3 else 4)
      else if mag < 2 ^ m.f then (if n then 2 else 5)
      else (if n then 1 else 6)
  BitVec.ofNat 64 (2 ^ bit)

/-- FROUND (R156): the nearest integer under RND, with the sign of x. -/
def fround (m : Fmt) (r : RCtx) (a : W64) : W64 × Flags :=
  match fdecode m a with
  | .nan _ s => nanOut m (if s then fNV else 0)
  | .inf n => (fpack m n m.infBits, 0)
  | .fin n x e =>
    if x = 0 then (fpack m n 0, 0)
    else
      let (k, inexact) := quantise r.mode n r.rho x e false (max 0 e)
      let k := if e ≤ 0 then k else x
      let (v, _) := roundTo m .towardZero false 0 ⟨n, k, max 0 e, false⟩
      (v, if inexact then fNX else 0)

/-- FFRACT (R156). -/
def ffract (m : Fmt) (a : W64) : W64 × Flags :=
  match fdecode m a with
  | .nan _ s => nanOut m (if s then fNV else 0)
  | .inf _ => nanOut m fNV
  | .fin n x e =>
    if 0 ≤ e then (fpack m n 0, 0)
    else (roundTo m .towardZero false 0 ⟨n, x % 2 ^ (-e).toNat, e, false⟩ |>.1, 0)

/-! ### Division and roots (R157) -/

/-- Integer square root by Newton's step from above, with fuel. -/
def isqrtLoop : Nat → Nat → Nat → Nat
  | 0, _, g => g
  | k + 1, n, g =>
    let h := (g + n / g) / 2
    if h < g then isqrtLoop k n h else g

def isqrt (n : Nat) : Nat := if n = 0 then 0 else isqrtLoop (Nat.log2 n + 8) n (2 ^ (Nat.log2 n / 2 + 1))

/-- Bits kept by quotients and roots: beyond any format's precision and the 16 bits of a stochastic draw. -/
def wide : Nat := 160

/-- The exact quotient of two magnitudes to `wide` bits, with sticky. -/
def ratio (neg : Bool) (x : Nat) (e : Int) (y : Nat) (e' : Int) : Exact :=
  let k := wide + Nat.log2 y
  ⟨neg, x * 2 ^ k / y, e - e' - k, decide (x * 2 ^ k % y ≠ 0)⟩

def fdiv (m : Fmt) (r : RCtx) (a b : W64) : W64 × Flags :=
  match fdecode m a, fdecode m b with
  | .nan _ s, y => nanOut m (if s || isSig y then fNV else 0)
  | _, .nan _ s => nanOut m (if s then fNV else 0)
  | .inf _, .inf _ => nanOut m fNV
  | .inf n, .fin n' _ _ => (fpack m (n != n') m.infBits, 0)
  | .fin n _ _, .inf n' => (fpack m (n != n') 0, 0)
  | .fin n x e, .fin n' y e' =>
    if y = 0 then (if x = 0 then nanOut m fNV else (fpack m (n != n') m.infBits, fDZ))
    else if x = 0 then (fpack m (n != n') 0, 0)
    else roundTo m r.mode r.sat r.rho (ratio (n != n') x e y e')

def frcp (m : Fmt) (r : RCtx) (a : W64) : W64 × Flags :=
  match fdecode m a with
  | .nan _ s => nanOut m (if s then fNV else 0)
  | .inf n => (fpack m n 0, 0)
  | .fin n x e =>
    if x = 0 then (fpack m n m.infBits, fDZ) else roundTo m r.mode r.sat r.rho (ratio n 1 0 x e)

/-- The square root of x · 2^e to `wide` bits, with sticky. -/
def rootExact (x : Nat) (e : Int) : Exact :=
  let odd : Bool := e % 2 ≠ 0
  let x' := if odd then x * 2 else x
  let e' := if odd then e - 1 else e
  let n := x' * 2 ^ (2 * wide)
  let g := isqrt n
  ⟨false, g, e' / 2 - wide, decide (g * g ≠ n)⟩

def fsqrt (m : Fmt) (r : RCtx) (a : W64) : W64 × Flags :=
  match fdecode m a with
  | .nan _ s => nanOut m (if s then fNV else 0)
  | .inf n => if n then nanOut m fNV else (fpack m false m.infBits, 0)
  | .fin n x e =>
    if x = 0 then (fpack m n 0, 0)
    else if n then nanOut m fNV
    else roundTo m r.mode r.sat r.rho (rootExact x e)

/-- The reciprocal square root of x · 2^e. -/
def rrootExact (x : Nat) (e : Int) : Exact :=
  let odd : Bool := e % 2 ≠ 0
  let x' := if odd then x * 2 else x
  let e' := if odd then e - 1 else e
  let k := wide + Nat.log2 x'
  let n := 2 ^ (2 * k) / x'
  let g := isqrt n
  ⟨false, g, -(e' / 2) - k, decide (g * g * x' ≠ 2 ^ (2 * k))⟩

def frsq (m : Fmt) (r : RCtx) (a : W64) : W64 × Flags :=
  match fdecode m a with
  | .nan _ s => nanOut m (if s then fNV else 0)
  | .inf n => if n then nanOut m fNV else (fpack m false 0, 0)
  | .fin n x e =>
    if x = 0 then (fpack m n m.infBits, fDZ)
    else if n then nanOut m fNV
    else roundTo m r.mode r.sat r.rho (rrootExact x e)

/-! ### Transcendental functions (R157), by fixed point with far more bits than any accepted format needs (log 9) -/

/-- Fraction bits of the fixed-point evaluation. -/
def fxBits : Nat := 1024
def fxOne : Nat := 2 ^ fxBits

/-- Sum of a series whose term number k+1 is the term before times z / d(k), alternating in sign where `alt` is set. -/
def seriesLoop (alt : Bool) (z : Nat) (d : Nat → Nat) : Nat → Nat → Nat → Bool → Int → Int
  | 0, _, _, _, acc => acc
  | fuel + 1, k, term, neg, acc =>
    let acc := acc + (if neg then -(term : Int) else term)
    seriesLoop alt z d fuel (k + 1) (term * z / fxOne / d k) (alt && !neg) acc

/-- Sum of t^(2k+1)/(2k+1), alternating where `alt`: arctangent, or half a logarithm. `pw` is the running power. -/
def oddSeries (alt : Bool) (z : Nat) : Nat → Nat → Nat → Bool → Int → Int
  | 0, _, _, _, acc => acc
  | fuel + 1, k, pw, neg, acc =>
    let term : Int := (pw / (2 * k + 1) : Nat)
    oddSeries alt z fuel (k + 1) (pw * z / fxOne) (alt && !neg) (acc + (if neg then -term else term))

/-- arctan(1/n) in fixed point. -/
def fxArctanInv (n : Nat) : Int := oddSeries true (fxOne / (n * n)) 700 0 (fxOne / n) false 0

/-- π in fixed point, by Machin's formula. -/
def fxPi : Int := 16 * fxArctanInv 5 - 4 * fxArctanInv 239

/-- ln((1+t)/(1-t)) for t in fixed point. -/
def fxLogT (t : Nat) : Int := 2 * oddSeries false (t * t / fxOne) 700 0 t false 0

/-- ln 2 in fixed point. -/
def fxLn2 : Int := fxLogT (fxOne / 3)

/-- 2^a (R157): exact only for integers. -/
def fexp2 (m : Fmt) (r : RCtx) (a : W64) : W64 × Flags :=
  match fdecode m a with
  | .nan _ s => nanOut m (if s then fNV else 0)
  | .inf n => (fpack m false (if n then 0 else m.infBits), 0)
  | .fin n x e =>
    -- x · 2^e in fixed point; magnitudes of 2^11 and more overflow or underflow every accepted format alike
    let v : Int := if 11 < (Nat.log2 x : Int) + e then 2 ^ 12 * fxOne
      else if 0 ≤ e + fxBits then (x * 2 ^ (e + fxBits).toNat : Nat) else (x / 2 ^ (-(e + fxBits)).toNat : Nat)
    let v := if n then -v else v
    let i := v / fxOne
    let f := (v % fxOne).toNat
    if f = 0 then roundTo m r.mode r.sat r.rho ⟨false, 1, i, false⟩
    else
      let y := (f * fxLn2.toNat / fxOne)
      let s := seriesLoop false y (fun k => k + 1) 300 0 fxOne false 0
      roundTo m r.mode r.sat r.rho ⟨false, s.toNat, i - fxBits, true⟩

/-- log₂ a (R157): exact only for powers of two. -/
def flog2 (m : Fmt) (r : RCtx) (a : W64) : W64 × Flags :=
  match fdecode m a with
  | .nan _ s => nanOut m (if s then fNV else 0)
  | .inf n => if n then nanOut m fNV else (fpack m false m.infBits, 0)
  | .fin n x e =>
    if x = 0 then (fpack m true m.infBits, fDZ)
    else if n then nanOut m fNV
    else
      let l := Nat.log2 x
      let ex : Int := (l : Int) + e
      if x = 2 ^ l then roundTo m r.mode r.sat r.rho ⟨decide (ex < 0), ex.natAbs, 0, false⟩
      else
        -- y = x / 2^l lies strictly between 1 and 2; t = (y-1)/(y+1)
        let t := (x - 2 ^ l) * fxOne / (x + 2 ^ l)
        let v : Int := ex * fxOne + fxLogT t * fxOne / fxLn2
        roundTo m r.mode r.sat r.rho
          ⟨decide (v < 0), if v < 0 then v.natAbs - 1 else v.natAbs, -(fxBits : Int), true⟩

/-- sin (or cos) of a non-zero finite x · 2^e: quadrant, then the Taylor series (R157). Never exact. -/
def fxSinCos (isCos n : Bool) (x : Nat) (e : Int) : Exact :=
  let v : Int := if 0 ≤ e + fxBits then (x * 2 ^ (e + fxBits).toNat : Nat) else (x / 2 ^ (-(e + fxBits)).toNat : Nat)
  -- π/2 with twice the fraction bits keeps the reduction of the largest argument exact far beyond the result
  let half := fxPi / 2
  let k := v / half
  let rr := (v - k * half).toNat
  let q := ((if isCos then k + 1 else k) % 4).toNat
  let z := rr * rr / fxOne
  let s := seriesLoop true z (fun k => (2 * k + 2) * (2 * k + 3)) 200 0 rr false 0
  let c := seriesLoop true z (fun k => (2 * k + 1) * (2 * k + 2)) 200 0 fxOne false 0
  let mag := if q % 2 = 0 then s else c
  let neg := decide (2 ≤ q)
  -- a result just below a power of two times the unit is given from below, so that sticky holds
  ⟨if isCos then neg else neg != n, (if q % 2 = 0 then mag else mag - 1).toNat, -(fxBits : Int), true⟩

def fsin (m : Fmt) (r : RCtx) (a : W64) : W64 × Flags :=
  match fdecode m a with
  | .nan _ s => nanOut m (if s then fNV else 0)
  | .inf _ => nanOut m fNV
  | .fin n x e =>
    if x = 0 then (fpack m n 0, 0)
    else if (Nat.log2 x : Int) + e < -200 then
      -- |sin x| lies just below |x|
      roundTo m r.mode r.sat r.rho ⟨n, x * 2 ^ wide - 1, e - wide, true⟩
    else roundTo m r.mode r.sat r.rho (fxSinCos false n x e)

def fcos (m : Fmt) (r : RCtx) (a : W64) : W64 × Flags :=
  match fdecode m a with
  | .nan _ s => nanOut m (if s then fNV else 0)
  | .inf _ => nanOut m fNV
  | .fin _ x e =>
    if x = 0 then roundTo m .towardZero false 0 ⟨false, 1, 0, false⟩
    else roundTo m r.mode r.sat r.rho (fxSinCos true false x e)

end Sys2Proof.Machine
end

