-- ==== Sys2Proof/Machine/Conv.lean ====
section
/-! DEFINITION. Conversions (R71 to R74, R160), packed operations (R51, R158, R159, R161), matrix sums (R75 to R77)
and wavefield blocks (R78, R79). -/

namespace Sys2Proof.Machine

/-! ### Conversions -/

/-- A finite, infinite or NaN value to a floating type (R71). `exactRow` marks the pairs of the first row. -/
def toFloat (exactRow : Bool) (m : Fmt) (r : RCtx) (v : FVal) : W64 × Flags :=
  match v with
  | .nan n s =>
    if m.kind = .finite then (fpack m n m.maxBits, fNV) else nanOut m (if s then fNV else 0)
  | .inf n =>
    match m.kind with
    | .ieee => (fpack m n (if r.sat && !exactRow then m.maxBits else m.infBits), 0)
    | .e4m3 => if r.sat then (fpack m n m.maxBits, 0) else nanOut m fNV
    | .finite => (fpack m n m.maxBits, fNV)
  | .fin n x e => roundTo m r.mode r.sat r.rho ⟨n, x, e, false⟩

/-- A floating value to an integer type (R72). -/
def floatToInt (n : Nat) (signed : Bool) (r : RCtx) (v : FVal) : W64 × Flags :=
  match v with
  | .nan _ _ => (0, fNV)
  | .inf neg => (ofInt (if neg then intMin n signed else intMax n signed), fNV)
  | .fin neg x e =>
    if x = 0 then (0, 0)
    else
      let (k, inexact) := quantise r.mode neg r.rho x e false (max 0 e)
      let k := k * 2 ^ (max 0 e).toNat
      let y : Int := if neg then -(k : Int) else k
      if y < intMin n signed then (extend n signed (ofInt (intMin n signed)), fNV)
      else if intMax n signed < y then (extend n signed (ofInt (intMax n signed)), fNV)
      else (extend n signed (ofInt y), if inexact then fNX else 0)

/-- A floating value to a block scale (R74). -/
def floatToScale (v : FVal) : W64 × Flags :=
  match v with
  | .nan _ _ => (0xFF, fNV)
  | .inf _ => (0xFF, fNV)
  | .fin _ x e =>
    if x = 0 then (0, fNX)
    else
      let l : Int := (Nat.log2 x : Int) + e
      if 128 ≤ l then (0xFE, fOF ||| fNX)
      else if l < -127 then (0, fNX)
      else (ofInt (l + 127), if x = 2 ^ Nat.log2 x then 0 else fNX)

/-- The value of a block scale (R56). -/
def scaleVal (s : Nat) : FVal := if s = 255 then .nan false false else .fin false 1 ((s : Int) - 127)

/-- CVT by its pair of types (R160); the source read is a pattern of the source's width. -/
def cvtOp (src dst : BitVec 6) (r : RCtx) (a : W64) : W64 × Flags :=
  let sw := tyWidth src
  if tyInt src then
    let x := toInt sw (tySigned src) a
    if tyInt dst then narrow (tyWidth dst) (tySigned dst) r.sat x
    else roundTo (fmtOf dst) r.mode r.sat r.rho ⟨decide (x < 0), x.natAbs, 0, false⟩
  else if tyFloat src then
    let v := fdecode (fmtOf src) a
    if tyInt dst then floatToInt (tyWidth dst) (tySigned dst) r v
    else if tyFloat dst then toFloat (widensExactly src dst) (fmtOf dst) r v
    else floatToScale v
  else
    let s := a.toNat % 256
    if tyFloat dst then toFloat (dst == 0x10 || dst == 0x11 || dst == 0x13) (fmtOf dst) r (scaleVal s)
    else (BitVec.ofNat 64 s, 0)

/-! ### Packed elements (R51, R158, R159, R161) -/

/-- Element i of width w of a pattern. -/
def elem (w i : Nat) (x : W64) : W64 := BitVec.ofNat 64 (x.toNat / 2 ^ (w * i) % 2 ^ w)

/-- A two-element operation: both elements, flags ORed; each element has its own rounding context. -/
def packed2 (op : RCtx → W64 → W64 → W64 → W64 × Flags) (r0 r1 : RCtx) (a b c : W64) : W64 × Flags :=
  let (x, f) := op r0 (elem 16 0 a) (elem 16 0 b) (elem 16 0 c)
  let (y, g) := op r1 (elem 16 1 a) (elem 16 1 b) (elem 16 1 c)
  (elem 16 0 x ||| (elem 16 0 y <<< 16), f ||| g)

/-- The exact dot product of n packed integer elements. -/
def idotInt (w : Nat) (signed : Bool) (a b : W64) : Nat → Int
  | 0 => 0
  | n + 1 => idotInt w signed a b n + toInt w signed (elem w n a) * toInt w signed (elem w n b)

/-- IDP4 (R159). -/
def idp4Op (t : BitVec 6) (sat : Bool) (a b c : W64) : W64 × Flags :=
  let w := tyWidth t
  narrow 32 (tySigned t) sat (toInt 32 (tySigned t) c + idotInt w (tySigned t) a b (32 / w))

/-- FDP2 (R159). -/
def fdp2Op (t : BitVec 6) (r : RCtx) (a b c : W64) : W64 × Flags :=
  let m := fmtOf t
  let d := fun (x : W64) (i : Nat) => fdecode m (elem 16 i x)
  fdot fmt32 r [(d a 0, d b 0), (d a 1, d b 1)] [fdecode fmt32 c]

/-- PACK (R161). Its 32 bits enter a group register with zeros above them, whatever the type (DESIGN CHOICE, log 72). -/
def packOp (t : BitVec 6) (a b : W64) : W64 :=
  let w := tyWidth t
  let k := 32 / w * w
  BitVec.ofNat 64 (b.toNat % 2 ^ k / 2 ^ w + a.toNat % 2 ^ w * 2 ^ (k - w))

/-- UNPK (R161): a floating element extends by zeros, a signed one by sign. -/
def unpkOp (t : BitVec 6) (i : Nat) (a : W64) : W64 :=
  extend (tyWidth t) (tySigned t) (elem (tyWidth t) i a)

/-! ### Matrix sums (R60, R75 to R77) -/

/-- A value times a block scale (R60): NaNs and infinities keep their meaning; a NaN scale makes a NaN. -/
def scaleBy (s : Nat) (v : FVal) : FVal :=
  if s = 255 then .nan false false
  else match v with
    | .fin n m e => .fin n m (e + ((s : Int) - 127))
    | w => w

/-- One chunk of R75: the accumulator plus the exact products, rounded once to .f32 (R76). -/
def mmaChunk (acc : W64) (terms : List (FVal × FVal)) : W64 :=
  (fdot fmt32 ⟨.nearestEven, false, 0⟩ terms [fdecode fmt32 acc]).1

/-- The chunks of R75 in order. -/
def mmaSum : List (List (FVal × FVal)) → W64 → W64
  | [], acc => acc
  | c :: l, acc => mmaSum l (mmaChunk acc c)

/-- The integer sum of R77, modulo 2^32. -/
def mmaInt (acc : W32) (terms : List (Int × Int)) : W32 :=
  acc + BitVec.ofInt 32 ((terms.map (fun p => p.1 * p.2)).sum)

/-! ### Wavefield blocks (R78, R79) -/

/-- Field width m of a wavefield TYPE code, and the words of a block. -/
def bfpBits (t : BitVec 6) : Nat := if t = 0x20 then 7 else if t = 0x21 then 11 else 15
def bfpWords (t : BitVec 6) : Nat := if t = 0x20 then 4 else if t = 0x21 then 6 else 8

/-- floor(log₂ |x|) of the largest finite input, none where all finite inputs are zero. -/
def bfpTop : List FVal → Option Int
  | [] => none
  | .fin _ m e :: l =>
    if m = 0 then bfpTop l
    else
      let k : Int := (Nat.log2 m : Int) + e
      some (match bfpTop l with | some j => max j k | none => k)
  | _ :: l => bfpTop l

/-- The magnitude M of one input at exponent E, before the final clamp. -/
def bfpMag (q : Nat) (ex : Int) (v : FVal) : Nat :=
  match v with
  | .fin _ m e => if m = 0 then 0 else (quantise .nearestEven false 0 m e false (ex - 127 - q)).1
  | _ => 2 ^ (q + 1) - 1

/-- The loop of R79: at most one step of E is needed, so two rounds of fuel always suffice. -/
def bfpLoop (q : Nat) (vs : List FVal) : Nat → Int → Int
  | 0, ex => ex
  | k + 1, ex =>
    if ex = 254 then ex
    else if vs.any (fun v => match v with | .fin _ _ _ => bfpMag q ex v == 2 ^ (q + 1) | _ => false) then
      bfpLoop q vs k (ex + 1)
    else ex

structure BfpBlock where
  e : Nat
  zb : Bool
  iv : Bool
  s : List Bool
  m : List Nat
  deriving DecidableEq, Repr

def fvalNeg : FVal → Bool
  | .nan n _ => n
  | .inf n => n
  | .fin n _ _ => n

/-- bfp_encode (R79) of sixteen .f32 patterns. -/
def bfpEncode (bits : Nat) (xs : List W64) : BfpBlock :=
  let q := bits - 2
  let vs := xs.map (fdecode fmt32)
  let s := vs.map fvalNeg
  if vs.all (fun v => match v with | .fin _ m _ => m == 0 | _ => false) then
    ⟨0, true, false, s, vs.map (fun _ => 0)⟩
  else
    let e0 : Int := match bfpTop vs with
      | none => 254
      | some l => max 1 (min 254 (l + 127))
    let e := bfpLoop q vs 3 e0
    ⟨e.toNat, false, vs.any (fun v => match v with | .fin _ _ _ => false | _ => true), s,
      vs.map (fun v => min (bfpMag q e v) (2 ^ (q + 1) - 1))⟩

/-- Field bits from element i on, as a number. -/
def bfpFields (bits : Nat) : List Bool → List Nat → Nat
  | s :: ss, m :: ms => (if s then 2 ^ (bits - 1) else 0) + m + 2 ^ bits * bfpFields bits ss ms
  | _, _ => 0

/-- The block as one little-endian number (R78). -/
def bfpBlockNat (bits : Nat) (b : BfpBlock) : Nat :=
  b.e + 2 ^ 8 * ((if b.zb then 1 else 0) + (if b.iv then 2 else 0)) + 2 ^ 16 * bfpFields bits b.s b.m

/-- The decoded value of one field (R78). -/
def bfpValue (bits e : Nat) (zb neg : Bool) (m : Nat) : W64 :=
  if zb then fpack fmt32 neg 0
  else (roundTo fmt32 .nearestEven false 0 ⟨neg, m, (e : Int) - 127 - (bits - 2 : Nat), false⟩).1

/-- The flags one input of an encoding raises (R163). -/
def bfpFlags (bits : Nat) (b : BfpBlock) (i : Nat) (x : W64) : Flags :=
  match fdecode fmt32 x with
  | .fin n m _ =>
    if m = 0 then 0
    else if bfpValue bits b.e b.zb n (b.m.getD i 0) = BitVec.ofNat 64 (x.toNat % 2 ^ 32) then 0 else fNX
  | _ => fNV

/-- bfp_decode (R78) of a block given as a number: sixteen values, and whether it is malformed. -/
def bfpDecode (bits blk : Nat) : List W32 × Bool :=
  let e := blk % 256
  let b1 := blk / 256 % 256
  let zb := b1 % 2 = 1
  let bad := decide (4 ≤ b1 ∨ e = 255 ∨ b1 = 3)
  if bad then (List.replicate 16 0x7FC00000, true)
  else
    ((List.range 16).map (fun i =>
      let f := blk / 2 ^ (16 + bits * i) % 2 ^ bits
      (bfpValue bits e zb (decide (2 ^ (bits - 1) ≤ f)) (f % 2 ^ (bits - 1))).setWidth 32), false)

end Sys2Proof.Machine
end

