-- ==== Sys2Proof/Machine/State.lean ====
section
/-! DEFINITION. The whole package as plain data: memory, groups, cores, teams, launches, engines, translation, leases,
trust and the links (INVENTORY.md, "State", names the rule of each part). -/

namespace Sys2Proof.Machine

/-- Why the machine stops. -/
inductive Fault where
  /-- `exec` of an encoded instruction while `focus` names no group: no group is there to execute it. Raised by the
  shared sweep entry; `step` never does this. Safe: the model stops and claims nothing. -/
  | noGroup
  /-- A step of a package that thermal shutdown has stopped (R459), or that a failed cold boot holds in reset (R458), other
  than its next cold boot. Raised by `step`; safe. -/
  | packageDown
  deriving DecidableEq, Repr

/-- What the model refuses. -/
inductive Refusal where
  /-- An instruction whose meaning is not written yet, by its mnemonic; raised by `exec`. Safe. -/
  | notModelled (mnemonic : String)
  deriving DecidableEq, Repr

/-! ### Memory -/

/-- Byte memory by home address: physical addresses below 2^56, homes of leased extents from 2^60 (log 13), vault
SRAM from 2^62. `tags` are granule numbers (R96), `errs` 64-byte units marked by an uncorrectable error (R305). -/
structure Memory where
  cells : Tab Byte
  tags : KeySet
  errs : KeySet
  deriving DecidableEq, Repr

/-- What a byte that nothing has written reads as (R299 for vaults; log 1 for memory). -/
def Memory.blank : Byte := 0

/-- Sorted sets of numbers. -/
def KeySet.wf : KeySet → Bool
  | [] => true
  | [_] => true
  | a :: b :: l => decide (a < b) && KeySet.wf (b :: l)

/-- The canonical form: addresses strictly rising, no cell listed at the blank value, sets sorted. -/
def Memory.wf (m : Memory) : Bool :=
  Tab.wf m.cells && m.cells.all (fun c => c.2 != Memory.blank) && KeySet.wf m.tags && KeySet.wf m.errs

/-! ### Threads and groups (R12 to R37) -/

inductive TStat where
  | runnable | waiting | held | exited
  deriving DecidableEq, Repr

/-- What a waiting thread waits for (R17, R373). -/
inductive WaitKind where
  | none | bar | barc | atTime | sleep | handle | join | sys
  deriving DecidableEq, Repr

/-- A thread. The program counter is the address of `code` (R27). -/
structure Thread where
  st : TStat
  wait : WaitKind
  barNum : Nat
  code : Cap
  kept : Cap
  tpc : W64
  v : Tab W32
  w : Tab W32
  c : Tab Cap
  p : BitVec 8
  fpst : W32
  deriving DecidableEq, Repr

/-- A replay record (R361): a held sweep, its resume index and what it carries. `inFlight` marks a sweep that no stop holds: it
has only come so far (R21, log 3). -/
structure Held where
  seq : Nat
  iaddr : W64
  instr : Instr
  res : Nat
  flag : Option Nat
  active : KeySet
  defer : KeySet
  dflags : BitVec 6
  data : Tab W64
  snap : Tab (Tab W32)     -- vector registers, before the sweep, of the threads it has completed (R117); 128 to 135 are w0 to w7
  aband : KeySet           -- their abandoned marks before the sweep (R243)
  words : List W32         -- the words as fetched
  inFlight : Bool
  deriving DecidableEq, Repr

/-- The clause being executed (R119 to R123): address of its next instruction, instructions left, flags to bind, and the
threads that began it at its header. -/
structure Clause where
  ipc : Nat
  left : Nat
  set0 : Nat
  set1 : Nat
  bound : Bool
  set : KeySet
  deriving DecidableEq, Repr

/-- Trap mode (R37, R346): the trap registers, the tpc delivered, the interrupted clause and held sweeps, and the handler
threads that have left by ERET. -/
structure Trap where
  tcause : BitVec 16
  tinst : W32
  tmask : KeySet
  tres : Nat
  dtpc : W64
  clause : Option Clause
  saved : List Held
  left : KeySet
  deriving DecidableEq, Repr

/-- A delivery: of a stop (R24) or of a sweep end (R25), not yet taken, or the one a supervisor core holds (R365). -/
structure Delivery where
  tcause : BitVec 16
  tres : Nat
  tmask : KeySet
  tpc : W64
  tinst : W32
  seq : Nat
  faddr : W64
  detail : W64
  inHandler : Bool
  deriving DecidableEq, Repr

/-- A stop whose younger sweeps in flight are being drained (R24): the thread below which they complete, how many more were
in flight, how many held sweeps have been taken to it, and the delivery that follows; none where the oldest sweep has only
come so far and goes on (R21, log 3). -/
structure Drain where
  lim : Nat
  more : Nat
  done : Nat
  d : Option Delivery
  deriving DecidableEq, Repr

/-- One register write of a pending long-latency result (R23, R34, R208). -/
inductive PWrite where
  | v (t r : Nat) (x : W32)
  | g (r : Nat) (x : W64)
  | c (t r : Nat) (x : Cap)
  | gc (r : Nat) (x : Cap)
  | p (t r : Nat) (b : Bool)
  | h (r : Nat) (x : Option W64)
  | acc (t r : Nat)          -- an ACCRD's write, whose value the engine has not produced yet (R255)
  deriving DecidableEq, Repr

/-- A long-latency instruction in flight: its flag and its writes; `ldw` ones are interlocked by marks (R208), `load` ones
are a load's (R172). -/
structure Pend where
  seq : Nat
  flag : Option Nat
  ldw : Bool
  load : Bool
  writes : List PWrite
  deriving DecidableEq, Repr

/-- What holds the whole group (R33, R191, R256). -/
inductive Hold where
  | none
  | at (ftime : W64)
  | sleep (clock : Nat)
  | handles (hs : List W64)
  | release                  -- a RELEASE that waits (R252)
  deriving DecidableEq, Repr

/-- Whether the group issues (R295, R365). -/
inductive ParkState where
  | running
  | delivered      -- parked by a delivery to the supervisor core
  | requested      -- a park was asked for and its waits have not ended (R295)
  | stopping       -- to stop at its next clause boundary, for a walk or a switch (R103, R296)
  | evicting       -- to stop at its next clause boundary, for its partition to evict it (R45)
  | missing        -- a park whose save area is not named (R375)
  | missingEvict   -- an eviction whose save area is not named
  | missingStop    -- a switch whose save area is not named
  | parked
  deriving DecidableEq, Repr

/-- Engine program information (R260, R261). -/
structure Prog where
  sq : Nat
  seq : Nat
  hcore : Nat
  start : W64
  ops : List W64
  outcome : Option W32
  deriving DecidableEq, Repr

/-- The registers of a group (R27). -/
structure GRegs where
  g : Tab W64
  gc : Tab Cap
  h : Tab W64
  fl : Tab Nat
  fmt : W32
  fpctl : W32
  deriving DecidableEq, Repr

/-- Identifiers of a group (R12 to R15) and its row budget (R43). `team` is the key of its team in `State.teams`. -/
structure GIds where
  team : Nat
  grp : Nat
  asid : Nat
  world : Nat
  budget : Nat
  rows : Nat          -- general rows this group holds from its partition, trap windows apart
  rsv : Nat           -- reserve rows it holds (R44)
  place : Nat         -- its place among the groups of its team, 0 to 63, at which a save area holds it (R374)
  deriving DecidableEq, Repr

/-- Scheduling of a group (R288 to R290): the override's count, the clauses run under it and its thread; a yield's end and the
positions that rr has still to pass; the slot owed; since when the next sweep is ready; the clock after that of the last
issue, 0 for none; and how many younger sweeps the next stop finds in flight (R21, R24). -/
structure GSched where
  ovc : Nat
  ovl : Nat
  ovOn : Bool
  ovT : Nat
  yieldUntil : Nat
  yieldLeft : Nat
  owed : Bool
  readySince : Option Nat
  issuedAt : Nat
  ahead : Nat
  deriving DecidableEq, Repr

/-- A resident group. -/
structure Group where
  ids : GIds
  th : Tab Thread
  r : GRegs
  mapped : KeySet
  sb : KeySet          -- copy scoreboard bits, register · 256 + thread (R243)
  aband : KeySet       -- abandoned marks, register · 256 + thread (R243, R315)
  pend : List Pend
  clause : Option Clause
  handler : Cap
  trap : Option Trap
  held : List Held
  deliv : Option Delivery
  drain : Option Drain
  sup : Option Delivery
  park : ParkState
  hold : Hold
  sched : GSched
  prog : Option Prog
  deriving DecidableEq, Repr

/-! ### Copies and matrix records -/

/-- A parsed layout record (R234). -/
structure Layout where
  src : Cap
  ndim : Nat
  stype : BitVec 6
  dtype : BitVec 6
  zpad : Bool
  rsvd : Bool
  ext : List Nat
  sstr : List Int
  dpitch : List Nat
  deriving DecidableEq, Repr

/-- A copy in its channel (R237 to R242, R363); `die` marks one that a supervisor core issued (R298). -/
structure Copy where
  seq : Nat
  hcore : Nat
  gk : Nat
  flag : Option Nat
  team : Nat
  asid : Nat
  world : Nat
  cpyc : Bool
  count : Nat
  next : Nat
  ops : List W32
  dest : Cap
  lay : Layout
  accepted : Bool
  cancel : Bool
  dropped : Bool
  malformed : Bool
  ends : Bool
  die : Bool
  deriving DecidableEq, Repr

/-- A matrix record (R364, R394): 4 MMA, 5 MMZ, 6 ACCRD, 7 ACCWR; its own sequence number and its sweep's (R39); `parts` are
participants, `data` ACCWR's values. -/
structure MRec where
  seq : Nat
  sweep : Nat
  issued : Nat
  op : Nat
  slotA : Nat
  slotB : Nat
  tile : Nat
  row : Nat
  fmt : W32
  team : Nat
  world : Nat
  gk : Nat
  flag : Option Nat
  dreg : Nat
  parts : KeySet
  data : Tab W32
  deriving DecidableEq, Repr

/-- A pass of the array (R392 to R394). `rows` are the tile elements it will write, keyed row · 128 + column. -/
structure Pass where
  recs : List MRec
  opened : Nat
  rows : List (Nat × Nat × Tab W32)
  ends : Nat
  deriving DecidableEq, Repr

/-! ### Cores -/

/-- A line of the vector L1 (R301), keyed by ASID · 2^57 + virtual line number in `L1.lines`: `valid` has a bit for each
32-byte sector, `world` is the world it was filled for (R377), `level` the size of its page (R417). -/
structure Line where
  valid : BitVec 4
  world : Nat
  level : Nat
  home : Nat
  data : List Byte
  tags : BitVec 8
  perms : BitVec 3
  slot : Option Nat
  lgc : BitVec 4
  lgd : BitVec 4
  deriving DecidableEq, Repr

/-- The vector L1 of a core with its generations and fills on their way (R301 to R304). -/
structure L1 where
  cgc : BitVec 4
  cgd : BitVec 4
  passC : Bool
  passD : Bool
  lines : Tab Line
  fills : Tab Line
  order : List Nat
  deriving DecidableEq, Repr

/-- One spawn record (R187). -/
structure SpawnRec where
  entry : Cap
  args : List W32
  deriving DecidableEq, Repr

/-- A spawn bin (R187 to R189). -/
structure Bin where
  team : Nat
  entry : W64
  recs : List SpawnRec
  deadline : Nat
  timer : Nat
  due : Bool
  deriving DecidableEq, Repr

/-- A partition's rows and picker position (R40, R44, R288), and how many sweeps it has issued in the clock before `pickAt`. -/
structure Part where
  gen : Nat
  rsv : Nat
  freeing : Nat
  rr : Nat
  pickAt : Nat
  picked : Nat
  deriving DecidableEq, Repr

/-- The supervisor core's registers of R366, its rings' held-back records, and what its last load gave it. -/
structure Sup where
  pwsel : BitVec 7
  pwtid : BitVec 8
  pwidx : BitVec 12
  pwdata : W64
  busy : Bool
  result : BitVec 3
  savebase : W64
  evbase : W64
  evsize : BitVec 4
  evhead : Nat
  evtail : Nat
  waiting : List (List Byte)
  int16 : Bool
  rd : List Byte
  deriving DecidableEq, Repr

/-- Temperature, droop and power of a core (R281, R282, R378). -/
structure CPower where
  temp : Nat
  droop : Nat
  closed : Bool
  gated : Bool
  lostRet : Bool
  lastWorld : Option Nat
  deriving DecidableEq, Repr

/-- The status store of a core (R231, R232): operations in flight, statuses, their order of completion and worlds, and the
core that ran an operation where it was another (R339). -/
structure Store where
  live : KeySet
  stat : Tab W32
  order : List Nat
  worlds : Tab Nat
  ran : Tab Nat
  deriving DecidableEq, Repr

/-- The matrix engine of a core (R392 to R394): records queued, the open pass, closed ones, the one that holds the array, those that
have left it and still write their rows, and the tile operations that have arrived and wait. -/
structure Chamois where
  queue : List MRec
  opn : Option Pass
  closed : List Pass
  run : Option Pass
  ended : List Pass
  waits : List MRec
  deriving DecidableEq, Repr

/-- A core. Queued engine programs wait in `pq0` and `pq1`; running ones are groups at positions 128 and 129. `formed` is the
clock after that in which a bin last formed a group (R285), `owedAt` that of the last OWED_REFRESH (R288). `flows` are the sequence
numbers of each world's traffic into the network (R451). -/
structure Core where
  seq : Nat
  l1 : L1
  ic : Tab Line
  wp : Tab W64
  wpWorld : Tab Nat
  ch : Tab (List Copy)
  serving : Tab Bool
  store : Store
  bins : Tab Bin
  binTimers : Tab Nat
  formed : Nat
  owedAt : Nat
  pq0 : List Group
  pq1 : List Group
  mx : Chamois
  parts : Tab Part
  ret : List Group
  sup : Sup
  pw : CPower
  flows : Tab Nat
  deriving DecidableEq, Repr

/-! ### Teams, units, launches -/

/-- A claim that waits (R251), or a release that waits (R252). -/
structure ClaimReq where
  slots : Nat
  tiles : Nat
  gk : Nat
  flag : Option Nat
  preg : Nat
  parts : KeySet
  seq : Nat
  since : Nat
  deriving DecidableEq, Repr

/-- A team (R12 to R15, R248 to R252, R283). Keys of the tables: slot · 2^16 + byte, slot · 2^12 + byte,
tile · 2^14 + element. A team that has retired keeps its window until its unit's work has ended (log 26). -/
structure Team where
  num : Nat
  launch : Nat
  unit : Nat
  pos : Nat
  core : Nat
  idx : Nat
  vbase : Nat
  vlen : Nat
  slotCeil : Nat
  tileCeil : Nat
  slots : Nat
  tiles : Nat
  sdat : Tab Byte
  sscale : Tab Byte
  tdat : Tab W32
  claim : Option ClaimReq
  relSlots : Bool
  relTiles : Bool
  nextGrp : Nat
  placed : Bool
  retired : Bool
  deriving DecidableEq, Repr

/-- What a context switch saves of a unit (R296, R374, R376), with the addresses of its teams' save areas (R375). -/
structure UnitSave where
  groups : List Group
  copies : List (Nat × Nat × Copy)
  mrecs : List (Nat × MRec)
  progs : List (Nat × Nat × Group)
  vaults : Tab (Tab Byte × KeySet)
  areas : Tab Nat
  deriving DecidableEq, Repr

/-- A cluster unit (R277). -/
structure CUnit where
  launch : Nat
  index : Nat
  w : Nat
  h : Nat
  teams : List Nat
  saved : Option UnitSave
  deriving DecidableEq, Repr

/-- States of a launch (R276). -/
inductive LState where
  | reading | dependent | timed | queued | running | ending | final
  deriving DecidableEq, Repr

/-- A launch (R262, R276). -/
structure Launch where
  st : LState
  core : Nat
  seq : Nat
  gk : Option Nat
  flag : Option Nat
  recBytes : List (BitVec 128 × Bool)
  world : Nat
  asid : Nat
  entry : Cap
  args : List Cap
  nteam : Nat
  ngrp : Nat
  lastn : Nat
  rows : Nat
  slots : Nat
  tiles : Nat
  prio : Nat
  w : Nat
  h : Nat
  vault : Nat
  timed : Bool
  start : W64
  deps : List W64
  placedUnits : Nat
  teamsLeft : Nat
  bySup : Bool
  deriving DecidableEq, Repr

/-- A run of units of one launch in a distributor queue; `back` marks a pre-empted unit (R278, R296). -/
structure QEnt where
  launch : Nat
  lo : Nat
  hi : Nat
  back : Bool
  deriving DecidableEq, Repr

/-- The distributor (R278). -/
structure Dist where
  queues : Tab (List QEnt)
  head : Option (Nat × Nat)
  headSince : Nat
  aged : Bool
  nextLaunch : Nat
  nextUnit : Nat
  lastConsider : Nat
  deriving DecidableEq, Repr

/-- A request sent by SYS (R192). -/
structure SysReq where
  gk : Nat
  team : Nat
  grp : Nat
  seq : Nat
  service : Nat
  parts : KeySet
  caps : Tab Cap
  vals : Tab W32
  areg : Nat
  breg : Option Nat
  deriving DecidableEq, Repr

/-! ### Translation, leases, revocation, residency -/

/-- Where a translation is cached (R414). -/
inductive TlbAt where
  | core (n : Nat)
  | cluster (unit : Nat)
  | chip
  deriving DecidableEq, Repr

/-- A cached translation (R414); `count` is that of R423 in a chip entry. -/
structure Tlb where
  place : TlbAt
  asid : Nat
  gen : Nat
  vpn : Nat
  level : Nat
  ppn : Nat
  bits : BitVec 8
  io : Bool
  count : BitVec 16
  deriving DecidableEq, Repr

/-- A command of the translation control page under way (R418). -/
structure TCmd where
  op : Nat
  asid : Nat
  va : W64
  len : W64
  deriving DecidableEq, Repr

/-- A remote-fence request under way (R420). -/
structure RFReq where
  kind : Nat
  icache : Bool
  asid : Nat
  va : W64
  len : W64
  deriving DecidableEq, Repr

/-- What the host on an upstream link sees of the device, each host its own (R420, R446): bytes of the configuration space, the
BARs, MSI-X enabled, the words of the MSI-X table, four for each vector, the remote-fence registers with the requests under way,
and how often vector 0 has been raised. -/
structure HostSide where
  cfg : Tab Byte
  bars : Tab W64
  msixOn : Bool
  table : Tab W32
  rfasid : BitVec 16
  rfva : W64
  rflen : W64
  rfdone : W64
  rfreqs : List RFReq
  msix : Nat
  deriving DecidableEq, Repr

/-- Translation (R413 to R420). The remote fences of R420 stand with the host that asks for them. -/
structure Xlat where
  tva : W64
  tlen : W64
  busy : Bool
  refused : Bool
  gensel : BitVec 16
  gens : Tab (BitVec 12)
  tbase : W64
  tdump : W64
  tdlen : W64
  tthr : BitVec 16
  cmds : List TCmd
  tlb : List Tlb
  bound : Tab Nat          -- device ASID to host ASID and link: hostAsid · 64 + link (R420, R446)
  detached : KeySet
  deriving DecidableEq, Repr

/-- A lender table entry (R424). `silent` marks that the borrower answers no more, and `wait` is the fabric time since which a snoop
or a release has had no answer (R433). -/
structure Lender where
  ebase : W32
  elen : W32
  lid : W32
  borrower : BitVec 16
  mode : Byte
  st : Byte
  expiry : W64
  viol : W32
  silent : Bool
  wait : Option Nat
  deriving DecidableEq, Repr

/-- A borrower slot (R426). `flushed` marks that the flush of R433 or R434 has ended, `releasing` that a RELEASE waits for it
(R429); `silent` marks that the lender answers no more, and `wait` is the fabric time since which a request has had no answer
(R433). -/
structure Slot where
  lender : BitVec 16
  mode : Byte
  st : Byte
  lid : W32
  ebase : W32
  elen : W32
  expiry : W64
  salv : W64
  salvlen : W32
  salvn : W32
  dropped : W32
  flushed : Bool
  releasing : Bool
  silent : Bool
  wait : Option Nat
  deriving DecidableEq, Repr

/-- A lease line held by the borrower's slice (R431): exclusive or shared, modified, with its data. -/
structure LeaseLine where
  excl : Bool
  dirty : Bool
  data : List Byte
  tags : BitVec 8
  deriving DecidableEq, Repr

/-- A line that a borrower holds of an extent lent read-write, as the lender's home slice has it (R431): its entry, held
exclusive or shared, and the bytes and tags that the borrower has modified it to. `snoop` marks one that the borrower has given up
to a snoop: its write-back stands at the slice, on its way to memory. -/
structure FarLine where
  entry : Nat
  excl : Bool
  snoop : Bool
  mod : Option (List Byte × BitVec 8)
  deriving DecidableEq, Repr

/-- A message to another package (R427, R429, R433), to a host, or to the management controller (R458, R459). -/
inductive Msg where
  | addCapacity (idx : Nat) (peer : BitVec 12) (lid : W32) (mode : Byte) (ebase elen : W32) (expiry : W64)
  | accepted (peer : BitVec 12) (lid : W32)
  | forcedRelease (idx : Nat) (peer : BitVec 12) (lid : W32)
  | returned (slot : Nat) (peer : BitVec 12) (lid : W32)
  | beacon (serial : W64) (role : FabricRole) (candidate : Bool)
  | inboundReply (port : Nat) (ok : Bool) (data : List Byte)
  | peerReply (peer : BitVec 12) (data : List Byte) (tags : BitVec 8)
  | bootFailed (step : Nat)
  | overheated (deg : Nat)
  deriving DecidableEq, Repr

/-- Markhor (R424 to R436). Lines held are keyed slot · 2^33 + line number in `lines`, lines lent by their number in `far`. -/
structure Lease where
  larg : W64
  busy : Bool
  result : BitVec 3
  evbase : W64
  evsize : BitVec 4
  evhead : Nat
  evtail : Nat
  waiting : List (List Byte)
  int17 : Bool
  lenders : Tab Lender
  slots : Tab Slot
  lines : Tab LeaseLine
  far : Tab FarLine
  deriving DecidableEq, Repr

/-- A revocation region (R102). -/
structure Region where
  hbase : W64
  hlen : W64
  map : W64
  asid : Nat
  deriving DecidableEq, Repr

/-- Revocation (R103 to R105). `phase` is 0 when no sweep is armed, else 2 to 4 for what has still to be done; `waitOps` are the
copies and programs, by core and number of their handles, and `waitMx` the matrix operations, by team and number, that phase 2
waits for, and `walked` the groups that
phase 3 has walked, as team · 2^16 + group. -/
structure Rev where
  tab : W64
  num : W64
  busy : Bool
  refused : Bool
  badIdx : Nat
  done : W64
  phase : Nat
  regions : List Region
  waitOps : List (Nat × Nat)
  waitMx : List (Nat × Nat)
  walked : KeySet
  deriving DecidableEq, Repr

/-- One residency schedule entry (R306). -/
structure RsEnt where
  pbase : W64
  npage : Nat
  stp : BitVec 16
  action : Byte
  deriving DecidableEq, Repr

/-- The residency unit of a die (R306 to R308): `page` is the physical address at which Mydal finds its STEP page, `kept` are
the kept regions as (base, pages). -/
structure Resid where
  page : Option Nat
  base : W64
  len : BitVec 13
  world : Nat
  active : Bool
  loading : Bool
  refused : Bool
  stp : BitVec 16
  ovf : Bool
  table : List RsEnt
  queue : List (BitVec 16)
  kept : List (Nat × Nat)
  deriving DecidableEq, Repr

/-! ### Trust, fabric, power -/

/-- A world slot of the key store (R448, R449): 0 empty, 1 building, 2 live; `key` numbers the key drawn, 0 for none. -/
structure World where
  st : Nat
  prot : Bool
  scrubbed : Bool
  token : BitVec 52
  digest : List Byte
  key : Nat
  retired : Bool
  deriving DecidableEq, Repr

/-- The key store (R448 to R456). `locked` are physical page numbers by world. -/
structure Keys where
  va : W64
  pa : W64
  busy : Bool
  result : BitVec 3
  handle : W64
  sel : BitVec 12
  worlds : Tab World
  locked : Tab Nat
  attest : Bool
  refuse : Bool
  deriving DecidableEq, Repr

/-- A link of a port (R437, R442, R445, R446): link k of port n, of the one, two or four into which the port is bifurcated,
stands under n + 16 · k. `peers` are the packages reached through it, `flow` the sequence number of its traffic (R451), `win`
the base and length of the MMIO window behind it; `cut` marks one whose link was hot-reset and that has not been mapped again, and
`host` is what a host upstream of it sees. -/
structure Port where
  role : PortRole
  up : Bool
  hot : Bool
  width : BitVec 4
  resets : BitVec 8
  asid : Nat
  peers : List (BitVec 12)
  tagExt : Bool
  flow : Nat
  win : Nat × Nat
  cut : Bool
  host : HostSide
  deriving DecidableEq, Repr

/-- The fabric role machine, system page and system events (R438 to R443, R457). `noTags` are peers beyond a hop that does not
carry tags (R101), `challenge` what the debug port offers, `inspect` the world that D0 is open for and `shown` what was read of it
(R457). `hostLink` is the link of the host whose remote fence the next event of the table is (the model's own; R420). -/
structure Sys where
  candidate : Bool
  role : FabricRole
  pbr : BitVec 12
  pbrValid : Bool
  heard : Tab Nat          -- serials of candidates whose beacons came, and when last
  mgrAt : Nat
  lastBeacon : Nat
  evbase : W64
  evsize : BitVec 4
  evhead : Nat
  evtail : Nat
  waiting : List (List Byte)
  int18 : Bool
  tier : BitVec 2
  tiers : BitVec 4
  ports : Tab Port
  noTags : KeySet
  challenge : Option (List Byte)
  inspect : Option Nat
  shown : List Byte
  hostLink : Nat
  deriving DecidableEq, Repr

/-- Fabric time (R440, R441). `frac` is the part of a unit of 1/16 ns that has passed beyond `ftime`, in units of
1/5342931457063200 of it, in which every clock of R459 is a whole number; `owe` is the correction, in those parts, that the rate
has still to make up (R440). -/
structure Time where
  clock : Nat
  ftime : Nat
  frac : Nat
  sync : Bool
  root : Bool
  target : Option Nat
  half : Bool
  correction : W32
  syncAt : Nat
  owe : Int
  deriving DecidableEq, Repr

/-- Package power and bring-up (R458 to R460). `failing` is the step at which the next cold boot will fail, `held` the one at
which the last one did, `ends` what stands at the far side of a link for a cold boot to train it to (its role, its width, and
whether it carries tags; R437), `fabricTime` the fabric's time where it can be had at a cold boot (R441), and `dieTemp` the
temperatures of vault and I/O dies (R459). -/
structure Power where
  stepsDown : Nat
  overLimit : Bool
  down : Bool
  failing : Option Nat
  held : Option Nat
  staged : Option W64
  installed : W64
  poolExtents : Nat
  ends : Tab (PortRole × BitVec 4 × Bool)
  fabricTime : Option Nat
  dieTemp : Tab Nat
  deriving DecidableEq, Repr

/-- One access that left for a device register or a link (R210, R445). -/
structure Mmio where
  write : Bool
  pa : Nat
  len : Nat
  data : List Byte
  deriving DecidableEq, Repr

/-- A page of registers among the MMIO pages (R105, R308, R418, R420, R428, R442, R450). -/
inductive CtlPage where
  | revocation
  | residency (die : Nat)
  | translation
  | fences (link : Nat)
  | leases
  | system
  | keys
  deriving DecidableEq, Repr

/-- Bytes of package memory written under a key of R451: 0 for bytes open to every reader. -/
structure Seal where
  base : Nat
  len : Nat
  key : Nat
  deriving DecidableEq, Repr

/-- Inputs and interleavings to come (log 7): which group runs, which event of the opcode table happens, and what the
outside world changes. -/
inductive Input where
  | run (gk : Nat)
  | runTo (gk t : Nat)
  | ev (i : Instr)
  | inFlight (gk n : Nat)
  | dropLine (core key : Nat)
  | codeLine (core asid va : Nat)
  | dropCode (core key : Nat)
  | dropTlb (idx : Nat)
  | temperature (core deg : Nat)
  | droops (core n : Nat)
  | powerOver (b : Bool)
  | superStore (core asid va pa : Nat) (data : List Byte)
  | superCap (core asid va pa : Nat) (c : Cap)
  | superLoad (core asid va pa : Nat)
  | superVault (core a : Nat) (data : List Byte)
  | superVaultLoad (core a n : Nat)
  | superVaultCap (core asid a : Nat) (c : Cap)
  | superMmio (core pa n : Nat)
  | superStatus (core : Nat) (h : W64)
  | superCopy (core ch asid : Nat) (lay : Layout) (ops : List W32) (dest : Cap)
  | ctlPage (base : Nat) (page : Option CtlPage)
  | register (r : Reg) (x : W64)
  | evtail (r : RingName) (x : W64)
  | residPage (die : Nat) (page : Option Nat)
  | routeTags (peer : Nat) (ok : Bool)
  | bindAsid (asid : Nat) (host : Option Nat)
  | retention (core : Nat) (lost : Bool)
  | portAsid (port asid : Nat)
  | portPeer (port : Nat) (peer : BitVec 12) (on : Bool)
  | flow (port n : Nat)
  | hostCfg (link off : Nat) (x : Byte)
  | hostBar (link n : Nat) (x : W64)
  | hostMsix (link : Nat) (on : Bool) (i : Nat) (x : W32)
  | linkEnd (link : Nat) (far : Option (PortRole × BitVec 4 × Bool))
  | fabricOffer (time : Option Nat)
  | hostLink (link : Nat)
  | copyAhead (core ch n : Nat)
  | farLine (entry pa : Nat) (excl : Bool) (mod : Option (List Byte × BitVec 8))
  | farWrite (home : Nat) (data : List Byte)
  | evictLine (key : Nat)
  | silent (lender : Bool) (idx : Nat) (on : Bool)
  | coreFlow (core world n : Nat)
  | dieTemperature (die deg : Nat)
  | challenge
  | response (tier world : Nat) (sig : List Byte)
  | inspect (team off n : Nat)
  | portWindow (port base len : Nat)
  | bootFails (step : Option Nat)
  deriving DecidableEq, Repr

/-- The machine. `roots` are the capabilities that system software holds from cold boot (R90). `focus`, `agenda`, `ctr`, `cut`,
`fetchStop` and `fetched` are the model's own (logs 3, 4, 7). -/
structure State where
  mem : Memory
  groups : Tab Group
  cores : Tab Core
  teams : Tab Team
  units : Tab CUnit
  launches : Tab Launch
  dist : Dist
  time : Time
  sysq : List SysReq
  xlat : Xlat
  lease : Lease
  rev : Rev
  resid : Tab Resid
  keys : Keys
  sys : Sys
  power : Power
  roots : List Cap
  owners : Tab Nat         -- the owner records of lines at their home slices, by home line number (R336)
  sealed : List Seal       -- the keys under which memory was last written, the last write first (R451)
  ctl : Tab CtlPage        -- where Mydal has mapped pages of registers, by physical base
  mmio : List Mmio
  out : List Msg
  agenda : List Input
  focus : Nat
  ctr : Nat
  cut : Option Nat         -- the thread before which the next sweep is left for now (R21)
  fetchStop : Option (Nat × BitVec 8 × W64 × W64)
  fetched : List W32
  deriving DecidableEq, Repr

/-! ### Reset -/

def Cap.null : Cap := ⟨0, false⟩

/-- A root capability (R90): address and BASE 0, unsealed, FLAGS zero, of length lm · 2^e. -/
def rootCap (perms lm e : Nat) : Cap := ⟨BitVec.ofNat 128 (perms * 2 ^ 112 + e * 2 ^ 94 + lm * 2 ^ 64), true⟩

/-- The five roots (R90): data, code, vault, device and sealing. -/
def rootCaps : List Cap :=
  [rootCap 0xB25B 0 63, rootCap 0x804D 0 63, rootCap 0xAA1B 0x6000 12, rootCap 0x1443 0 63, rootCap 0x81C0 256 0]

def Sup.reset : Sup := ⟨0, 0, 0, 0, false, 0, 0, 0, 4, 0, 0, [], false, []⟩

def L1.reset : L1 := ⟨0, 0, false, false, [], [], []⟩

/-- A partition at reset: 448 general and 64 reserve rows free (R40). -/
def Part.reset : Part := ⟨448, 64, 0, 0, 0, 0⟩

/-- A core at reset. Tables list only what differs from the empty value their readers use. -/
def Core.reset : Core :=
  ⟨0, L1.reset, [], [], [], [], [], ⟨[], [], [], [], []⟩, [], [], 0, 0, [], [], ⟨[], none, [], none, [], []⟩, [], [], Sup.reset,
    ⟨25, 0, false, false, false, none⟩, []⟩

/-- World 0 is Mydal's own (R448); that it is live at reset and every other slot empty and scrubbed is log 2. -/
def World.reset : World := ⟨0, false, true, 0, List.replicate 48 0, 0, false⟩
def World.mydal : World := ⟨2, false, true, 0, List.replicate 48 0, 1, false⟩

def Resid.reset : Resid := ⟨none, 0, 0, 0, false, false, false, 0, false, [], [], []⟩

/-- Nothing has been set up by a host; every vector of the MSI-X table is masked (PRESUMED: PCI Express, log 63). -/
def HostSide.reset : HostSide := ⟨[], [], false, [], 0, 0, 0, 0, [], 0⟩

def Port.reset : Port := ⟨.none, false, false, 0, 0, 0, [], false, 0, (0, 0), false, HostSide.reset⟩

/-- The machine after reset: cold boot has ended (R458), no launch is queued, no group is resident (log 2). -/
def State.reset : State where
  mem := ⟨[], [], []⟩
  groups := []
  cores := []
  teams := []
  units := []
  launches := []
  dist := ⟨[], none, 0, false, 0, 0, 0⟩
  time := ⟨0, 0, 0, false, false, none, false, 0, 0, 0⟩
  sysq := []
  xlat := ⟨0, 0, false, false, 0, [], 0, 0, 0, 0, [], [], [], []⟩
  lease := ⟨0, false, 0, 0, 4, 0, 0, [], false, [], [], [], []⟩
  rev := ⟨0, 0, false, false, 0, 0, 0, [], [], [], []⟩
  resid := []
  keys := ⟨0, 0, false, 0, 0, 0, [(0, World.mydal)], [], true, false⟩
  sys := ⟨true, .member, 0, false, [], 0, 0, 0, 4, 0, 0, [], false, 0, 0, [], [], none, none, [], 0⟩
  roots := rootCaps
  owners := []
  sealed := []
  ctl := []
  power := ⟨0, false, false, none, none, none, 0, 12288, [], none, []⟩
  mmio := []
  out := []
  agenda := []
  focus := 0
  ctr := 0
  cut := none
  fetchStop := none
  fetched := []

end Sys2Proof.Machine
end

