-- ==== Sys2Proof/Machine/Caps.lean ====
section
/-! DEFINITION. Capabilities: layout, bounds, derivation and sealing (R80 to R95). -/

namespace Sys2Proof.Machine

/-! ### Fields (R80) -/

def capAddr (c : Cap) : W64 := c.bits.extractLsb' 0 64
def capLm (c : Cap) : Nat := (c.bits.extractLsb' 64 15).toNat
def capDm (c : Cap) : Nat := (c.bits.extractLsb' 79 15).toNat
def capE (c : Cap) : Nat := (c.bits.extractLsb' 94 6).toNat
def capLease (c : Cap) : Bool := c.bits.getLsbD 100
def capOtype (c : Cap) : Nat := (c.bits.extractLsb' 104 8).toNat
def capPerms (c : Cap) : BitVec 16 := c.bits.extractLsb' 112 16

/-- A capability from its fields, the reserved bits clear. -/
def capMk (addr : W64) (lm dm e : Nat) (lease : Bool) (otype : Nat) (perms : BitVec 16) (tag : Bool) : Cap :=
  ⟨perms ++ BitVec.ofNat 8 otype ++ (0 : BitVec 3) ++ BitVec.ofBool lease ++ BitVec.ofNat 6 e ++ BitVec.ofNat 15 dm ++
    BitVec.ofNat 15 lm ++ addr, tag⟩

/-- Permission bits (R86). -/
def pLD : Nat := 0
def pST : Nat := 1
def pX : Nat := 2
def pLDC : Nat := 3
def pSTC : Nat := 4
def pROAM : Nat := 6
def pWRAP : Nat := 7
def pUNWRAP : Nat := 8
def pENG : Nat := 9
def pMMIO : Nat := 10
def pVLT : Nat := 11
def pSYS : Nat := 12
def pATOM : Nat := 13

def capHas (c : Cap) (p : Nat) : Bool := (capPerms c).getLsbD p
def capHasAll (c : Cap) (ps : List Nat) : Bool := ps.all (capHas c)

/-- cap_decode (R83): BASE and TOP, none when MALFORMED. -/
def capDecode (c : Cap) : Option (Nat × Nat) :=
  let a := (capAddr c).toNat
  let e := capE c
  let dm := capDm c
  let lm := capLm c
  if e = 63 then (if dm ≠ 0 ∨ lm ≠ 0 then none else some (0, 2 ^ 64))
  else if 43 ≤ e then none
  else if a / 2 ^ e < dm then none
  else
    let base := (a / 2 ^ e - dm) * 2 ^ e
    let top := base + lm * 2 ^ e
    if 2 ^ 64 < top then none else some (base, top)

def capBase (c : Cap) : Nat := match capDecode c with | some (b, _) => b | none => 0
def capTop (c : Cap) : Nat := match capDecode c with | some (_, t) => t | none => 0

/-- The pairs of permissions that never stand together (R88). -/
def permsOk (p : BitVec 16) : Bool :=
  let b := fun n => p.getLsbD n
  !b 5 && !b 14 && !(b pX && b pST) && !(b pX && b pVLT) && !(b pX && b pMMIO) && !(b pVLT && b pROAM) &&
    !(b pVLT && b pMMIO)

/-- What every tagged capability satisfies (R81). -/
def capWell (c : Cap) : Bool :=
  (capDecode c).isSome && c.bits.extractLsb' 101 3 == 0 && permsOk (capPerms c)

def capUntag (c : Cap) : Cap := { c with tag := false }

/-- Keep a tag only on a well-formed capability (R81). -/
def capSane (c : Cap) : Cap := if capWell c then c else capUntag c

def capWithAddr (c : Cap) (a : W64) : Cap := { c with bits := c.bits.extractLsb' 64 64 ++ a }
def capWithDm (c : Cap) (d : Nat) : Cap :=
  { c with bits := c.bits.extractLsb' 94 34 ++ BitVec.ofNat 15 d ++ c.bits.extractLsb' 0 79 }
def capWithOtype (c : Cap) (o : Nat) : Cap :=
  { c with bits := c.bits.extractLsb' 112 16 ++ BitVec.ofNat 8 o ++ c.bits.extractLsb' 0 104 }
def capWithPerms (c : Cap) (p : BitVec 16) : Cap := { c with bits := p ++ c.bits.extractLsb' 0 112 }

/-- cap_set_addr with an exact address (R84). -/
def capSetAddr (c : Cap) (a : Int) : Cap :=
  let r := capWithAddr c (BitVec.ofInt 64 a)
  if !c.tag || capOtype c != 0 then capUntag r
  else if a < 0 ∨ (2 : Int) ^ 64 ≤ a then capUntag r
  else if capE c = 63 then r
  else
    let d : Int := ((a.toNat / 2 ^ capE c : Nat) : Int) - ((capBase c / 2 ^ capE c : Nat) : Int)
    if d < 0 ∨ (2 : Int) ^ 15 ≤ d then capUntag r else capWithDm r d.toNat

/-- The smallest exponent of the search of R85, from `e` up with `fuel` candidates. -/
def boundsExp (b lim : Nat) : Nat → Nat → Option Nat
  | 0, _ => none
  | fuel + 1, e =>
    if (lim + 2 ^ e - 1) / 2 ^ e - b / 2 ^ e ≤ 2 ^ 15 - 1 then some e else boundsExp b lim fuel (e + 1)

/-- cap_set_bounds (R85): the result, and whether REFNARX stops with CAP_INEXACT. -/
def capSetBounds (c : Cap) (n : Nat) (exact : Bool) : Cap × Bool :=
  let b := (capAddr c).toNat
  let lim := b + n
  let r := capUntag c
  if !c.tag || capOtype c != 0 then (r, false)
  else if b < capBase c ∨ capTop c < lim then (r, false)
  else if b = 0 ∧ lim = 2 ^ 64 ∧ capE c = 63 then (c, false)
  else match boundsExp b lim 43 0 with
    | none => (r, false)
    | some e =>
      let nb := b / 2 ^ e * 2 ^ e
      let nt := (lim + 2 ^ e - 1) / 2 ^ e * 2 ^ e
      if nb < capBase c ∨ capTop c < nt then (r, false)
      else if exact && (nb != b || nt != lim) then (r, true)
      else (capSane { capMk (capAddr c) ((nt - nb) / 2 ^ e) 0 e (capLease c) 0 (capPerms c) true with tag := true }, false)

/-- REFDROP (R227). -/
def capDrop (c : Cap) (b : BitVec 16) : Cap :=
  let r := capWithPerms c (capPerms c &&& ~~~ b)
  if capOtype c = 0 then r else capUntag r

/-- A capability as memory outside the vaults takes it: one without ROAM loses its tag there (R89). -/
def roamOnly (c : Cap) : Cap := if capHas c pROAM then c else capUntag c

/-- The types REFWRAP makes and REFUNWR undoes (R91): not sentries of CALL, handles or reserved ones. -/
def wrapOk (y : Nat) : Bool := [2, 3, 4, 6, 7].contains y || decide (16 ≤ y ∧ y ≤ 255)

/-- REFWRAP (R92). -/
def capWrap (c s : Cap) (y : Nat) : Cap :=
  let r := capWithOtype c y
  if c.tag && capOtype c == 0 && s.tag && capOtype s == 0 && capHas s pWRAP && decide (capBase s ≤ y ∧ y < capTop s) &&
    wrapOk y then r else capUntag r

/-- REFUNWR (R92, R89). -/
def capUnwrap (c s : Cap) : Cap :=
  let r := capWithOtype c 0
  if c.tag && wrapOk (capOtype c) && s.tag && capOtype s == 0 && capHas s pUNWRAP &&
    decide (capBase s ≤ capOtype c ∧ capOtype c < capTop s) then r else capUntag r

/-- REFMINT (R228). -/
def capMint (c : Cap) (pat : BitVec 128) : Cap :=
  let r : Cap := ⟨pat, true⟩
  let ok := c.tag && capOtype c == 0 && capOtype r == 0 && capWell r &&
    (capPerms r &&& ~~~ capPerms c) == 0 && decide (capBase c ≤ capBase r ∧ capTop r ≤ capTop c)
  { r with tag := ok }

/-- The code capability a call sentry or an unsealed target gives (R94, R167): the same, unsealed. -/
def capUnseal (c : Cap) : Cap := capWithOtype c 0

/-- The return sentry of CALL and CALLR (R169). -/
def capReturn (code : Cap) (a : Nat) : Cap :=
  let r := capSetAddr code (a : Int)
  capWithOtype r 1

/-- REFTYPE (R226). -/
def capTypeWord (c : Cap) : W32 :=
  BitVec.ofNat 32 (capOtype c + (c.bits.extractLsb' 100 4).toNat * 2 ^ 8 + (if c.tag then 2 ^ 31 else 0))

/-- REFLEN (R226). -/
def capLenWord (c : Cap) : W64 :=
  match capDecode c with
  | none => 0
  | some (b, t) => if t - b = 2 ^ 64 then BitVec.allOnes 64 else BitVec.ofNat 64 (t - b)

/-! ### Causes (R354) -/

abbrev Cause := BitVec 8
def cILLEGAL : Cause := 0x01
def cROW_BUDGET : Cause := 0x02
def cCAP_TAG : Cause := 0x03
def cCAP_SEAL : Cause := 0x04
def cCAP_PERM : Cause := 0x05
def cCAP_BOUNDS : Cause := 0x06
def cCAP_ALIGN : Cause := 0x07
def cCAP_UNTAGGED : Cause := 0x08
def cCAP_INEXACT : Cause := 0x09
def cRETURN_UNTAGGED : Cause := 0x0A
def cVAULT_RANGE : Cause := 0x0B
def cINVALID : Cause := 0x10
def cSOFTWARE_TRAP : Cause := 0x15
def cTRANSLATION : Cause := 0x20
def cPAGE_PERM : Cause := 0x21
def cLEASE_RECALLED : Cause := 0x22
def cLEASE_EXPIRED : Cause := 0x23
def cLENDER_LOST : Cause := 0x24
def cMEMORY_ERROR : Cause := 0x25
def cBARRIER_ORPHANED : Cause := 0x30
def cSPAWN_FULL : Cause := 0x31
def cCOPY_LAYOUT : Cause := 0x32
def cCOPY_TARGET : Cause := 0x33
def cCOPY_ABANDONED : Cause := 0x34
def cMATRIX_UNCLAIMED : Cause := 0x35
def cMATRIX_FORMAT : Cause := 0x36
def cSAVE_MISSING : Cause := 0x40

/-- The causes that go to the supervisor core whatever handler is installed (R354). -/
def causeSup (c : Cause) : Bool :=
  c == cROW_BUDGET || decide (0x20 ≤ c.toNat ∧ c.toNat ≤ 0x25) || c == cSPAWN_FULL

/-- No cause of R354: the access waits for an answer of another package, whose slot DETAIL names, or whose lender entry, under
bit 63 (R431, R435; log 42). -/
def cWAIT : Cause := 0xFF

/-- A stop: its cause, the effective address reported (R365), DETAIL, and a page whose translation without D a refused store has
discarded (R412). -/
structure Stop where
  cause : Cause
  faddr : W64
  detail : W64
  clean : Option Nat
  deriving DecidableEq, Repr

def stopAt (c : Cause) (a : W64) : Stop := ⟨c, a, 0, none⟩

/-- The conditions on a branch or handler target (R168): none when all hold. -/
def targetCheck (c : Cap) : Option Stop :=
  let s := fun k => some (stopAt k (capAddr c))
  if !c.tag then s cCAP_TAG
  else if capOtype c ≠ 0 ∧ capOtype c ≠ 2 then s cCAP_SEAL
  else if !capHas c pX then s cCAP_PERM
  else if (capAddr c).toNat % 4 ≠ 0 then s cCAP_ALIGN
  else none

/-- Rows 1 to 3 of R204 for given permissions and a given object type. -/
def capCheck (c : Cap) (otype : Nat) (perms : List Nat) (fa : W64) : Option Stop :=
  if !c.tag then some (stopAt cCAP_TAG fa)
  else if capOtype c ≠ otype then some (stopAt cCAP_SEAL fa)
  else if !capHasAll c perms then some (stopAt cCAP_PERM fa)
  else none

/-- Row 4 of R204: BASE ≤ ea and ea + n ≤ TOP, with `low` added to BASE (R220). -/
def boundsCheck (c : Cap) (low : Nat) (ea : Int) (n : Nat) : Bool :=
  match capDecode c with
  | none => false
  | some (b, t) => decide ((b : Int) + low ≤ ea ∧ ea + n ≤ t)

/-- The handle root's derivation (R258): a sealed handle capability. -/
def capOfHandle (h : W64) : Cap := capMk h 0 0 0 false 5 0x0040 true

end Sys2Proof.Machine
end

