-- ==== Sys2Proof/Machine/Plain.lean ====
section
/-! DEFINITION. Plain memory, bytes and numbers, and lookups in the state (R7, R96, R305). -/

namespace Sys2Proof.Machine

/-! ### Plain memory -/

def Memory.read (m : Memory) (a : Nat) : Byte := Tab.lookD m.cells a Memory.blank

def Memory.put (m : Memory) (a : Nat) (b : Byte) : Memory := { m with cells := Tab.cput Memory.blank m.cells a b }

/-- The bytes at a, a+1, … -/
def Memory.bytes (m : Memory) (a : Nat) : Nat → List Byte
  | 0 => []
  | n + 1 => m.read a :: Memory.bytes m (a + 1) n

def Memory.putAll (m : Memory) (a : Nat) : List Byte → Memory
  | [] => m
  | b :: l => Memory.putAll (m.put a b) (a + 1) l

/-- Clear the tags of `n` granules from granule number `k` on. -/
def clearTags (ts : KeySet) (k : Nat) : Nat → KeySet
  | 0 => ts
  | n + 1 => clearTags (KeySet.del ts k) (k + 1) n

/-- Unmark the 64-byte units from number `k` on that lie wholly in [a, a + len) (R305). -/
def clearErrs (es : KeySet) (a len k : Nat) : Nat → KeySet
  | 0 => es
  | n + 1 => clearErrs (if a ≤ 64 * k ∧ 64 * k + 64 ≤ a + len then KeySet.del es k else es) a len (k + 1) n

/-- A data write: bytes, tags of the granules touched cleared (R96), units covered whole unmarked (R305). -/
def Memory.write (m : Memory) (a : Nat) (bs : List Byte) : Memory :=
  let n := bs.length
  let m := m.putAll a bs
  if n = 0 then m
  else
    { m with tags := clearTags m.tags (a / 16) ((a + n - 1) / 16 - a / 16 + 1),
             errs := clearErrs m.errs a n (a / 64) ((a + n - 1) / 64 - a / 64 + 1) }

/-- A whole-granule write of 16 bytes and a tag (R96, R99). -/
def Memory.writeCap (m : Memory) (a : Nat) (bs : List Byte) (tag : Bool) : Memory :=
  let m := m.write a bs
  if tag then { m with tags := KeySet.ins m.tags (a / 16) } else m

def Memory.tag (m : Memory) (a : Nat) : Bool := KeySet.has m.tags (a / 16)

/-- Does a byte of [a, a + n) lie in a marked unit? The unit's address if so (R305). -/
def Memory.err (m : Memory) (a n : Nat) : Option Nat :=
  if KeySet.has m.errs (a / 64) then some (a / 64 * 64)
  else if n ≠ 0 ∧ KeySet.has m.errs ((a + n - 1) / 64) then some ((a + n - 1) / 64 * 64)
  else none

/-- Little-endian bytes (R7). -/
def leNat : List Byte → Nat
  | [] => 0
  | b :: l => b.toNat + 256 * leNat l

def leBytes (v : Nat) : Nat → List Byte
  | 0 => []
  | n + 1 => BitVec.ofNat 8 v :: leBytes (v / 256) n

def capBytes (c : Cap) : List Byte := leBytes c.bits.toNat 16
def capOfBytes (bs : List Byte) (tag : Bool) : Cap := ⟨BitVec.ofNat 128 (leNat bs), tag⟩

/-! ### Lookups in the state -/

def State.core (s : State) (i : Nat) : Core := Tab.lookD s.cores i Core.reset
def State.setCore (s : State) (i : Nat) (c : Core) : State := { s with cores := Tab.put s.cores i c }
def State.group (s : State) (k : Nat) : Option Group := Tab.look s.groups k
def State.setGroup (s : State) (k : Nat) (g : Group) : State := { s with groups := Tab.put s.groups k g }
def Xlat.gen (x : Xlat) (asid : Nat) : BitVec 12 := Tab.lookD x.gens asid 0
def Keys.world (k : Keys) (w : Nat) : World := Tab.lookD k.worlds w World.reset
def Slot.free : Slot := ⟨0, 0, 0, 0, 0, 0, 0, 0, 0, 0, 0, false, false, false, none⟩
def Lender.free : Lender := ⟨0, 0, 0, 0, 0, 0, 0, 0, false, none⟩
def Lease.slot (l : Lease) (n : Nat) : Slot := Tab.lookD l.slots n Slot.free
def Lease.lender (l : Lease) (n : Nat) : Lender := Tab.lookD l.lenders n Lender.free

def State.onLender (s : State) (i : Nat) (f : Lender → Lender) : State :=
  { s with lease := { s.lease with lenders := Tab.put s.lease.lenders i (f (s.lease.lender i)) } }

def State.onSlot (s : State) (i : Nat) (f : Slot → Slot) : State :=
  { s with lease := { s.lease with slots := Tab.put s.lease.slots i (f (s.lease.slot i)) } }

/-- The core a group stands on: groups are keyed core · 256 + position. -/
def coreOf (gk : Nat) : Nat := gk / 256

/-- The die of a core (R3, R283). -/
def dieOf (core : Nat) : Nat := core / Config.coresPerDie

def State.die (s : State) (d : Nat) : Resid := Tab.lookD s.resid d Resid.reset
def State.onDie (s : State) (d : Nat) (f : Resid → Resid) : State := { s with resid := Tab.put s.resid d (f (s.die d)) }

def Sys.port (y : Sys) (n : Nat) : Port := Tab.lookD y.ports n Port.reset

def State.onPort (s : State) (n : Nat) (f : Port → Port) : State :=
  { s with sys := { s.sys with ports := Tab.put s.sys.ports n (f (s.sys.port n)) } }

/-- What the host on link n sets up or sees of the device (R446). -/
def State.onHost (s : State) (n : Nat) (f : HostSide → HostSide) : State := s.onPort n (fun p => { p with host := f p.host })

end Sys2Proof.Machine
end

