-- ==== Sys2Proof/Machine/Words.lean ====
section
/-! DEFINITION. What the pages of registers read (R105, R307, R308, R418, R420, R428, R442, R450), and which register a write
to one reaches. -/

namespace Sys2Proof.Machine

/-! ### Words with fields -/

/-- What RVSTAT reads (R105): BUSY, REFUSED, and the index of the first malformed descriptor. -/
def rvStat (s : State) : W64 :=
  BitVec.ofNat 64 ((if s.rev.busy then 1 else 0) + (if s.rev.refused then 2 else 0) + 4 * s.rev.badIdx)

/-- RVTICKET (R105). -/
def rvTicket (s : State) : W64 := if s.rev.busy then s.rev.done + 2 else s.rev.done + 1

/-- What TSTAT and TGEN read (R418). -/
def tStat (s : State) : W64 := BitVec.ofNat 64 ((if s.xlat.busy then 1 else 0) + (if s.xlat.refused then 2 else 0))
def tGen (s : State) : W64 := (s.xlat.gen s.xlat.gensel.toNat).setWidth 64

/-- What RSCTL and RSSTAT read (R308). -/
def rsCtl (s : State) (d : Nat) : W64 :=
  let r := s.die d
  BitVec.ofNat 64 (if r.active || r.loading then 1 + 2 ^ 16 * r.world else 0)
def rsStat (s : State) (d : Nat) : W64 :=
  let r := s.die d
  BitVec.ofNat 64 ((if r.active then 1 else 0) + (if r.loading then 2 else 0) + (if r.refused then 4 else 0))

/-- The page's registers as one number: STEP, and STATUS with OVF and BUSY; the rest reads zero (R9). -/
def residWord (r : Resid) : Nat :=
  r.stp.toNat + 2 ^ 64 * ((if r.ovf then 1 else 0) + (if r.queue ≠ [] then 2 else 0))

/-- What LSTAT reads (R428). -/
def lStat (s : State) : W64 := BitVec.ofNat 64 ((if s.lease.busy then 1 else 0) + 2 * s.lease.result.toNat)

/-- The 32 bytes of a lender entry (R424) and the 64 of a slot (R426). -/
def lenderBytes (l : Lender) : List Byte :=
  leBytes l.ebase.toNat 4 ++ leBytes l.elen.toNat 4 ++ leBytes l.lid.toNat 4 ++ leBytes l.borrower.toNat 2 ++ [l.mode, l.st] ++
    leBytes l.expiry.toNat 8 ++ leBytes l.viol.toNat 4 ++ leBytes 0 4
def slotBytes (l : Slot) : List Byte :=
  leBytes l.lender.toNat 2 ++ [l.mode, l.st] ++ leBytes l.lid.toNat 4 ++ leBytes l.ebase.toNat 4 ++ leBytes l.elen.toNat 4 ++
    leBytes l.expiry.toNat 8 ++ leBytes l.salv.toNat 8 ++ leBytes l.salvlen.toNat 4 ++ leBytes l.salvn.toNat 4 ++
    leBytes l.dropped.toNat 4 ++ leBytes 0 20

/-- What KSSTAT, KSWSTATE and KSDIGEST read (R450). -/
def ksStat (s : State) : W64 := BitVec.ofNat 64 ((if s.keys.busy then 1 else 0) + 2 * s.keys.result.toNat)
def ksWstate (s : State) : W64 :=
  let w := s.keys.world s.keys.sel.toNat
  BitVec.ofNat 64 (w.st + (if w.prot then 4 else 0) + (if w.scrubbed then 8 else 0))
def ksDigest (s : State) : List Byte := (s.keys.world s.keys.sel.toNat).digest

/-- What the read-only words of the system page read (R442). The codes of a port's role are the model's (log 61). -/
def roleWord (s : State) : W64 :=
  BitVec.ofNat 64 ((if s.sys.candidate then 1 else 0) + (if s.sys.role = .manager then 2 else 0) +
    (if s.sys.role = .standby then 4 else 0) + 2 ^ 4 * s.sys.pbr.toNat + (if s.sys.pbrValid then 2 ^ 16 else 0))
def ftStat (s : State) : W64 :=
  BitVec.ofNat 64 ((if s.time.sync then 1 else 0) + (if s.time.root then 2 else 0) + 2 ^ 32 * s.time.correction.toNat)
def tierWord (s : State) : W64 := BitVec.ofNat 64 (s.sys.tier.toNat + 2 ^ 4 * s.sys.tiers.toNat)
def portStat (s : State) (n : Nat) : W64 :=
  let p := s.sys.port n
  let role := match p.role with | .none => 0 | .fabric => 1 | .upstream => 2 | .downstream => 3
  BitVec.ofNat 64 (role + (if p.up then 4 else 0) + (if p.hot then 8 else 0) + 2 ^ 4 * p.width.toNat + 2 ^ 8 * p.resets.toNat)

/-! ### The pages -/

/-- The certificate chain at CERT: zero past CERTLEN (R450, R455). -/
def certAt (n : Nat) : Byte := if n < Config.certLen then Config.certByte n else 0

/-- The eight bytes at an offset of a register page, a multiple of 8: none for a register that is only written, the read of whose
bits the spec does not state (log 10). Reserved offsets read zero (R9). -/
def ctlWord (s : State) (p : CtlPage) (off : Nat) : Option Nat :=
  let x := s.xlat
  match p with
  | .revocation =>
    (match off with
     | 0x00 => some s.rev.tab.toNat
     | 0x08 => some s.rev.num.toNat
     | 0x18 => some (rvStat s).toNat
     | 0x20 => some s.rev.done.toNat
     | 0x28 => some (rvTicket s).toNat
     | _ => some 0)
  | .residency d =>
    (match off with
     | 0x00 => some (s.die d).base.toNat
     | 0x08 => some (s.die d).len.toNat
     | 0x10 => some (rsCtl s d).toNat
     | 0x18 => some (rsStat s d).toNat
     | _ => some 0)
  | .translation =>
    (match off with
     | 0x00 => none
     | 0x08 => some x.tva.toNat
     | 0x10 => some x.tlen.toNat
     | 0x18 => some (tStat s).toNat
     | 0x20 => some x.gensel.toNat
     | 0x28 => some (tGen s).toNat
     | 0x30 => some x.tbase.toNat
     | 0x38 => some x.tdump.toNat
     | 0x40 => some x.tdlen.toNat
     | 0x48 => some x.tthr.toNat
     | _ => some 0)
  | .fences n => if off < 0x20 then none else if off = 0x20 then some (s.sys.port n).host.rfdone.toNat else some 0
  | .leases =>
    if 0x200000 ≤ off then some (leNat (((slotBytes (s.lease.slot ((off - 0x200000) / 64))).drop (off % 64)).take 8))
    else if 0x100000 ≤ off then
      if off < 0x180000 then some (leNat (((lenderBytes (s.lease.lender ((off - 0x100000) / 32))).drop (off % 32)).take 8)) else some 0
    else (match off with
      | 0x00 => none
      | 0x08 => some s.lease.larg.toNat
      | 0x10 => some (lStat s).toNat
      | 0x18 => some s.lease.evbase.toNat
      | 0x20 => some s.lease.evsize.toNat
      | 0x28 => some s.lease.evhead
      | 0x30 => some s.lease.evtail
      | _ => some 0)
  | .system =>
    if 0x100 ≤ off ∧ off < 0x180 then some (portStat s ((off - 0x100) / 8)).toNat
    else (match off with
      | 0x00 => some Config.serial.toNat
      | 0x08 => some (roleWord s).toNat
      | 0x10 => some (ftStat s).toNat
      | 0x18 => some s.sys.evbase.toNat
      | 0x20 => some s.sys.evsize.toNat
      | 0x28 => some s.sys.evhead
      | 0x30 => some s.sys.evtail
      | 0x40 => some (tierWord s).toNat
      | _ => some 0)
  | .keys =>
    if 0x400 ≤ off then some (leNat ((List.range 8).map (fun i => certAt (off - 0x400 + i))))
    else if 0x40 ≤ off ∧ off < 0x70 then some (leNat (((ksDigest s).drop (off - 0x40)).take 8))
    else (match off with
      | 0x00 => none
      | 0x08 => some s.keys.va.toNat
      | 0x10 => some s.keys.pa.toNat
      | 0x18 => some (ksStat s).toNat
      | 0x20 => some s.keys.handle.toNat
      | 0x28 => some s.keys.sel.toNat
      | 0x30 => some (ksWstate s).toNat
      | 0x80 => some Config.certLen
      | _ => some 0)

/-- Bytes of a page of registers: the lease engine's holds its tables (R428). -/
def ctlSize : CtlPage → Nat
  | .leases => 0x240000
  | _ => 4096

/-- The register page that an MMIO address lies in, with the offset in it. -/
def ctlFind (s : State) (pa : Nat) : Option (CtlPage × Nat) :=
  (s.ctl.find? (fun x => decide (x.1 ≤ pa ∧ pa < x.1 + ctlSize x.2))).map (fun x => (x.2, pa - x.1))

/-- The bits that a register which is only written has, of the lowest 64: those above are reserved and read zero (R9, R418, R420,
R428, R450). -/
def ctlBits (p : CtlPage) (off : Nat) : Nat :=
  match p with
  | .translation => 20
  | .fences _ => if off = 0 then 16 else if off = 0x18 then 3 else 64
  | .leases => 22
  | .keys => 17
  | _ => 64

/-- Byte i of a load at an offset of a register page. -/
def ctlByte (s : State) (p : CtlPage) (off i : Nat) : Byte :=
  let w := (off + i) / 8 * 8
  let j := 8 * ((off + i) % 8)
  match ctlWord s p w with
  | some x => BitVec.ofNat 8 (x / 2 ^ j)
  | none => Config.deviceRead s.ctr i &&& BitVec.ofNat 8 ((2 ^ ctlBits p w - 1) / 2 ^ j)

/-- The register that a write at an offset reaches, or the ring whose tail it moves; none where nothing is written (R9). -/
def ctlReg (p : CtlPage) (off : Nat) : Option (Reg ⊕ RingName) :=
  match p with
  | .revocation => (match off with | 0x00 => some (.inl .rvtab) | 0x08 => some (.inl .rvnum) | 0x10 => some (.inl .rvcmd) | _ => none)
  | .residency d => (match off with
    | 0x00 => some (.inl (.rsbase d)) | 0x08 => some (.inl (.rslen d)) | 0x10 => some (.inl (.rsctl d)) | _ => none)
  | .translation => (match off with
    | 0x00 => some (.inl .tcmd) | 0x08 => some (.inl .tva) | 0x10 => some (.inl .tlen) | 0x20 => some (.inl .tgensel)
    | 0x30 => some (.inl .tbase) | 0x38 => some (.inl .tdump) | 0x40 => some (.inl .tdlen) | 0x48 => some (.inl .tthr) | _ => none)
  | .fences n => (match off with
    | 0x00 => some (.inl (.rfasid n)) | 0x08 => some (.inl (.rfva n)) | 0x10 => some (.inl (.rflen n)) | 0x18 => some (.inl (.rfctl n))
    | _ => none)
  | .leases =>
    if 0x200000 ≤ off then some (.inl (.slot ((off - 0x200000) / 64) (off % 64)))
    else if 0x100000 ≤ off then (if off < 0x180000 then some (.inl (.lender ((off - 0x100000) / 32) (off % 32))) else none)
    else (match off with
      | 0x00 => some (.inl .lcmd) | 0x08 => some (.inl .larg) | 0x18 => some (.inl .levbase) | 0x20 => some (.inl .levsize)
      | 0x30 => some (.inr .lease) | _ => none)
  | .system => (match off with
    | 0x18 => some (.inl .sevbase) | 0x20 => some (.inl .sevsize) | 0x30 => some (.inr .system) | _ => none)
  | .keys => (match off with
    | 0x00 => some (.inl .kscmd) | 0x08 => some (.inl .ksva) | 0x10 => some (.inl .kspa) | 0x28 => some (.inl .kssel) | _ => none)

/-- The word that a store of bytes at an offset gives the register at word w: bytes it does not cover keep what the register
reads, zero where it reads nothing (DESIGN CHOICE, log 63). -/
def ctlMerge (s : State) (p : CtlPage) (off w : Nat) (bs : List Byte) : W64 :=
  BitVec.ofNat 64 (leNat ((List.range 8).map (fun j =>
    if off ≤ w + j ∧ w + j < off + bs.length then bs.getD (w + j - off) 0
    else BitVec.ofNat 8 ((ctlWord s p w).getD 0 / 2 ^ (8 * j)))))

/-- The writes that a store to a register page makes, in ascending address, each a step of its own that comes next. -/
def ctlWrites (s : State) (p : CtlPage) (off : Nat) (bs : List Byte) : List Input :=
  ((List.range ((off + bs.length - 1) / 8 - off / 8 + 1)).map (fun i => (off / 8 + i) * 8)).filterMap (fun w =>
    (ctlReg p w).map (fun r => match r with
      | .inl r => .register r (ctlMerge s p off w bs)
      | .inr r => .evtail r (ctlMerge s p off w bs)))

end Sys2Proof.Machine
end

