-- ==== Sys2Proof/Machine/Mem.lean ====
section
/-! DEFINITION. Memory, tags, physical addresses, translation, the vector L1 and the checks of one access
(R96 to R101, R199 to R215, R298 to R305, R410 to R417, R421 to R435). -/

namespace Sys2Proof.Machine

/-! ### Physical addresses (R410, R421) -/

def paRegion (pa : Nat) : Nat := pa / 2 ^ 52

/-- Is the address in the MMIO region (R410)? What lies there is never cached and is a device's register. -/
def isMmio (pa : Nat) : Bool := paRegion pa == 0xE

/-- First address of the vaults among home addresses. -/
def vaultBase : Nat := 2 ^ 62
def vaultHome (core off : Nat) : Nat := vaultBase + core * 2 ^ 22 + off

/-- Local memory that exists: HBM below 1,524 GiB, or the populated pool (R2, R410). -/
def paLocal (s : State) (pa : Nat) : Bool :=
  (paRegion pa == 0 && decide (pa < 1524 * 2 ^ 30)) ||
    (paRegion pa == 1 && decide (pa - 2 ^ 52 < s.power.poolExtents * 2 ^ 28))

/-- A PPN's region names something (R410). -/
def paValid (s : State) (pa : Nat) : Bool :=
  paLocal s pa || decide (8 ≤ paRegion pa ∧ paRegion pa ≤ 0xB) || decide (0xE ≤ paRegion pa ∧ paRegion pa ≤ 0xF)

def leaseSlotOf (pa : Nat) : Nat := pa / 2 ^ 40 % 2 ^ 12
def leaseOff (pa : Nat) : Nat := pa % 2 ^ 40
def isLease (pa : Nat) : Bool := decide (paRegion pa = 0xF ∧ pa < 2 ^ 56)

/-- The home of a leased byte: the lender's extent (log 13). -/
def leaseHome (sl : Slot) (off : Nat) : Nat :=
  2 ^ 60 + (sl.lender.toNat % 2 ^ 12) * 2 ^ 44 + sl.ebase.toNat * 2 ^ 28 + off

/-- The key of a byte of package memory, of a peer, of a lender or of a vault. -/
def homeOf (s : State) (pa : Nat) : Nat :=
  if isLease pa then leaseHome (s.lease.slot (leaseSlotOf pa)) (leaseOff pa) else pa

/-- The key of a lease line held by this package. -/
def leaseKey (pa : Nat) : Nat := leaseSlotOf pa * 2 ^ 33 + leaseOff pa / 128

/-- The held line of a leased address (R431). -/
def heldLine (s : State) (pa : Nat) : Option LeaseLine :=
  if isLease pa then Tab.look s.lease.lines (leaseKey pa) else none

/-- What a borrower has modified the line of a pool address to (R431): it has given the line up, or it answers a snoop at once. Of one
that answers no more the lender has its last copy (R433; log 42). -/
def farData (s : State) (pa : Nat) : Option (List Byte × BitVec 8) :=
  if paRegion pa = 1 then
    (Tab.look s.lease.far (pa / 128)).bind (fun l => if l.snoop || !(s.lease.lender l.entry).silent then l.mod else none)
  else none

/-- One byte at its point of coherence (R305, R421). -/
def State.readByte (s : State) (pa : Nat) : Byte :=
  match heldLine s pa with
  | some l => l.data.getD (pa % 128) 0
  | none =>
    match farData s pa with
    | some d => d.1.getD (pa % 128) 0
    | none => s.mem.read (homeOf s pa)

def State.readBytes (s : State) (pa : Nat) : Nat → List Byte
  | 0 => []
  | n + 1 => s.readByte pa :: State.readBytes s (pa + 1) n

/-- The tag of a granule at its point of coherence. -/
def State.readTag (s : State) (pa : Nat) : Bool :=
  match heldLine s pa with
  | some l => l.tags.getLsbD (pa % 128 / 16)
  | none =>
    match farData s pa with
    | some d => d.2.getLsbD (pa % 128 / 16)
    | none => s.mem.tag (homeOf s pa)

/-- The package of a lease slot or a peer address. -/
def peerOf (s : State) (pa : Nat) : Option (BitVec 12) :=
  if isLease pa then some ((s.lease.slot (leaseSlotOf pa)).lender.setWidth 12)
  else if 8 ≤ paRegion pa ∧ paRegion pa ≤ 0xB then some (BitVec.ofNat 12 (pa / 2 ^ 42))
  else none

/-- Does every hop of the route to a package carry tags (R101)? The port here, and those beyond it, which the state lists where
one of them does not. -/
def peerTagged (s : State) (p : BitVec 12) : Bool :=
  !KeySet.has s.sys.noTags p.toNat && s.sys.ports.any (fun x => x.2.up && x.2.role == .fabric && x.2.peers.contains p && x.2.tagExt)

/-- Tagged memory: local memory, and a peer's over a route that carries tags (R100, R101). -/
def paTagged (s : State) (pa : Nat) : Bool :=
  match peerOf s pa with
  | none => decide (paRegion pa ≤ 1)
  | some p => peerTagged s p

/-- A leased line as the lender gives it, with its tags where the route carries them (R422, R431). -/
def leaseFill (s : State) (pa : Nat) : LeaseLine :=
  let base := pa - pa % 128
  ⟨false, false, s.mem.bytes (homeOf s base) 128,
    BitVec.ofNat 8 ((List.range 8).foldl (fun a i =>
      if s.mem.tag (homeOf s base + 16 * i) && paTagged s base then a + 2 ^ i else a) 0)⟩

/-- A read of a leased line leaves it with this package, shared unless it is held already (R431). -/
def takeShared (s : State) (pa : Nat) : State :=
  if !isLease pa then s
  else match Tab.look s.lease.lines (leaseKey pa) with
    | some _ => s
    | none => { s with lease := { s.lease with lines := Tab.put s.lease.lines (leaseKey pa) (leaseFill s pa) } }

/-- Bring a line of a read-write lease into this package exclusive (R431). -/
def takeExclusive (s : State) (pa : Nat) : State :=
  let l := (Tab.look s.lease.lines (leaseKey pa)).getD (leaseFill s pa)
  { s with lease := { s.lease with lines := Tab.put s.lease.lines (leaseKey pa) { l with excl := true, dirty := true } } }

/-- Write one byte of a leased line held exclusive; its granule's tag clears. -/
def leaseByte (s : State) (pa : Nat) (b : Byte) : State :=
  let s := takeExclusive s pa
  let k := leaseKey pa
  match Tab.look s.lease.lines k with
  | none => s
  | some l =>
    let l := { l with data := l.data.set (pa % 128) b,
                      tags := l.tags &&& ~~~ (BitVec.ofNat 8 (2 ^ (pa % 128 / 16))) }
    { s with lease := { s.lease with lines := Tab.put s.lease.lines k l } }

def leaseBytes (s : State) (pa : Nat) : List Byte → State
  | [] => s
  | b :: l => leaseBytes (leaseByte s pa b) (pa + 1) l

/-- Bytes written at pa as they enter the copy that a borrower has modified: the tags of their granules clear. -/
def farBytes (k pa : Nat) (bs : List Byte) (d : List Byte × BitVec 8) : List Byte × BitVec 8 :=
  (d.1.zipIdx.map (fun x =>
      if pa ≤ 128 * k + x.2 ∧ 128 * k + x.2 < pa + bs.length then bs.getD (128 * k + x.2 - pa) 0 else x.1),
    (List.range 8).foldl (fun (t : BitVec 8) i =>
      if 128 * k + 16 * i < pa + bs.length ∧ pa < 128 * k + 16 * i + 16 then t &&& ~~~ (BitVec.ofNat 8 (2 ^ i)) else t) d.2)

def farPut (t : Tab FarLine) (pa : Nat) (bs : List Byte) : Tab FarLine :=
  Tab.mapv (fun k l => { l with mod := l.mod.map (farBytes k pa bs) }) t

/-- The tag of a granule written at pa as it enters that copy. -/
def farTag (t : Tab FarLine) (pa : Nat) (tag : Bool) : Tab FarLine :=
  if tag then Tab.mapv (fun k l => if k = pa / 128 then
    { l with mod := l.mod.map (fun d => (d.1, d.2 ||| BitVec.ofNat 8 (2 ^ (pa % 128 / 16)))) } else l) t
  else t

/-- An access of this package to n bytes of its pool sends a back-invalidate snoop for each line that a borrower holds, if it
writes or the borrower may have written; a borrower that answers gives the line up (R431). -/
def snoopFor (s : State) (pa n : Nat) (write : Bool) : State :=
  if paRegion pa = 1 then
    { s with lease := { s.lease with far := Tab.mapv (fun k (l : FarLine) =>
        if pa / 128 ≤ k ∧ k ≤ (pa + n - 1) / 128 ∧ (write = true ∨ l.excl = true) ∧ (s.lease.lender l.entry).silent = false then
          { l with snoop := true } else l) s.lease.far } }
  else s

/-- A data write at the point of coherence (R98, R431). -/
def State.writeBytes (s : State) (pa : Nat) (bs : List Byte) : State :=
  if isLease pa then
    let s := leaseBytes s pa bs
    let a := homeOf s pa
    { s with mem := { s.mem with errs := clearErrs s.mem.errs a bs.length (a / 64) (bs.length / 64 + 2) } }
  else { s with mem := s.mem.write pa bs, lease := { s.lease with far := farPut s.lease.far pa bs } }

/-- A granule write with its tag at the point of coherence. -/
def State.writeCapAt (s : State) (pa : Nat) (c : Cap) : State :=
  if isLease pa then
    let s := leaseBytes s pa (capBytes c)
    let k := leaseKey pa
    match Tab.look s.lease.lines k with
    | none => s
    | some l =>
      let l := if c.tag then { l with tags := l.tags ||| BitVec.ofNat 8 (2 ^ (pa % 128 / 16)) } else l
      { s with lease := { s.lease with lines := Tab.put s.lease.lines k l } }
  else
    { s with
      mem := s.mem.writeCap pa (capBytes c) c.tag
      lease := { s.lease with far := farTag (farPut s.lease.far pa (capBytes c)) pa c.tag } }

def State.readCapAt (s : State) (pa : Nat) : Cap :=
  capOfBytes (s.readBytes pa 16) (s.readTag pa && paTagged s pa)

def State.readNat (s : State) (pa n : Nat) : Nat := leNat (s.readBytes pa n)

/-! ### Revocation checks (R102, R103) -/

/-- Is the capability revoked for an address space by an armed sweep's map? -/
def revoked (s : State) (asid : Nat) (c : Cap) : Bool :=
  c.tag && capE c != 63 && capOtype c != 5 && s.rev.regions.any (fun r =>
    r.asid == asid && decide (r.hbase.toNat ≤ capBase c ∧ capBase c < r.hbase.toNat + r.hlen.toNat) &&
      (let i := (capBase c - r.hbase.toNat) / 16
       (s.readByte (r.map.toNat + i / 8)).getLsbD (i % 8)))

/-- What every path of phase 1 does with a capability it writes: untag it while a sweep is armed and it is revoked. -/
def revCheck (s : State) (asid : Nat) (c : Cap) : Cap :=
  if s.rev.busy && revoked s asid c then capUntag c else c

/-! ### Translation (R411 to R416) -/

/-- Who makes an access: the core, its address space, and its vault view (R298): the unit's teams by position. -/
structure Who where
  core : Nat
  asid : Nat
  team : Nat
  deriving DecidableEq, Repr

/-- What an access needs of its page. -/
structure Need where
  r : Bool
  w : Bool
  x : Bool
  deriving DecidableEq, Repr

def needLoad : Need := ⟨true, false, false⟩
def needStore : Need := ⟨false, true, false⟩
def needAmo : Need := ⟨true, true, false⟩
def needFetch : Need := ⟨false, false, true⟩

/-- A leaf found by the walk: level 0 to 4, physical page number, R W X A D bits, I/O. -/
structure Leaf where
  level : Nat
  ppn : Nat
  r : Bool
  w : Bool
  x : Bool
  a : Bool
  d : Bool
  io : Bool
  deriving DecidableEq, Repr

/-- Has every 4 KiB page of a leaf been measured into the world (R453)? -/
def leafLocked (s : State) (world ppn level : Nat) : Bool :=
  (s.keys.locked.filter (fun x => x.2 == world && x.1 / 2 ^ (9 * level) == ppn / 2 ^ (9 * level))).length == 2 ^ (9 * level)

/-- Sv57 walk (R411): `level` counts down from 4; none for an invalid entry or no leaf. Of a superpage only the pages that
name memory translate (R410; DEDUCED, log 58). -/
def walk (s : State) (world : Nat) (va : Nat) : Nat → Nat → Option Leaf
  | 0, _ => none
  | fuel + 1, table =>
    let level := fuel
    let idx := va / 2 ^ (12 + 9 * level) % 512
    let e := s.readNat (table * 4096 + 8 * idx) 8
    let bit := fun n => decide (e / 2 ^ n % 2 = 1)
    let ppn := e / 2 ^ 10 % 2 ^ 44
    let pbmt := e / 2 ^ 61 % 4
    if !bit 0 || decide (e / 2 ^ 54 % 2 ^ 7 ≠ 0) || bit 63 then none
    else if bit 2 && !bit 1 then none
    else if pbmt = 1 ∨ pbmt = 3 then none
    else if !bit 1 && !bit 2 && !bit 3 then
      if paLocal s (ppn * 4096) then walk s world va fuel ppn else none
    else if ppn % 2 ^ (9 * level) ≠ 0 then none
    else if !paValid s ((ppn + va / 4096 % 2 ^ (9 * level)) * 4096) then none
    else
      let w := s.keys.world world
      -- in a protected world executable leaves are execute-only and measured (R453)
      if bit 3 && w.prot && (bit 1 || bit 2 || !leafLocked s world ppn level) then none
      else some ⟨level, ppn, bit 1, bit 2, bit 3, bit 6, bit 7, pbmt == 2⟩

/-- The walk's reads of page tables in the pool snoop lines that a borrower holds (R431). -/
def walkSnoop (s : State) (va : Nat) : Nat → Nat → State
  | 0, _ => s
  | fuel + 1, table =>
    let a := table * 4096 + 8 * (va / 2 ^ (12 + 9 * fuel) % 512)
    let e := s.readNat a 8
    let s := snoopFor s a 8 false
    if e % 16 = 1 ∧ fuel ≠ 0 then walkSnoop s va fuel (e / 2 ^ 10 % 2 ^ 44) else s

/-- The ASID's root page and world (R413): none when it translates nothing. Ones in the bits that are zero have no effect
(R9). -/
def asidRoot (s : State) (asid : Nat) : Option (Nat × Nat) :=
  let e := s.readNat (s.xlat.tbase.toNat + 16 * asid) 8
  if e / 2 ^ 56 % 16 = 0xA ∧ !KeySet.has s.xlat.detached asid then
    some (e % 2 ^ 44, s.readNat (s.xlat.tbase.toNat + 16 * asid + 8) 2 % 2 ^ 12)
  else none

/-- Bits [63:57] equal to bit 56 (R412). -/
def canonical (va : Nat) : Bool := decide (va / 2 ^ 56 = 0 ∨ va / 2 ^ 56 = 2 ^ 8 - 1)

/-- Is e the cached translation of a page (R414, R416)? -/
def tlbIs (s : State) (asid va : Nat) (e : Tlb) : Bool :=
  e.asid == asid && e.gen == (s.xlat.gen asid).toNat && e.vpn == va / 4096 / 2 ^ (9 * e.level)

/-- A cached translation of the page, wherever it is cached, and the one at a level (R414). -/
def tlbFind (s : State) (asid va : Nat) : Option Tlb := s.xlat.tlb.find? (tlbIs s asid va)
def tlbAt (s : State) (p : TlbAt) (asid va : Nat) : Option Tlb := s.xlat.tlb.find? (fun e => decide (e.place = p) && tlbIs s asid va e)

/-- The levels that an accessor's lookup tries in turn (R414): its core's, its cluster unit's, the chip's. -/
def Who.levels (s : State) (w : Who) : List TlbAt :=
  match Tab.look s.teams w.team with
  | some t => [.core w.core, .cluster t.unit, .chip]
  | none => [.core w.core, .chip]

/-- The first level that holds the page's translation, with the levels passed on the way. -/
def tlbLook (s : State) (asid va : Nat) : List TlbAt → List TlbAt × Option Tlb
  | [] => ([], none)
  | p :: l =>
    match tlbAt s p asid va with
    | some e => ([], some e)
    | none => let r := tlbLook s asid va l; (p :: r.1, r.2)

def tlbOf (asid gen va : Nat) (l : Leaf) : Tlb :=
  ⟨.chip, asid, gen, va / 4096 / 2 ^ (9 * l.level), l.level, l.ppn,
    BitVec.ofNat 8 ((if l.r then 1 else 0) + (if l.w then 2 else 0) + (if l.x then 4 else 0) +
      (if l.d then 8 else 0)), l.io, 0⟩

/-- Entries that a cache of translations holds; its oldest goes when it is full (R414; log 30). -/
def tlbCap : TlbAt → Nat
  | .core _ => 512
  | .cluster _ => 8192
  | .chip => 65536

/-- The entries without those of a place beyond its newest n. -/
def tlbTrim (p : TlbAt) : Nat → List Tlb → List Tlb
  | _, [] => []
  | n, e :: l =>
    if e.place = p then (if n = 0 then tlbTrim p 0 l else e :: tlbTrim p (n - 1) l) else e :: tlbTrim p n l

def tlbInsert (l : List Tlb) (e : Tlb) : List Tlb := e :: tlbTrim e.place (tlbCap e.place - 1) l

/-- A translation found fills each level that the lookup passed (R414). -/
def tlbFill (l : List Tlb) (passed : List TlbAt) (e : Tlb) : List Tlb :=
  passed.foldr (fun p l => tlbInsert l { e with place := p, count := 0 }) l

/-- A leaf whose accesses are counted: pool, peer window, lease window (R423). -/
def counted (e : Tlb) : Bool := let r := paRegion (e.ppn * 4096); r == 1 || r == 0xF || decide (8 ≤ r ∧ r ≤ 0xB)

/-- The chip entry of a counted leaf counts an access that misses the L2: always one to the peer window, which no L2 holds
(R422), else as the implementation has it (log 16). -/
def tlbCount (s : State) (asid va : Nat) (e : Tlb) : State :=
  if !counted e then s
  else
    let r := paRegion (e.ppn * 4096)
    let miss := decide (8 ≤ r ∧ r ≤ 0xB) || Config.l2Miss s.ctr
    { s with
      ctr := s.ctr + 1
      xlat := { s.xlat with tlb := s.xlat.tlb.map (fun x =>
        if miss && decide (x.place = .chip) && tlbIs s asid va x then { x with count := if x.count = 0xFFFF then x.count else x.count + 1 } else x) } }

/-- Discard the cached translations of a page that do not let it be written for want of D (R412). -/
def dropClean (s : State) (asid va : Nat) : State :=
  { s with xlat := { s.xlat with tlb := s.xlat.tlb.filter (fun e => !(tlbIs s asid va e && !e.bits.getLsbD 3)) } }

/-- A translation: physical address, page permissions R W X, I/O. -/
structure Xres where
  pa : Nat
  perms : BitVec 3
  io : Bool
  deriving DecidableEq, Repr

def Tlb.res (e : Tlb) (va : Nat) : Xres :=
  ⟨e.ppn * 4096 + va % 2 ^ (12 + 9 * e.level), e.bits.extractLsb' 0 3, e.io⟩

def permBits (n : Need) : BitVec 3 :=
  BitVec.ofNat 3 ((if n.r then 1 else 0) + (if n.w then 2 else 0) + (if n.x then 4 else 0))

/-- Rows 6 and 7 of R204 from the page tables, with the TLB rules of R412, R414 and R423, by the levels that the lookup tries. -/
def translateBy (s : State) (levels : List TlbAt) (asid va : Nat) (n : Need) : Except Cause (State × Xres) :=
  if !canonical va then .error cTRANSLATION
  else
    match tlbLook s asid va levels with
    | (passed, some e) =>
      if !paValid s (e.res va).pa then .error cTRANSLATION
      else if n.w && !e.bits.getLsbD 3 then walkFor (dropClean s asid va)
      else if (permBits n &&& ~~~ (e.res va).perms) ≠ 0 then .error cPAGE_PERM
      else .ok (tlbCount { s with xlat := { s.xlat with tlb := tlbFill s.xlat.tlb passed e } } asid va e, e.res va)
    | (_, none) => walkFor s
where
  walkFor (s : State) : Except Cause (State × Xres) :=
    match asidRoot s asid with
    | none => .error cTRANSLATION
    | some (root, world) =>
      match walk s world va 5 root with
      | none => .error cTRANSLATION
      | some l =>
        let e := tlbOf asid (s.xlat.gen asid).toNat va l
        if !l.a || (n.w && !l.d) then .error cPAGE_PERM
        else if (permBits n &&& ~~~ (e.res va).perms) ≠ 0 then
          .error cPAGE_PERM
        else
          let s := walkSnoop s va 5 root
          .ok (tlbCount { s with xlat := { s.xlat with tlb := tlbFill s.xlat.tlb levels e } } asid va e, e.res va)

def translate (s : State) (w : Who) (va : Nat) (n : Need) : Except Cause (State × Xres) := translateBy s (w.levels s) w.asid va n

/-- A page whose cached translation an access discards before it walks: a store that finds it without D (R412). -/
def cleanMet (s : State) (levels : List TlbAt) (asid va : Nat) (n : Need) : Option Nat :=
  match tlbLook s asid va levels with
  | (_, some e) => if n.w && canonical va && paValid s (e.res va).pa && !e.bits.getLsbD 3 then some va else none
  | _ => none

/-- What a translation that fails leaves (R412). -/
def metClean (s : State) (levels : List TlbAt) (asid va : Nat) (n : Need) : State :=
  match cleanMet s levels asid va n with | some va => dropClean s asid va | none => s

/-! ### Memory at rest (R378, R451; log 62) -/

/-- The key of an address space's world. -/
def keyOf (s : State) (asid : Nat) : Nat :=
  (s.keys.world (match asidRoot s asid with | some x => x.2 | none => 0)).key

/-- Is the address one of memory, here, at a peer or at a lender? -/
def isMemory (pa : Nat) : Bool := decide (paRegion pa ≤ 1 ∨ (8 ≤ paRegion pa ∧ paRegion pa ≤ 0xB)) || isLease pa

/-- Bytes of memory are written under a key, which stands beside their home. What was written there before goes. -/
def sealWith (s : State) (key pa n : Nat) : State :=
  if isMemory pa ∧ n ≠ 0 then
    let a := homeOf s pa
    { s with sealed := ⟨a, n, key⟩ :: s.sealed.filter (fun x => !decide (a ≤ x.base ∧ x.base + x.len ≤ a + n)) }
  else s

/-- The key under which a byte was last written: 0 for one that is open to every reader. -/
def sealKey (s : State) (a : Nat) : Nat :=
  match s.sealed.find? (fun x => decide (x.base ≤ a ∧ a < x.base + x.len)) with
  | some x => x.key
  | none => 0

/-- Has some world the key? -/
def keyLives (s : State) (key : Nat) : Bool := s.keys.worlds.any (fun x => x.2.key == key)

/-- Does the key open the byte at an address? A lease has a key of its own, which every world here that maps it shares: what was
written there is open until the writer's world is destroyed (R451, R452). -/
def opensByte (s : State) (key pa : Nat) : Bool :=
  let k := sealKey s (homeOf s pa)
  k == 0 || k == key || (isLease pa && keyLives s k)

/-- Does the key open every one of n bytes? -/
def opens (s : State) (key pa n : Nat) : Bool := !isMemory pa || (List.range n).all (fun i => opensByte s key (pa + i))

/-- Bytes of memory as a reader under a key has them: those written under another key come out as the cipher has it. -/
def openBytes (s : State) (key pa : Nat) (bs : List Byte) : List Byte :=
  if opens s key pa bs.length then bs
  else bs.zipIdx.map (fun x =>
    let a := pa + x.2
    if opensByte s key a then x.1
    else Config.wrongKey (sealKey s (homeOf s a)) key (a / 16) (s.readBytes (a / 16 * 16) 16) (a % 16))

/-- Does a read-only shared lease of ours cover the pool address (R432)? -/
def lentShared (s : State) (pa : Nat) : Bool :=
  paRegion pa == 1 && s.lease.lenders.any (fun x =>
    let l := x.2
    let ext := (pa - 2 ^ 52) / 2 ^ 28
    l.mode == 1 && (l.st == 2 || l.st == 3) && decide (l.ebase.toNat ≤ ext ∧ ext < l.ebase.toNat + l.elen.toNat))

/-- Row 7 beyond the page tables: shared leases on both sides (R432) and locked pages (R453). -/
def writeBarred (s : State) (pa : Nat) : Bool :=
  lentShared s pa || (isLease pa && decide (leaseOff pa < (s.lease.slot (leaseSlotOf pa)).elen.toNat * 2 ^ 28) &&
      (s.lease.slot (leaseSlotOf pa)).mode == 1) ||
    (Tab.look s.keys.locked (pa / 4096)).isSome

/-- Row 9 of R204 (R435): an address beyond the slot's length lies in no slot (R426). -/
def leaseCheck (s : State) (pa : Nat) : Option Cause :=
  if !isLease pa then none
  else
    let sl := s.lease.slot (leaseSlotOf pa)
    if sl.elen.toNat * 2 ^ 28 ≤ leaseOff pa then some cLEASE_RECALLED
    else if sl.st = 4 then some cLEASE_EXPIRED
    else if sl.st = 5 then some cLENDER_LOST
    else if sl.st ≠ 2 then some cLEASE_RECALLED
    else none

/-! ### Accesses that wait for another package, or for a flow (R431, R435, R451; log 42) -/

/-- The sequence number at which a flow stalls, and the one past which it warns (R451). -/
def flowEnd : Nat := 2 ^ 48 - 1
def flowWarn : Nat := 2 ^ 47

/-- Has the flow of every link to a package come to its end (R451)? -/
def peerStalled (s : State) (p : BitVec 12) : Bool :=
  let ls := s.sys.ports.filter (fun x => x.2.peers.contains p)
  ls != [] && ls.all (fun x => decide (flowEnd ≤ x.2.flow))

/-- Does an MMIO address lie behind a link whose flow has come to its end? -/
def windowStalled (s : State) (pa : Nat) : Bool :=
  isMmio pa && s.sys.ports.any (fun p => decide (flowEnd ≤ p.2.flow) && decide (p.2.win.1 ≤ pa ∧ pa < p.2.win.1 + p.2.win.2))

/-- Has the flow of a world from a core into the network come to its end? -/
def coreStalled (s : State) (core asid : Nat) : Bool :=
  decide (flowEnd ≤ Tab.lookD (s.core core).flows (match asidRoot s asid with | some x => x.2 | none => 0) 0)

/-- Is the line of a leased address held as an access needs it, so that nothing is asked of the lender (R431)? -/
def lineHere (s : State) (pa : Nat) (write : Bool) : Bool :=
  match heldLine s pa with | some l => !write || l.excl | none => false

/-- The lender entry whose borrower answers no snoop that an access to a pool address would send (R431). -/
def farAwaited (s : State) (pa : Nat) (write : Bool) : Option Nat :=
  if paRegion pa = 1 then
    (Tab.look s.lease.far (pa / 128)).bind (fun l =>
      if !l.snoop && (write || l.excl) && (s.lease.lender l.entry).silent then some l.entry else none)
  else none

/-- What an access to an address waits for, as the DETAIL of its stop: a lender that answers no more, a borrower that answers no
snoop, or, under bit 62, a flow at its end, over which nothing goes. -/
def awaitPa (s : State) (pa : Nat) (write : Bool) : Option W64 :=
  if windowStalled s pa then some (BitVec.ofNat 64 (2 ^ 62))
  else if isLease pa then
    if lineHere s pa write then none
    else if (s.lease.slot (leaseSlotOf pa)).silent then some (BitVec.ofNat 64 (leaseSlotOf pa))
    else if (peerOf s pa).any (peerStalled s) then some (BitVec.ofNat 64 (2 ^ 62))
    else none
  else if (peerOf s pa).any (peerStalled s) then some (BitVec.ofNat 64 (2 ^ 62))
  else (farAwaited s pa write).map (fun i => BitVec.ofNat 64 (2 ^ 63 + i))

/-- What an access of a core that misses its L1 waits for. -/
def awaitOf (s : State) (core asid pa : Nat) (write : Bool) : Option W64 :=
  if coreStalled s core asid then some (BitVec.ofNat 64 (2 ^ 62)) else awaitPa s pa write

/-- From now on the snoop, the release or the request has no answer (R433). -/
def Lender.awaits (l : Lender) (now : Nat) : Lender := { l with wait := some (l.wait.getD now) }
def Slot.awaits (x : Slot) (now : Nat) : Slot := { x with wait := some (x.wait.getD now) }

/-- A snoop for a line goes unanswered. -/
def awaitFar (s : State) (pa : Nat) (write : Bool) : State :=
  match farAwaited s pa write with
  | some i => s.onLender i (fun l => l.awaits s.time.ftime)
  | none => s

/-- An access begins to wait. -/
def awaitPeer (s : State) (st : Stop) : State :=
  let n := st.detail.toNat
  if st.detail.getLsbD 62 then s
  else if st.detail.getLsbD 63 then s.onLender (n % 2 ^ 62) (fun l => l.awaits s.time.ftime)
  else s.onSlot n (fun x => x.awaits s.time.ftime)

/-! ### One access (R199 to R206) -/

/-- Kinds of access for rows 3, 7 and 8. -/
structure Kind where
  need : Need
  amo : Bool          -- AMO, AMOC, TLD, TST and fetches never reach MMIO (row 8)
  direct : Bool       -- performed at the point of coherence, not served by the L1
  tagStore : Bool     -- a tagged capability is stored (row 10)
  deriving DecidableEq, Repr

/-- Where a piece of an access lands. -/
inductive Target where
  | vault (home : Nat)
  | phys (pa : Nat)
  | dev (pa : Nat)
  | line (key : Nat)
  deriving DecidableEq, Repr

/-- The unit view of a vault address (R298): none for VAULT_RANGE. -/
def vaultUnit (s : State) (team a n : Nat) : Option Nat := do
  let t ← Tab.look s.teams team
  let u ← Tab.look s.units t.unit
  let p := a / 2 ^ 22
  let o := a % 2 ^ 22
  if u.w * u.h ≤ p ∨ 2 ^ 5 ≤ p then none
  else
    let tk ← u.teams[p]?
    let tm ← Tab.look s.teams tk
    if tm.vlen < o + n then none else some (vaultHome tm.core (tm.vbase + o))

/-- The die view of a vault address (R298): a supervisor core's, whose number p names a core of its own die. -/
def vaultDie (core a n : Nat) : Option Nat :=
  let p := a / 2 ^ 22
  let o := a % 2 ^ 22
  if 24 ≤ p ∨ 2 ^ 22 < o + n then none else some (vaultHome (core / 24 * 24 + p) o)

def lineKey (asid va : Nat) : Nat := asid * 2 ^ 57 + va / 128

/-- A line of the core's L1 that hits (R302). -/
def l1Hit (s : State) (core asid va : Nat) : Option Line :=
  let l1 := (s.core core).l1
  match Tab.look l1.lines (lineKey asid va) with
  | some l => if l.lgc == l1.cgc && l.lgd == l1.cgd && l.valid.getLsbD (va % 128 / 32) then some l else none
  | none => none

/-- The physical address of a line: its home, but for a lease line the address in the lease window. -/
def linePa (s : State) (l : Line) : Nat :=
  match l.slot with
  | some sl => 0xF * 2 ^ 52 + sl * 2 ^ 40 + (l.home - leaseHome (s.lease.slot sl) 0)
  | none => l.home

/-- The pieces of [va, va + n) within 128-byte lines. -/
def pieces (va n : Nat) : List (Nat × Nat) :=
  if va / 128 = (va + n - 1) / 128 then [(va, n)]
  else [(va, 128 - va % 128), (va + (128 - va % 128), n - (128 - va % 128))]

/-- Rows 6 to 10 for one piece: the state with the TLB filled, and where the piece lands. A page with I/O memory attributes
is an MMIO page whatever its PPN names (R411), and is not cached (R210). A misaligned access to one stops after rows 6 to 8 and before
rows 9 and 10 (DESIGN CHOICE, log 73). An access that passes may still wait for another package. -/
def checkPiece (s : State) (w : Who) (k : Kind) (mmio : Bool) (va n ea full : Nat) :
    Except Stop (State × Target) :=
  let stop := fun (c : Cause) (slot : Nat) => Except.error (α := State × Target) ⟨c, BitVec.ofNat 64 ea, BitVec.ofNat 64 slot, none⟩
  let refuse := fun (c : Cause) =>
    Except.error (α := State × Target) ⟨c, BitVec.ofNat 64 ea, 0, cleanMet s (w.levels s) w.asid va k.need⟩
  let tail := fun (s : State) (pa : Nat) (io : Bool) (t : Target) =>
    if k.need.w && writeBarred s pa then stop cPAGE_PERM 0
    else if io && (!mmio || k.amo) then stop cCAP_PERM 0
    else if io && decide (ea % full ≠ 0) then stop cCAP_ALIGN 0
    else match leaseCheck s pa with
      | some c => stop c (leaseSlotOf pa)
      | none =>
        if k.tagStore && (io || !paTagged s pa) then stop cCAP_UNTAGGED 0
        else match awaitOf s w.core w.asid pa k.need.w with
          | some d => .error ⟨cWAIT, BitVec.ofNat 64 ea, d, none⟩
          | none => .ok (s, t)
  match (if k.direct then none else l1Hit s w.core w.asid va) with
  | some l =>
    if (permBits k.need &&& ~~~ l.perms) ≠ 0 then
      match translate s w va k.need with
      | .error c => refuse c
      | .ok (s, x) => tail s x.pa x.io (if x.io || isMmio x.pa then .dev x.pa else .phys x.pa)
    else match l.slot with
      | some sl => (match leaseCheck s (0xF * 2 ^ 52 + sl * 2 ^ 40) with
        | some c => stop c sl
        | none => .ok (s, .line (lineKey w.asid va)))
      | none => .ok (s, .line (lineKey w.asid va))
  | none =>
    match translate s w va k.need with
    | .error c => refuse c
    | .ok (s, x) => tail s x.pa x.io (if x.io || isMmio x.pa then .dev x.pa else .phys x.pa)

/-- Checks of all pieces in ascending address. -/
def checkPieces (w : Who) (k : Kind) (mmio : Bool) (ea full : Nat) :
    List (Nat × Nat) → State → Except Stop (State × List (Target × Nat))
  | [], s => .ok (s, [])
  | (va, n) :: l, s =>
    match checkPiece s w k mmio va n ea full with
    | .error e => .error e
    | .ok (s, t) =>
      match checkPieces w k mmio ea full l s with
      | .error e => .error e
      | .ok (s, ts) => .ok (s, (t, n) :: ts)

/-- R204 in full for n bytes at ea: `perms` is row 3, `align` row 5, `low` the addition of R220 to row 4. -/
def checkAccess (s : State) (w : Who) (k : Kind) (c : Cap) (otype : Nat) (perms : List Nat) (low align : Nat)
    (ea : Int) (n : Nat) : Except Stop (State × List (Target × Nat)) :=
  let fa := BitVec.ofInt 64 ea
  match capCheck c otype perms fa with
  | some e => .error e
  | none =>
    if !boundsCheck c low ea n then .error (stopAt cCAP_BOUNDS fa)
    else if ea.toNat % align ≠ 0 then .error (stopAt cCAP_ALIGN fa)
    else if capHas c pVLT then
      match vaultUnit s w.team ea.toNat n with
      | none => .error (stopAt cVAULT_RANGE fa)
      | some h => .ok (s, [(.vault h, n)])
    else checkPieces w k (capHas c pMMIO) ea.toNat n (pieces ea.toNat n) s

/-! ### The vector L1 (R301 to R304, R415) -/

def L1.find (l : L1) (key : Nat) : Option Line := Tab.look l.lines key

/-- Remove lines that satisfy `f`, from the lines and the fills on their way. -/
def L1.discard (l : L1) (f : Nat → Line → Bool) : L1 :=
  let ls := l.lines.filter (fun x => !f x.1 x.2)
  { l with lines := ls, fills := l.fills.filter (fun x => !f x.1 x.2),
           order := l.order.filter (fun k => (Tab.look ls k).isSome) }

def State.l1Map (s : State) (core : Nat) (f : L1 → L1) : State :=
  let c := s.core core
  s.setCore core { c with l1 := f c.l1 }

/-- Discard the lines that satisfy `f` from the vector L1 and the instruction cache of every core that the tables list (cores
not listed hold no lines). -/
def State.discardLines (s : State) (f : Nat → Line → Bool) : State :=
  { s with cores := Tab.mapv (fun _ c => { c with l1 := c.l1.discard f, ic := c.ic.filter (fun x => !f x.1 x.2) }) s.cores }

/-- Discard the lines that satisfy `f` from the instruction cache of every core (R420). -/
def State.discardCode (s : State) (f : Nat → Line → Bool) : State :=
  { s with cores := Tab.mapv (fun _ c => { c with ic := c.ic.filter (fun x => !f x.1 x.2) }) s.cores }

/-- Lines the L1 holds (R301). -/
def l1Cap : Nat := 2048

/-- Install a fill (R302, R415): the same physical line under another name is discarded first. -/
def L1.install (l : L1) (key : Nat) (ln : Line) : L1 :=
  let l := l.discard (fun k x => x.home == ln.home && k != key)
  let order := key :: l.order.filter (· != key)
  let keep := order.take l1Cap
  { l with lines := (Tab.put l.lines key { ln with valid := 0xF }).filter (fun x => keep.contains x.1),
           fills := Tab.rem l.fills key, order := keep }

/-- The 128 bytes and tags of a line at the point of coherence, as a key opens them. -/
def fetchLine (s : State) (key pa : Nat) : List Byte × BitVec 8 :=
  let b := pa - pa % 128
  (openBytes s key b (s.readBytes b 128),
    BitVec.ofNat 8 ((List.range 8).foldl (fun a i =>
      if s.readTag (b + 16 * i) && paTagged s b && opens s key (b + 16 * i) 16 then a + 2 ^ i else a) 0))

/-- A miss (R302): the line is read at the point of coherence, or a current fill on its way serves it (R316). No sector of a
fill on its way is valid. Its permissions and the size of its page are those of the translation that the core holds; without one
it counts as a line of the largest page, so that every invalidation that may meet it does (R206, R417). -/
def l1Miss (s : State) (core asid va pa : Nat) : State × Line :=
  let l1 := (s.core core).l1
  let key := lineKey asid va
  match Tab.look l1.fills key with
  | some f =>
    if f.lgc == l1.cgc && f.lgd == l1.cgd && f.home == homeOf s (pa - pa % 128) then (s, f) else fresh l1 key
  | none => fresh l1 key
where
  fresh (l1 : L1) (key : Nat) : State × Line :=
    let (d, t) := fetchLine s (keyOf s asid) pa
    let hit := tlbAt s (.core core) asid va
    let perms := match hit with | some e => (e.res va).perms | none => 0
    let world := match asidRoot s asid with | some x => x.2 | none => 0
    let ln : Line := ⟨0, world, (match hit with | some e => e.level | none => 4), homeOf s (pa - pa % 128), d, t, perms,
      if isLease pa then some (leaseSlotOf pa) else none, l1.cgc, l1.cgd⟩
    (s.l1Map core (fun l => { l with fills := Tab.put l.fills key ln }), ln)

/-- A store's effect on the storing core's L1 (R302, R415): update the current line of this name, or discard it with
.byp; discard the line under any other name. Fills on their way are updated alike. -/
def l1Store (s : State) (core asid va pa : Nat) (byp : Bool) (bs : List Byte) (tag : Bool) : State :=
  s.l1Map core (fun l =>
    let key := lineKey asid va
    let home := homeOf s (pa - pa % 128)
    let upd := fun (ln : Line) =>
      let d := (bs.zipIdx).foldl (fun d x => d.set (va % 128 + x.2) x.1) ln.data
      let g0 := va % 128 / 16
      let g1 := (va % 128 + bs.length - 1) / 16
      let ts := (List.range 8).foldl (fun (t : BitVec 8) i =>
        if g0 ≤ i ∧ i ≤ g1 then (if tag then t ||| BitVec.ofNat 8 (2 ^ i) else t &&& ~~~ (BitVec.ofNat 8 (2 ^ i))) else t) ln.tags
      { ln with data := d, tags := ts }
    let l := l.discard (fun k x => x.home == home && k != key)
    if byp then l.discard (fun k _ => k == key)
    else
      { l with
        lines := Tab.mapv (fun k ln => if k = key then (if ln.lgc = l.cgc ∧ ln.lgd = l.cgd then upd ln else ln) else ln) l.lines,
        fills := Tab.mapv (fun k ln => if k = key then upd ln else ln) l.fills })

/-- Discard the lines of the core that overlap [pa, pa + n) by their homes (R311). -/
def l1Overlap (s : State) (core : Nat) (home n : Nat) : State :=
  s.l1Map core (fun l => l.discard (fun _ x => decide (x.home < home + n ∧ home < x.home + 128)))

/-- A step of CGC (`dev` clear) or CGD (R303): the pass that clears lines of the next value runs (R304). A step that
finds that pass still running waits for it, which is to complete it now. -/
def stepGen (s : State) (core : Nat) (dev : Bool) : State :=
  s.l1Map core (fun l =>
    if dev then
      let l := if l.passD then { l.discard (fun _ x => x.lgd == l.cgd + 1) with passD := false } else l
      { l with cgd := l.cgd + 1, passD := true }
    else
      let l := if l.passC then { l.discard (fun _ x => x.lgc == l.cgc + 1) with passC := false } else l
      { l with cgc := l.cgc + 1, passC := true })

/-! ### Performing a checked access -/

/-- The home address of a target, for the marks of R305. -/
def targetHome (s : State) (w : Who) : Target → Nat
  | .vault h => h
  | .phys pa => homeOf s pa
  | .dev pa => pa
  | .line k => match Tab.look (s.core w.core).l1.lines k with | some l => l.home | none => 0

/-- DETAIL of a MEMORY_ERROR (R365): the unit's physical address, or for vault SRAM its die-view address under bit 63. `pa` is
the physical address of some byte whose home is `home`. -/
def errDetail (pa home unit : Nat) : W64 :=
  if vaultBase ≤ unit then BitVec.ofNat 64 (2 ^ 63 + (unit - vaultBase) / 2 ^ 22 % 24 * 2 ^ 22 + (unit - vaultBase) % 2 ^ 22)
  else BitVec.ofNat 64 (pa + unit - home)

/-- The physical address behind a target. -/
def targetPa (s : State) (w : Who) : Target → Nat
  | .vault h => h
  | .phys pa => pa
  | .dev pa => pa
  | .line k => match Tab.look (s.core w.core).l1.lines k with | some l => linePa s l | none => 0

/-- Does an MMIO address lie behind a port that a hot reset has cut off (R446)? -/
def cutOff (s : State) (pa : Nat) : Bool :=
  s.sys.ports.any (fun p => p.2.cut && decide (p.2.win.1 ≤ pa ∧ pa < p.2.win.1 + p.2.win.2))

/-! ### The residency page (R307) -/

/-- Written steps a die queues. -/
def stepCap : Nat := 16

/-- STEP: a store beyond sixteen queued steps waits behind them and becomes the last step written when room frees; with the
mode off it has no further effect. -/
def resStep (s : State) (d : Nat) (v : BitVec 16) : State :=
  s.onDie d (fun r =>
    if !r.active then { r with stp := v }
    else { r with stp := if stepCap ≤ r.queue.length then r.stp else v, queue := r.queue ++ [v] })

/-- The die whose STEP page lies at a physical address. -/
def residDie (s : State) (pa : Nat) : Option Nat :=
  (s.resid.find? (fun x => match x.2.page with | some a => pa / 4096 == a / 4096 | none => false)).map Prod.fst

/-- A load from an MMIO page (R210): all ones behind a port that is cut off (R446); the residency page and the pages of registers
answer with what they hold; the register of a device whose behaviour the spec does not give, with a free value; memory that an
I/O page maps is read uncached, at its point of coherence. -/
def deviceLoad (s : State) (key pa n : Nat) : State × List Byte :=
  if !isMmio pa then
    let s := takeShared (snoopFor s pa n false) pa
    (s, openBytes s key pa (s.readBytes pa n))
  else if cutOff s pa then (s, List.replicate n 0xFF)
  else match residDie s pa with
  | some d => (s, leBytes (residWord (s.die d) / 2 ^ (8 * (pa % 4096))) n)
  | none =>
    match ctlFind s pa with
    | some (p, off) => ({ s with ctr := s.ctr + 1 }, (List.range n).map (ctlByte s p off))
    | none => ({ s with ctr := s.ctr + 1, mmio := ⟨false, pa, n, []⟩ :: s.mmio }, (List.range n).map (Config.deviceRead s.ctr))

/-- A store to an MMIO page, discarded behind a port that is cut off (R446); one to STEP of the residency page names the next
step; one to a page of registers is carried out by the steps that come next; memory that an I/O page maps is written, where it may
be. -/
def deviceStore (s : State) (key pa : Nat) (bs : List Byte) : State :=
  if !isMmio pa then
    if writeBarred s pa then s else (sealWith (snoopFor s pa bs.length true) key pa bs.length).writeBytes pa bs
  else if cutOff s pa then s
  else match residDie s pa with
  | some d => if pa % 4096 = 0 then resStep s d (BitVec.ofNat 16 (leNat bs)) else s
  | none =>
    match ctlFind s pa with
    | some (p, off) => { s with agenda := ctlWrites s p off bs ++ s.agenda }
    | none => { s with mmio := ⟨true, pa, bs.length, bs⟩ :: s.mmio }

/-- A store through an I/O page, which bypasses the L1: memory that it names is discarded there (R302, R415). -/
def deviceWrite (s : State) (w : Who) (pa va : Nat) (bs : List Byte) : State :=
  deviceStore (if isMmio pa then s else l1Store s w.core w.asid va pa true bs false) (keyOf s w.asid) pa bs

/-- Read one piece: its bytes, and the state with any fill begun. `va` is the piece's address. `byp` fills nothing. -/
def readPiece (s : State) (w : Who) (byp : Bool) (t : Target) (va n : Nat) : Except Stop (State × List Byte) :=
  let off := match t with | .line _ => va % 128 | _ => 0
  match s.mem.err (targetHome s w t + off) n with
  | some u => .error ⟨cMEMORY_ERROR, BitVec.ofNat 64 va, errDetail (targetPa s w t) (targetHome s w t) u, none⟩
  | none =>
    match t with
    | .vault h => .ok (s, s.mem.bytes h n)
    | .phys pa =>
      let s := takeShared (snoopFor s pa n false) pa
      if byp then .ok (s, openBytes s (keyOf s w.asid) pa (s.readBytes pa n))
      else
        let (s, l) := l1Miss s w.core w.asid va pa
        .ok (s, (l.data.drop (va % 128)).take n)
    | .dev pa => .ok (deviceLoad s (keyOf s w.asid) pa n)
    | .line k =>
      match Tab.look (s.core w.core).l1.lines k with
      | some l => .ok (s, (l.data.drop (va % 128)).take n)
      | none => .ok (s, List.replicate n 0)

/-- Read the pieces of an access at va, the address that an error in any of them reports (R199, R365). -/
def readPieces (w : Who) (byp : Bool) : List (Target × Nat) → Nat → State → Except Stop (State × List Byte)
  | [], _, s => .ok (s, [])
  | (t, n) :: l, va, s =>
    match readPiece s w byp t va n with
    | .error e => .error e
    | .ok (s, b) =>
      match readPieces w byp l (va + n) s with
      | .error e => .error { e with faddr := BitVec.ofNat 64 va }
      | .ok (s, bs) => .ok (s, b ++ bs)

/-- A sealed handle in memory that is reached through the fabric: it is never tagged there (R259). -/
def farHandle (s : State) (pa : Nat) (bs : List Byte) : Bool := (peerOf s pa).isSome && capOtype (capOfBytes bs true) == 5

/-- The tag read with a granule, in the state that the read of its bytes has left: a fill on its way gives bytes and tag
together (R99, R302). A line of memory that has lost the tag extension since yields none (R101). -/
def readPieceTag (s : State) (w : Who) (byp : Bool) (t : Target) (va : Nat) : Bool :=
  match t with
  | .vault h => s.mem.tag h
  | .phys pa =>
    paTagged s pa && !farHandle s pa (s.readBytes pa 16) &&
      (match (if byp then none else Tab.look (s.core w.core).l1.fills (lineKey w.asid va)) with
       | some f => f.tags.getLsbD (va % 128 / 16)
       | none => s.readTag pa && opens s (keyOf s w.asid) pa 16)
  | .dev _ => false
  | .line k =>
    match Tab.look (s.core w.core).l1.lines k with
    | some l => l.tags.getLsbD (va % 128 / 16) && paTagged s (linePa s l) && !farHandle s (linePa s l) ((l.data.drop (va % 128)).take 16)
    | none => false

/-- Write one piece of data. -/
def writePiece (s : State) (w : Who) (byp : Bool) (t : Target) (va : Nat) (bs : List Byte) : State :=
  match t with
  | .vault h => { s with mem := s.mem.write h bs }
  | .phys pa =>
    (sealWith (snoopFor (l1Store s w.core w.asid va pa byp bs false) pa bs.length true) (keyOf s w.asid) pa bs.length).writeBytes pa bs
  | .dev pa => deviceWrite s w pa va bs
  | .line _ => s

def writePieces (w : Who) (byp : Bool) : List (Target × Nat) → Nat → List Byte → State → State
  | [], _, _, s => s
  | (t, n) :: l, va, bs, s => writePieces w byp l (va + n) (bs.drop n) (writePiece s w byp t va (bs.take n))

/-- Write a capability granule (R215). -/
def writeCapTo (s : State) (w : Who) (byp : Bool) (t : Target) (va : Nat) (c : Cap) : State :=
  match t with
  | .vault h => { s with mem := s.mem.writeCap h (capBytes c) c.tag }
  | .phys pa =>
    (sealWith (snoopFor (l1Store s w.core w.asid va pa byp (capBytes c) c.tag) pa 16 true) (keyOf s w.asid) pa 16).writeCapAt pa c
  | .dev pa => deviceWrite s w pa va (capBytes c)
  | .line _ => s

/-- May no agent of the package write the page of a physical address: measured into a world (R453), or of an extent lent
read-only (R344, R432)? -/
def pageKept (s : State) (pa : Nat) : Bool := (Tab.look s.keys.locked (pa / 4096)).isSome || lentShared s pa

/-- Bytes within one page as an engine leaves them. -/
def rawPiece (s : State) (pa : Nat) (bs : List Byte) : State :=
  if pageKept s pa then s
  else { s with mem := s.mem.write pa bs, lease := { s.lease with far := farPut s.lease.far pa bs } }

/-- The same across a page boundary. -/
def rawWrite (s : State) (pa : Nat) (bs : List Byte) : State :=
  let k := 4096 - pa % 4096
  if bs.length ≤ k then rawPiece s pa bs else rawPiece (rawPiece s pa (bs.take k)) (pa + k) (bs.drop k)

/-- A granule with its tag. -/
def rawCap (s : State) (pa : Nat) (c : Cap) : State :=
  if pageKept s pa then s
  else
    { s with
      mem := s.mem.writeCap pa (capBytes c) c.tag
      lease := { s.lease with far := farTag (farPut s.lease.far pa (capBytes c)) pa c.tag } }

/-- Bytes of memory come under a key, but for those of pages that are kept. -/
def sealRange (s : State) (key pa n : Nat) : State :=
  if s.keys.locked.any (fun x => decide (pa < 4096 * x.1 + 4096 ∧ 4096 * x.1 < pa + n)) || lentShared s pa || lentShared s (pa + n - 1) then
    (List.range ((pa + n - 1) / 4096 - pa / 4096 + 1)).foldl (fun s i =>
      let a := (pa / 4096 + i) * 4096
      if pageKept s a then s else sealWith s key (max a pa) (min (a + 4096) (pa + n) - max a pa)) s
  else sealWith s key pa n

/-- What an engine or Mydal's services write to memory under a key. -/
def keyWrite (s : State) (key pa : Nat) (bs : List Byte) : State :=
  rawWrite (sealRange (snoopFor s pa bs.length true) key pa bs.length) pa bs
def keyCap (s : State) (key pa : Nat) (c : Cap) : State := rawCap (sealRange (snoopFor s pa 16 true) key pa 16) pa c

/-- Zeros under a key. -/
def keyZero (s : State) (key pa n : Nat) : State :=
  let s := sealRange (snoopFor s pa n true) key pa n
  let keep := fun (a : Nat) => !decide (pa ≤ a ∧ a < pa + n) || pageKept s a
  { s with
    mem :=
      { cells := s.mem.cells.filter (fun c => keep c.1)
        tags := s.mem.tags.filter (fun g => keep (16 * g))
        errs := s.mem.errs.filter (fun g => keep (64 * g)) }
    lease := { s.lease with far := farPut s.lease.far pa (List.replicate n 0) } }

/-- May system software have derived a capability from its roots (R87, R90 to R92)? Unsealed, or of a type that REFWRAP makes and
the sealing root reaches; with permissions and bounds of one root. -/
def fromRoots (s : State) (c : Cap) : Bool :=
  let y := capOtype c
  capWell c && s.roots.any (fun r => r.tag && (capPerms c &&& ~~~ capPerms r) == 0 && decide (capBase r ≤ capBase c ∧ capTop c ≤ capTop r)) &&
    (y == 0 || wrapOk y && s.roots.any (fun r => r.tag && capHas r pWRAP && decide (capBase r ≤ y ∧ y < capTop r)))

/-- A capability as system software can give it: one that it was sent, or that derives from its roots; any other pattern has no
tag (R87, R90). -/
def derivedCap (s : State) (sent : Option Cap) (c : Cap) : Cap := if sent = some c ∨ fromRoots s c then c else capUntag c

/-- A granule of physical memory as Mydal reads it: one under another key comes out as the cipher has it, without its tag, and no malformed pattern keeps one (R81). -/
def devCap (s : State) (pa : Nat) : Cap :=
  let key := (s.keys.world 0).key
  capSane (capOfBytes (openBytes s key pa (s.readBytes pa 16)) (s.readTag pa && paTagged s pa && opens s key pa 16))

/-- What Mydal and its engines write, under the key of Mydal's own world. -/
def devWrite (s : State) (pa : Nat) (bs : List Byte) : State := keyWrite s (s.keys.world 0).key pa bs

/-! ### Owner records (R336) and releases to a lender (R344, R436) -/

/-- A release at scope q of core `core` to the line of a home address: at .team and .clu the record names the core, at .dev and
.sys it is cleared. The core named before is promoted first; its writes have all been performed here (log 6). -/
def ownerRelease (s : State) (core q home : Nat) : State :=
  if q = 0 ∨ vaultBase ≤ home then s
  else if q ≤ 2 then { s with owners := Tab.put s.owners (home / 128) core }
  else { s with owners := Tab.rem s.owners (home / 128) }

/-- A release of a thread to the targets of its access. -/
def releaseTo (s : State) (w : Who) (q : Nat) (ts : List (Target × Nat)) : State :=
  ts.foldl (fun s t => ownerRelease s w.core q (targetHome s w t.1)) s

/-- The leased address of a held line's key. -/
def lineAddr (k : Nat) : Nat := 0xF * 2 ^ 52 + k / 2 ^ 33 * 2 ^ 40 + k % 2 ^ 33 * 128

/-- Write a held line's granules from number i on back to its home, tags with them where the link carries them. -/
def putGranules (s : State) (home : Nat) (tagged : Bool) (l : LeaseLine) : Nat → Memory → Memory
  | 0, m => m
  | n + 1, m =>
    let i := 7 - n
    putGranules s home tagged l n (m.writeCap (home + 16 * i) ((l.data.drop (16 * i)).take 16) (tagged && l.tags.getLsbD i))

/-- Write a modified line back to the lender. -/
def writeBack (s : State) (k : Nat) (l : LeaseLine) : State :=
  if l.dirty then { s with mem := putGranules s (homeOf s (lineAddr k)) (paTagged s (lineAddr k)) l 8 s.mem } else s

/-- The modified lines of leases whose lender answers reach it, and stay held. -/
def leaseRelease (s : State) : State :=
  let ok := fun (k : Nat) => decide ((s.lease.slot (k / 2 ^ 33)).st.toNat ∈ [2, 3, 4])
  let s := s.lease.lines.foldl (fun s x => if ok x.1 then writeBack s x.1 x.2 else s) s
  { s with lease := { s.lease with
      lines := Tab.mapv (fun k l => { l with dirty := l.dirty && !ok k }) s.lease.lines } }

/-- What a release at scope q waits for beyond its own package (R344): nothing below .dev. -/
def releaseFar (s : State) (q : Nat) : State := if 3 ≤ q then leaseRelease s else s

/-- Stores of one thread reach their targets directly: a checked store never lands on a line. -/
def kindStore (amo tagged : Bool) : Kind := ⟨needStore, amo, true, tagged⟩
def kindLoad (amo direct : Bool) : Kind := ⟨needLoad, amo, direct, false⟩

/-! ### Fetch (R27, R412, log 28) -/

/-- The line of the core's instruction cache at va. -/
def codeHit (s : State) (core asid va : Nat) : Option Line := Tab.look (s.core core).ic (lineKey asid va)

/-- The k bytes of a line at a for a fetch: from the core's instruction cache, or from memory at its point of coherence.
A cached line was translated when it was filled, and one filled through a lease slot is refused as the slot's state
says. `fa` is the address an error names. -/
def fetchPiece (s : State) (w : Who) (a k : Nat) (fa : W64) : Except Stop (List Byte) :=
  let stop := fun (c : Cause) (slot : Nat) => Except.error (α := List Byte) ⟨c, fa, BitVec.ofNat 64 slot, none⟩
  match codeHit s w.core w.asid a with
  | some l =>
    match l.slot.bind (fun sl => (leaseCheck s (0xF * 2 ^ 52 + sl * 2 ^ 40)).map (fun c => (c, sl))) with
    | some (c, sl) => stop c sl
    | none => .ok ((l.data.drop (a % 128)).take k)
  | none =>
    match translate s w a needFetch with
    | .error c => stop c 0
    | .ok (_, x) =>
      if x.io || isMmio x.pa then stop cCAP_PERM 0
      else match leaseCheck s x.pa with
        | some c => stop c (leaseSlotOf x.pa)
        | none =>
          match awaitOf s w.core w.asid x.pa false with
          | some d => .error ⟨cWAIT, fa, d, none⟩
          | none =>
          match s.mem.err (homeOf s x.pa) k with
          | some u => .error ⟨cMEMORY_ERROR, fa, errDetail x.pa (homeOf s x.pa) u, none⟩
          | none => .ok (openBytes s (keyOf s w.asid) x.pa (s.readBytes x.pa k))

/-- The n bytes at va, line by line. -/
def fetchBytes (s : State) (w : Who) (va n : Nat) (fa : W64) : Except Stop (List Byte) :=
  match pieces va n with
  | [(a, k), (a', k')] =>
    match fetchPiece s w a k fa with
    | .error e => .error e
    | .ok b =>
      match fetchPiece s w a' k' fa with
      | .error e => .error e
      | .ok b' => .ok (b ++ b')
  | _ => fetchPiece s w va n fa

/-- The translation caches, and the lines of leases, after the fetch of n bytes (R414, R431). -/
def fetchFill (s : State) (w : Who) (va n : Nat) : State :=
  (pieces va n).foldl (fun s x =>
    match codeHit s w.core w.asid x.1 with
    | some _ => s
    | none =>
      match translate s w x.1 needFetch with
      | .ok (s, r) => if (awaitOf s w.core w.asid r.pa false).isNone then takeShared (snoopFor s r.pa x.2 false) r.pa else s
      | .error _ => s) s

end Sys2Proof.Machine
end

