-- ==== Sys2Proof/Machine/Operands.lean ====
section
/-! DEFINITION. Registers and operand forms: reads and writes of every register class, source modifiers, group
registers, literals and pairs (R27 to R32, R111 to R118, R143, R144). -/

namespace Sys2Proof.Machine

/-! ### Threads -/

def Thread.reset : Thread := ⟨.exited, .none, 0, Cap.null, Cap.null, 0, [], [], [], 0, 0⟩

def Group.thread (g : Group) (t : Nat) : Thread := Tab.lookD g.th t Thread.reset
def Group.setThread (g : Group) (t : Nat) (x : Thread) : Group := { g with th := Tab.put g.th t x }

/-- Update thread t. -/
def Group.onThread (g : Group) (t : Nat) (f : Thread → Thread) : Group := g.setThread t (f (g.thread t))

/-- The program counter: the address field of the code capability (R27). -/
def Thread.pc (x : Thread) : Nat := (capAddr x.code).toNat

/-- Predicate p of a thread: p7 reads true (R27, R31). -/
def Thread.pred (x : Thread) (n : Nat) : Bool := n == 7 || x.p.getLsbD n

/-- Write predicate n; a write to p7 is discarded (R31). -/
def Thread.setPred (x : Thread) (n : Nat) (b : Bool) : Thread :=
  if n = 7 then x
  else { x with p := if b then x.p ||| BitVec.ofNat 8 (2 ^ n) else x.p &&& ~~~ (BitVec.ofNat 8 (2 ^ n)) }

/-- Does field value r name a trap window here (R30)? -/
def isWin (g : Group) (r : Nat) : Bool := g.trap.isSome && decide (120 ≤ r)

/-- The number a pending write gives the register of field value r: 128 to 135 stand for w0 to w7. -/
def winReg (g : Group) (r : Nat) : Nat := if isWin g r then r + 8 else r

/-- A vector register as it stands: unlisted registers read zero (R41); fields 120 to 127 name the trap window in trap
mode (R30). -/
def Thread.vreg (x : Thread) (win : Bool) (r : Nat) : W32 :=
  if win then Tab.lookD x.w (r - 120) 0 else Tab.lookD x.v r 0

def Thread.setV (x : Thread) (win : Bool) (r : Nat) (y : W32) : Thread :=
  if win then { x with w := Tab.cput 0 x.w (r - 120) y } else { x with v := Tab.cput 0 x.v r y }

def Thread.cap (x : Thread) (r : Nat) : Cap := Tab.lookD x.c r Cap.null
def Thread.setCap (x : Thread) (r : Nat) (c : Cap) : Thread := { x with c := Tab.cput Cap.null x.c r c }

/-! ### Group registers -/

def Group.greg (g : Group) (r : Nat) : W64 := Tab.lookD g.r.g r 0
def Group.setG (g : Group) (r : Nat) (y : W64) : Group := { g with r := { g.r with g := Tab.cput 0 g.r.g r y } }
def Group.gcap (g : Group) (r : Nat) : Cap := Tab.lookD g.r.gc r Cap.null
def Group.setGC (g : Group) (r : Nat) (c : Cap) : Group := { g with r := { g.r with gc := Tab.cput Cap.null g.r.gc r c } }

/-- A handle register: none when invalid (R33). -/
def Group.handle (g : Group) (r : Nat) : Option W64 := Tab.look g.r.h r
def Group.setH (g : Group) (r : Nat) (x : Option W64) : Group :=
  { g with r := { g.r with h := match x with | some y => Tab.put g.r.h r y | none => Tab.rem g.r.h r } }

/-- The capability a field names (R30): c0 to c31 of the thread, or gc0 to gc15. -/
def Group.capField (g : Group) (t r : Nat) : Cap := if r < 32 then (g.thread t).cap r else g.gcap (r - 32)

/-! ### Pending results (R23, R208) -/

/-- The latest pending write of vector register r of thread t: whether it is an LDW's, and the value. -/
def pendV (l : List Pend) (t r : Nat) : Option (Bool × W32) :=
  l.findSome? (fun p => p.writes.findSome? (fun w =>
    match w with | .v t' r' x => if t' = t ∧ r' = r then some (p.ldw, x) else none | _ => none))

def pendG (l : List Pend) (r : Nat) : Option (Bool × W64) :=
  l.findSome? (fun p => p.writes.findSome? (fun w =>
    match w with | .g r' x => if r' = r then some (p.ldw, x) else none | _ => none))

def pendC (l : List Pend) (t r : Nat) : Option Cap :=
  l.findSome? (fun p => p.writes.findSome? (fun w =>
    match w with
    | .c t' r' x => if t' = t ∧ r' = r ∧ r < 32 then some x else none
    | .gc r' x => if 32 ≤ r ∧ r' = r - 32 then some x else none
    | _ => none))

def pendP (l : List Pend) (t r : Nat) : Option Bool :=
  l.findSome? (fun p => p.writes.findSome? (fun w =>
    match w with | .p t' r' b => if t' = t ∧ r' = r then some b else none | _ => none))

/-- Drop pending writes that a later write of the same register supersedes (R20). -/
def dropPend (l : List Pend) (f : PWrite → Bool) : List Pend :=
  l.map (fun p => { p with writes := p.writes.filter (fun w => !f w) })

/-- An LDW's pending write of a register (R208). -/
def pendLdw (l : List Pend) (t r : Nat) : Option W32 :=
  (pendV (l.filter (fun p => p.ldw)) t r).map Prod.snd

def isPV (t r : Nat) : PWrite → Bool
  | .v t' r' _ => t' == t && r' == r
  | .acc t' r' => t' == t && r' == r
  | _ => false

/-- Do two pending writes name the same register? -/
def sameReg : PWrite → PWrite → Bool
  | .v t r _, w => isPV t r w
  | .acc t r, w => isPV t r w
  | .g r _, .g r' _ => r == r'
  | .c t r _, .c t' r' _ => t == t' && r == r'
  | .gc r _, .gc r' _ => r == r'
  | .p t r _, .p t' r' _ => t == t' && r == r'
  | .h r _, .h r' _ => r == r'
  | _, _ => false

/-- The index of a free choice: field and reader of this sweep (log 4). Fields 0 to 3 are the register fields A, B, C and D,
4 the predicate of W1, 5 to 7 predicates in the fields A, B and C. -/
def choiceIx (base field t r : Nat) : Nat := base + field * 2 ^ 15 + t * 2 ^ 7 + r

/-- Read vector register r of thread u for reader t: an LDW's mark is waited for (R208); any other pending result may be
read or not (R23), and where an LDW's write came before it, that is what stands there else. -/
def readV (g : Group) (base field t u r : Nat) : W32 :=
  let x := (g.thread u).vreg (isWin g r) r
  match pendV g.pend u (winReg g r) with
    | none => x
    | some (ldw, y) =>
      if ldw || Config.pendNew (choiceIx base field t r) then y else (pendLdw g.pend u (winReg g r)).getD x

def readG (g : Group) (base field r : Nat) : W64 :=
  match pendG g.pend r with
  | none => g.greg r
  | some (ldw, y) =>
    if ldw || Config.pendNew (choiceIx base field 0 r) then y
    else ((pendG (g.pend.filter (fun p => p.ldw)) r).map Prod.snd).getD (g.greg r)

/-- Read the capability a field names. -/
def readC (g : Group) (base field t r : Nat) : Cap :=
  match pendC g.pend t r with
  | none => g.capField t r
  | some y => if Config.pendNew (choiceIx base field t r) then y else g.capField t r

/-- Read a predicate; a blocked CLAIM's outcome is pending like a long-latency result (R251). p7 reads true whatever is
pending (R31). -/
def readP (g : Group) (base field t r : Nat) : Bool :=
  if r = 7 then true
  else match pendP g.pend t r with
    | none => (g.thread t).pred r
    | some b => if Config.pendNew (choiceIx base field t r) then b else (g.thread t).pred r

/-! ### Sources -/

/-- perm(t) (R117). -/
def perm (m : BitVec 12) (t : Nat) : Nat :=
  let s := modSeg m
  let base := t - t % s
  match modClass m with
  | 1 => base + (t - base + modDist m) % s
  | 2 => t ^^^ modDist m
  | 3 => base + modDist m
  | _ => t

/-- A sweep as it runs: the group as it stands when the sweep begins or is replayed, the instruction and its form, the
threads still to be processed (`todo`) of the active set (`all`), where a fetch fails (`lim`), and the thread before which
it ends for now, where it is drained behind an older stop (`upTo`, R24). -/
structure Sw where
  gk : Nat
  g : Group
  i : Instr
  f : Form
  e : Ext
  iaddr : Nat
  all : KeySet
  todo : KeySet
  lim : Option (Nat × Stop)
  replay : Bool
  held : Option Held
  upTo : Option Nat
  seq : Nat
  base : Nat
  deriving DecidableEq, Repr

/-- Does the predicate of W1 hold for thread t (R113)? -/
def Sw.on (w : Sw) (t : Nat) : Bool := xor (readP w.g w.base 4 t w.e.pr.toNat) w.e.pn

/-- Thread u's register as it stood before the sweep: a replayed sweep keeps a copy of its completed threads' (R117). -/
def Sw.vBefore (w : Sw) (field t u r : Nat) : W32 :=
  match w.held.bind (fun h => Tab.look h.snap u) with
  | some v => Tab.lookD v (winReg w.g r) 0
  | none => readV w.g w.base field t u r

/-- The vector registers of thread u as a sweep finds them: loads by LDW count as written (R208), w0 to w7 stand at 128 to
135. -/
def snapOf (g : Group) (u : Nat) : Tab W32 :=
  let x := g.thread u
  let v := x.v ++ x.w.map (fun y => (y.1 + 128, y.2))
  g.pend.foldr (fun p v =>
    if p.ldw then p.writes.foldl (fun v w => match w with | .v t r y => if t = u then Tab.cput 0 v r y else v | _ => v) v
    else v) v

/-- Is the instruction BFPENC (R163)? -/
def Sw.isBfp (w : Sw) : Bool := w.f.maj == 0x24 && w.f.fn == 4

/-- 32 or 64 bits of vector register r of thread u (R28). -/
def Sw.v (w : Sw) (field t u r : Nat) (wide : Bool) : W64 :=
  let lo := w.vBefore field t u r
  if wide then (w.vBefore field t u (r + 1)) ++ lo else lo.setWidth 64

/-- Group register r, whole or its low 32 bits (R29). -/
def Sw.gr (w : Sw) (field r : Nat) (wide : Bool) : W64 :=
  let x := readG w.g w.base field r
  if wide then x else (x.setWidth 32).setWidth 64

/-- The abs and negate bits (R53, R58): on the sign bit of a floating type, on the integer value otherwise. -/
def absNeg (ty : BitVec 6) (m : BitVec 12) (x : W64) : W64 :=
  if modClass m ≠ 0 then x
  else if tyFloat ty then
    let f := fmtOf ty
    let x := if m.getLsbD 0 then fabs f x else x
    if m.getLsbD 1 then fneg f x else x
  else
    let n := tyWidth ty
    let sg := tySigned ty
    let x := if m.getLsbD 0 then extend n sg (ofInt (toInt n sg x).natAbs) else x
    if m.getLsbD 1 then extend n sg (ofInt (-(toInt n sg x))) else x

/-- A source of role v (vsrc and gsrc of R143): register field, modifier, pair or not. -/
def Sw.source (w : Sw) (field : Nat) (r : BitVec 7) (m : BitVec 12) (wide : Bool) (t : Nat) : W64 :=
  let m := if w.f.m == .off || w.f.m == .no then 0 else m
  let x :=
    if w.e.u then readG w.g w.base field r.toNat
    else if modG m then w.gr field r.toNat wide
    else w.v field t (perm m t) r.toNat wide
  absNeg w.e.ty m x

def Sw.srcA (w : Sw) (t : Nat) : W64 := w.source 0 w.e.a w.e.modA (isWide w.f.wa w.e.ty w.e.imm) t

/-- What a held BFPENC keeps of a completed thread beside its registers: its input x[j] of the block, under 136 where its predicate
held (R163). -/
def Sw.given (w : Sw) (t : Nat) (v : Tab W32) : Tab W32 :=
  if w.isBfp && w.on t then Tab.put v 136 ((w.srcA t).setWidth 32) else v

/-- Source B: the literal takes its place in a literal form (R111). -/
def Sw.srcB (w : Sw) (t : Nat) : W64 :=
  match w.e.lit with
  | some l => l
  | none => w.source 1 w.e.b w.e.modB (isWide w.f.wb w.e.ty w.e.imm) t

/-- Source C carries no modifier (R143). -/
def Sw.srcC (w : Sw) (t : Nat) : W64 := w.source 2 w.e.c 0 (isWide w.f.wc w.e.ty w.e.imm) t

/-- The data of a store (role v*). -/
def Sw.srcD (w : Sw) (t : Nat) : W64 := w.source 3 w.e.d 0 (isWide w.f.wd w.e.ty w.e.imm) t

def Sw.capA (w : Sw) (t : Nat) : Cap := readC w.g w.base 0 t w.e.a.toNat
def Sw.capB (w : Sw) (t : Nat) : Cap := readC w.g w.base 1 t w.e.b.toNat
def Sw.capC (w : Sw) (t : Nat) : Cap := readC w.g w.base 2 t w.e.c.toNat
def Sw.capC1 (w : Sw) (t : Nat) : Cap := readC w.g w.base 2 t (w.e.c.toNat + 1)
def Sw.capD (w : Sw) (t : Nat) : Cap := readC w.g w.base 3 t w.e.d.toNat

/-- A 64-bit operand of a group register of role g. -/
def Sw.gA (w : Sw) : W64 := readG w.g w.base 0 w.e.a.toNat
def Sw.gB (w : Sw) : W64 := match w.e.lit with | some l => l | none => readG w.g w.base 1 w.e.b.toNat

/-- The offset of R199, as a signed number. -/
def Sw.offset (w : Sw) (t : Nat) : Int :=
  match w.e.lit with
  | some l => l.toInt
  | none =>
    if w.e.u then (readG w.g w.base 1 w.e.b.toNat).toInt
    else (((w.source 1 w.e.b w.e.modB false t)).setWidth 32).toInt

/-! ### Writes -/

/-- Write 32 or 64 bits of vector register r of thread t (R28, R50); pending writes and the abandoned mark go (R243). -/
def writeV (g : Group) (t r : Nat) (x : W64) (wide : Bool) : Group :=
  let one := fun (g : Group) (r : Nat) (y : W32) =>
    { (g.onThread t (fun th => th.setV (isWin g r) r y)) with
      pend := dropPend g.pend (isPV t (winReg g r)), aband := KeySet.del g.aband (winReg g r * 256 + t) }
  let g := one g r (x.setWidth 32)
  if wide then one g (r + 1) (x.extractLsb' 32 32) else g

def writeG (g : Group) (r : Nat) (x : W64) : Group :=
  { (g.setG r x) with pend := dropPend g.pend (fun w => match w with | .g r' _ => r' == r | _ => false) }

def writeC (g : Group) (t r : Nat) (c : Cap) : Group :=
  let g := { g with pend := dropPend g.pend (fun w => match w with
    | .c t' r' _ => t' == t && r' == r && decide (r < 32)
    | .gc r' _ => decide (32 ≤ r) && r' == r - 32
    | _ => false) }
  if r < 32 then g.onThread t (fun th => th.setCap r c) else g.setGC (r - 32) c

def writeP (g : Group) (t r : Nat) (b : Bool) : Group :=
  { (g.onThread t (fun th => th.setPred r b)) with
    pend := dropPend g.pend (fun w => match w with | .p t' r' _ => t' == t && r' == r | _ => false) }

def writeH (g : Group) (r : Nat) (x : Option W64) : Group :=
  { (g.setH r x) with pend := dropPend g.pend (fun w => match w with | .h r' _ => r' == r | _ => false) }

/-- Write the destination of role v: V[D][t], or G[D] once under U = 1. -/
def Sw.writeD (w : Sw) (g : Group) (t : Nat) (x : W64) : Group :=
  if w.e.u then writeG g w.e.d.toNat x else writeV g t w.e.d.toNat x (isWide w.f.wd w.e.ty w.e.imm)

/-! ### Which registers a sweep reads and writes -/

def regPair (r : Nat) (wide : Bool) : List Nat := if wide then [r, r + 1] else [r]

/-- The vector registers of one field. -/
def fieldRegs (w : Sw) (r : Role) (x : BitVec 7) (wide : Bool) (m : BitVec 12) (lit : Bool) : List Nat :=
  if w.e.u || lit then []
  else match r with
    | .v => if modG m && (w.f.m == .a || w.f.m == .p) then [] else regPair x.toNat wide
    | .vs => regPair x.toNat wide
    | .v4 => (List.range 4).map (· + x.toNat)
    | .v8 => (List.range 8).map (· + x.toNat)
    | .cas => (List.range (if wide then 4 else 2)).map (· + x.toNat)
    | _ => []

/-- Registers read by thread t, each with the thread it is read from. -/
def Sw.reads (w : Sw) (t : Nat) : List (Nat × Nat) :=
  let e := w.e
  let wd := fun k => isWide k e.ty e.imm
  let p := fun (m : BitVec 12) => if w.f.m == .a || w.f.m == .p then perm m t else t
  (fieldRegs w w.f.a e.a (wd w.f.wa) e.modA false).map (fun r => (p e.modA, r)) ++
  (fieldRegs w w.f.b e.b (wd w.f.wb) e.modB e.lit.isSome).map (fun r => (p e.modB, r)) ++
  (fieldRegs w w.f.c e.c (wd w.f.wc) 0 false).map (fun r => (t, r)) ++
  (if w.f.d == .vs then (fieldRegs w .vs e.d (wd w.f.wd) 0 false).map (fun r => (t, r)) else [])

/-- Vector registers the instruction writes (TOPK writes D and D + 1, R182; the reply to a SYS writes B, R192). -/
def Sw.dests (w : Sw) : List Nat :=
  if w.f.d == .v && !w.e.u then
    regPair w.e.d.toNat (isWide w.f.wd w.e.ty w.e.imm || (w.f.maj == 0x25 && w.f.fn == 9))
  else if w.f.maj == 0x29 && w.f.fn == 1 then fieldRegs w .v w.e.b false w.e.modB w.e.lit.isSome
  else []

/-- RSET: it writes the register whose index each participant gives (R196). -/
def Sw.isRset (w : Sw) : Bool := w.f.maj == 0x29 && w.f.fn == 6

/-- The index a participant of RGET or RSET gives (R196). -/
def Sw.rIx (w : Sw) (t : Nat) : Nat := (w.srcA t).toNat % 512

/-- Registers that a source modifier moves between threads (R117). -/
def Sw.moved (w : Sw) : List Nat :=
  let e := w.e
  let wd := fun k => isWide k e.ty e.imm
  (if modClass e.modA ≠ 0 then fieldRegs w w.f.a e.a (wd w.f.wa) e.modA false else []) ++
  (if modClass e.modB ≠ 0 then fieldRegs w w.f.b e.b (wd w.f.wb) e.modB e.lit.isSome else [])

/-- Registers that BFPENC reads as its source A (R163, R357). -/
def Sw.bfpSource (w : Sw) : List Nat :=
  if w.isBfp then fieldRegs w w.f.a w.e.a (isWide w.f.wa w.e.ty w.e.imm) w.e.modA false else []

/-- Rows marked last read and not written by the instruction (R42, R114); a marked compare of AMO .cas frees the
compare alone (log 20). The spec leaves two points open: a mark on w0 to w7 is ignored, and of a marked pair of which the
instruction writes one register the other is freed (DESIGN CHOICE, log 50). A CPY writes none: the rows its copy will deliver are
the copy's (DESIGN CHOICE, log 70). RSET writes the registers its participants name. -/
def Sw.lastRead (w : Sw) : List Nat :=
  let e := w.e
  let wd := fun k => isWide k e.ty e.imm
  ((if e.la then fieldRegs w w.f.a e.a (wd w.f.wa) e.modA false else []) ++
   (if e.lb then fieldRegs w w.f.b e.b (wd w.f.wb) e.modB e.lit.isSome else []) ++
   (if e.lc then (fieldRegs w (if w.f.c == .cas then .v else w.f.c) e.c (wd w.f.wc) 0 false) else [])).filter
     (fun r => !(w.dests.contains r) && !isWin w.g r &&
       !(w.isRset && (w.all.filter w.on).any (fun t => w.rIx t == r)))

end Sys2Proof.Machine
end

