-- ==== Sys2Proof/Machine/Flags.lean ====
section
/-! DEFINITION. Completion flags (R34, R123) and floating-point status (R66 to R70). -/

namespace Sys2Proof.Machine

/-! ### Completion flags -/

def Group.flagCount (g : Group) (n : Nat) : Nat := Tab.lookD g.r.fl n 0
def Group.flagSet (g : Group) (n : Nat) : Bool := g.flagCount n != 0

/-- A long-latency instruction bound to flag n issues. -/
def bindFlag (g : Group) (n : Option Nat) : Group :=
  match n with
  | none => g
  | some n => { g with r := { g.r with fl := Tab.cput 0 g.r.fl n (g.flagCount n + 1) } }

/-- One binding of flag n completes. -/
def clearFlag (g : Group) (n : Option Nat) : Group :=
  match n with
  | none => g
  | some n => { g with r := { g.r with fl := Tab.cput 0 g.r.fl n (g.flagCount n - 1) } }

/-- Apply one pending write. Of a thread that has exited only the results of loads are discarded, when it exits (R172). -/
def applyWrite (g : Group) (w : PWrite) : Group :=
  match w with
  | .v t r x =>
    if 128 ≤ r then (if g.trap.isSome then g.onThread t (fun y => y.setV true (r - 8) x) else g)
    else { (g.onThread t (fun y => y.setV false r x)) with aband := KeySet.del g.aband (r * 256 + t) }
  | .g r x => g.setG r x
  | .c t r x => g.onThread t (fun y => y.setCap r x)
  | .gc r x => g.setGC r x
  | .p t r b => g.onThread t (fun y => y.setPred r b)
  | .h r x => g.setH r x
  | .acc _ _ => g

/-- The parts of a pending instruction: what its sweep left before a stop comes first. -/
def pendParts (l : List Pend) (p : Pend) : List Pend := (l.filter (fun x => x.seq == p.seq)).reverse

/-- What other instructions still have pending once some writes stand in their registers: an LDW that came before them writes
those no more (R20, R208). -/
def pendRest (l : List Pend) (p : Pend) : List Pend :=
  let ws := (pendParts l p).flatMap (fun x => x.writes)
  (l.filter (fun x => x.seq != p.seq)).map (fun x =>
    if x.ldw && !p.ldw then { x with writes := x.writes.filter (fun y => !ws.any (fun z => sameReg z y)) } else x)

/-- Complete a pending instruction of a group with all its parts: each flag they bind counts down (R34). -/
def completePend (g : Group) (p : Pend) : Group :=
  let same := pendParts g.pend p
  let g' := same.foldl (fun g x => x.writes.foldl applyWrite g) g
  same.foldl (fun g x => clearFlag g x.flag) { g' with pend := pendRest g.pend p }

/-- Every result of the sweep with sequence number q stands in its register (R70). -/
def landSweep (g : Group) (q : Nat) : Group :=
  match g.pend.find? (fun p => p.seq == q) with
  | some p => completePend g p
  | none => g

/-- Flags that the sweeps which an entry to a handler has interrupted keep set (R34). -/
def savedFlags (g : Group) : List Nat := match g.trap with | some t => t.saved.filterMap (fun h => h.flag) | none => []

/-- Does a clause's WAIT name a flag that holds it (R122)? A binding that a sweep interrupted by the handler keeps set can clear only
after the handler's return, and holds none of the handler's clauses (DEDUCED from R399 and R406 to R409, log 33). -/
def waitBlocked (g : Group) (wait : BitVec 12) : Bool :=
  (List.range 12).any (fun n => wait.getLsbD n && decide ((savedFlags g).count n < g.flagCount n))

/-- The flag the next long-latency instruction of the clause binds (R123): 15 binds none. -/
def clauseFlag (c : Clause) : Option Nat :=
  let n := if c.bound then c.set1 else c.set0
  if n < 12 then some n else none

/-! ### fpst and fpctl -/

/-- OR flags into a thread's fpst (R66). -/
def Thread.orFpst (x : Thread) (f : Flags) : Thread := { x with fpst := x.fpst ||| f.setWidth 32 }

/-- Exceptions enabled in fpctl (R67), in the bit order of fpst [4:0]. -/
def fpEnabled (g : Group) : BitVec 6 := ((g.r.fpctl.extractLsb' 4 5)).setWidth 6

/-- The enabled exceptions among some flags. -/
def trapFlags (g : Group) (f : Flags) : Flags := f &&& fpEnabled g

/-- The highest-priority cause of deferred exceptions (R70): INVALID, DIVIDE_BY_ZERO, OVERFLOW, UNDERFLOW, INEXACT. -/
def fpCause (f : Flags) : Cause :=
  if f.getLsbD 0 then 0x10 else if f.getLsbD 1 then 0x11 else if f.getLsbD 2 then 0x12
  else if f.getLsbD 3 then 0x13 else 0x14

/-- What SREGW stores into fpctl (R65, R67): reserved bits zero, RM 110 and 111 as 000. -/
def fpctlStored (x : W32) : W32 :=
  let rm := x.extractLsb' 0 3
  (x &&& 0x1F0) ||| (if rm = 6 ∨ rm = 7 then 0 else rm.setWidth 32)

/-- What SREGW stores into fpst: reserved bits zero (R66). -/
def fpstStored (x : W32) : W32 := x &&& 0x3F

/-- The rounding context of thread t's operation (R62, R65): draw number j of the sweep. -/
def Sw.rctx (w : Sw) (t j : Nat) : RCtx :=
  ⟨rmodeOf w.e.rnd (w.g.r.fpctl.extractLsb' 0 3), w.e.sat, Config.draw (w.base + t * 512 + j)⟩

/-- Merge flags into fpst of t, and defer t where an enabled exception was raised (R68, R70). -/
def raiseFlags (g : Group) (t : Nat) (f : Flags) : Group := g.onThread t (fun x => x.orFpst f)

end Sys2Proof.Machine
end

