-- ==== Sys2Proof/Machine/Ops.lean ====
section
/-! DEFINITION. The named operations over groups: rows (R40 to R45), handles and statuses (R230 to R232), event rings
(R366, R430, R443), taking an exception and returning from one (R24, R25, R346, R365), and the life of a sweep. -/

namespace Sys2Proof.Machine

abbrev Out := Host.Outcome State Fault Refusal

/-! ### Small state updates -/

def State.onGroup (s : State) (k : Nat) (f : Group → Group) : State :=
  match s.group k with
  | some g => s.setGroup k (f g)
  | none => s

def State.onCore (s : State) (i : Nat) (f : Core → Core) : State := s.setCore i (f (s.core i))

def Core.part (c : Core) (p : Nat) : Part := Tab.lookD c.parts p Part.reset
def Core.setPart (c : Core) (p : Nat) (x : Part) : Core := { c with parts := Tab.put c.parts p x }

/-- Position of a group on its core, and its partition (R14, R365). -/
def posOf (gk : Nat) : Nat := gk % 256
def partOf (gk : Nat) : Nat := posOf gk / 16

/-- The identifiers a program sees (R13): the team's number within its grid. -/
def teamNum (s : State) (g : Group) : Nat := match Tab.look s.teams g.ids.team with | some t => t.num | none => 0
def threadId (s : State) (g : Group) (t : Nat) : Nat := teamNum s g * 2 ^ 24 + g.ids.grp * 2 ^ 8 + t

/-! ### Threads of a group -/

def Group.pick (g : Group) (f : Nat → Thread → Bool) : KeySet := (g.th.filter (fun x => f x.1 x.2)).map Prod.fst

def Group.runnable (g : Group) : KeySet := g.pick (fun _ x => x.st == .runnable)

/-- The lowest-identifier runnable thread: a held thread is not runnable (R17), and the override is for one that can be executed
(R26, R290). -/
def Group.lowestRunnable (g : Group) : Option Nat := g.runnable.head?

/-- The same for the progress rule and what serves it (R44, R288, R291, R294), for which held threads count as runnable (R17;
log 69). -/
def Group.lowestOwed (g : Group) : Option Nat := (g.pick (fun _ x => x.st == .runnable || x.st == .held)).head?

def Group.lowestLive (g : Group) : Option Nat := (g.pick (fun _ x => x.st != .exited)).head?

def minNat : List Nat → Option Nat
  | [] => none
  | a :: l => match minNat l with | some b => some (min a b) | none => some a

/-- The entry of the block to execute at a clause boundary (R26, R290): the lowest program counter among runnable
threads, or, under override, that of the thread that was the lowest when it began. -/
def Group.blockPc (g : Group) : Option Nat :=
  if g.sched.ovOn ∧ (g.thread g.sched.ovT).st = .runnable then some (g.thread g.sched.ovT).pc
  else minNat (g.runnable.map (fun t => (g.thread t).pc))

/-- The executing set (R18, R26): at a clause boundary the runnable threads at the block's entry, inside a clause those of
them that began it and stand at its next instruction. -/
def Group.execSet (g : Group) : KeySet :=
  match g.clause with
  | some c => g.pick (fun t x => KeySet.has c.set t && x.st == .runnable && x.pc == c.ipc)
  | none =>
    match g.blockPc with
    | some pc => g.pick (fun _ x => x.st == .runnable && x.pc == pc)
    | none => []

/-! ### Favoured groups and rows (R40 to R45) -/

/-- Every group that exists: resident, evicted or saved with its unit, and the programs that wait. -/
def allGroups (s : State) : List Group :=
  s.groups.map Prod.snd ++ s.cores.flatMap (fun c => c.2.ret ++ c.2.pq0 ++ c.2.pq1) ++
    s.units.flatMap (fun u => match u.2.saved with | some x => x.groups ++ x.progs.map (fun p => p.2.2) | none => [])

/-- Does group k hold the lowest-identifier runnable thread of its world (R44), groups that are evicted or saved counted? -/
def favoured (s : State) (k : Nat) : Bool :=
  match s.group k with
  | none => false
  | some g =>
    match g.lowestOwed with
    | none => false
    | some t =>
      (allGroups s).all (fun x => x.ids.world != g.ids.world || x.prog.isSome ||
        (match x.lowestOwed with
         | some u => decide (threadId s g t ≤ threadId s x u)
         | none => true))

/-- Take n rows for vector registers of group k from its partition: general rows, then, for a favoured group, reserve
rows (R44). None when it stalls. -/
def takeRows (s : State) (k n : Nat) : Option State :=
  let c := s.core (coreOf k)
  let p := c.part (partOf k)
  let fromGen := min n p.gen
  let rest := n - fromGen
  if rest = 0 ∨ (favoured s k ∧ rest ≤ p.rsv) then
    let s := s.setCore (coreOf k) (c.setPart (partOf k) { p with gen := p.gen - fromGen, rsv := p.rsv - rest })
    some (s.onGroup k (fun g => { g with ids := { g.ids with rows := g.ids.rows + n } }))
  else none

/-- Reserve rows held by trap windows of a partition (R44). -/
def windowRsv (s : State) (core part : Nat) : Nat :=
  ((s.groups.filter (fun x => coreOf x.1 == core && partOf x.1 == part)).map (fun x => x.2.ids.rsv)).sum

/-- Take the eight rows of a trap window (R36, R44): a reserve row only where windows then hold at most 56 of them, or for a
favoured group. -/
def takeWindow (s : State) (k : Nat) : Option State :=
  let c := s.core (coreOf k)
  let p := c.part (partOf k)
  let fromGen := min 8 p.gen
  let rest := 8 - fromGen
  if rest = 0 ∨ (rest ≤ p.rsv ∧ (windowRsv s (coreOf k) (partOf k) + rest ≤ 56 ∨ favoured s k)) then
    let s := s.setCore (coreOf k) (c.setPart (partOf k) { p with gen := p.gen - fromGen, rsv := p.rsv - rest })
    some (s.onGroup k (fun g => { g with ids := { g.ids with rsv := rest } }))
  else none

/-- Return n rows of group k: they stand with the partition until ROW_FREED hands them on (R44). -/
def freeRows (s : State) (k n : Nat) : State :=
  if n = 0 then s
  else s.onCore (coreOf k) (fun c =>
    let p := c.part (partOf k)
    c.setPart (partOf k) { p with freeing := p.freeing + n })

/-- Unmap register r (R42): its row is freed, pending results, abandoned marks and values go. Scoreboard bits of a copy that is still
to deliver it for other threads stay, and the delivery maps it again (DESIGN CHOICE, log 70). -/
def unmapReg (g : Group) (r : Nat) : Group :=
  { g with
    mapped := KeySet.del g.mapped r
    th := Tab.mapv (fun _ x => { x with v := Tab.rem x.v r }) g.th
    aband := g.aband.filter (fun k => k / 256 != r)
    pend := dropPend g.pend (fun w => match w with | .v _ r' _ => r' == r | .acc _ r' => r' == r | _ => false)
    ids := { g.ids with rows := g.ids.rows - 1 } }

/-- Free the rows of registers marked last read; one not mapped has no effect, one named twice is freed once (R42). -/
def freeRegs (k : Nat) : List Nat → State → State
  | [], s => s
  | r :: l, s =>
    match s.group k with
    | none => s
    | some g =>
      if KeySet.has g.mapped r then freeRegs k l (freeRows (s.setGroup k (unmapReg g r)) k 1)
      else freeRegs k l s

/-- Registers among `rs` that are not mapped yet. -/
def newRegs (g : Group) (rs : List Nat) : List Nat := rs.filter (fun r => !KeySet.has g.mapped r && !isWin g r)

/-- What mapping registers comes to: done, a ROW_BUDGET stop (R43), or a stall for rows (R44). -/
inductive MapRes where
  | ok (s : State)
  | budget
  | stall
  deriving DecidableEq, Repr

/-- Map registers of group k on their first write (R41). -/
def mapRegs (s : State) (k : Nat) (rs : List Nat) : MapRes :=
  match s.group k with
  | none => .stall
  | some g =>
    let new := newRegs g rs
    if new = [] then .ok s
    else if g.ids.budget < g.mapped.length + new.length then .budget
    else match takeRows s k new.length with
      | none => .stall
      | some s => .ok (s.onGroup k (fun g => { g with mapped := new.foldl KeySet.ins g.mapped }))

/-! ### Issue sequence numbers, handles and statuses (R39, R230 to R232) -/

/-- Take the next issue sequence number of a core (R39). -/
def nextSeq (s : State) (core : Nat) : State × Nat :=
  let c := s.core core
  (s.setCore core { c with seq := (c.seq + 1) % 2 ^ 48 }, c.seq)

/-- Sequence numbers are compared modulo 2^48 (R39): a is older than b. -/
def seqOlder (a b : Nat) : Bool := let d := (b % 2 ^ 48 + 2 ^ 48 - a % 2 ^ 48) % 2 ^ 48; decide (1 ≤ d ∧ d < 2 ^ 47)

/-- Insert by sequence number, oldest first. -/
def seqInsert {α : Type} (f : α → Nat) (x : α) : List α → List α
  | [] => [x]
  | y :: l => if seqOlder (f x) (f y) then x :: y :: l else y :: seqInsert f x l

def seqSort {α : Type} (f : α → Nat) (l : List α) : List α := l.foldl (fun acc x => seqInsert f x acc) []

/-- A handle (R33). -/
def mkHandle (seq core kind : Nat) : W64 := BitVec.ofNat 64 (seq + core * 2 ^ 48 + kind * 2 ^ 56)
def hSeq (h : W64) : Nat := h.toNat % 2 ^ 48
def hCore (h : W64) : Nat := h.toNat / 2 ^ 48 % 2 ^ 8
def hKind (h : W64) : Nat := h.toNat / 2 ^ 56 % 2 ^ 4

def statusWord (code detail : Nat) : W32 := BitVec.ofNat 32 (code + detail * 2 ^ 16 + 2 ^ 31)
def stNULL : W32 := 0x800000FF
def stEXPIRED : W32 := 0x8000000E
def stSUCCESS : W32 := 0x80000000
def stCANCELLED : W32 := 0x80000003

/-- The status of an operation (R231, R232): zero while it runs. -/
def State.status (s : State) (h : W64) : W32 :=
  let st := (s.core (hCore h)).store
  match Tab.look st.stat (hSeq h) with
  | some x => x
  | none => if KeySet.has st.live (hSeq h) then 0 else stEXPIRED

def State.handleDone (s : State) (h : W64) : Bool := (s.status h).getLsbD 31

/-- An operation begins (its status is 0x0000_0000). -/
def opBegin (s : State) (core seq world : Nat) : State :=
  s.onCore core (fun c => { c with store := { c.store with
    live := KeySet.ins c.store.live seq, worlds := Tab.put c.store.worlds seq world } })

/-- Statuses a core holds (R232). -/
def storeCap : Nat := 65536

/-- Is the operation named by a handle register of some group (R232)? -/
def handleNamed (s : State) (core seq : Nat) : Bool :=
  (allGroups s).any (fun g => g.r.h.any (fun h => hSeq h.2 == seq && hCore h.2 == core))

/-- Statuses older than the newest 65,536 go, but for those that a register still names (R232). -/
def storeTrim (s : State) (core : Nat) : State :=
  let st := (s.core core).store
  let old := (st.order.take (st.order.length - storeCap)).filter (fun q => !handleNamed s core q)
  if old = [] then s
  else s.onCore core (fun c => { c with store := { c.store with
    stat := c.store.stat.filter (fun x => !old.contains x.1), order := c.store.order.filter (fun q => !old.contains q)
    worlds := c.store.worlds.filter (fun x => !old.contains x.1), ran := c.store.ran.filter (fun x => !old.contains x.1) } })

/-- Waiting threads of one kind become runnable. -/
def wakeThreads (g : Group) (ks : List WaitKind) : Group :=
  { g with th := Tab.mapv (fun _ x =>
      if ks.contains x.wait then
        { x with st := if x.st == .waiting then .runnable else x.st, wait := .none } else x) g.th }

/-- The core that ran an operation (R339). -/
def ranOn (s : State) (h : W64) : Nat := Tab.lookD (s.core (hCore h)).store.ran (hSeq h) (hCore h)

/-- Group k observes the completion of operations (R33, R339): a handle register that names a cancelled one becomes invalid,
and an operation of another core, or a launch, steps the observer's CGD. -/
def observe (s : State) (k : Nat) (hs : List W64) : State :=
  let gone := fun (h : W64) => hs.contains h && s.status h == stCANCELLED
  let s' := s.onGroup k (fun g => { g with r := { g.r with h := g.r.h.filter (fun x => !(g.handle x.1).any gone) } })
  if hs.any (fun h => ranOn s h != coreOf k || hKind h == 4) then stepGen s' (coreOf k) true else s'

/-- A group that waits on handles goes on once every operation awaited has completed, which it observes; its threads become
runnable (R33, R256). -/
def wakeHandle (s : State) (k : Nat) : State :=
  match s.group k with
  | none => s
  | some g =>
    match g.hold with
    | .handles hs =>
      if hs.all s.handleDone then
        observe (s.setGroup k { (wakeThreads g [.handle, .join]) with hold := .none }) k hs
      else s
    | _ => s

def wakeHandles (s : State) : State := (Tab.keys s.groups).foldl wakeHandle s

/-- An operation completes with a status. -/
def opDone (s : State) (core seq : Nat) (x : W32) : State :=
  wakeHandles (storeTrim (s.onCore core (fun c => { c with store := { c.store with
    live := KeySet.del c.store.live seq, stat := Tab.put c.store.stat seq x, order := c.store.order ++ [seq] } })) core)

/-! ### Event rings (R366, R430, R443) -/

/-- Ring sizes outside 4 to 12 are stored as 4 (R366, R428, R442). -/
def ringSize (b : BitVec 4) : BitVec 4 := if 4 ≤ b.toNat ∧ b.toNat ≤ 12 then b else 4

def ringFull (size : BitVec 4) (head tail : Nat) : Bool := (head + 1) % 2 ^ size.toNat == tail % 2 ^ size.toNat

def ringNext (size : BitVec 4) (head : Nat) : Nat := (head + 1) % 2 ^ size.toNat

/-- Write held-back group events while the core's ring has room (R366). -/
def coreDrain (core : Nat) : Nat → State → State
  | 0, s => s
  | n + 1, s =>
    let u := (s.core core).sup
    match u.waiting with
    | [] => s
    | r :: l =>
      if ringFull u.evsize u.evhead u.evtail then s
      else
        let s := devWrite s (u.evbase.toNat + 96 * u.evhead) r
        coreDrain core n (s.onCore core (fun c => { c with sup := { c.sup with
          waiting := l, evhead := ringNext u.evsize u.evhead, int16 := true } }))

def coreEvent (s : State) (core : Nat) (r : List Byte) : State :=
  let s := s.onCore core (fun c => { c with sup := { c.sup with waiting := c.sup.waiting ++ [r] } })
  coreDrain core (s.core core).sup.waiting.length s

def leaseDrain : Nat → State → State
  | 0, s => s
  | n + 1, s =>
    match s.lease.waiting with
    | [] => s
    | r :: l =>
      if ringFull s.lease.evsize s.lease.evhead s.lease.evtail then s
      else
        let s := devWrite s (s.lease.evbase.toNat + 16 * s.lease.evhead) r
        leaseDrain n { s with lease := { s.lease with
          waiting := l, evhead := ringNext s.lease.evsize s.lease.evhead, int17 := true } }

/-- A lease event (R430): kind, table, index, LID, time. -/
def leaseEvent (s : State) (kind tab idx : Nat) (lid : W32) : State :=
  let r := leBytes kind 1 ++ leBytes tab 1 ++ leBytes idx 2 ++ leBytes lid.toNat 4 ++ leBytes s.time.ftime 8
  let s := { s with lease := { s.lease with waiting := s.lease.waiting ++ [r] } }
  leaseDrain s.lease.waiting.length s

def sysDrain : Nat → State → State
  | 0, s => s
  | n + 1, s =>
    match s.sys.waiting with
    | [] => s
    | r :: l =>
      if ringFull s.sys.evsize s.sys.evhead s.sys.evtail then s
      else
        let s := devWrite s (s.sys.evbase.toNat + 16 * s.sys.evhead) r
        sysDrain n { s with sys := { s.sys with
          waiting := l, evhead := ringNext s.sys.evsize s.sys.evhead, int18 := true } }

/-- A system event (R443): kind, port or core, time. -/
def sysEvent (s : State) (kind who : Nat) : State :=
  let r := leBytes kind 1 ++ leBytes who 1 ++ leBytes 0 6 ++ leBytes s.time.ftime 8
  let s := { s with sys := { s.sys with waiting := s.sys.waiting ++ [r] } }
  sysDrain s.sys.waiting.length s

/-- Bit i of a 256-bit mask for each listed thread. -/
def maskNat (ts : KeySet) : Nat := (ts.map (fun t => 2 ^ t)).sum

/-- The event record of R365. -/
def eventRecord (s : State) (k : Nat) (g : Group) (d : Delivery) (flags : Nat) : List Byte :=
  leBytes d.seq 8 ++ leBytes d.tcause.toNat 2 ++ leBytes d.tres 2 ++ leBytes flags 4 ++
  leBytes (teamNum s g) 4 ++ leBytes g.ids.grp 2 ++ leBytes (posOf k) 1 ++ leBytes 0 1 ++ leBytes d.tpc.toNat 8 ++
  leBytes d.tinst.toNat 4 ++ leBytes g.ids.asid 2 ++ leBytes g.ids.world 2 ++ leBytes d.faddr.toNat 8 ++
  leBytes d.detail.toNat 8 ++ leBytes 0 8 ++ leBytes (maskNat d.tmask) 32

/-- The flags of an event record: IN_HANDLER, REFLECTABLE (R365). -/
def eventFlags (g : Group) : Nat :=
  (if g.trap.isSome then 1 else 0) + (if g.trap.isNone && g.handler.tag then 4 else 0)

/-! ### Taking an exception (R24, R25, R346, R356 to R365) -/

/-- A handler is installed (R194). -/
def Group.hasHandler (g : Group) : Bool := g.handler.tag

/-- Delivery to the supervisor core (R365): the group is parked and the event record written. A PARK under way goes on (R370). -/
def deliverSup (s : State) (k : Nat) (d : Delivery) : State :=
  match s.group k with
  | none => s
  | some g =>
    let d := { d with inHandler := g.trap.isSome }
    let r := eventRecord s k g d (eventFlags g)
    let g := { g with sup := some d, park := if g.park = .requested then .requested else .delivered, deliv := none }
    coreEvent (s.setGroup k g) (coreOf k) r

/-- Entry to the group's handler (R346): handler threads keep their code capability and enter at the handler's entry,
the others are held; tpc of each thread named is the delivery's. -/
def enterHandler (g : Group) (d : Delivery) : Group :=
  let th := Tab.mapv (fun t x =>
    if x.st == .exited then x
    else if KeySet.has d.tmask t then
      { x with kept := x.code, code := capUnseal g.handler, tpc := d.tpc, w := [], st := .runnable }
    else { x with st := .held }) g.th
  { g with
    th := th
    trap := some ⟨d.tcause, d.tinst, d.tmask, d.tres, d.tpc, g.clause, g.held, []⟩
    clause := none
    held := []
    deliv := none }

/-- Take an exception: the one operation for every stop and every sweep-end trap. It goes to the supervisor core when
its cause does, when the group is in trap mode, or when no handler is installed (R354, R360); otherwise the handler is
entered, or the delivery waits for the eight rows of its window (R359). -/
def takeException (s : State) (k : Nat) (d : Delivery) : State :=
  match s.group k with
  | none => s
  | some g =>
    if causeSup (d.tcause.extractLsb' 8 8) || g.trap.isSome || !g.hasHandler then deliverSup s k d
    else
      match takeWindow s k with
      | none => s.setGroup k { g with deliv := some d }
      | some s =>
        match s.group k with
        | none => s
        | some g => s.setGroup k (enterHandler g d)

/-- A thread leaving a hold resumes waiting when it waited before the trap (log 22). -/
def Thread.unhold (x : Thread) : Thread :=
  if x.st == .held then { x with st := if x.wait == .none then .runnable else .waiting } else x

/-- The clause to go on with, without the threads `gone` that left it: dropped when none of its threads stands in it and
nothing is held (R195). -/
def keepClause (g : Group) (gone : KeySet) (c : Option Clause) : Option Clause :=
  match c with
  | none => none
  | some c =>
    let c := { c with set := c.set.filter (fun t => !KeySet.has gone t) }
    if g.held ≠ [] then some c
    else if (g.pick (fun t x => KeySet.has c.set t && (x.st == .runnable || x.st == .waiting) && x.pc == c.ipc)) = [] then none
    else some c

/-- Drop threads from the held sweeps (R195, R362). -/
def dropThreads (l : List Held) (gone : KeySet) : List Held :=
  (l.map (fun h =>
    { h with active := h.active.filter (fun t => !KeySet.has gone t), defer := h.defer.filter (fun t => !KeySet.has gone t) })).filter
      (fun h => h.active != [])

/-- Handler threads whose tpc is no longer the delivered one (R195). -/
def movedThreads (g : Group) (tr : Trap) : KeySet := tr.tmask.filter (fun t => (g.thread t).tpc != tr.dtpc)

/-- Flags of held sweeps that were discarded clear. -/
def clearDropped (old new : List Held) (g : Group) : Group :=
  (old.filter (fun h => !(new.any (fun n => n.seq == h.seq)))).foldl (fun g h => clearFlag g h.flag) g

/-- The return from an exception, when the last handler thread leaves (R195, R346): code capabilities at the threads'
tpc, held threads runnable again, the window's rows returned, held sweeps ready for replay. -/
def returnFrom (s : State) (k : Nat) : State :=
  match s.group k with
  | none => s
  | some g =>
    match g.trap with
    | none => s
    | some tr =>
      let th := Tab.mapv (fun t x =>
        if x.st == .exited then x
        else if KeySet.has tr.tmask t then
          { x with code := capSetAddr x.kept (x.tpc.toNat : Int), kept := Cap.null, w := [], st := .runnable, tpc := 0 }
        else x.unhold) g.th
      let gone := movedThreads g tr
      let old := tr.saved
      let pend := dropPend g.pend (fun w => match w with | .v _ r _ => decide (128 ≤ r) | .acc _ r => decide (128 ≤ r) | _ => false)
      let g := { g with th := th, trap := none, held := old, pend := pend }
      let new := dropThreads old gone
      let g := clearDropped old new { g with held := new }
      let g := { g with clause := keepClause g gone tr.clause }
      freeRows (s.setGroup k { g with ids := { g.ids with rsv := 0 } }) k 8

/-! ### Engine programs end (R261) -/

/-- A program whose outcome is fixed, if it is not yet. -/
def endedProgram (x : W32) (g : Group) : Group :=
  { g with
    prog := g.prog.map (fun p => { p with outcome := some (p.outcome.getD x) })
    clause := none
    hold := .none
    th := Tab.mapv (fun _ t => { t with st := .exited }) g.th }

/-- An engine program's outcome is fixed; its handle completes when its operations have (R261). -/
def endProgram (s : State) (k : Nat) (x : W32) : State := s.onGroup k (endedProgram x)

/-! ### The life of a sweep -/

/-- Advance the program counters of the sweep's threads past the instruction, by R84; threads that moved elsewhere keep
theirs. -/
def advancePc (g : Group) (ts : KeySet) (iaddr len : Nat) : Group :=
  { g with th := Tab.mapv (fun t x =>
      if KeySet.has ts t && x.st != .exited && x.pc == iaddr then
        { x with code := capSetAddr x.code ((iaddr + len : Nat) : Int) }
      else x) g.th }

/-- Count one instruction of the clause done; the clause ends with its last (R120). -/
def clauseStep (g : Group) (len : Nat) : Group :=
  { g with clause := match g.clause with
      | some c => if c.left ≤ 1 then none else some { c with ipc := c.ipc + len, left := c.left - 1 }
      | none => none }

/-- Free choices a sweep may use (log 4). -/
def ctrStep : Nat := 2 ^ 18

/-- The words of the sweep's instruction: those of its replay record, else as encoded. Words that decode to nothing stand
as ILL and are kept as they were fetched (R361). -/
def wordsAt (s : State) (w : Sw) : List W32 :=
  match w.held with
  | some h => h.words
  | none => if w.i = .ill 0 0 ∧ s.fetched ≠ [] then s.fetched else encode w.i

/-- Word 0 of the sweep's instruction, for tinst (R355). -/
def tinstOf (s : State) (w : Sw) : W32 := (wordsAt s w).headD 0

/-- The status with which a stop ends an engine program (R133, R231, R261): an illegal instruction, header or place ends it
with ILLEGAL_INSTRUCTION (a faulty header is no instruction of the subset: DESIGN CHOICE, log 55). -/
def stopStatus (c : Cause) : W32 :=
  if c = cMEMORY_ERROR then statusWord 9 0
  else if c = cILLEGAL then statusWord 0x000A 0
  else statusWord 0x000B c.toNat

/-- The replay record of a sweep held at thread t (R361): what its threads below t have left, and their vector registers
and abandoned marks as they stood before it (R117, R243). -/
def heldAt (s : State) (w : Sw) (t : Nat) (deferred : KeySet) (dfl : Flags) (data : Tab W64) (flag : Option Nat) : Held :=
  let old := match w.held with | some h => h.snap | none => []
  let snap := (w.all.filter (· < t)).map (fun u => (u, (Tab.look old u).getD (w.given u (snapOf w.g u))))
  let before := match w.held with | some h => h.aband | none => []
  let aband := (w.g.aband.filter (fun k => decide (k % 256 < t) && w.todo.contains (k % 256))).foldl KeySet.ins before
  ⟨w.seq, BitVec.ofNat 64 w.iaddr, w.i, t, flag, w.all, deferred, dfl, data, snap, aband, wordsAt s w, false⟩

/-- The held sweeps with h standing at place n, in place of the record there where the sweep was replayed. -/
def holdAt (g : Group) (n : Nat) (replay : Bool) (h : Held) : Group :=
  { g with held := g.held.take n ++ h :: g.held.drop (if replay then n + 1 else n) }

/-- Sweeps in flight have come as far as they do for now: a stop among them is delivered (R24). -/
def deliverDrained (s : State) (k : Nat) : State :=
  match s.group k with
  | none => s
  | some g =>
    match g.drain with
    | none => s
    | some d =>
      match d.d with
      | some x => takeException (s.setGroup k { g with drain := none }) k x
      | none => s.setGroup k { g with drain := none }

/-- A sweep that has come to thread t for now, and is held there. One drained behind an older sweep completes its threads below
t; a stop of its own at t is discarded, and sweeps younger still complete only below t (R24). The last one in flight lets
the stop be delivered. The oldest lets the younger sweeps found in flight come as far (R21, log 3). -/
def drained (s : State) (w : Sw) (t : Nat) (deferred : KeySet) (dfl : Flags) (data : Tab W64) (flag : Option Nat) : State :=
  match s.group w.gk with
  | none => s
  | some g =>
    let h := heldAt s w t deferred dfl data flag
    match g.drain with
    | none =>
      let g := holdAt g 0 w.replay { h with inFlight := true }
      s.setGroup w.gk (if g.sched.ahead = 0 then g
        else { g with drain := some ⟨t, g.sched.ahead, 1, none⟩, sched := { g.sched with ahead := 0 } })
    | some d =>
      let g := holdAt g d.done w.replay { h with inFlight := d.d.isNone }
      let s := s.setGroup w.gk { g with drain := some { d with lim := t, done := d.done + 1, more := d.more - 1 } }
      if d.more ≤ 1 then deliverDrained s w.gk else s

/-- A store that a cached translation refused for want of D has discarded it (R412). -/
def dropRefused (s : State) (asid : Nat) (st : Stop) : State := match st.clean with | some va => dropClean s asid va | none => s

/-- How many of the younger sweeps held have begun and are in flight: up to the last such (R21, R24). -/
def begun (l : List Held) : Nat := (l.reverse.dropWhile (fun h => !h.inFlight)).length

/-- A stop at thread t (R24): the sweep is held at t, the exception is taken, once the younger sweeps in flight are drained: those
that have begun, and those that the agenda finds. In an engine program it ends the program (R261). One that only waits for another
package stands at t (R435, log 42). `deferred` are deferrals of the threads completed. -/
def stopSweep (s : State) (w : Sw) (tinst : W32) (t : Nat) (st : Stop) (deferred : KeySet) (dfl : Flags)
    (data : Tab W64) (flag : Option Nat) : State :=
  let s := dropRefused s w.g.ids.asid st
  match s.group w.gk with
  | none => s
  | some g =>
    if st.cause = cWAIT then drained (awaitPeer s st) w t deferred dfl data flag
    else if g.drain.isSome then drained s w t deferred dfl data flag
    else if g.prog.isSome then endProgram s w.gk (stopStatus st.cause)
    else
      let g := holdAt g 0 w.replay (heldAt s w t deferred dfl data flag)
      let d : Delivery := ⟨st.cause ++ (0 : BitVec 8), t, [t], BitVec.ofNat 64 w.iaddr, tinst, w.seq, st.faddr, st.detail, false⟩
      let more := max g.sched.ahead (begun (g.held.drop 1))
      if more = 0 then takeException (s.setGroup w.gk g) w.gk d
      else s.setGroup w.gk { g with drain := some ⟨t, more, 1, some d⟩, sched := { g.sched with ahead := 0 } }

/-- A sweep that has completed for every thread (R25, R42, R358): marked rows freed, threads advanced past it, the
replay record dropped, deferrals delivered with every result of the sweep in its register (R70). -/
def finishSweep (s : State) (w : Sw) (tinst : W32) (advance : Bool) (deferred : KeySet) (cause : BitVec 16) : State :=
  let len := instrLen w.i
  let s := freeRegs w.gk w.lastRead s
  match s.group w.gk with
  | none => s
  | some g =>
    let g := if w.replay then { g with held := g.held.drop 1 } else g
    let g := if advance then advancePc g w.all w.iaddr len else g
    let g := clauseStep g len
    if deferred = [] then s.setGroup w.gk g
    else
      takeException (s.setGroup w.gk (landSweep g w.seq)) w.gk
        ⟨cause, 256, deferred, BitVec.ofNat 64 (w.iaddr + len), tinst, w.seq, 0, 0, false⟩

/-- Threads in the order a sweep visits them: ascending, each once (R10). -/
def ascending (ts : List Nat) : KeySet := ts.foldl KeySet.ins []

/-- Where a drained group goes on (R24): the address, the threads below the limit, and the held sweep there, if any. -/
def drainNext (g : Group) (d : Drain) : Nat × KeySet × Option Held :=
  match g.held.drop d.done with
  | h :: _ => (h.iaddr.toNat, h.active.filter (fun t => (g.thread t).st != .exited && decide (h.res ≤ t ∧ t < d.lim)), some h)
  | [] =>
    match g.held.getLast? with
    | some h => (h.iaddr.toNat + instrLen h.instr, h.active.filter (fun t => (g.thread t).st != .exited && decide (t < d.lim)), none)
    | none => (0, [], none)

/-- Instructions whose sweeps pass thread by thread, and so can be in flight behind an older one that stops (R21; log 3):
compute, plain memory, capability and predicate instructions under U = 0. -/
def passes (f : Form) (e : Ext) : Bool :=
  !e.u && (decide (f.maj ≤ 0x26) || f.maj == 0x2A || f.maj == 0x2B || f.maj == 0x2C || f.maj == 0x2D || f.maj == 0x30)

/-- The sweep that instruction i makes of group g, to its end: of the held sweep at the head, of one drained behind an older sweep,
or of the executing set. -/
def wholeSweep (s : State) (k : Nat) (g : Group) (i : Instr) (f : Form) (e : Ext) : Sw :=
  let lim := s.fetchStop.map (fun x => (x.1, (⟨x.2.1, x.2.2.1, x.2.2.2, none⟩ : Stop)))
  match g.drain with
  | some d =>
    let n := drainNext g d
    let act := match n.2.2 with
      | some h => h.active
      | none => (match g.held.getLast? with | some h => h.active | none => [])
    ⟨k, g, i, f, e, n.1, ascending act, ascending n.2.1, lim, n.2.2.isSome, n.2.2, some d.lim,
      (match n.2.2 with | some h => h.seq | none => (s.core (coreOf k)).seq), s.ctr⟩
  | none =>
    match g.held with
    | h :: _ =>
      let act := ascending (h.active.filter (fun t => (g.thread t).st != .exited))
      ⟨k, g, i, f, e, h.iaddr.toNat, act, act.filter (fun t => h.res ≤ t), lim, true, some h, none, h.seq, s.ctr⟩
    | [] =>
      let act := ascending g.execSet
      let pc := match g.clause with | some c => c.ipc | none => g.blockPc.getD 0
      ⟨k, g, i, f, e, pc, act, act, lim, false, none, none, (s.core (coreOf k)).seq, s.ctr⟩

/-- A sweep that is left before a thread for now, where there is something before it and after (R21). -/
def Sw.cutTo (w : Sw) (c : Option Nat) : Sw :=
  match c with
  | none => w
  | some k =>
    if passes w.f w.e && w.todo.any (· < k) && w.todo.any (k ≤ ·) then { w with todo := w.todo.filter (· < k), upTo := some k } else w

/-- The sweep that instruction i makes of group g now. -/
def sweepOf (s : State) (k : Nat) (g : Group) (i : Instr) (f : Form) (e : Ext) : Sw := (wholeSweep s k g i f e).cutTo s.cut

/-- Does the older sweep h keep the younger w from beginning (R22, R357)? -/
def keepsBack (w : Sw) (h : Held) : Bool :=
  match formOf h.instr with
  | none => true
  | some (f, e) =>
    let o : Sw := { w with i := h.instr, f := f, e := e }
    let meets := fun (a b : List Nat) => a.any (fun r => b.contains r)
    meets w.moved o.dests || meets w.bfpSource o.dests || meets o.moved w.dests || meets o.bfpSource w.dests || (f.maj == 0x25 && f.ll) ||
      (fpEnabled w.g != 0 && (decide (0x0F ≤ f.maj ∧ f.maj ≤ 0x14) || decide (0x21 ≤ f.maj ∧ f.maj ≤ 0x25))) || !passes f e

/-- May sweep w be in flight behind the stop that is being drained (R21, R22, R357)? It stands in the clause of the stopped
sweep, and no older sweep keeps it back. -/
def mayDrain (w : Sw) (d : Drain) : Bool :=
  passes w.f w.e && (w.todo != [] || w.replay) && w.lim.isNone && !(w.g.held.take d.done).any (keepsBack w) &&
    (w.replay || (match w.g.clause with | some c => decide (w.g.held.length < c.left) | none => false))

/-- Instructions that no group may execute in trap mode, and those only in trap mode (R198). -/
def trapModeBad (i : Instr) : Bool :=
  match i with
  | .bar _ | .barc _ | .spawn _ | .atI _ | .sleep _ | .exit _ | .sys _ | .trap _ | .trapcfg _ => true
  | _ => false

def trapOnly (i : Instr) : Bool :=
  match i with
  | .eret _ | .rget _ | .rset _ => true
  | _ => false

/-- CPY and CPYC have U = 1 only in an engine program (R237, R261). -/
def isCopyInstr (i : Instr) : Bool :=
  match i with
  | .cpy _ | .cpyc _ => true
  | _ => false

/-- The engine subset (R133): fields of role c name gc0 to gc15. Field C of CPY and CPYC may be zero, as a slot's or a
register's copy has it (R237, R240; DESIGN CHOICE, log 55); a copy to memory with C zero is judged when its descriptor is read. -/
def engineOk (f : Form) (e : Ext) : Bool :=
  let isV := fun (r : Role) => r == .v || r == .vs || r == .v4 || r == .v8
  let isC := fun (r : Role) => r == .c || r == .c2
  let gcOk := fun (r : Role) (x : BitVec 7) => !isC r || decide (32 ≤ x.toNat ∧ x.toNat < 48)
  f.eng && (e.u || !(isV f.d || isV f.a || isV f.b || isV f.c)) &&
    gcOk f.d e.d && gcOk f.a e.a && gcOk f.b e.b && (gcOk f.c e.c || (f.maj == 0x31 && e.c == 0))

/-- ILLEGAL_INSTRUCTION by the instruction's place: no clause open (R120), a clause-ending instruction not last
(R121), trap mode (R198), U = 1 on a group's copy. -/
def placeOk (g : Group) (i : Instr) (e : Ext) : Bool :=
  g.clause.isSome && (!(endsClause i) || (match g.clause with | some c => c.left == 1 | none => false)) &&
    (if g.trap.isSome then !trapModeBad i else !trapOnly i) && !(isCopyInstr i && e.u && g.prog.isNone)

/-- Does the sweep wait on a copy's scoreboard (R243)? -/
def sbBlocked (w : Sw) : Bool :=
  w.g.sb != [] && w.todo.any (fun t =>
    (w.reads t).any (fun x => KeySet.has w.g.sb (winReg w.g x.2 * 256 + x.1)) ||
    w.dests.any (fun r => KeySet.has w.g.sb (winReg w.g r * 256 + t)))

/-- An abandoned register that thread t reads (R243), its predicate holding: marks count as they stood before the sweep (R10),
which a replayed sweep keeps for its completed threads. Of a BFPENC a thread counts as the reader of its own input, not of its
segment's (DESIGN CHOICE, log 71). -/
def abandonedAt (w : Sw) (t : Nat) : Bool :=
  let marked := fun (u r : Nat) =>
    match w.held with
    | some h => KeySet.has (if (Tab.look h.snap u).isSome then h.aband else w.g.aband) (r * 256 + u)
    | none => KeySet.has w.g.aband (r * 256 + u)
  (w.g.aband != [] || (match w.held with | some h => h.aband != [] | none => false)) && w.on t &&
    (w.reads t).any (fun x => !isWin w.g x.2 && marked x.1 x.2)

/-- The stop every sweep makes at thread t before its own checks: a failing fetch (R27), an abandoned source (R243). -/
def commonStop (w : Sw) (t : Nat) : Option Stop :=
  match w.lim with
  | some (k, st) => if k = t then some st else if abandonedAt w t then some (stopAt cCOPY_ABANDONED 0) else none
  | none => if abandonedAt w t then some (stopAt cCOPY_ABANDONED 0) else none

/-- Issue (R39, R123): the sweep takes its sequence number and a long-latency instruction binds its clause's flag. -/
def issue (s : State) (w : Sw) : State × Option Nat :=
  if w.replay then (s, w.held.bind (fun h => h.flag))
  else
    let (s, _) := nextSeq s (coreOf w.gk)
    match s.group w.gk with
    | none => (s, none)
    | some g =>
      if w.f.ll then
        let n := g.clause.bind clauseFlag
        let g := bindFlag { g with clause := g.clause.map (fun c => { c with bound := true }) } n
        (s.setGroup w.gk g, n)
      else (s, none)

/-- Deferrals carried over from before a replay (R358). -/
def Sw.defer0 (w : Sw) : KeySet := match w.held with | some h => h.defer | none => []
def Sw.dfl0 (w : Sw) : Flags := match w.held with | some h => h.dflags | none => 0
def Sw.data0 (w : Sw) : Tab W64 := match w.held with | some h => h.data | none => []

/-- Where a sweep keeps a value that it has read once, when it issued: beyond the threads' places, so that no image of the record
holds it (R361). -/
def sampleKey : Nat := 1026

/-- What a sweep has carried with it from its issue on: of TIME the fabric time, of CPYW the write pointer (R190, R245). -/
def Sw.started (w : Sw) (s : State) : Tab W64 :=
  match w.held, w.i with
  | some h, _ => h.data
  | none, .time _ => [(sampleKey, BitVec.ofNat 64 s.time.ftime)]
  | none, .cpyw _ => [(sampleKey, Tab.lookD (s.core (coreOf w.gk)).wp (w.e.imm.toNat % 4) 0)]
  | none, _ => []

/-- A stop at the first thread to be processed, before it is (R43, R135): the sweep has issued. -/
def stopFirst (s : State) (w : Sw) (tinst : W32) (t : Nat) (c : Cause) : State :=
  let data := w.started s
  let (s, n) := issue s w
  stopSweep s w tinst t (stopAt c 0) w.defer0 w.dfl0 data n

/-- The entry of every encoded instruction: legality (R134, R135), stalls (R17), the rows of first writes (R41, R43),
issue; then the sweep itself. A stalled sweep leaves the state as it stands. Behind a stop, one that cannot have been in
flight lets the stop be delivered (R24). -/
def enter (i : Instr) (s : State) (k : Sw → Option Nat → State → Out) : Out :=
  match s.group s.focus with
  | none => .fault .noGroup
  | some g =>
    match formOf i with
    | none => .fault .noGroup
    | some (f, e) =>
      let w := sweepOf s s.focus g i f e
      let s := { s with ctr := s.ctr + ctrStep }
      match w.all with
      | [] => .next { s with groups := Tab.put s.groups w.gk { g with held := g.held.drop 1, clause := none } }
      | t0 :: _ =>
        if (match g.drain with
            | some d => !mayDrain w d || !legal i || !placeOk g i e || sbBlocked w ||
                (match mapRegs s w.gk w.dests with | .ok _ => false | _ => true)
            | none => false) then .next (deliverDrained s w.gk)
        else if g.prog.isSome && !engineOk f e then .next (endProgram s w.gk (statusWord 0x000A 0))
        else if !(legal i && placeOk g i e) then .next (stopFirst s w (tinstOf s w) (w.todo.headD t0) cILLEGAL)
        else if sbBlocked w then .next s
        else
          match mapRegs s w.gk w.dests with
          | .stall => .next s
          | .budget =>
            (match w.todo with
             | t :: _ => .next (stopFirst s w (tinstOf s w) t cROW_BUDGET)
             | [] => let (s, n) := issue s w; k w n s)
          | .ok s =>
            let (s, n) := issue s w
            k w n s

/-- Results so far of a sweep over threads. -/
structure Run where
  g : Group
  defer : KeySet
  dfl : Flags
  pend : List PWrite
  data : Tab W64
  stop : Option (Nat × Stop)
  deriving DecidableEq, Repr

/-- What processing one thread gives: the group, its flags, writes that complete later, and carried data. -/
structure One where
  g : Group
  fl : Flags
  pend : List PWrite
  data : Tab W64
  deriving DecidableEq, Repr

/-- Visit threads in order until one stops; each adds its flags and deferrals (R68, R70). -/
def runThreads (w : Sw) (f : Group → Tab W64 → Nat → Except Stop One) : List Nat → Run → Run
  | [], r => r
  | t :: l, r =>
    match commonStop w t with
    | some st => { r with stop := some (t, st) }
    | none =>
      match f r.g r.data t with
      | .error st => { r with stop := some (t, st) }
      | .ok o =>
        let en := trapFlags w.g o.fl
        let g := if o.fl = 0 then o.g else raiseFlags o.g t o.fl
        runThreads w f l
          { r with g := g, pend := r.pend ++ o.pend, data := o.data,
                   defer := if en = 0 then r.defer else KeySet.ins r.defer t, dfl := r.dfl ||| en }

def Run.start (w : Sw) (g : Group) : Run := ⟨g, w.defer0, w.dfl0, [], w.data0, none⟩

/-- A pending write under the number of the register it names: a trap window's in trap mode (R30). -/
def windowed (g : Group) (w : PWrite) : PWrite :=
  match w with
  | .v t r x => .v t (winReg g r) x
  | .acc t r => .acc t (winReg g r)
  | w => w

/-- The loads of R172. -/
def isLoad (f : Form) : Bool := f.maj == 0x2A || (f.maj == 0x2C && f.fn == 1) || (f.maj == 0x2F && f.fn == 1)

/-- Participants of a sweep: threads of its active set whose predicate holds (R175). -/
def Sw.parts (w : Sw) : KeySet := w.all.filter w.on

/-- A sweep that no thread takes part in, of which nothing is pending: its flag clears as it ends (R34, R123). -/
def Sw.idle (w : Sw) : Bool := w.parts == [] && !(w.g.pend.any (fun p => p.seq == w.seq))

/-- Long-latency results go to the group's pending list with the flag they clear (R23, R34). They supersede what an older
sweep still has pending for the same registers (R20); an LDW's write stands until it has returned (R208). -/
def pushPend (g : Group) (w : Sw) (flag : Option Nat) (ldw : Bool) (ws : List PWrite) : Group :=
  if ws = [] ∧ (flag = none ∨ w.idle = true) then clearFlag g flag
  else
    let ws := ws.map (windowed g)
    let old := g.pend.map (fun p =>
      if p.seq = w.seq ∨ (p.ldw = true ∧ ldw = false) then p
      else { p with writes := p.writes.filter (fun x => !ws.any (fun y => sameReg y x)) })
    { g with pend := ⟨w.seq, flag, ldw, ldw || isLoad w.f, ws⟩ :: old }

/-- Conclude a run: stop and hold, hold behind an older stop, or complete. -/
def conclude (w : Sw) (flag : Option Nat) (ldw advance : Bool) (s : State) (r : Run) : State :=
  let tinst := tinstOf s w
  match r.stop, w.upTo with
  | some (t, st), _ =>
    stopSweep (s.setGroup w.gk (pushPend r.g w none ldw r.pend)) w tinst t st r.defer r.dfl r.data flag
  | none, some k => drained (s.setGroup w.gk (pushPend r.g w none ldw r.pend)) w k r.defer r.dfl r.data flag
  | none, none =>
    finishSweep (s.setGroup w.gk (pushPend r.g w flag ldw r.pend)) w tinst advance r.defer (fpCause r.dfl ++ (0 : BitVec 8))

/-- Run a sweep: thread by thread, or once for the group under U = 1 (R112, R143), its flags then going to every active
thread (R68, R70). A uniform sweep one of whose threads cannot fetch does nothing yet. -/
def runSweep (w : Sw) (f : Group → Tab W64 → Nat → Except Stop One) (r : Run) : Run :=
  if w.e.u then
    match w.lim with
    | some x => { r with stop := some x }
    | none =>
      match w.todo with
      | [] => r
      | t :: _ =>
        match f r.g r.data t with
        | .error st => { r with stop := some (t, st) }
        | .ok o =>
          let en := trapFlags w.g o.fl
          { r with
            g := if o.fl = 0 then o.g else w.all.foldl (fun g t => raiseFlags g t o.fl) o.g
            pend := r.pend ++ o.pend, data := o.data
            defer := if en = 0 then r.defer else w.all
            dfl := r.dfl ||| en }
  else runThreads w f w.todo r

/-- A register-only sweep: `f` processes one thread whose predicate holds (R143). -/
def sweepG (i : Instr) (s : State) (f : Sw → Group → Tab W64 → Nat → Except Stop One) : Out :=
  enter i s (fun w flag s =>
    match s.group w.gk with
    | none => .next s
    | some g =>
      let h := fun (g : Group) (d : Tab W64) (t : Nat) => if w.on t then f w g d t else .ok ⟨g, 0, [], d⟩
      .next (conclude w flag false true s (runSweep w h (Run.start w g))))

/-! ### Sweeps that touch the whole state -/

/-- Results so far of a sweep over the state. -/
structure RunS where
  s : State
  pend : List PWrite
  data : Tab W64
  stop : Option (Nat × Stop)
  deriving DecidableEq, Repr

/-- What processing one thread gives. -/
structure OneS where
  s : State
  pend : List PWrite
  data : Tab W64
  deriving DecidableEq, Repr

/-- Visit threads in order until one stops. -/
def runThreadsS (w : Sw) (f : State → Tab W64 → Nat → Except Stop OneS) : List Nat → RunS → RunS
  | [], r => r
  | t :: l, r =>
    match commonStop w t with
    | some st => { r with stop := some (t, st) }
    | none =>
      match f r.s r.data t with
      | .error st => { r with stop := some (t, st) }
      | .ok o => runThreadsS w f l { r with s := o.s, pend := r.pend ++ o.pend, data := o.data }

def runSweepS (w : Sw) (f : State → Tab W64 → Nat → Except Stop OneS) (r : RunS) : RunS :=
  if w.e.u then
    match w.lim with
    | some x => { r with stop := some x }
    | none =>
      match w.todo with
      | [] => r
      | t :: _ =>
        match f r.s r.data t with
        | .error st => { r with stop := some (t, st) }
        | .ok o => { r with s := o.s, pend := r.pend ++ o.pend, data := o.data }
  else runThreadsS w f w.todo r

/-- Conclude a run over the state. -/
def concludeS (w : Sw) (flag : Option Nat) (ldw advance : Bool) (r : RunS) : State :=
  let tinst := tinstOf r.s w
  match r.stop, w.upTo with
  | some (t, st), _ =>
    stopSweep (r.s.onGroup w.gk (fun g => pushPend g w none ldw r.pend)) w tinst t st w.defer0 w.dfl0 r.data flag
  | none, some k => drained (r.s.onGroup w.gk (fun g => pushPend g w none ldw r.pend)) w k w.defer0 w.dfl0 r.data flag
  | none, none =>
    finishSweep (r.s.onGroup w.gk (fun g => pushPend g w flag ldw r.pend)) w tinst advance w.defer0
      (fpCause w.dfl0 ++ (0 : BitVec 8))

/-- A sweep over the state: `f` processes one thread whose predicate holds. -/
def sweepS (i : Instr) (s : State) (ldw : Bool) (f : Sw → State → Tab W64 → Nat → Except Stop OneS) : Out :=
  enter i s (fun w flag s =>
    let h := fun (s : State) (d : Tab W64) (t : Nat) => if w.on t then f w s d t else .ok ⟨s, [], d⟩
    .next (concludeS w flag ldw true (runSweepS w h ⟨s, [], w.data0, none⟩)))

/-- A command that acts once for its participants `sel`: `f` has the first of them, L, and gives the state after it or a
stop at L (R240, R253, R263). With no participant nothing is started. `keep` says that the command itself keeps the flag
to clear later; the registers of the threads `readers` are read, and the first whose source is abandoned stops (R243): at L before
its checks `check`, at a later thread after them. -/
def sweepOnce (i : Instr) (s : State) (keep : Bool) (sel readers : Sw → KeySet)
    (f : Sw → Option Nat → State → Nat → Except Stop State) (check : Sw → State → Option Stop := fun _ _ => none) : Out :=
  enter i s (fun w flag s =>
    let tinst := tinstOf s w
    match w.lim with
    | some (k, st) => .next (stopSweep s w tinst k st [] 0 [] flag)
    | none =>
      match sel w with
      | [] => .next (finishSweep (s.onGroup w.gk (fun g => pushPend g w flag false [])) w tinst true [] 0)
      | l :: _ =>
        match (match (readers w).find? (abandonedAt w) with
               | some t => .error (match (if t = l then none else check w s) with | some e => (l, e) | none => (t, stopAt cCOPY_ABANDONED 0))
               | none => (match f w flag s l with | .ok s => .ok s | .error st => .error (l, st)) : Except (Nat × Stop) State) with
        | .error (t, st) => .next (stopSweep s w tinst t st [] 0 [] flag)
        | .ok s =>
          let s := if keep then s else s.onGroup w.gk (fun g => pushPend g w flag false [])
          .next (finishSweep s w tinst true [] 0))

/-- The sweep that instruction i would make now; none where there is nothing to execute. -/
def sweepNow (i : Instr) (s : State) : Option Sw := do
  let g ← s.group s.focus
  let (f, e) ← formOf i
  let w := sweepOf s s.focus g i f e
  if w.all = [] then none else some w

/-- An issue held back, by a full queue of the engine it feeds or by a register that waits (R17, R286): the state
stands. -/
def stallIf (i : Instr) (s : State) (c : Sw → Bool) (k : Out) : Out :=
  match sweepNow i s with
  | some w => if w.g.drain.isNone && c w && legal i && placeOk w.g i w.e && (w.g.prog.isNone || engineOk w.f w.e) then .next s else k
  | none => k

end Sys2Proof.Machine
end

