-- ==== Sys2Proof/Machine/Alu.lean ====
section
/-! DEFINITION. The common sweep of the compute chapter (R143) and the operations its instructions apply
(R146 to R163). -/

namespace Sys2Proof.Machine

/-- The common sweep: sources, operation, destination, flags (R143). -/
def alu (i : Instr) (s : State) (op : Sw → Nat → W64 → W64 → W64 → W64 × Flags) : Out :=
  sweepG i s (fun w g d t =>
    let r := op w t (w.srcA t) (w.srcB t) (w.srcC t)
    .ok ⟨w.writeD g t r.1, r.2, [], d⟩)

/-- The writes of a long-latency result (R123): V[D][t], or G[D] under U = 1. -/
def llWrites (w : Sw) (t : Nat) (x : W64) : List PWrite :=
  if w.e.u then [.g w.e.d.toNat x]
  else
    .v t w.e.d.toNat (x.setWidth 32) ::
      (if isWide w.f.wd w.e.ty w.e.imm then [.v t (w.e.d.toNat + 1) (x.extractLsb' 32 32)] else [])

/-- A long-latency result supersedes pending ones of its register (R20). -/
def Sw.supersede (w : Sw) (g : Group) (t : Nat) : Group :=
  let gone := fun (x : PWrite) => match x with
    | .v t' r _ => !w.e.u && t' == t && (w.dests.map (winReg g)).contains r
    | .acc t' r => !w.e.u && t' == t && (w.dests.map (winReg g)).contains r
    | .g r _ => w.e.u && r == w.e.d.toNat
    | _ => false
  { g with pend := g.pend.map (fun p => if p.ldw then p else { p with writes := p.writes.filter (fun x => !gone x) }) }

/-- The common sweep of the special functions: their results are written when LONG_LATENCY_COMPLETE comes (R157). -/
def aluLL (i : Instr) (s : State) (op : Sw → Nat → W64 → W64 → W64 → W64 × Flags) : Out :=
  sweepG i s (fun w g d t =>
    let r := op w t (w.srcA t) (w.srcB t) (w.srcC t)
    .ok ⟨w.supersede g t, r.2, llWrites w t r.1, d⟩)

/-- The common sweep with a predicate destination (R151, R154, R174). -/
def aluPred (i : Instr) (s : State) (op : Sw → Nat → W64 → W64 → Bool × Flags) : Out :=
  sweepG i s (fun w g d t =>
    let r := op w t (w.srcA t) (w.srcB t)
    .ok ⟨writeP g t w.e.d.toNat r.1, r.2, [], d⟩)

/-! ### Integer operations (R146, R147) -/

def Sw.n (w : Sw) : Nat := tyWidth w.e.ty
def Sw.sg (w : Sw) : Bool := tySigned w.e.ty
def Sw.int (w : Sw) (x : W64) : Int := toInt w.n w.sg x

/-- An exact integer function, narrowed to TYPE (R52). -/
def opInt (f : Int → Int → Int → Int) (w : Sw) (_ : Nat) (a b c : W64) : W64 × Flags :=
  narrow w.n w.sg w.e.sat (f (w.int a) (w.int b) (w.int c))

def opIadd := opInt (fun a b _ => a + b)
def opIsub := opInt (fun a b _ => a - b)
def opImul := opInt (fun a b _ => a * b)
def opImad := opInt (fun a b c => a * b + c)
def opImin := opInt (fun a b _ => min a b)
def opImax := opInt (fun a b _ => max a b)
def opIabs := opInt (fun a _ _ => a.natAbs)
def opIneg := opInt (fun a _ _ => -a)

/-- The high half of the product (R146). -/
def opImulh (w : Sw) (_ : Nat) (a b _ : W64) : W64 × Flags :=
  narrow w.n w.sg false ((w.int a * w.int b) / 2 ^ w.n)

/-- IDIV (R147): a quotient by zero is all ones. -/
def opIdiv (w : Sw) (_ : Nat) (a b _ : W64) : W64 × Flags :=
  if w.int b = 0 then (extend w.n w.sg (BitVec.allOnes 64), 0)
  else narrow w.n w.sg w.e.sat ((w.int a).tdiv (w.int b))

/-- IREM (R147): the remainder by zero is a. -/
def opIrem (w : Sw) (_ : Nat) (a b _ : W64) : W64 × Flags :=
  if w.int b = 0 then (extend w.n w.sg a, 0) else (extend w.n w.sg (ofInt ((w.int a).tmod (w.int b))), 0)

/-! ### Logic and shifts (R148) -/

/-- A bit pattern operation over the N bits of TYPE. -/
def opBits (f : W64 → W64 → W64) (w : Sw) (_ : Nat) (a b _ : W64) : W64 × Flags := (extend w.n w.sg (f a b), 0)

def opAnd := opBits (fun a b => a &&& b)
def opOr := opBits (fun a b => a ||| b)
def opXor := opBits (fun a b => a ^^^ b)
def opAndn := opBits (fun a b => a &&& ~~~ b)

/-- The count of a shift: b [7:0]. -/
def cnt (b : W64) : Nat := b.toNat % 256

def low (n : Nat) (x : W64) : Nat := x.toNat % 2 ^ n

def opShl (w : Sw) (_ : Nat) (a b _ : W64) : W64 × Flags :=
  (extend w.n w.sg (BitVec.ofNat 64 (low w.n a * 2 ^ cnt b % 2 ^ w.n)), 0)
def opShr (w : Sw) (_ : Nat) (a b _ : W64) : W64 × Flags :=
  (extend w.n w.sg (BitVec.ofNat 64 (low w.n a / 2 ^ cnt b)), 0)
def opSar (w : Sw) (_ : Nat) (a b _ : W64) : W64 × Flags :=
  (extend w.n w.sg (ofInt (toInt w.n true a / 2 ^ cnt b)), 0)
def opRol (w : Sw) (_ : Nat) (a b _ : W64) : W64 × Flags :=
  let k := cnt b % w.n
  (extend w.n w.sg (BitVec.ofNat 64 (low w.n a * 2 ^ k % 2 ^ w.n + low w.n a / 2 ^ (w.n - k))), 0)

/-! ### Counting and bit fields (R149) -/

def popCount : Nat → Nat → Nat
  | 0, _ => 0
  | n + 1, x => x % 2 + popCount n (x / 2)

def bitRev : Nat → Nat → Nat
  | 0, _ => 0
  | n + 1, x => (x % 2) * 2 ^ n + bitRev n (x / 2)

def opPopc (w : Sw) (_ : Nat) (a _ _ : W64) : W64 × Flags := (BitVec.ofNat 64 (popCount w.n (low w.n a)), 0)
def opClz (w : Sw) (_ : Nat) (a _ _ : W64) : W64 × Flags :=
  let x := low w.n a
  (BitVec.ofNat 64 (if x = 0 then w.n else w.n - 1 - Nat.log2 x), 0)
def opBrev (w : Sw) (_ : Nat) (a _ _ : W64) : W64 × Flags :=
  (extend w.n w.sg (BitVec.ofNat 64 (bitRev w.n (low w.n a))), 0)

/-- Offset and effective width of a field descriptor. -/
def fieldOW (n : Nat) (b : W64) : Nat × Nat :=
  let o := b.toNat % 256
  (o, min (b.toNat / 256 % 256) (n - o))

def opBfe (w : Sw) (_ : Nat) (a b _ : W64) : W64 × Flags :=
  let (o, k) := fieldOW w.n b
  if k = 0 then (0, 0) else (extend k w.sg (BitVec.ofNat 64 (low w.n a / 2 ^ o)), 0)

def opBfi (w : Sw) (_ : Nat) (a b c : W64) : W64 × Flags :=
  let (o, k) := fieldOW w.n b
  if k = 0 then (extend w.n w.sg c, 0)
  else
    let mask := BitVec.ofNat 64 ((2 ^ k - 1) * 2 ^ o)
    (extend w.n w.sg ((c &&& ~~~ mask) ||| ((a <<< o) &&& mask)), 0)

/-! ### Moves, selection, comparison (R150, R151) -/

def opMov (w : Sw) (_ : Nat) (_ b _ : W64) : W64 × Flags := (extend w.n w.sg b, 0)
def opSel (w : Sw) (t : Nat) (a b _ : W64) : W64 × Flags :=
  (extend w.n w.sg (if readP w.g w.base 7 t w.e.c.toNat then a else b), 0)

def icmpCond (k : Nat) (a b : Int) : Bool :=
  match k with
  | 0 => decide (a = b) | 1 => decide (a ≠ b) | 2 => decide (a < b) | 3 => decide (a ≤ b) | 4 => decide (b < a)
  | _ => decide (b ≤ a)

def opIcmp (w : Sw) (_ : Nat) (a b : W64) : Bool × Flags := (icmpCond w.e.imm.toNat (w.int a) (w.int b), 0)

/-! ### Floating point (R152 to R157) -/

def Sw.fm (w : Sw) : Fmt := fmtOf w.e.ty

def opFadd (w : Sw) (t : Nat) (a b _ : W64) : W64 × Flags := fadd w.fm (w.rctx t 0) a b
def opFsub (w : Sw) (t : Nat) (a b _ : W64) : W64 × Flags := fsub w.fm (w.rctx t 0) a b
def opFmul (w : Sw) (t : Nat) (a b _ : W64) : W64 × Flags := fmul w.fm (w.rctx t 0) a b
def opFfma (w : Sw) (t : Nat) (a b c : W64) : W64 × Flags := ffma w.fm (w.rctx t 0) a b c
def opFmin (w : Sw) (_ : Nat) (a b _ : W64) : W64 × Flags := fminmax w.fm false a b
def opFmax (w : Sw) (_ : Nat) (a b _ : W64) : W64 × Flags := fminmax w.fm true a b
def opFcmp (w : Sw) (_ : Nat) (a b : W64) : Bool × Flags := fcmp w.fm w.e.imm a b
def opFclass (w : Sw) (_ : Nat) (a _ _ : W64) : W64 × Flags := (fclass w.fm a, 0)
def opFround (w : Sw) (t : Nat) (a _ _ : W64) : W64 × Flags := fround w.fm (w.rctx t 0) a
def opFfract (w : Sw) (_ : Nat) (a _ _ : W64) : W64 × Flags := ffract w.fm a
def opFrcp (w : Sw) (t : Nat) (a _ _ : W64) : W64 × Flags := frcp w.fm (w.rctx t 0) a
def opFrsq (w : Sw) (t : Nat) (a _ _ : W64) : W64 × Flags := frsq w.fm (w.rctx t 0) a
def opFsqrt (w : Sw) (t : Nat) (a _ _ : W64) : W64 × Flags := fsqrt w.fm (w.rctx t 0) a
def opFdiv (w : Sw) (t : Nat) (a b _ : W64) : W64 × Flags := fdiv w.fm (w.rctx t 0) a b
def opFexp2 (w : Sw) (t : Nat) (a _ _ : W64) : W64 × Flags := fexp2 w.fm (w.rctx t 0) a
def opFlog2 (w : Sw) (t : Nat) (a _ _ : W64) : W64 × Flags := flog2 w.fm (w.rctx t 0) a
def opFsin (w : Sw) (t : Nat) (a _ _ : W64) : W64 × Flags := fsin w.fm (w.rctx t 0) a
def opFcos (w : Sw) (t : Nat) (a _ _ : W64) : W64 × Flags := fcos w.fm (w.rctx t 0) a

/-! ### Packed and conversion (R158 to R163) -/

def opHadd2 (w : Sw) (t : Nat) (a b c : W64) : W64 × Flags :=
  packed2 (fun r a b _ => fadd w.fm r a b) (w.rctx t 0) (w.rctx t 1) a b c
def opHmul2 (w : Sw) (t : Nat) (a b c : W64) : W64 × Flags :=
  packed2 (fun r a b _ => fmul w.fm r a b) (w.rctx t 0) (w.rctx t 1) a b c
def opHfma2 (w : Sw) (t : Nat) (a b c : W64) : W64 × Flags :=
  packed2 (fun r a b c => ffma w.fm r a b c) (w.rctx t 0) (w.rctx t 1) a b c
def opIdp4 (w : Sw) (_ : Nat) (a b c : W64) : W64 × Flags := idp4Op w.e.ty w.e.sat a b c
def opFdp2 (w : Sw) (t : Nat) (a b c : W64) : W64 × Flags := fdp2Op w.e.ty (w.rctx t 0) a b c
def opCvt (w : Sw) (t : Nat) (a _ _ : W64) : W64 × Flags := cvtOp (w.e.imm.extractLsb' 0 6) w.e.ty (w.rctx t 0) a
def opPack (w : Sw) (_ : Nat) (a b _ : W64) : W64 × Flags := (packOp w.e.ty a b, 0)
def opUnpk (w : Sw) (_ : Nat) (a _ _ : W64) : W64 × Flags := (unpkOp w.e.ty w.e.imm.toNat a, 0)

/-- Input x[j] of thread t (R163): +0 where it is not active or its predicate is false. A thread that the sweep has completed gave
the input that the record keeps, and gives it still when it has been dropped since; one dropped before it was processed gives +0
(DESIGN CHOICE, log 71). -/
def bfpInput (w : Sw) (t : Nat) : W64 :=
  match w.held.bind (fun h => Tab.look h.snap t) with
  | some v => (Tab.lookD v 136 0).setWidth 64
  | none => if KeySet.has w.all t && w.on t then w.srcA t else 0

/-- The sixteen inputs of a segment. -/
def bfpInputs (w : Sw) (base : Nat) : List W64 := (List.range 16).map (fun j => bfpInput w (base + j))

/-- BFPENC for one thread (R163): its word of the block and the flags of its own input. -/
def opBfpenc (w : Sw) (t : Nat) (_ _ _ : W64) : W64 × Flags :=
  let base := t - t % 16
  let m := bfpBits w.e.ty
  let xs := bfpInputs w base
  let blk := bfpEncode m xs
  let j := t - base
  let word := if j < bfpWords w.e.ty then bfpBlockNat m blk / 2 ^ (32 * j) % 2 ^ 32 else 0
  (BitVec.ofNat 64 word, bfpFlags m blk j (xs.getD j 0))

end Sys2Proof.Machine
end

