-- ==== Sys2Proof/Machine/Exchange.lean ====
section
/-! DEFINITION. Exchange through time and predicates (R174 to R183): what each participant receives. -/

namespace Sys2Proof.Machine

/-- Source A of a participant as it stood before the sweep (R175, R183). -/
def Sw.exA (w : Sw) (u : Nat) : W64 := w.srcA u

/-! What an exchange carries from thread to thread stands in its data (R183): one that waits gathers source A of participant
t at key t, its source B at 256 + t and its predicate P[C] at 512 + t, RED its running value and flags at 1024 and 1025; one
that does not wait keeps its last value, or acc, at key 0. -/

/-- Participants gathered. -/
def exParts (d : Tab W64) : KeySet := (Tab.keys d).filter (· < 256)
def exGot (d : Tab W64) (u : Nat) : W64 := Tab.lookD d u 0
def exGotB (d : Tab W64) (u : Nat) : W64 := Tab.lookD d (256 + u) 0
def exSel (d : Tab W64) (u : Nat) : Bool := Tab.lookD d (512 + u) 0 != 0

/-- Gather one participant. -/
def exGather (w : Sw) (d : Tab W64) (t : Nat) : Tab W64 :=
  let d := Tab.put (Tab.put d t (w.exA t)) (256 + t) (w.srcB t)
  Tab.put d (512 + t) (if w.f.c == .p && readP w.g w.base 7 t w.e.c.toNat then 1 else 0)

def firstAbove (l : KeySet) (t : Nat) : Option Nat := (l.filter (t < ·)).head?

/-- PREV: the last participant's value, or b for the first (R177). -/
def exPrev (w : Sw) (d : Tab W64) (t : Nat) : W64 × Flags × Tab W64 :=
  (extend w.n w.sg (match Tab.look d 0 with | some x => x | none => w.srcB t), 0, Tab.put d 0 (w.exA t))

def exNext (w : Sw) (d : Tab W64) (t : Nat) : W64 :=
  extend w.n w.sg (match firstAbove (exParts d) t with | some u => exGot d u | none => exGotB d t)

/-- The operators of R178. -/
def scanOp (w : Sw) (t : Nat) (x y : W64) : W64 × Flags :=
  match w.e.imm.toNat % 16 with
  | 0 => if tyFloat w.e.ty then fadd w.fm (w.rctx t 0) x y else narrow w.n w.sg w.e.sat (w.int x + w.int y)
  | 1 => if tyFloat w.e.ty then fminmax w.fm false x y else (extend w.n w.sg (ofInt (min (w.int x) (w.int y))), 0)
  | 2 => if tyFloat w.e.ty then fminmax w.fm true x y else (extend w.n w.sg (ofInt (max (w.int x) (w.int y))), 0)
  | 3 => (extend w.n w.sg (x &&& y), 0)
  | 4 => (extend w.n w.sg (x ||| y), 0)
  | _ => (extend w.n w.sg (x ^^^ y), 0)

/-- Identities of the exclusive forms (R178). -/
def scanId (w : Sw) : W64 :=
  match w.e.imm.toNat % 16 with
  | 0 => if tyFloat w.e.ty then fpack w.fm true 0 else 0
  | 1 => if tyFloat w.e.ty then fpack w.fm false w.fm.infBits else extend w.n w.sg (ofInt (intMax w.n w.sg))
  | 2 => if tyFloat w.e.ty then fpack w.fm true w.fm.infBits else extend w.n w.sg (ofInt (intMin w.n w.sg))
  | 3 => extend w.n w.sg (BitVec.allOnes 64)
  | _ => 0

/-- One step of a scan (R179): value before, value after, flags. -/
def scanStep (w : Sw) (acc : Option W64) (t : Nat) : W64 × W64 × Flags :=
  let x := extend w.n w.sg (w.exA t)
  match acc with
  | none => (scanId w, x, 0)
  | some a => (a, (scanOp w t a x).1, (scanOp w t a x).2)

/-- SCAN and SEGSCAN for participant t: a segment head starts afresh. -/
def exScan (seg : Bool) (w : Sw) (d : Tab W64) (t : Nat) : W64 × Flags × Tab W64 :=
  let acc := if seg && readP w.g w.base 7 t w.e.c.toNat then none else Tab.look d 0
  let r := scanStep w acc t
  (if w.e.imm.getLsbD 4 then r.1 else r.2.1, r.2.2, Tab.put d 0 r.2.1)

/-- RED gathers as a scan runs (R180). -/
def redGather (w : Sw) (d : Tab W64) (t : Nat) : Tab W64 :=
  let r := scanStep w (Tab.look d 1024) t
  let fl := (Tab.lookD d 1025 0) ||| (r.2.2.setWidth 64)
  Tab.put (Tab.put (exGather w d t) 1024 r.2.1) 1025 fl

/-- RED (R180): the whole scan's value, and the union of its flags for everyone. -/
def exRed (_ : Sw) (d : Tab W64) (_ : Nat) : W64 × Flags := (Tab.lookD d 1024 0, (Tab.lookD d 1025 0).setWidth 6)

/-- VOTE (R181). -/
def exVote (w : Sw) (d : Tab W64) (t : Nat) : W64 :=
  let ps := exParts d
  let yes := ps.filter (exSel d)
  let b := fun (x : Bool) => if x then (1 : W64) else 0
  match w.e.imm.toNat with
  | 0 => b (yes.length == ps.length)
  | 1 => b (yes.length != 0)
  | 2 => b (yes.length == ps.length || yes.length == 0)
  | 3 => BitVec.ofNat 64 yes.length
  | _ => BitVec.ofNat 64 (maskNat yes / 2 ^ (32 * (t % 8)) % 2 ^ 32)

/-- Keys of R182: integers by TYPE, floating patterns by totalOrder. -/
def exKey (w : Sw) (d : Tab W64) (u : Nat) : Int := if tyFloat w.e.ty then fkey w.fm (exGot d u) else w.int (exGot d u)

/-- RANK (R182). -/
def exRank (w : Sw) (d : Tab W64) (t : Nat) : W64 :=
  let k := exKey w d t
  BitVec.ofNat 64 ((exParts d).filter (fun u =>
    decide (exKey w d u < k) || (decide (exKey w d u = k) && decide (u < t)))).length

/-- The number of a participant, counted from 0 (R182). -/
def partIx (d : Tab W64) (t : Nat) : Nat := ((exParts d).filter (· < t)).length

/-- COMPACT (R182). -/
def exCompact (w : Sw) (d : Tab W64) (t : Nat) : W64 :=
  match ((exParts d).filter (exSel d))[partIx d t]? with
  | some u => extend w.n w.sg (exGot d u)
  | none => 0

/-- Participants before u in TOPK's order: larger keys, and lower threads among equal keys (R182). -/
def topRank (w : Sw) (d : Tab W64) (u : Nat) : Nat :=
  ((exParts d).filter (fun v =>
    decide (exKey w d u < exKey w d v) || (decide (exKey w d v = exKey w d u) && decide (v < u)))).length

/-- TOPK (R182): key and companion of the participant of rank j. The companion is delivered whole, all 32 bits of b, whatever
TYPE is (DESIGN CHOICE, log 56). -/
def exTopk (w : Sw) (d : Tab W64) (t : Nat) : W32 × W32 :=
  let j := partIx d t
  if j < w.e.imm.toNat + 1 then
    match (exParts d).find? (fun u => topRank w d u == j) with
    | some u => ((extend w.n w.sg (exGot d u)).setWidth 32, (exGotB d u).setWidth 32)
    | none => (0, 0xFFFFFFFF)
  else (0, 0xFFFFFFFF)

/-- An exchange whose results stand at once (R175), carrying its data from thread to thread (R183). -/
def exch (i : Instr) (s : State) (f : Sw → Tab W64 → Nat → W64 × Flags × Tab W64) : Out :=
  sweepG i s (fun w g d t => .ok ⟨w.writeD g t (f w d t).1, (f w d t).2.1, [], (f w d t).2.2⟩)

/-- The second pass of an exchange that waits (R176): every participant's result, flags and deferral. -/
def exSecond (w : Sw) (writes : Tab W64 → Nat → List PWrite) (flags : Tab W64 → Nat → Flags) (r : Run) : Run :=
  (exParts r.data).foldl (fun r t =>
    let fl := flags r.data t
    let en := trapFlags w.g fl
    { r with g := if fl = 0 then r.g else raiseFlags r.g t fl, pend := r.pend ++ writes r.data t
             defer := if en = 0 then r.defer else KeySet.ins r.defer t, dfl := r.dfl ||| en }) r

/-- An exchange that waits: a gathering pass, and its results in a second pass once every thread has been visited (R176,
R183). -/
def exchWait (i : Instr) (s : State) (gather : Sw → Tab W64 → Nat → Tab W64)
    (writes : Sw → Tab W64 → Nat → List PWrite) (flags : Sw → Tab W64 → Nat → Flags) : Out :=
  enter i s (fun w flag s =>
    match s.group w.gk with
    | none => .next s
    | some g =>
      let h := fun (g : Group) (d : Tab W64) (t : Nat) =>
        Except.ok (⟨g, 0, [], if w.on t then gather w d t else d⟩ : One)
      let r := runSweep w h (Run.start w g)
      let r := if r.stop.isNone && w.upTo.isNone then exSecond w (writes w) (flags w) r else r
      .next (conclude w flag false true s r))

/-- One with a single result for each participant. -/
def exchLL (i : Instr) (s : State) (gather : Sw → Tab W64 → Nat → Tab W64) (f : Sw → Tab W64 → Nat → W64 × Flags) : Out :=
  exchWait i s gather (fun w d t => llWrites w t (f w d t).1) (fun w d t => (f w d t).2)

/-! ### Predicates (R174) -/

def opPset (w : Sw) (_ : Nat) (a _ : W64) : Bool × Flags := (decide (low w.n a ≠ 0), 0)

/-- The leader form: true for the first participant visited, which its data remembers across a replay. -/
def leadOne (w : Sw) (g : Group) (d : Tab W64) (t : Nat) : Except Stop One :=
  .ok ⟨writeP g t w.e.d.toNat (Tab.look d 0).isNone, 0, [], Tab.put d 0 1⟩

def opP (f : Bool → Bool → Bool) (w : Sw) (t : Nat) (_ _ : W64) : Bool × Flags :=
  (f (readP w.g w.base 5 t w.e.a.toNat) (readP w.g w.base 6 t w.e.b.toNat), 0)

end Sys2Proof.Machine
end

