-- ==== Sys2Proof/Machine/Access.lean ====
section
/-! DEFINITION. The memory sweeps: loads, stores, capability loads and stores, atomics, fences and panels
(R199 to R223). -/

namespace Sys2Proof.Machine

/-- Who a group's accesses are made by. -/
def Sw.who (w : Sw) : Who := ⟨coreOf w.gk, w.g.ids.asid, w.g.ids.team⟩

/-- The effective address (R199). -/
def Sw.ea (w : Sw) (t : Nat) : Int := ((capAddr (w.capA t)).toNat : Int) + w.offset t

/-- Access width in bytes (R201). -/
def Sw.width (w : Sw) : Nat := w.n / 8

/-- Did the sweep perform some participant before its stop? -/
def performed (w : Sw) (r : RunS) : Bool :=
  (if w.e.u then w.todo.take 1 else w.todo).any (fun t => w.on t && (match r.stop with | some (k, _) => decide (t < k) | none => true))

/-- A memory sweep with an effect on the core's generations once it has performed something (R303). -/
def sweepMem (i : Instr) (s : State) (ldw : Bool) (post : Sw → State → State)
    (f : Sw → State → Tab W64 → Nat → Except Stop OneS) : Out :=
  enter i s (fun w flag s =>
    let h := fun (s : State) (d : Tab W64) (t : Nat) => if w.on t then f w s d t else .ok ⟨s, [], d⟩
    let r := runSweepS w h ⟨s, [], w.data0, none⟩
    let r := if performed w r then { r with s := post w r.s } else r
    .next (concludeS w flag ldw true r))

/-- The generation step of an acquire at a scope (R303): none at .grp and .team, CGC at .clu, CGD beyond; a remote
acquire acts at .dev (R212). -/
def acquireStep (q : BitVec 8) (w : Sw) (s : State) : State :=
  if 3 ≤ qScope q ∨ qRem q then stepGen s (coreOf w.gk) true
  else if qScope q = 2 then stepGen s (coreOf w.gk) false
  else s

/-- Does an acquire read at the point of coherence (R211, R212)? -/
def acqDirect (q : BitVec 8) : Bool := decide (2 ≤ qScope q) || qRem q

/-- The release of an access at the scope of its qualifier (R211): what .dev and .sys wait for (R344). -/
def releaseStep (q : BitVec 8) (_ : Sw) (s : State) : State := releaseFar s (qScope q)

/-- An atomic is an acquire and a release at its scope (R218). -/
def bothStep (q : BitVec 8) (w : Sw) (s : State) : State := acquireStep q w (releaseStep q w s)

/-- Load the bytes of thread t's access after the checks of R204. -/
def loadBytes (w : Sw) (s : State) (t : Nat) (amo byp : Bool) (perms : List Nat) (low align n : Nat) :
    Except Stop (State × List Byte × List (Target × Nat)) :=
  match checkAccess s w.who (kindLoad amo byp) (w.capA t) 0 perms low align (w.ea t) n with
  | .error e => .error e
  | .ok (s, ts) =>
    match readPieces w.who byp ts (w.ea t).toNat s with
    | .error e => .error e
    | .ok (s, bs) => .ok (s, bs, ts)

/-- A loaded value, extended (R50, R29, R201). -/
def loadedValue (w : Sw) (bs : List Byte) : W64 := extend w.n w.sg (BitVec.ofNat 64 (leNat bs))

/-- LD, LDW, LDA and element loads: the value is bound to its flag, or to LDW's marks (R207, R208). -/
def loadOne (amo byp : Bool) (low align : Nat) (w : Sw) (s : State) (d : Tab W64) (t : Nat) : Except Stop OneS :=
  match loadBytes w s t amo byp [pLD] low align w.width with
  | .error e => .error e
  | .ok (s, bs, _) => .ok ⟨s.onGroup w.gk (fun g => w.supersede g t), llWrites w t (loadedValue w bs), d⟩

/-- The address a store of thread t goes to: its targets after the checks of R204. -/
def storeTargets (w : Sw) (s : State) (t : Nat) (amo : Bool) (low align n : Nat) :
    Except Stop (State × List (Target × Nat)) :=
  checkAccess s w.who (kindStore amo false) (w.capA t) 0 [pST] low align (w.ea t) n

/-- ST, STW, STL and element stores (R207); `q` is the scope of a release, 0 for a plain store (R336). -/
def storeOne (amo byp : Bool) (q low align : Nat) (w : Sw) (s : State) (d : Tab W64) (t : Nat) : Except Stop OneS :=
  match storeTargets w s t amo low align w.width with
  | .error e => .error e
  | .ok (s, ts) =>
    .ok ⟨releaseTo (writePieces w.who byp ts (w.ea t).toNat (leBytes (w.srcD t).toNat w.width) s) w.who q ts, [], d⟩

/-- PREF for one participant: the line that would be loaded comes to the vector L1, unless a check fails; .byp keeps it out
of the L1, and a leased line is read from its lender all the same (R224, R431). -/
def prefOne (w : Sw) (s : State) (d : Tab W64) (t : Nat) : Except Stop OneS :=
  match checkAccess s w.who (kindLoad false false) (w.capA t) 0 [pLD] 0 1 (w.ea t) 1 with
  | .ok (s', [(.phys pa, _)]) =>
    if qCache w.e.imm = 1 then .ok ⟨takeShared (snoopFor s' pa 1 false) pa, [], d⟩ else .ok ⟨(l1Miss (takeShared (snoopFor s' pa 1 false) pa) (coreOf w.gk) w.g.ids.asid (w.ea t).toNat pa).1, [], d⟩
  | _ => .ok ⟨s, [], d⟩

/-- The pending write of a capability destination. -/
def capWrite (w : Sw) (t : Nat) (c : Cap) : PWrite :=
  if w.e.d.toNat < 32 then .c t w.e.d.toNat c else .gc (w.e.d.toNat - 32) c

/-- The tag an LDC keeps (R214). -/
def keepTag (s : State) (w : Sw) (auth : Cap) (bs : List Byte) (tag : Bool) : Cap :=
  revCheck s w.g.ids.asid (capSane (capOfBytes bs (tag && capHas auth pLDC)))

def Sw.byp (w : Sw) : Bool := qCache w.e.imm == 1

/-- LDC (R214). -/
def ldcOne (w : Sw) (s : State) (d : Tab W64) (t : Nat) : Except Stop OneS :=
  match loadBytes w s t false w.byp [pLD] 0 16 16 with
  | .error e => .error e
  | .ok (s', bs, ts) =>
    let tag := match ts with | (tg, _) :: _ => readPieceTag s' w.who w.byp tg (w.ea t).toNat | [] => false
    .ok ⟨s', [capWrite w t (keepTag s' w (w.capA t) bs tag)], d⟩

/-- Permissions a capability store needs for its value (R204, R89). -/
def stcPerms (v : Cap) : List Nat :=
  if v.tag then (if capHas v pROAM then [pSTC] else [pSTC, pVLT]) else []

/-- Store a capability value for thread t, with the checks of an STC of `like` (R215, R258). -/
def storeCapAs (like : Cap) (w : Sw) (s : State) (t : Nat) (v : Cap) : Except Stop State :=
  match checkAccess s w.who (kindStore false like.tag) (w.capA t) 0 (pST :: stcPerms like) 0 16 (w.ea t) 16 with
  | .error e => .error e
  | .ok (s, ts) =>
    match ts with
    | (tg, _) :: _ => .ok (writeCapTo s w.who w.byp tg (w.ea t).toNat v)
    | [] => .ok s

/-- Store a capability value with the checks of an STC of it (R215). -/
def storeCapOne (w : Sw) (s : State) (t : Nat) (v : Cap) : Except Stop State := storeCapAs v w s t v

/-- STC (R215). -/
def stcOne (w : Sw) (s : State) (d : Tab W64) (t : Nat) : Except Stop OneS :=
  match storeCapOne w s t (revCheck s w.g.ids.asid (w.capD t)) with
  | .error e => .error e
  | .ok s => .ok ⟨s, [], d⟩

/-! ### Atomics (R216 to R218) -/

def kindAmo (tagged : Bool) : Kind := ⟨needAmo, true, true, tagged⟩

/-- Read, combine, write back and return the old value. `f` is the new value from old and operand. -/
def amoOne (f : Sw → W64 → W64 → W64 → W64) (w : Sw) (s : State) (d : Tab W64) (t : Nat) : Except Stop OneS :=
  let n := w.width
  match checkAccess s w.who (kindAmo false) (w.capA t) 0 [pLD, pST, pATOM] 0 n (w.ea t) n with
  | .error e => .error e
  | .ok (s, ts) =>
    match readPieces w.who true ts (w.ea t).toNat s with
    | .error e => .error e
    | .ok (s, bs) =>
      let old := BitVec.ofNat 64 (leNat bs)
      let wide := isWide w.f.wc w.e.ty w.e.imm
      let v := w.srcC t
      let v2 := w.v 2 t t (w.e.c.toNat + (if wide then 2 else 1)) wide
      let s := writePieces w.who false ts (w.ea t).toNat (leBytes (f w old v v2).toNat n) s
      let s := releaseTo s w.who (qScope w.e.imm) ts
      .ok ⟨s.onGroup w.gk (fun g => w.supersede g t), llWrites w t (extend w.n w.sg old), d⟩

def amoInt (f : W64 → W64 → W64) (w : Sw) (old v _ : W64) : W64 := BitVec.ofNat 64 (low w.n (f old v))

def nearest : RCtx := ⟨.nearestEven, false, 0⟩

def amoAddF (w : Sw) (old v _ : W64) : W64 :=
  if tyFloat w.e.ty then (fadd w.fm nearest old v).1 else BitVec.ofNat 64 (low w.n (old + v))

/-- The lesser or greater, by the signedness of TYPE; .f32 as FMIN and FMAX. -/
def amoMinF (mx : Bool) (w : Sw) (old v _ : W64) : W64 :=
  if tyFloat w.e.ty then (fminmax w.fm mx old v).1
  else if decide (w.int old ≤ w.int v) != mx then old else v

def amoSwapF (_ : Sw) (_ v _ : W64) : W64 := v
def amoCasF (w : Sw) (old v v2 : W64) : W64 := if low w.n old = low w.n v then v2 else old

/-- AMOC (R217): `f` says the value to store from the granule's old value, or none to leave it. -/
def amocOne (new : Sw → Nat → Cap) (cmp : Sw → Nat → Option Cap) (w : Sw) (s : State) (d : Tab W64) (t : Nat) :
    Except Stop OneS :=
  let v := revCheck s w.g.ids.asid (new w t)
  match checkAccess s w.who (kindAmo v.tag) (w.capA t) 0 ([pLD, pST, pATOM] ++ stcPerms v) 0 16 (w.ea t) 16 with
  | .error e => .error e
  | .ok (s, ts) =>
    match ts with
    | [] => .ok ⟨s, [], d⟩
    | (tg, _) :: _ =>
      match readPieces w.who true ts (w.ea t).toNat s with
      | .error e => .error e
      | .ok (s, bs) =>
        let tag := readPieceTag s w.who true tg (w.ea t).toNat
        let old := capOfBytes bs tag
        let store := match cmp w t with
          | none => true
          | some c => decide (c.bits = old.bits ∧ c.tag = old.tag)
        let s' := if store then writeCapTo s w.who false tg (w.ea t).toNat v else s
        let s' := releaseTo s' w.who (qScope w.e.imm) ts
        .ok ⟨s', [capWrite w t (keepTag s' w (w.capA t) bs tag)], d⟩

/-! ### Panels (R220 to R223) -/

def isAon (w : Sw) : Bool := qAon w.e.imm

/-- The panel's checks at issue: rows 1 to 3, the shape, and for an aon access bytes 0 to 15 (R220). -/
def panelCheck (w : Sw) (s : State) (store : Bool) (t : Nat) : Except Stop State :=
  let c := w.capA t
  let fa := capAddr c
  match capCheck c 0 [if store then pST else pLD] fa with
  | some e => .error e
  | none =>
    let b := capBase c
    let n := capTop c - b
    if b % 64 ≠ 0 ∨ n % 16 ≠ 0 ∨ n < 32 ∨ 65536 < n then .error (stopAt cCAP_ALIGN fa)
    else if !isAon w then .ok s
    else if capHas c pVLT then
      match vaultUnit s w.g.ids.team b 16 with
      | none => .error (stopAt cVAULT_RANGE (BitVec.ofNat 64 b))
      | some _ => .ok s
    else
      match checkPieces w.who ⟨if store then needAmo else needLoad, true, true, false⟩ (capHas c pMMIO) b 16 (pieces b 16) s with
      | .error e => .error e
      | .ok (s, _) => .ok s

/-- The home of the panel's VERSION, as a target. -/
def versionTarget (w : Sw) (s : State) (t : Nat) : Option (State × Target) :=
  let c := w.capA t
  let b := capBase c
  if capHas c pVLT then (vaultUnit s w.g.ids.team b 16).map (fun h => (s, .vault h))
  else match translate s w.who b needStore with
    | .ok (s, x) => some (s, .phys x.pa)
    | .error _ => none

/-- Stage one element of a publication (R221): its address and bytes. -/
def stageOne (w : Sw) (s : State) (d : Tab W64) (t : Nat) : Except Stop OneS :=
  match storeTargets w s t true 16 w.width w.width with
  | .error e => .error e
  | .ok (s, _) => .ok ⟨s, [], Tab.put (Tab.put d (2 * t) (BitVec.ofInt 64 (w.ea t))) (2 * t + 1) (w.srcD t)⟩

/-- A panel's checks are made at issue: not again when a sweep goes on at a later thread (R220). -/
def atIssue (w : Sw) : Bool := w.todo.length == w.all.length

/-- Perform the staged stores of R221 in ascending thread; a store whose checks fail now stops there. -/
def publish (w : Sw) (cap : Nat → Cap) : List Nat → Tab W64 → State → State → Except (Nat × Stop) State
  | [], _, _, s => .ok s
  | t :: l, d, s0, s =>
    match Tab.look d (2 * t) with
    | none => publish w cap l d s0 s
    | some ea =>
      match checkAccess s w.who (kindStore true false) (cap t) 0 [pST] 16 w.width (ea.toNat : Int) w.width with
      | .error e => .error (t, e)
      | .ok (s, ts) =>
        publish w cap l d s0 (writePieces w.who (w.byp) ts ea.toNat
          (leBytes (Tab.lookD d (2 * t + 1) 0).toNat w.width) s)

/-- The bytes of VERSION as memory holds them, read past any soft error of its unit: R220 lists rows 6 to 9 only (DESIGN CHOICE,
log 57). -/
def versionRead (s : State) (w : Sw) (byp : Bool) (tg : Target) (b : Nat) : State × Nat :=
  match readPiece { s with mem := { s.mem with errs := [] } } w.who byp tg b 8 with
  | .ok (s', bs) => ({ s' with mem := s.mem }, leNat bs)
  | .error _ => (s, 0)

/-- The publication's end (R221): VERSION goes to (v OR 1) + 1, as a release at the scope. Where its page, which translated at
issue, translates no more, VERSION stays as it is (DESIGN CHOICE, log 57). -/
def versionStep (w : Sw) (s : State) (t : Nat) : State :=
  match versionTarget w s t with
  | none => metClean s (w.who.levels s) w.g.ids.asid (capBase (w.capA t)) needStore
  | some (s, tg) =>
    let b := capBase (w.capA t)
    let v := (versionRead s w true tg b).2
    let v1 := if v % 2 = 1 then v else v + 1
    let s := releaseTo (writePiece s w.who false tg b (leBytes (v1 + 1) 8)) w.who (qScope w.e.imm) [(tg, 8)]
    releaseStep w.e.imm w s

/-- TST (R220, R221, R223). -/
def tstSweep (i : Instr) (s : State) : Out :=
  enter i s (fun w flag s =>
    let first := w.parts.head?
    let go := fun (s : State) =>
      let f := fun (s : State) (d : Tab W64) (t : Nat) =>
        if w.on t then (if isAon w then stageOne w s d t else storeOne true w.byp 0 16 w.width w s d t) else .ok ⟨s, [], d⟩
      let r := runSweepS w f ⟨s, [], w.data0, none⟩
      match r.stop, isAon w, first with
      | none, true, some t0 =>
        (match publish w w.capA w.all r.data r.s r.s with
         | .error (t, e) => concludeS w flag false true { r with stop := some (t, e) }
         | .ok s' => concludeS w flag false true { r with s := versionStep w s' t0 })
      | _, _, _ => concludeS w flag false true r
    match first, w.all with
    | some _, t0 :: _ =>
      if atIssue w then
        (match panelCheck w s true t0 with
         | .error e => .next (concludeS w flag false true ⟨s, [], w.data0, some (t0, e)⟩)
         | .ok s => .next (go s))
      else .next (go s)
    | _, _ => .next (go s))

/-- The acquire of a TLD.aon (R222, R303, R325): VERSION is read as LDA at the scope reads it, and the core's generations step
before the elements are read. -/
def versionAcquire (w : Sw) (s : State) (t : Nat) : State :=
  let b := capBase (w.capA t)
  let k := kindLoad true (acqDirect w.e.imm)
  let tgt : Option (State × Target) :=
    if capHas (w.capA t) pVLT then (vaultUnit s w.g.ids.team b 16).map (fun h => (s, .vault h))
    else match checkPiece s w.who k (capHas (w.capA t) pMMIO) b 8 b 8 with
      | .ok r => some r
      | .error _ => none
  match tgt with
  | some (s, tg) => acquireStep w.e.imm w (versionRead s w (acqDirect w.e.imm) tg b).1
  | none => acquireStep w.e.imm w s

/-- TLD (R220, R222, R223): an aon load checks every participant, and then reads them all in one publication. The elements
are read as LD with its CACHE reads them (R325). -/
def tldSweep (i : Instr) (s : State) : Out :=
  enter i s (fun w flag s =>
    let read := fun (s : State) (d : Tab W64) (t : Nat) =>
      if w.on t then loadOne true w.byp 16 w.width w s d t else .ok ⟨s, [], d⟩
    let go := fun (s : State) =>
      if isAon w then
        let check := fun (s : State) (d : Tab W64) (t : Nat) =>
          if w.on t then
            (match loadBytes w s t true w.byp [pLD] 16 w.width w.width with
             | .error e => .error e
             | .ok _ => .ok ⟨s, [], d⟩)
          else .ok ⟨s, [], d⟩
        let r := runSweepS w check ⟨s, [], w.data0, none⟩
        match r.stop, w.parts with
        | none, t0 :: _ =>
          let ts := if w.e.u then w.all.take 1 else w.all
          let s1 := versionAcquire w r.s t0
          let r2 := runThreadsS w read ts ⟨s1, [], r.data, none⟩
          -- a stop has written no register (R223)
          concludeS w flag false true (if r2.stop.isSome then { r2 with s := s1, pend := [] } else r2)
        | _, _ => concludeS w flag false true r
      else concludeS w flag false true (runSweepS w read ⟨s, [], w.data0, none⟩)
    match w.parts, w.all with
    | _ :: _, t0 :: _ =>
      if atIssue w then
        (match panelCheck w s false t0 with
         | .error e => .next (concludeS w flag false true ⟨s, [], w.data0, some (t0, e)⟩)
         | .ok s => .next (go s))
      else .next (go s)
    | _, _ => .next (go s))

/-! ### Capability instructions (R225 to R228) -/

/-- Write a capability destination (R200). -/
def Sw.writeCD (w : Sw) (g : Group) (t : Nat) (c : Cap) : Group := writeC g t w.e.d.toNat c

/-- A deriving instruction. -/
def derive (i : Instr) (s : State) (f : Sw → Nat → Cap) : Out :=
  sweepG i s (fun w g d t => .ok ⟨w.writeCD g t (f w t), 0, [], d⟩)

/-- An inspecting instruction. -/
def inspect (i : Instr) (s : State) (f : Sw → Nat → W64) : Out :=
  sweepG i s (fun w g d t => .ok ⟨w.writeD g t (f w t), 0, [], d⟩)

/-- An inspecting instruction whose value is read once, when its sweep issues, so that every participant has the same (R190, R197,
R245): what is left of a sweep that has stopped goes on with it. -/
def inspectOnce (i : Instr) (s : State) (f : State → Sw → W64) : Out :=
  enter i s (fun w flag s =>
    match s.group w.gk with
    | none => .next s
    | some g =>
      let d0 := w.started s
      let x := Tab.lookD d0 sampleKey (f s w)
      let h := fun (g : Group) (d : Tab W64) (t : Nat) =>
        Except.ok (⟨if w.on t then w.writeD g t x else g, 0, [], d⟩ : One)
      .next (conclude w flag false true s (runSweep w h { Run.start w g with data := Tab.put d0 sampleKey x })))

/-- The 64-bit operand of REFSETA, REFNAR and REFNARX. -/
def Sw.b64 (w : Sw) (t : Nat) : Nat := (w.srcB t).toNat

/-- The pattern of REFMINT (R228). -/
def mintPattern (w : Sw) (t : Nat) : BitVec 128 :=
  let r := w.e.b.toNat
  if w.e.u then readG w.g w.base 1 (r + 1) ++ readG w.g w.base 1 r
  else
    w.vBefore 1 t t (r + 3) ++ w.vBefore 1 t t (r + 2) ++ w.vBefore 1 t t (r + 1) ++ w.vBefore 1 t t r

end Sys2Proof.Machine
end

