-- ==== Sys2Proof/Machine/Groups.lean ====
section
/-! DEFINITION. Formation and retirement of groups, spawn bins, barriers, and the sweeps that act once for all their
participants (R15, R16, R46 to R48, R172, R184 to R194, R284, R285). -/

namespace Sys2Proof.Machine

/-! ### Sweeps that act for all participants at once -/

/-- The first thread at which a sweep must stop before it acts: a failing fetch or an abandoned source. -/
def firstStop (w : Sw) : Option (Nat × Stop) := w.todo.findSome? (fun t => (commonStop w t).map (fun st => (t, st)))

/-- A sweep whose effect is one for all its participants: `f` gives the state after it. `advance` says whether every
thread goes on past the instruction. -/
def sweepAll (i : Instr) (s : State) (advance : Bool) (f : Sw → Option Nat → State → Except Stop State) : Out :=
  enter i s (fun w flag s =>
    let tinst := tinstOf s w
    match firstStop w with
    | some (k, st) => .next (stopSweep s w tinst k st [] 0 [] flag)
    | none =>
      match f w flag s with
      | .error st => .next (stopSweep s w tinst (w.all.headD 0) st [] 0 [] flag)
      | .ok s => .next (finishSweep s w tinst advance [] 0))

/-- The override ends at once for a group whose override thread waits: only at a clause boundary does it choose (R290). -/
def overrideWaits (g : Group) (ts : KeySet) : GSched :=
  if g.sched.ovOn && KeySet.has ts g.sched.ovT then { g.sched with ovOn := false, ovc := 0, ovl := 0 } else g.sched

/-- Threads of a set enter the waiting state. -/
def waitThreads (g : Group) (ts : KeySet) (k : WaitKind) (n : Nat) : Group :=
  { g with
    sched := overrideWaits g ts
    th := Tab.mapv (fun t x => if KeySet.has ts t then { x with st := .waiting, wait := k, barNum := n } else x) g.th }

/-! ### Groups and partitions -/

/-- Positions of a partition that are free. -/
def freePositions (s : State) (core part : Nat) : List Nat :=
  ((List.range 16).map (· + 16 * part)).filter (fun p => (s.group (core * 256 + p)).isNone)

def freePosCount (s : State) (core : Nat) : Nat := ((List.range 8).map (fun p => (freePositions s core p).length)).sum

/-- Positions of a core that a unit placed again has reserved for the groups it will bring (R283, R296). -/
def reservedPos (s : State) (core : Nat) : Nat :=
  (s.units.map (fun u => match u.2.saved with
    | some v => (v.groups.filter (fun g => match Tab.look s.teams g.ids.team with
        | some t => t.placed && t.core == core
        | none => false)).length
    | none => 0)).sum

/-- A position is free for a group whose place nobody reserved. -/
def positionFree (s : State) (core : Nat) : Bool := decide (reservedPos s core < freePosCount s core)

def residentIn (s : State) (core part : Nat) : Nat :=
  (s.groups.filter (fun x => coreOf x.1 == core && partOf x.1 == part && posOf x.1 < 128)).length

/-- R284: the partition with the fewest resident groups, then the most free general rows, then the lowest number; one
with a free position. -/
def choosePart (s : State) (core : Nat) : Option Nat :=
  let c := s.core core
  ((List.range 8).filter (fun p => freePositions s core p ≠ [])).foldl (fun best p =>
    match best with
    | none => some p
    | some q =>
      let a := residentIn s core p
      let b := residentIn s core q
      if a < b ∨ (a = b ∧ (c.part q).gen < (c.part p).gen) then some p else best) none

/-- Groups of a team, resident ones, those of return lists and of saved units. -/
def teamGroups (s : State) (tk : Nat) : List Group :=
  ((s.groups.filter (fun x => x.2.ids.team == tk && x.2.prog.isNone)).map Prod.snd) ++
  (s.cores.flatMap (fun c => c.2.ret.filter (fun g => g.ids.team == tk))) ++
  (s.units.flatMap (fun u => match u.2.saved with | some sv => sv.groups.filter (fun g => g.ids.team == tk) | none => []))

def residentGroups (s : State) (tk : Nat) : Nat :=
  (s.groups.filter (fun x => x.2.ids.team == tk && x.2.prog.isNone)).length

def GSched.fresh : GSched := ⟨0, 0, false, 0, 0, 0, false, none, 0, 0⟩

/-- A new group (R47). -/
def newGroup (ids : GIds) (args : List Cap) (th : Tab Thread) : Group :=
  let gc := (args.zipIdx).foldl (fun t x => Tab.cput Cap.null t x.2 x.1) []
  ⟨ids, th, ⟨[], gc, [], [], 0, 0⟩, [], [], [], [], none, Cap.null, none, [], none, none, none, .running, .none, GSched.fresh, none⟩

/-- A new thread (R46): `args` are the four values of a SPAWN. -/
def newThread (code : Cap) (args : List W32) : Thread :=
  { Thread.reset with st := .runnable, code := capUnseal code
                      v := (args.zipIdx).foldl (fun t x => Tab.cput 0 t x.2 x.1) [] }

/-- The next free group number from n up (R15): numbers of resident groups are skipped, those of evicted and of saved groups
among them, since a group is resident until it retires (R239; DEDUCED, log 52); 65,535 is followed by 64. -/
def nextGrp (used : List Nat) : Nat → Nat → Nat
  | 0, n => n
  | k + 1, n => if used.contains n then nextGrp used k (if n = 65535 then 64 else n + 1) else n

/-- The lowest of a team's 64 group places that no group of it has (R374; DESIGN CHOICE, log 52). -/
def freePlace (used : List Nat) : Nat := ((List.range 64).find? (fun j => !used.contains j)).getD 0

/-! ### Spawn bins (R187 to R189, R285) -/

def Bin.empty : Bin := ⟨0, 0, [], 0, 0, false⟩
def Core.bin (c : Core) (n : Nat) : Bin := Tab.lookD c.bins n Bin.empty
def Core.binTimer (c : Core) (n : Nat) : Nat := Tab.lookD c.binTimers n 4096

/-- Form a group from a bin (R15, R48, R188, R285): none while it cannot form. It takes the lowest free position of its partition
(DESIGN CHOICE, log 65). Evicted and saved groups count among the
team's sixty-four (R12, R239). Bins belong to their core (R189): records of a team that a switch has taken wait there, and form on it
once the team is placed again (DESIGN CHOICE, log 76). -/
def formBin (s : State) (core bin : Nat) : Option State := do
  let c := s.core core
  let b := c.bin bin
  if b.recs = [] then none
  let tm ← Tab.look s.teams b.team
  let l ← Tab.look s.launches tm.launch
  if !tm.placed then none
  let p ← choosePart s core
  let pos ← (freePositions s core p).head?
  let used := (teamGroups s b.team).map (fun g => g.ids.grp)
  let place := freePlace ((teamGroups s b.team).map (fun g => g.ids.place))
  if 64 ≤ used.length ∨ l.rows < 4 ∨ (c.part p).gen < 4 ∨ !positionFree s core then none
  let n := nextGrp used 65536 tm.nextGrp
  let th := (b.recs.zipIdx).map (fun x => (x.2, newThread x.1.entry x.1.args))
  let g := { newGroup ⟨b.team, n, l.asid, l.world, l.rows, 4, 0, place⟩ l.args th with mapped := [0, 1, 2, 3] }
  let c := { (c.setPart p { (c.part p) with gen := (c.part p).gen - 4 }) with bins := Tab.rem c.bins bin, formed := s.time.clock + 1 }
  let s := (s.setCore core c).setGroup (core * 256 + pos) g
  some { s with teams := Tab.put s.teams b.team { tm with nextGrp := if n = 65535 then 64 else n + 1 } }

/-- Address space of a team's launch. -/
def asidOf (s : State) (tk : Nat) : Nat :=
  match (Tab.look s.teams tk).bind (fun t => Tab.look s.launches t.launch) with | some l => l.asid | none => 0

/-- A bin is due: its timer has run out, or it is full. -/
def Bin.isDue (b : Bin) : Bool := b.due || decide (256 ≤ b.recs.length)

/-- May a bin form now (R285)? No bin of the core has formed in this clock, and none of lower number is due and can. -/
def binTurn (s : State) (core bin : Nat) : Bool :=
  let c := s.core core
  c.formed != s.time.clock + 1 && !(List.range bin).any (fun n => (c.bin n).isDue && (formBin s core n).isSome)

/-- What a spawn record comes to. -/
inductive SpawnRes where
  | ok (s : State)
  | full
  | wait
  deriving DecidableEq, Repr

/-- Append a record to a bin of its key or an empty one, its entry checked while a revocation sweep runs (R103); the bin that it
fills forms when it may (R187, R285). -/
def spawnAppend (s : State) (core team bin : Nat) (r : SpawnRec) : State :=
  let c := s.core core
  let b := c.bin bin
  let timer := if b.recs = [] then s.time.clock + c.binTimer bin else b.deadline
  let x := { r with entry := revCheck s (asidOf s team) r.entry }
  let b : Bin := ⟨team, capAddr r.entry, b.recs ++ [x], timer, c.binTimer bin, b.recs ≠ [] && b.due⟩
  let s := s.setCore core { c with bins := Tab.put c.bins bin b }
  if b.recs.length = 256 ∧ binTurn s core bin then (formBin s core bin).getD s else s

/-- The bin of an entry (R187). -/
def spawnBin (c : Cap) : Nat := (capAddr c).toNat / 4 % 16

/-- A bin that holds records is due to form its group (R285). -/
def binDue (s : State) (core bin : Nat) : State :=
  s.onCore core (fun c => if (c.bin bin).recs = [] then c else { c with bins := Tab.put c.bins bin { (c.bin bin) with due := true } })

/-- Add a record to its bin (R187). A bin of another key, or a full one, forms first: SPAWN_FULL where it cannot under R15 and
R48; where only R285 keeps it back, the record waits for its clock. -/
def spawnRecord (s : State) (core team : Nat) (r : SpawnRec) : SpawnRes :=
  let addr := capAddr r.entry
  let bin := spawnBin r.entry
  let b := (s.core core).bin bin
  let other := b.recs ≠ [] ∧ ¬ (b.team = team ∧ b.entry = addr)
  if other ∨ 256 ≤ b.recs.length then
    match formBin s core bin with
    | none => .full
    | some s1 => if binTurn s core bin then .ok (spawnAppend s1 core team bin r) else .wait
  else .ok (spawnAppend s core team bin r)

/-! ### Barriers (R184 to R186) -/

/-- Would a BAR leave the group orphaned (R186)? `g` is the group as it would stand after arrival. -/
def orphans (g : Group) : Bool :=
  let waits := g.th.filter (fun x => x.2.st == .waiting)
  let bars := waits.filter (fun x => x.2.wait == .bar || x.2.wait == .barc)
  g.runnable = [] && bars.length == waits.length &&
    bars.any (fun x => bars.any (fun y => x.2.wait != y.2.wait || x.2.barNum != y.2.barNum))

/-- Has every non-exited thread of the groups arrived at the barrier (R185)? -/
def allArrived (gs : List Group) (k : WaitKind) (n : Nat) : Bool :=
  gs.all (fun g => g.th.all (fun x => x.2.st == .exited || (x.2.wait == k && x.2.barNum == n))) &&
    gs.any (fun g => g.th.any (fun x => x.2.st != .exited))

/-- Release the barrier in a group. -/
def releaseBarrier (k : WaitKind) (n : Nat) (g : Group) : Group :=
  { g with th := Tab.mapv (fun _ x =>
      if x.wait == k && x.barNum == n then { x with st := if x.st == .waiting then .runnable else x.st, wait := .none } else x) g.th }

/-- Apply an update to every group of a team, wherever it stands. -/
def onTeamGroups (s : State) (tk : Nat) (f : Group → Group) : State :=
  let h := fun (g : Group) => if g.ids.team = tk ∧ g.prog.isNone then f g else g
  { s with
    groups := Tab.mapv (fun _ g => h g) s.groups
    cores := Tab.mapv (fun _ c => { c with ret := c.ret.map h }) s.cores
    units := Tab.mapv (fun _ u => { u with saved := u.saved.map (fun sv => { sv with groups := sv.groups.map h }) }) s.units }

/-! ### Branches (R167 to R171) -/

/-- The signed word offset of the branch group (R110). -/
def brOff (e : Ext) : Int := (e.modB ++ e.modA).toInt

def brTarget (w : Sw) : Int := (w.iaddr : Int) + 4 * brOff w.e

def setPc (g : Group) (t : Nat) (a : Int) : Group := g.onThread t (fun x => { x with code := capSetAddr x.code a })

/-- Count a clause that ends in a backward branch while the lowest runnable thread stands outside it (R290). -/
def countBackward (w : Sw) (g0 g : Group) : Group :=
  let back := w.all.any (fun t => w.on t && (g.thread t).st != .exited && decide ((g.thread t).pc ≤ w.iaddr))
  match g0.lowestRunnable with
  | some l => if back && !(KeySet.has w.all l) then { g with sched := { g.sched with ovc := g.sched.ovc + 1 } } else g
  | none => g

/-- A transfer of control (R167): `f` acts for a thread that takes it; the others go on at the next clause. -/
def branch (i : Instr) (s : State) (cond : Sw → Bool) (f : Sw → Group → Nat → Except Stop Group) : Out :=
  enter i s (fun w flag s =>
    match s.group w.gk with
    | none => .next s
    | some g =>
      let next : Int := ((w.iaddr + instrLen i : Nat) : Int)
      let h := fun (g : Group) (d : Tab W64) (t : Nat) =>
        if w.on t && cond w then (match f w g t with | .error e => .error e | .ok g => .ok ⟨g, 0, [], d⟩)
        else Except.ok (⟨setPc g t next, 0, [], d⟩ : One)
      let r := runThreads w h w.todo (Run.start w g)
      let r := match r.stop with | none => { r with g := countBackward w g r.g } | some _ => r
      .next (conclude w flag false false s r))

/-- Jump to a checked capability target (R168). -/
def jumpTo (w : Sw) (g : Group) (t : Nat) (link : Bool) : Except Stop Group :=
  let c := w.capA t
  match targetCheck c with
  | some e => .error e
  | none =>
    let code := (g.thread t).code
    let g := if link then writeC g t 31 (capReturn code (w.iaddr + 12)) else g
    .ok (g.onThread t (fun x => { x with code := capUnseal c }))

/-! ### Special registers (R37, R38, R197) -/

/-- SREGR or SREGW that is ILLEGAL_INSTRUCTION whatever its operands hold. -/
def sregBad (write : Bool) (g : Group) (e : Ext) : Bool :=
  let n := e.imm.toNat
  decide (0x13 ≤ n) || (decide (7 ≤ n ∧ n ≤ 0xE) && g.trap.isNone) ||
    (write && !([4, 5, 6, 7].contains n)) || (e.u && [0, 5, 7].contains n)

/-- What SREGR reads. -/
def sregRead (s : State) (w : Sw) (t : Nat) : W64 :=
  let g := w.g
  let tm := Tab.look s.teams g.ids.team
  let tr := fun (f : Trap → W64) => match g.trap with | some x => f x | none => 0
  let mask := fun (k : Nat) => tr (fun x => BitVec.ofNat 64 (maskNat x.tmask / 2 ^ (64 * k) % 2 ^ 64))
  let la := tm.bind (fun x => Tab.look s.launches x.launch)
  match w.e.imm.toNat with
  | 0x00 => BitVec.ofNat 64 t
  | 0x01 => BitVec.ofNat 64 g.ids.grp
  | 0x02 => BitVec.ofNat 64 (teamNum s g)
  | 0x03 => BitVec.ofNat 64 (match tm.bind (fun x => Tab.look s.units x.unit) with | some u => u.index % 256 | none => 0)
  | 0x04 => g.r.fmt.setWidth 64
  | 0x05 => (g.thread t).fpst.setWidth 64
  | 0x06 => g.r.fpctl.setWidth 64
  | 0x07 => (g.thread t).tpc
  | 0x08 => tr (fun x => x.tcause.setWidth 64)
  | 0x09 => tr (fun x => x.tinst.setWidth 64)
  | 0x0A => mask 0
  | 0x0B => mask 1
  | 0x0C => mask 2
  | 0x0D => mask 3
  | 0x0E => tr (fun x => BitVec.ofNat 64 x.tres)
  | 0x0F => BitVec.ofNat 64 s.time.ftime
  | 0x10 => BitVec.ofNat 64 w.seq
  | 0x11 => BitVec.ofNat 64 (match la with | some l => l.nteam | none => 0)
  | 0x12 => BitVec.ofNat 64 (match la with | some l => l.ngrp | none => 0)
  | _ => 0

/-- What SREGW writes for thread t; a per-group register ends with the last participant's value (R197). Every bit of fmt is stored, as
R249 says of SETFMT, those too that R246 reserves (DESIGN CHOICE, log 78). -/
def sregWrite (w : Sw) (g : Group) (t : Nat) : Group :=
  let x := w.srcA t
  match w.e.imm.toNat with
  | 0x04 => { g with r := { g.r with fmt := x.setWidth 32 } }
  | 0x05 => g.onThread t (fun y => { y with fpst := fpstStored (x.setWidth 32) })
  | 0x06 => { g with r := { g.r with fpctl := fpctlStored (x.setWidth 32) } }
  | 0x07 => g.onThread t (fun y => { y with tpc := x })
  | _ => g

/-- A sweep illegal for a reason that only the group's state or the register number shows (R38, R198). -/
def guardIllegal (i : Instr) (s : State) (bad : Group → Ext → Bool) (k : Out) : Out :=
  match s.group s.focus, formOf i with
  | some g, some (f, e) =>
    if bad g e && legal i && placeOk g i e && g.drain.isNone then
      let w := sweepOf s s.focus g i f e
      match w.all with
      | [] => k
      | t :: _ => .next (stopFirst { s with ctr := s.ctr + ctrStep } w (tinstOf s w) (w.todo.headD t) cILLEGAL)
    else k
  | _, _ => k

/-! ### RGET and RSET (R196) -/

/-- Word k of a capability. -/
def capWord (c : Cap) (k : Nat) : W32 := c.bits.extractLsb' (32 * k) 32
def capSetWord (c : Cap) (k : Nat) (x : W32) : Cap :=
  let m : BitVec 128 := BitVec.ofNat 128 ((2 ^ 32 - 1) * 2 ^ (32 * k))
  ⟨(c.bits &&& ~~~ m) ||| BitVec.ofNat 128 (x.toNat * 2 ^ (32 * k)), false⟩

/-- RGET's read of thread t, also the read of PWDATA (R367): a pending result may be read or not (R23). -/
def regRead (g : Group) (base t ix : Nat) : W32 :=
  let cap := fun (r : Nat) => readC g base 1 t r
  if ix < 0x80 then
    (match pendV g.pend t ix with
     | none => (g.thread t).vreg false ix
     | some (ldw, y) =>
       if ldw || Config.pendNew (choiceIx base 1 t ix) then y else (pendLdw g.pend t ix).getD ((g.thread t).vreg false ix))
  else if ix < 0x88 then (if readP g base 6 t (ix - 0x80) then 1 else 0)
  else if ix < 0x100 then 0
  else if ix < 0x180 then capWord (cap ((ix - 0x100) / 4)) (ix % 4)
  else if ix < 0x1A0 then (if (cap (ix - 0x180)).tag then 1 else 0)
  else 0

/-- A capability register as a partial write finds it: a pending result comes first (R20). -/
def capLanded (g : Group) (t r : Nat) : Cap := (pendC g.pend t r).getD (g.capField t r)

/-- RSET's write for thread t, also the write of PWDATA (R367). -/
def regWrite (g : Group) (t ix : Nat) (y : W32) : Group :=
  if ix < 0x80 then
    { (g.onThread t (fun x => x.setV false ix y)) with
      pend := dropPend g.pend (isPV t ix), aband := KeySet.del g.aband (ix * 256 + t) }
  else if ix < 0x88 then writeP g t (ix - 0x80) (y.getLsbD 0)
  else if ix < 0x100 then g
  else if ix < 0x180 then
    let r := (ix - 0x100) / 4
    writeC g t r (capSetWord (capLanded g t r) (ix % 4) y)
  else if ix < 0x1A0 then
    let r := ix - 0x180
    if y.getLsbD 0 then g else writeC g t r (capUntag (capLanded g t r))
  else g

/-- Does RGET or RSET wait on a copy's scoreboard (R196, R243)? -/
def rBlocked (w : Sw) : Bool :=
  w.g.sb != [] && w.todo.any (fun t => w.on t && decide (w.rIx t < 0x80) && KeySet.has w.g.sb (w.rIx t * 256 + t))

/-- The vector registers that an RSET writes. -/
def rsetRegs (w : Sw) : List Nat := ((w.todo.filter w.on).map w.rIx).filter (· < 0x80)

/-- Map the vector registers that RSET writes first, by their numbers (R41, R196). -/
def mapNumbers (s : State) (k : Nat) (rs : List Nat) : MapRes :=
  match s.group k with
  | none => .stall
  | some g =>
    let new := (rs.filter (fun r => !KeySet.has g.mapped r)).foldl KeySet.ins []
    if new = [] then .ok s
    else if g.ids.budget < g.mapped.length + new.length then .budget
    else match takeRows s k new.length with
      | none => .stall
      | some s => .ok (s.onGroup k (fun g => { g with mapped := new.foldl KeySet.ins g.mapped }))

end Sys2Proof.Machine
end

