-- ==== Sys2Proof/Machine/Copies.lean ====
section
/-! DEFINITION. The copy engine (R234 to R245, R309 to R315): layout records, issue of a copy, and what each row does. -/

namespace Sys2Proof.Machine

/-! ### Records read at issue (R240, R263) -/

/-- Read n granules from va on under rows 6 to 9 of R204, each with its tag as an LDC would keep it. -/
def readGranules (w : Sw) (c : Cap) : Nat → Nat → State → Except Stop (State × List Cap)
  | 0, _, s => .ok (s, [])
  | n + 1, va, s =>
    let tgt : Except Stop (State × Target) :=
      if capHas c pVLT then
        match vaultUnit s w.g.ids.team va 16 with
        | none => .error (stopAt cVAULT_RANGE (capAddr c))
        | some h => .ok (s, .vault h)
      else
        match checkPiece s w.who (kindLoad false false) (capHas c pMMIO) va 16 va 16 with
        | .error e => .error { e with faddr := capAddr c }
        | .ok r => .ok r
    match tgt with
    | .error e => .error e
    | .ok (s, t) =>
      match readPiece s w.who false t va 16 with
      | .error e => .error { e with faddr := capAddr c }
      | .ok (s', bs) =>
        let x := keepTag s' w c bs (readPieceTag s' w.who false t va)
        match readGranules w c n (va + 16) s' with
        | .error e => .error e
        | .ok (s, l) => .ok (s, x :: l)

/-- Checks of a record's capability: tagged, its type, permissions, bounds from its address, alignment 64. -/
def recordCheck (c : Cap) (otype n : Nat) : Option Stop :=
  match capCheck c otype [pLD, pLDC, pENG] (capAddr c) with
  | some e => some e
  | none =>
    if !boundsCheck c 0 ((capAddr c).toNat : Int) n then some (stopAt cCAP_BOUNDS (capAddr c))
    else if (capAddr c).toNat % 64 ≠ 0 then some (stopAt cCAP_ALIGN (capAddr c))
    else none

/-- The bytes of a list of granules, as one little-endian number; `field o n` is n bytes at offset o. -/
def granulesNat : List Cap → Nat
  | [] => 0
  | c :: l => c.bits.toNat + 2 ^ 128 * granulesNat l

def fieldAt (x o n : Nat) : Nat := x / 2 ^ (8 * o) % 2 ^ (8 * n)

/-- A layout record (R234) from its eight granules. -/
def parseLayout (gs : List Cap) : Layout :=
  let x := granulesNat gs
  let ctl := fieldAt x 16 4
  { src := gs.headD Cap.null
    ndim := ctl % 8
    stype := BitVec.ofNat 6 (ctl / 2 ^ 4)
    dtype := BitVec.ofNat 6 (ctl / 2 ^ 10)
    zpad := decide (ctl / 2 ^ 16 % 2 = 1)
    rsvd := decide (ctl / 8 % 2 ≠ 0 ∨ ctl / 2 ^ 17 ≠ 0 ∨ fieldAt x 20 4 ≠ 0 ∨ fieldAt x 44 4 ≠ 0 ∨ fieldAt x 104 24 ≠ 0)
    ext := (List.range 5).map (fun d => fieldAt x (24 + 4 * d) 4)
    sstr := (List.range 5).map (fun d => (BitVec.ofNat 64 (fieldAt x (48 + 8 * d) 8)).toInt)
    dpitch := (List.range 4).map (fun d => fieldAt x (88 + 4 * d) 4) }

def isBfp (t : BitVec 6) : Bool := decide (0x20 ≤ t.toNat ∧ t.toNat ≤ 0x22)

/-- The pairs of types a copy converts (R235). -/
def pairOk (st dt : BitVec 6) : Bool :=
  if isBfp st then dt == 0x11
  else if tyWidth st == 0 then false
  else st == dt || (tyFloat st && tyFloat dt && widensExactly st dt) ||
    (tyInt st && tyInt dt && decide (tyWidth st < tyWidth dt))

def Layout.e (l : Layout) (d : Nat) : Nat := l.ext.getD d 1
def Layout.ss (l : Layout) (d : Nat) : Int := l.sstr.getD d 0

/-- Bits of the destination element, bytes of a destination row. -/
def Layout.w (l : Layout) : Nat := tyWidth l.dtype
def Layout.rowBytes (l : Layout) : Nat := l.e 0 * l.w / 8

/-- Destination pitch of dimension d ≥ 1. -/
def Layout.dp (l : Layout) (d : Nat) : Nat := l.dpitch.getD (d - 1) 0

/-- Well-formed records (R235). Pitches are compared in bits, so that sub-byte types are exact. -/
def Layout.ok (l : Layout) : Bool :=
  !l.rsvd && decide (1 ≤ l.ndim ∧ l.ndim ≤ 5) &&
    (List.range 5).all (fun d => decide (1 ≤ l.e d ∧ l.e d ≤ 2 ^ 24) && (decide (d < l.ndim) || l.e d == 1)) &&
    decide (l.e 0 * l.e 1 * l.e 2 * l.e 3 * l.e 4 ≤ 2 ^ 32) && pairOk l.stype l.dtype &&
    (List.range 5).all (fun d => d == 0 || decide (l.ndim ≤ d) ||
      (if d = 1 then decide (l.e 0 * l.w ≤ 8 * l.dp 1) else decide (l.e (d - 1) * l.dp (d - 1) ≤ l.dp d))) &&
    (!isBfp l.stype || l.e 0 % 16 == 0) &&
    (!(l.w == 4 || l.w == 6) || l.e 0 * l.w % 8 == 0)

/-- Rows of a copy, and the indices i[1] to i[4] of row r (R236). -/
def Layout.rows (l : Layout) : Nat := l.e 1 * l.e 2 * l.e 3 * l.e 4
def Layout.idx (l : Layout) (r d : Nat) : Nat :=
  match d with
  | 1 => r % l.e 1
  | 2 => r / l.e 1 % l.e 2
  | 3 => r / l.e 1 / l.e 2 % l.e 3
  | _ => r / l.e 1 / l.e 2 / l.e 3

/-! ### Addresses (R236, R239) -/

/-- Coordinates k[d] (R238). -/
def opK (ops : List W32) (d : Nat) : Int := (ops.getD d 0).toInt

/-- Source address of row r before dimension 0. -/
def srcRow (l : Layout) (ops : List W32) (r : Nat) : Int :=
  ((capAddr l.src).toNat : Int) +
    ([1, 2, 3, 4].map (fun d => (opK ops d + (l.idx r d : Int)) * l.ss d)).sum

/-- Bytes [a, a + n) of a source element, of the bytes that hold it, or of its block. -/
def srcSpan (l : Layout) (ops : List W32) (r i : Nat) : Int × Nat :=
  let base := srcRow l ops r
  if isBfp l.stype then
    let bb : Nat := if l.stype = 0x20 then 16 else if l.stype = 0x21 then 24 else 32
    (base + (opK ops 0 + (i : Int)) / 16 * (bb : Int), bb)
  else
    let ws := tyWidth l.stype
    if ws < 8 then
      let lo := (opK ops 0 + (i : Int)) * ws
      (base + lo / 8, ((lo + ws - 1) / 8 - lo / 8 + 1).toNat)
    else (base + (opK ops 0 + (i : Int)) * l.ss 0, ws / 8)

/-- The destination descriptor (R239). -/
def opDesc (ops : List W32) : W32 := ops.getD 5 0
def opOff (ops : List W32) : Int := (ops.getD 6 0).toInt
def descKind (d : W32) : Nat := d.toNat % 4
def descSlot (d : W32) : Nat := d.toNat / 4 % 64
def descQ (d : W32) : Nat := d.toNat / 4 % 4
def descWhole (d : W32) : Bool := d.getLsbD 4
def descVbase (d : W32) : Nat := d.toNat / 32 % 128
def descGrp (d : W32) : Nat := d.toNat / 2 ^ 16

/-- Bits that the descriptor's kind does not name are zero. -/
def descOk (d : W32) : Bool :=
  match descKind d with
  | 0 => d.toNat / 4 == 0
  | 3 => d.toNat / 2 ^ 12 % 16 == 0
  | _ => d.toNat / 2 ^ 8 == 0

/-- Destination base db (R239). -/
def dstBase (ops : List W32) (dest : Cap) : Int :=
  match descKind (opDesc ops) with
  | 0 => ((capAddr dest).toNat : Int) + opOff ops
  | 3 => 0
  | _ => opOff ops

/-- Destination address of row r: registers are a linear destination. -/
def dstRow (l : Layout) (ops : List W32) (dest : Cap) (r : Nat) : Int :=
  if descKind (opDesc ops) = 3 then ((r * l.rowBytes : Nat) : Int)
  else dstBase ops dest + ((([1, 2, 3, 4].map (fun d => l.idx r d * l.dp d)).sum : Nat) : Int)

/-- Threads of a subgroup destination. -/
def descThreads (d : W32) : List Nat :=
  if descWhole d then List.range 256 else (List.range 64).map (· + 64 * descQ d)

/-- Is g the group that a register destination names (R239)? -/
def isDest (team : Nat) (d : W32) (g : Group) : Bool := g.ids.team == team && g.ids.grp == descGrp d && g.prog.isNone

/-- The seated group a register destination names, among those of the team on the core. -/
def descGroup (s : State) (core team : Nat) (d : W32) : Option Nat :=
  (s.groups.find? (fun x => coreOf x.1 == core && isDest team d x.2)).map Prod.fst

/-- The group a register destination names, seated or evicted from its partition: resident until it retires (R45, R239). -/
def destGroup (s : State) (core team : Nat) (d : W32) : Option Group :=
  match descGroup s core team d with
  | some k => s.group k
  | none => (s.core core).ret.find? (isDest team d)

/-- Apply an update to that group, wherever it stands. -/
def onDest (s : State) (core team : Nat) (d : W32) (f : Group → Group) : State :=
  match descGroup s core team d with
  | some k => s.onGroup k f
  | none => s.onCore core (fun c => { c with ret := c.ret.map (fun g => if isDest team d g then f g else g) })

/-- Is a copy into the registers of group g in flight or queued on its core (R243, R376)? -/
def copyInto (s : State) (core : Nat) (g : Group) : Bool :=
  (s.core core).ch.any (fun x => x.2.any (fun c => descKind (c.ops.getD 5 0) == 3 && isDest c.team (c.ops.getD 5 0) g))

/-! ### Issue (R240) -/

/-- Does every row of the box lie in a vault view (R298)? -/
def boxIn (view : Nat → Nat → Option Nat) (l : Layout) (ops : List W32) (dest : Cap) : Bool :=
  (List.range l.rows).all (fun r => (view (dstRow l ops dest r).toNat l.rowBytes).isSome)

/-- Does it in the team's? -/
def vaultBox (s : State) (team : Nat) (l : Layout) (ops : List W32) (dest : Cap) : Bool := boxIn (vaultUnit s team) l ops dest

/-- The extreme rows and elements decide whether a box lies in [lo, hi): every corner does. -/
def corners (l : Layout) : List Nat :=
  [0, l.e 1 - 1].flatMap (fun a => [0, l.e 2 - 1].flatMap (fun b => [0, l.e 3 - 1].flatMap (fun c => [0, l.e 4 - 1].map (fun d =>
    a + l.e 1 * (b + l.e 2 * (c + l.e 3 * d))))))

def srcInside (l : Layout) (ops : List W32) (r i : Nat) : Bool :=
  let (a, n) := srcSpan l ops r i
  decide ((capBase l.src : Int) ≤ a ∧ a + n ≤ capTop l.src)

def srcBoxOk (l : Layout) (ops : List W32) : Bool :=
  (corners l).all (fun r => srcInside l ops r 0 && srcInside l ops r (l.e 0 - 1))

/-- Every source element within the bounds of a vault source lies in a vault view (R298). -/
def srcIn (view : Nat → Nat → Option Nat) (l : Layout) (ops : List W32) : Bool :=
  (List.range l.rows).all (fun r => (List.range (l.e 0)).all (fun i =>
    !srcInside l ops r i ||
      (let (a, n) := srcSpan l ops r i
       (view a.toNat n).isSome)))

/-- It lies in the team's. -/
def srcVaultOk (s : State) (team : Nat) (l : Layout) (ops : List W32) : Bool := srcIn (vaultUnit s team) l ops

/-- What issuing a copy comes to. -/
inductive IssueRes where
  | ok (s : State)
  | stop (st : Stop)
  | stall
  deriving DecidableEq, Repr

/-- The checks of a destination in memory, in a vault view (R240). -/
def memDest (view : Nat → Nat → Option Nat) (l : Layout) (ops : List W32) (dest : Cap) : Option Stop :=
  let da := capAddr dest
  match capCheck dest 0 [pST, pENG] da with
  | some e => some e
  | none =>
    let lo := dstBase ops dest
    let hi := (dstRow l ops dest (l.rows - 1)) + l.rowBytes
    if !(decide ((capBase dest : Int) ≤ lo ∧ hi ≤ capTop dest)) then some (stopAt cCAP_BOUNDS da)
    else if capHas dest pVLT && !boxIn view l ops dest then some (stopAt cVAULT_RANGE da)
    else none

/-- The checks of the destination (R240). -/
def copyDest (w : Sw) (s : State) (l : Layout) (ops : List W32) (dest : Cap) : Option Stop :=
  let d := opDesc ops
  let tm := Tab.look s.teams w.g.ids.team
  let slots := match tm with | some t => t.slots | none => 0
  if !descOk d then some (stopAt cCOPY_TARGET 0)
  else match descKind d with
    | 0 => memDest (vaultUnit s w.g.ids.team) l ops dest
    | 3 =>
      let z := if descWhole d then 256 else 64
      if w.e.c ≠ 0 ∨ (destGroup s (coreOf w.gk) w.g.ids.team d).isNone ∨ l.e 0 ≠ z ∨ l.w ≠ 32 ∨ 128 < descVbase d + l.rows then
        some (stopAt cCOPY_TARGET 0)
      else none
    | k =>
      if w.e.c ≠ 0 then some (stopAt cCOPY_TARGET 0)
      else if slots ≤ descSlot d then some (stopAt cMATRIX_UNCLAIMED 0)
      else
        let lo := dstBase ops dest
        let hi := (dstRow l ops dest (l.rows - 1)) + l.rowBytes
        if 0 ≤ lo ∧ hi ≤ (if k = 1 then 32768 else 2048) then none else some (stopAt cCOPY_TARGET 0)

/-- The source box's checks, in a vault view. -/
def boxStop (view : Nat → Nat → Option Nat) (l : Layout) (ops : List W32) : Option Stop :=
  if !l.zpad && !srcBoxOk l ops then some (stopAt cCAP_BOUNDS (capAddr l.src))
  else if capHas l.src pVLT && !srcIn view l ops then some (stopAt cVAULT_RANGE (capAddr l.src))
  else none

/-- The source box's checks, which come after the destination's (R240). -/
def copySrcBox (w : Sw) (s : State) (l : Layout) (ops : List W32) : Option Stop := boxStop (vaultUnit s w.g.ids.team) l ops

/-- Map registers of the group that a register destination names. An evicted group holds no rows of a partition: it takes them when it
returns (R294). -/
def mapDest (s : State) (core team : Nat) (d : W32) (regs : List Nat) : MapRes :=
  match descGroup s core team d with
  | some gk => mapNumbers s gk regs
  | none =>
    match destGroup s core team d with
    | none => .ok s
    | some g =>
      let new := regs.filter (fun r => !KeySet.has g.mapped r)
      if g.ids.budget < g.mapped.length + new.length then .budget
      else .ok (onDest s core team d (fun g =>
        { g with mapped := new.foldl KeySet.ins g.mapped, ids := { g.ids with rows := g.ids.rows + new.length } }))

/-- Map the rows of a register destination that lie below the valid count, and set their scoreboard bits (R240). -/
def copyRows (s : State) (core team : Nat) (l : Layout) (ops : List W32) (count : Nat) : IssueRes :=
  let d := opDesc ops
  let regs := ((List.range (min count l.rows)).map (· + descVbase d))
  let mark := fun (g : Group) =>
    { g with sb := regs.foldl (fun b r => (descThreads d).foldl (fun b t => KeySet.ins b (r * 256 + t)) b) g.sb }
  if descKind d ≠ 3 then .ok s
  else if (destGroup s core team d).isNone then .stop (stopAt cCOPY_TARGET 0)
  else match mapDest s core team d regs with
    | .budget => .stop (stopAt cROW_BUDGET 0)
    | .stall => .stall
    | .ok s => .ok (onDest s core team d mark)

/-- Names of the destination's check that come before it (R240): the record, SRC, its shape, its coordinates. -/
def copySrc (l : Layout) (ops : List W32) : Option Stop :=
  let sa := capAddr l.src
  match capCheck l.src (if isBfp l.stype then 3 else 0) [pLD, pENG] sa with
  | some e => some e
  | none =>
    if capHas l.src pMMIO then some (stopAt cCAP_PERM sa)
    else if !l.ok then some (stopAt cCOPY_LAYOUT 0)
    else if isBfp l.stype ∧ opK ops 0 % 16 ≠ 0 then some (stopAt cCOPY_LAYOUT 0)
    else none

def Core.chan (c : Core) (n : Nat) : List Copy := Tab.lookD c.ch n []
def Core.setChan (c : Core) (n : Nat) (l : List Copy) : Core := { c with ch := Tab.put c.ch n l }
def Core.isServing (c : Core) (n : Nat) : Bool := Tab.lookD c.serving n false
def Core.setServing (c : Core) (n : Nat) (b : Bool) : Core := { c with serving := Tab.cput false c.serving n b }
/-- A channel's queue is full (R240): sixteen copies beside the one it serves. -/
def chanFull (s : State) (w : Sw) : Bool :=
  let c := s.core (coreOf w.gk)
  let ch := w.e.imm.toNat % 4
  decide (16 ≤ (c.chan ch).length - (if c.isServing ch then 1 else 0))

def Core.wpOf (c : Core) (n : Nat) : W64 := Tab.lookD c.wp n 0

/-- The operand block of the issuing thread (R238, R261). -/
def copyOps (w : Sw) (t : Nat) : List W32 :=
  (List.range 8).map (fun j =>
    if w.e.u then (readG w.g w.base 1 (w.e.b.toNat + j)).setWidth 32 else w.vBefore 1 t t (w.e.b.toNat + j))

/-- An engine program keeps the handles of the operations it starts (R261). -/
def noteOp (g : Group) (h : W64) : Group := { g with prog := g.prog.map (fun p => { p with ops := h :: p.ops }) }

/-- An engine program's copy to memory with field C zero: C names no gc register (R133). -/
def copyIllegal (w : Sw) (ops : List W32) : Bool := w.g.prog.isSome && w.e.c == 0 && descKind (opDesc ops) == 0

/-- CPY and CPYC for the first participant (R240). -/
def copyIssue (cpyc : Bool) (w : Sw) (flag : Option Nat) (s : State) (t : Nat) : IssueRes :=
  let rec_ := w.capA t
  let ch := w.e.imm.toNat % 4
  if copyIllegal w (copyOps w t) then .stop (stopAt cILLEGAL 0)
  else match recordCheck rec_ 4 128 with
  | some e => .stop e
  | none =>
    match readGranules w rec_ 8 (capAddr rec_).toNat s with
    | .error e => .stop e
    | .ok (s, gs) =>
      let l := parseLayout gs
      let ops := copyOps w t
      match copySrc l ops with
      | some e => .stop e
      | none =>
        let dest := if descKind (opDesc ops) = 0 then w.capC t else Cap.null
        let count := if cpyc then ((readG w.g w.base 3 (w.e.imm.toNat / 4)).setWidth 32).toNat else 2 ^ 32
        let core := coreOf w.gk
        match (copyDest w s l ops dest).or (copySrcBox w s l ops) with
        | some e => .stop e
        | none =>
          match copyRows s core w.g.ids.team l ops count with
          | .stop e => .stop e
          | .stall => .stall
          | .ok s =>
            let (s, q) := nextSeq s core
            let h := mkHandle q core 1
            let c : Copy := ⟨q, core, w.gk, flag, w.g.ids.team, w.g.ids.asid, w.g.ids.world, cpyc, count, 0, ops,
              revCheck s w.g.ids.asid dest, l, false, false, false, false, false, false⟩
            let s := opBegin s core q w.g.ids.world
            let s := s.onCore core (fun x => x.setChan ch (x.chan ch ++ [c]))
            .ok (s.onGroup w.gk (fun g => noteOp (writeH g w.e.d.toNat (some h)) h))

/-- A team number that no team has: of a copy that a supervisor core issues. -/
def noTeam : Nat := 2 ^ 62

/-- A copy that a supervisor core issues, memory to memory in the die view (R298), with the checks of R240; one that fails a check,
or finds the channel full, is not issued (DEDUCED, log 21). Its authorities derive from the roots (R90), and are checked while a
revocation sweep runs (R103). Its world is that of the address space. -/
def superCopyOp (s : State) (core ch asid : Nat) (l : Layout) (ops : List W32) (dest : Cap) : State :=
  let view := vaultDie core
  let given := fun (c : Cap) => revCheck s asid (derivedCap s none c)
  let l := { l with src := given l.src }
  let dest := given dest
  if 4 ≤ ch ∨ descKind (opDesc ops) ≠ 0 ∨ !descOk (opDesc ops) ∨ 16 ≤ ((s.core core).chan ch).length then s
  else match ((copySrc l ops).or (memDest view l ops dest)).or (boxStop view l ops) with
    | some _ => s
    | none =>
      let (s, q) := nextSeq s core
      let world := match asidRoot s asid with | some x => x.2 | none => 0
      let c : Copy := ⟨q, core, core * 256 + 255, none, noTeam, asid, world, false, 2 ^ 32, 0, ops, dest, l,
        false, false, false, false, false, true⟩
      (opBegin s core q world).onCore core (fun x => x.setChan ch (x.chan ch ++ [c]))

/-! ### Serving (R241, R242, R310 to R315) -/

def Copy.who (core : Nat) (c : Copy) : Who := ⟨core, c.asid, c.team⟩

/-- Lines that [va, va + n) touches, as pieces. -/
def cuts : Nat → Nat → Nat → List (Nat × Nat)
  | 0, _, _ => []
  | fuel + 1, va, n =>
    if n = 0 then []
    else
      let k := min n (128 - va % 128)
      (va, k) :: cuts fuel (va + k) (n - k)

/-- Check [va, va + n) for a copy: translated pieces, or one vault piece. -/
def copyTargets (s : State) (core : Nat) (c : Copy) (cap : Cap) (store : Bool) (va n : Nat) :
    Except Stop (State × List (Target × Nat)) :=
  if capHas cap pVLT then
    match (if c.die then vaultDie core va n else vaultUnit s c.team va n) with
    | some h => .ok (s, [(.vault h, n)])
    | none => .error (stopAt cVAULT_RANGE 0)
  else checkPieces (c.who core) ⟨if store then needStore else needLoad, true, true, false⟩ false va (max n 1)
    (cuts (n / 128 + 2) va n) s

/-- Read n bytes of the source at its point of coherence. -/
def copyRead (s : State) (core : Nat) (c : Copy) (va n : Nat) : Except Stop (State × List Byte) :=
  match copyTargets s core c c.lay.src false va n with
  | .error e => .error e
  | .ok (s, ts) => readPieces (c.who core) true ts va s

/-- One source element, or one block's sixteen, as destination values; malformed blocks are reported (R241, R314). -/
def elemRead (s : State) (core : Nat) (c : Copy) (r i : Nat) : Except Stop (State × Nat) :=
  let l := c.lay
  let (a, n) := srcSpan l c.ops r i
  if !srcInside l c.ops r i then .ok (s, 0)
  else match copyRead s core c a.toNat n with
    | .error e => .error e
    | .ok (s, bs) =>
      let ws := tyWidth l.stype
      let raw := leNat bs
      let x := if ws < 8 then raw / 2 ^ (((opK c.ops 0 + (i : Int)) * ws) % 8).toNat % 2 ^ ws else raw
      .ok (s, if l.stype = l.dtype then x
        else (cvtOp l.stype l.dtype nearest (BitVec.ofNat 64 x)).1.toNat % 2 ^ l.w)

def rowElems (core : Nat) (c : Copy) (r : Nat) : List Nat → State → Except Stop (State × List Nat)
  | [], s => .ok (s, [])
  | i :: l, s =>
    match elemRead s core c r i with
    | .error e => .error e
    | .ok (s, x) =>
      match rowElems core c r l s with
      | .error e => .error e
      | .ok (s, xs) => .ok (s, x :: xs)

/-- The blocks of a wavefield row: values, and whether some block is malformed. -/
def rowBlocks (core : Nat) (c : Copy) (r : Nat) : List Nat → State → Except Stop (State × List Nat × Bool)
  | [], s => .ok (s, [], false)
  | b :: l, s =>
    let lay := c.lay
    let (a, n) := srcSpan lay c.ops r (16 * b)
    let one : Except Stop (State × List Nat × Bool) :=
      if !srcInside lay c.ops r (16 * b) then .ok (s, List.replicate 16 0, false)
      else match copyRead s core c a.toNat n with
        | .error e => .error e
        | .ok (s, bs) =>
          let (vs, bad) := bfpDecode (bfpBits lay.stype) (leNat bs)
          .ok (s, vs.map (fun v => v.toNat), bad)
    match one with
    | .error e => .error e
    | .ok (s, xs, bad) =>
      match rowBlocks core c r l s with
      | .error e => .error e
      | .ok (s, ys, bad') => .ok (s, xs ++ ys, bad || bad')

/-- A row's values of w bits each (R241). -/
def rowValues (s : State) (core : Nat) (c : Copy) (r : Nat) : Except Stop (State × List Nat × Bool) :=
  if isBfp c.lay.stype then rowBlocks core c r (List.range (c.lay.e 0 / 16)) s
  else match rowElems core c r (List.range (c.lay.e 0)) s with
    | .error e => .error e
    | .ok (s, xs) => .ok (s, xs, false)

/-- Values packed as the destination's bytes (R51). -/
def packVals (w : Nat) : List Nat → Nat
  | [] => 0
  | x :: l => x % 2 ^ w + 2 ^ w * packVals w l

/-- The granules that [a, a + n) touches. -/
def spanGranules (a n : Nat) : List Nat := (List.range ((a + n - 1) / 16 - a / 16 + 1)).map (fun i => (a / 16 + i) * 16)

/-- A source granule that is read with its tag set, with the capability it holds (R99). -/
def taggedAt (s : State) (core : Nat) (c : Copy) (g : Nat) : Option (Nat × Cap) :=
  match copyTargets s core c c.lay.src false g 16 with
  | .ok (s, (t, m) :: ts) =>
    if readPieceTag s (c.who core) true t g then
      (match readPieces (c.who core) true ((t, m) :: ts) g s with
       | .ok (_, bs) => some (g, capSane (capOfBytes bs true))
       | .error _ => none)
    else none
  | _ => none

/-- Source granules of row r that are read with their tag set through an authority holding LDC (R231): read before any byte
of the row is written (R338). -/
def taggedGranules (s : State) (core : Nat) (c : Copy) (r : Nat) : List (Nat × Cap) :=
  if !capHas c.lay.src pLDC then []
  else
    (((List.range (c.lay.e 0)).flatMap (fun i =>
      let (a, n) := srcSpan c.lay c.ops r i
      if !srcInside c.lay c.ops r i then [] else spanGranules a.toNat n)).foldl KeySet.ins []).filterMap (taggedAt s core c)

/-- Is the copy one that moves tags: memory to memory, element for element, contiguous (R98)? SSTR[0] counts only for whole
bytes (R236), and a sub-byte row must begin on one. -/
def movesTags (c : Copy) : Bool :=
  let ws := tyWidth c.lay.stype
  descKind (opDesc c.ops) == 0 && c.lay.stype == c.lay.dtype && capHas c.dest pSTC &&
    (if ws < 8 then (opK c.ops 0 * (ws : Int)) % 8 == 0 else c.lay.ss 0 == ((ws / 8 : Nat) : Int))

/-- Where a tagged source granule g of row r lands, when one row writes it whole to one destination granule; a granule that two
rows write together stays untagged (DESIGN CHOICE, log 48). -/
def tagLanding (c : Copy) (r g : Nat) : Option Nat :=
  let a0 := (srcSpan c.lay c.ops r 0).1
  let d := dstRow c.lay c.ops c.dest r + ((g : Int) - a0)
  if movesTags c && decide (a0 ≤ g ∧ (g : Int) + 16 ≤ a0 + c.lay.rowBytes ∧ d % 16 = 0 ∧ (capBase c.lay.src ≤ g ∧ g + 16 ≤ capTop c.lay.src)) then
    some d.toNat else none

/-- Set the tags of the granules that arrive in row r, as they were read; say whether some did not (R89, R98, R100). A
revoked one lands untagged (R103). -/
def placeTags (core : Nat) (c : Copy) (r : Nat) : List (Nat × Cap) → State → State × Bool
  | [], s => (s, false)
  | (g, x) :: l, s =>
    let x := revCheck s c.asid x
    let landed : Option State := do
      let d ← tagLanding c r g
      if !x.tag ∨ (!capHas x pROAM ∧ !capHas c.dest pVLT) then none
      match copyTargets s core c c.dest true d 16 with
      | .ok (s, (t, _) :: _) =>
        (match t with
         | .vault h => some { s with mem := s.mem.writeCap h (capBytes x) true }
         | .phys pa => if paTagged s pa then some (s.writeCapAt pa x) else none
         | _ => none)
      | _ => none
    match landed with
    | some s => placeTags core c r l s
    | none => ((placeTags core c r l s).1, true)

/-- Write a row's bytes; every piece is translated before any byte is written (R242). -/
def copyWrite (s : State) (core : Nat) (c : Copy) (va : Nat) (bs : List Byte) : Except Stop State :=
  match copyTargets s core c c.dest true va bs.length with
  | .error e => .error e
  | .ok (s, ts) =>
    let s := ts.foldl (fun s x => match x.1 with | .phys pa => l1Overlap s core (homeOf s pa) x.2 | _ => s) s
    .ok (writePieces (c.who core) true ts va bs s)

/-- Put bytes into a table from key k on, zero bytes unlisted. -/
def putBytes (t : Tab Byte) (k : Nat) : List Byte → Tab Byte
  | [] => t
  | b :: l => putBytes (Tab.cput 0 t k b) (k + 1) l

def State.onTeam (s : State) (k : Nat) (f : Team → Team) : State :=
  match Tab.look s.teams k with
  | some t => { s with teams := Tab.put s.teams k (f t) }
  | none => s

/-- The row waits, for nothing outside the package. -/
def rowWaits : Stop := ⟨cWAIT, 0, BitVec.ofNat 64 (2 ^ 62), none⟩

/-- Deliver the values of row r (R241, R315). A register that has been unmapped since the copy was issued is mapped again, as by a
first write (R41); the row waits while it cannot be (log 70). -/
def writeRow (s : State) (core : Nat) (c : Copy) (r : Nat) (xs : List Nat) : Except Stop (State × Bool) :=
  let d := opDesc c.ops
  let l := c.lay
  let bytes := leBytes (packVals l.w xs) l.rowBytes
  let tags := taggedGranules s core c r
  match descKind d with
  | 0 =>
    (match copyWrite s core c (dstRow l c.ops c.dest r).toNat bytes with
     | .error e => .error e
     | .ok s' =>
       let caps := placeTags core c r tags s'
       .ok caps)
  | 3 =>
    let v := descVbase d + r
    (match mapDest s core c.team d [v] with
     | .budget => .error rowWaits
     | .stall => .error rowWaits
     | .ok s =>
       .ok (onDest s core c.team d (fun g =>
         ((descThreads d).zip xs).foldl (fun g x =>
           let g := { (g.onThread x.1 (fun th => th.setV false v (BitVec.ofNat 32 x.2))) with
             pend := dropPend g.pend (isPV x.1 v) }
           { g with sb := KeySet.del g.sb (v * 256 + x.1), aband := KeySet.del g.aband (v * 256 + x.1) }) g), tags != []))
  | k =>
    let off := (dstRow l c.ops c.dest r).toNat
    .ok (s.onTeam c.team (fun t =>
      if k = 1 then { t with sdat := putBytes t.sdat (descSlot d * 2 ^ 16 + off) bytes }
      else { t with sscale := putBytes t.sscale (descSlot d * 2 ^ 12 + off) bytes }), tags != [])

/-- The write pointer after row r (R241, R312). -/
def wpAfter (c : Copy) (r : Nat) : W64 := BitVec.ofInt 64 (dstRow c.lay c.ops c.dest r + c.lay.rowBytes)

/-- The status of a copy that ran to its end (R231). -/
def copyStatus (c : Copy) : W32 := if c.malformed then statusWord 2 0 else if c.dropped then statusWord 1 0 else stSUCCESS

/-- Status codes of the causes that stop a copy (R231): an I/O page counts as PAGE_PERM (log 21). -/
def copyCode (c : Cause) : Nat :=
  if c = cTRANSLATION then 4 else if c = cLEASE_RECALLED then 6 else if c = cLEASE_EXPIRED then 7
  else if c = cLENDER_LOST then 8 else if c = cMEMORY_ERROR then 9 else 5

/-- Rows of registers not delivered are abandoned and their scoreboard bits clear (R242). -/
def abandonRows (s : State) (core : Nat) (c : Copy) : State :=
  let d := opDesc c.ops
  if descKind d ≠ 3 then s
  else
      let rows := (List.range (min c.count c.lay.rows)).filter (fun r => c.next ≤ r)
      onDest s core c.team d (fun g => rows.foldl (fun g r => (descThreads d).foldl (fun g t =>
        let k := (descVbase d + r) * 256 + t
        { g with sb := KeySet.del g.sb k, aband := KeySet.ins g.aband k }) g) g)

/-- The core that ran an operation, where that is not the core of its handle (R339). -/
def noteRan (s : State) (core hcore seq : Nat) : State :=
  if core = hcore then s
  else s.onCore hcore (fun c => { c with store := { c.store with ran := Tab.put c.store.ran seq core } })

/-- Does a copy or an engine program of the unit's teams still run or wait? -/
def unitWorks (s : State) (u : CUnit) : Bool :=
  s.cores.any (fun c => c.2.ch.any (fun x => x.2.any (fun y => u.teams.contains y.team)) ||
    (c.2.pq0 ++ c.2.pq1).any (fun g => u.teams.contains g.ids.team)) ||
  s.groups.any (fun x => x.2.prog.isSome && u.teams.contains x.2.ids.team)

/-- A unit is gone once its last team has retired and no copy or program of it runs; its windows return then (log 26). -/
def dropUnit (s : State) (uk : Nat) : State :=
  match Tab.look s.units uk with
  | none => s
  | some u =>
    if s.teams.any (fun x => x.2.unit == uk && !x.2.retired) || unitWorks s u then s
    else { s with units := Tab.rem s.units uk, teams := s.teams.filter (fun x => x.2.unit != uk) }

/-- The unit of a team's ended work may be gone now. -/
def workEnded (s : State) (team : Nat) : State :=
  match Tab.look s.teams team with
  | some t => dropUnit s t.unit
  | none => s

/-- The name under which an engine program that waits for its sequencer stands for the operations it has started before a switch
(R376). -/
def progName (p : Prog) : Nat := 2 ^ 41 + p.hcore * 2 ^ 48 + p.seq

/-- Apply an update to the issuer of an operation: a seated group or program, or a program that waits. -/
def State.onIssuer (s : State) (gk : Nat) (f : Group → Group) : State :=
  if gk < 2 ^ 41 then s.onGroup gk f
  else
    let h := fun (g : Group) => if g.prog.any (fun p => progName p == gk) then f g else g
    { s with cores := Tab.mapv (fun _ c => { c with pq0 := c.pq0.map h, pq1 := c.pq1.map h }) s.cores }

/-- A copy's place in its channel empties with a status. -/
def copyGone (s : State) (core ch : Nat) (c : Copy) (x : W32) : State :=
  let s := s.onIssuer c.gk (fun g => if c.accepted then g else clearFlag g c.flag)
  let head := match ((s.core core).chan ch).head? with | some y => decide (y.seq = c.seq ∧ y.hcore = c.hcore) | none => false
  let s := s.onCore core (fun k =>
    let k := k.setChan ch ((k.chan ch).filter (fun y => !(decide (y.seq = c.seq ∧ y.hcore = c.hcore))))
    if head then k.setServing ch false else k)
  opDone (workEnded (noteRan s core c.hcore c.seq) c.team) c.hcore c.seq x

/-- The copy a channel serves leaves it with a status. -/
def copyEnd (s : State) (core ch : Nat) (c : Copy) (x : W32) : State := copyGone s core ch c x

/-- After a row: the pointer moves, and the copy completes with its last (R241). -/
def copyAdvance (s : State) (core ch : Nat) (c : Copy) : State :=
  let wp := wpAfter c c.next
  let c := { c with next := c.next + 1 }
  let s := s.onCore core (fun k =>
    let k := { k with wp := Tab.put k.wp ch wp, wpWorld := Tab.put k.wpWorld ch c.world }
    k.setChan ch (c :: (k.chan ch).drop 1))
  if c.next < c.lay.rows then s else copyEnd s core ch c (copyStatus c)

/-- wp(ch) stands at the first destination byte of the row to come (R242, R312, R363). -/
def wpToRow (s : State) (core ch : Nat) (c : Copy) : State :=
  s.onCore core (fun k => { k with
    wp := Tab.put k.wp ch (BitVec.ofInt 64 (dstRow c.lay c.ops c.dest c.next)), wpWorld := Tab.put k.wpWorld ch c.world })

/-- Lines of the source that row r reads, in the order of its elements (R436). -/
def rowLines (c : Copy) (r : Nat) : List Nat :=
  let step := if isBfp c.lay.stype then 16 else 1
  (((List.range (c.lay.e 0 / step)).filter (fun i => srcInside c.lay c.ops r (step * i))).flatMap (fun i =>
    let (a, n) := srcSpan c.lay c.ops r (step * i)
    (List.range ((a.toNat + n - 1) / 128 - a.toNat / 128 + 1)).map (fun j => a.toNat / 128 + j))).eraseDups

/-- Lines of a leased source that a channel reads ahead at once (R436). -/
def aheadCap : Nat := 256

/-- A line of a leased source is read ahead of delivery: it is held shared in this package's slice. One that cannot be read yet is
left to the row. -/
def readAhead (core : Nat) (c : Copy) (s : State) (line : Nat) : State :=
  match copyTargets s core c c.lay.src false (max (128 * line) (capBase c.lay.src)) 1 with
  | .ok (s, [(.phys pa, _)]) => takeShared s pa
  | _ => s

/-- Is the row to come skipped: at or above the valid count, or for a group that has retired (R241, R265)? -/
def rowSkipped (s : State) (core : Nat) (c : Copy) : Bool :=
  decide (c.count ≤ c.next) || (descKind (opDesc c.ops) == 3 && (destGroup s core c.team (opDesc c.ops)).isNone)

/-- Delivering the next row: the state, or the cause that stops the copy. -/
def tryRow (s : State) (core : Nat) (c : Copy) : Except Stop (State × Copy) :=
  match rowValues s core c c.next with
  | .error e => .error e
  | .ok (s, xs, bad) =>
    match writeRow s core c c.next xs with
    | .error e => .error e
    | .ok (s, dr) => .ok (s, { c with malformed := c.malformed || bad, dropped := c.dropped || dr })

end Sys2Proof.Machine
end

