-- ==== Sys2Proof/Machine/Matrix.lean ====
section
/-! DEFINITION. The matrix engine (R246 to R255, R391 to R398): claims, quarters, passes, and the operations on tiles. -/

namespace Sys2Proof.Machine

/-! ### Formats (R246, R247) -/

/-- A format that MMA accepts: K, whether it is an integer one, element types and scale flags. -/
structure MFmt where
  k : Nat
  int : Bool
  ta : BitVec 6
  tb : BitVec 6
  asc : Bool
  bsc : Bool
  deriving DecidableEq, Repr

/-- The table of R247: none for a value that stops an MMA. -/
def mmaFormat (fmt : W32) : Option MFmt :=
  let a := fmt.extractLsb' 0 6
  let b := fmt.extractLsb' 6 6
  let asc := fmt.getLsbD 12
  let bsc := fmt.getLsbD 13
  let two := fun (x y : BitVec 6) => (a == x || a == y) && (b == x || b == y)
  let mk := fun (k : Nat) (int : Bool) => some (⟨k, int, a, b, asc, bsc⟩ : MFmt)
  if fmt.toNat / 2 ^ 14 ≠ 0 then none
  else if (a == 0x13 && b == 0x13) || (a == 0x12 && b == 0x12) then (if asc || bsc then none else mk 128 false)
  else if two 0x14 0x15 then mk 256 false
  else if two 0x16 0x17 then (if asc && bsc then mk 256 false else none)
  else if a == 0x18 && b == 0x18 then (if asc && bsc then mk 512 false else none)
  else if two 0x04 0x00 then (if asc || bsc then none else mk 256 true)
  else none

/-! ### Slots and tiles (R248) -/

def slotByte (t : Team) (slot off : Nat) : Nat := (Tab.lookD t.sdat (slot * 2 ^ 16 + off) (0 : Byte)).toNat
def scaleByte (t : Team) (slot off : Nat) : Nat := (Tab.lookD t.sscale (slot * 2 ^ 12 + off) (0 : Byte)).toNat
def tileKey (tile row col : Nat) : Nat := tile * 2 ^ 14 + row * 128 + col
def tileAt (t : Team) (tile row col : Nat) : W32 := Tab.lookD t.tdat (tileKey tile row col) 0
def Team.setTile (t : Team) (tile row col : Nat) (x : W32) : Team :=
  { t with tdat := Tab.cput 0 t.tdat (tileKey tile row col) x }

/-- Element k of line i of a slot: bits [w·k + w − 1 : w·k] of its 256 bytes (R248, R51). -/
def slotElem (t : Team) (slot line w k : Nat) : W64 :=
  let bit := w * k
  let raw := slotByte t slot (256 * line + bit / 8) + 256 * slotByte t slot (256 * line + bit / 8 + 1)
  BitVec.ofNat 64 (raw / 2 ^ (bit % 8) % 2 ^ w)

/-- An element as a value, scaled when the slot carries scales (R60). -/
def slotVal (t : Team) (slot line : Nat) (ty : BitVec 6) (sc : Bool) (k : Nat) : FVal :=
  let v := fdecode (fmtOf ty) (slotElem t slot line (tyWidth ty) k)
  if sc then scaleBy (scaleByte t slot (16 * line + k / 32)) v else v

/-- One element of the tile after an MMA (R75 to R77). -/
def mmaElem (t : Team) (f : MFmt) (slotA slotB i j : Nat) (acc : W32) : W32 :=
  if f.int then
    mmaInt acc ((List.range f.k).map (fun k =>
      (toInt 8 (tySigned f.ta) (slotElem t slotA i 8 k), toInt 8 (tySigned f.tb) (slotElem t slotB j 8 k))))
  else
    (mmaSum ((List.range (f.k / 32)).map (fun c => (List.range 32).map (fun x =>
      (slotVal t slotA i f.ta f.asc (32 * c + x), slotVal t slotB j f.tb f.bsc (32 * c + x))))) (acc.setWidth 64)).setWidth 32

/-- The 32 rows of a quarter, as tile elements by key (R253). -/
def quarterRows (t : Team) (r : MRec) : Tab W32 :=
  match mmaFormat r.fmt with
  | none => []
  | some f =>
    (List.range 32).flatMap (fun x => (List.range 128).map (fun j =>
      let i := 32 * r.row + x
      (tileKey r.tile i j, mmaElem t f r.slotA r.slotB i j (tileAt t r.tile i j))))

/-! ### Claims (R250 to R252, R391, R397) -/

/-- Slots and tiles of a core that no team holds. -/
def freeSlots (s : State) (core : Nat) : Nat := 64 - ((s.teams.filter (fun x => x.2.core == core && x.2.placed)).map (fun x => x.2.slots)).sum
def freeTiles (s : State) (core : Nat) : Nat := 16 - ((s.teams.filter (fun x => x.2.core == core && x.2.placed)).map (fun x => x.2.tiles)).sum

/-- A blocked claim is served before that of team `num` which blocked at `since`, of two in one clock the one issued first
(R251, R397). -/
def lowerBlocked (s : State) (core key num since seq : Nat) : Bool :=
  s.teams.any (fun x => x.1 != key && x.2.core == core && x.2.placed &&
    (match x.2.claim with
     | some c => decide (x.2.num < num) ||
         (x.2.num == num && (decide (c.since < since) || (c.since == since && seqOlder c.seq seq)))
     | none => false))

/-- Give a team its slots and tiles: they read as zero (R248). -/
def grant (t : Team) (slots tiles : Nat) : Team :=
  { t with slots := slots, tiles := tiles, claim := none, sdat := [], sscale := [], tdat := [] }

/-- CLAIM for the first participant (R251): the outcome is written when the instruction completes; a blocked one
completes only after its grant. -/
def claimStart (w : Sw) (flag : Option Nat) (s : State) (_ : Nat) : Except Stop State :=
  let x := w.gA
  let ns := x.toNat % 256
  let nt := x.toNat / 256 % 256
  let k := w.g.ids.team
  let core := coreOf w.gk
  let out := fun (b : Bool) (s : State) =>
    s.onGroup w.gk (fun g => pushPend g w flag false (w.parts.map (fun t => PWrite.p t w.e.d.toNat b)))
  match Tab.look s.teams k with
  | none => .ok (out false s)
  | some t =>
    if ns = 0 ∧ nt = 0 then .ok (out true s)
    else if t.slotCeil < ns ∨ t.tileCeil < nt then .ok (out false s)
    else if t.slots ≠ 0 ∨ t.tiles ≠ 0 ∨ t.claim ≠ none then .ok (out false s)
    else if !lowerBlocked s core k t.num s.time.clock w.seq && decide (ns ≤ freeSlots s core ∧ nt ≤ freeTiles s core) then
      .ok (out true (s.onTeam k (fun t => grant t ns nt)))
    else
      .ok (out true (s.onTeam k (fun t =>
        { t with claim := some ⟨ns, nt, w.gk, flag, w.e.d.toNat, w.parts, w.seq, s.time.clock⟩ })))

/-- The blocked claim of a core that is served next, when its request is free (R251). -/
def claimNext (s : State) (core : Nat) : Option (Nat × ClaimReq) :=
  s.teams.findSome? (fun x =>
    match x.2.claim with
    | some c =>
      if x.2.core == core && x.2.placed && !lowerBlocked s core x.1 x.2.num c.since c.seq &&
        decide (c.slots ≤ freeSlots s core ∧ c.tiles ≤ freeTiles s core) then some (x.1, c) else none
    | none => none)

/-- CLAIM_GRANT. -/
def claimGrantOp (s : State) (core : Nat) : State :=
  match claimNext s core with
  | none => s
  | some (k, c) => s.onTeam k (fun t => grant t c.slots c.tiles)

/-- Is a pending instruction still waiting for an engine (R251, R255)? -/
def pendHeld (s : State) (core : Nat) (p : Pend) : Bool :=
  s.teams.any (fun x => x.2.core == core && (match x.2.claim with | some c => c.seq == p.seq | none => false)) ||
    p.writes.any (fun w => match w with | .acc _ _ => true | _ => false)

def Chamois.passes (m : Chamois) : List Pass :=
  m.ended ++ (match m.run with | some p => [p] | none => []) ++ m.closed ++ (match m.opn with | some p => [p] | none => [])

/-- Every record not finished. -/
def Chamois.recs (m : Chamois) : List MRec := m.passes.flatMap (fun p => p.recs) ++ m.waits ++ m.queue

/-- Does some operation of the team still use what it returns (R252)? -/
def releaseBusy (s : State) (k : Nat) (t : Team) (slots tiles : Bool) : Bool :=
  let c := s.core t.core
  (slots && (c.mx.recs.any (fun r => r.team == k && r.op == 4) ||
     c.ch.any (fun x => x.2.any (fun y => y.team == k && (descKind (opDesc y.ops) == 1 || descKind (opDesc y.ops) == 2))))) ||
    (tiles && c.mx.recs.any (fun r => r.team == k))

/-- Return slots and tiles. -/
def dropHeld (t : Team) (slots tiles : Bool) : Team :=
  { t with slots := if slots then 0 else t.slots, sdat := if slots then [] else t.sdat, sscale := if slots then [] else t.sscale
           tiles := if tiles then 0 else t.tiles, tdat := if tiles then [] else t.tdat }

/-- RELEASE: at once, or the group is held until its users complete (log 23). -/
def releaseStart (w : Sw) (s : State) (_ : Nat) : Except Stop State :=
  let x := w.gA
  let rs := x.getLsbD 0
  let rt := x.getLsbD 1
  let k := w.g.ids.team
  match Tab.look s.teams k with
  | none => .ok s
  | some t =>
    if releaseBusy s k t rs rt then
      .ok ((s.onTeam k (fun t => { t with relSlots := t.relSlots || rs, relTiles := t.relTiles || rt })).onGroup w.gk
        (fun g => { g with hold := .release }))
    else .ok (s.onTeam k (fun t => dropHeld t rs rt))

/-- A group that waited for a release goes on. -/
def endRelease (g : Group) : Group := if g.hold = .release then { g with hold := .none } else g

/-- Apply an update to the engine programs of a team that run or wait for their sequencer. -/
def onTeamProgs (s : State) (tk : Nat) (f : Group → Group) : State :=
  let h := fun (g : Group) => if g.ids.team = tk ∧ g.prog.isSome then f g else g
  { s with
    groups := Tab.mapv (fun _ g => h g) s.groups
    cores := Tab.mapv (fun _ c => { c with pq0 := c.pq0.map h, pq1 := c.pq1.map h }) s.cores }

/-- RELEASE_DONE: the waiting release of a team, once nothing uses what it returns. Its group may have been evicted meanwhile. -/
def releaseDoneOp (s : State) (k : Nat) : State :=
  match Tab.look s.teams k with
  | none => s
  | some t =>
    if (t.relSlots || t.relTiles) && !releaseBusy s k t t.relSlots t.relTiles then
      let s := s.onTeam k (fun t => { (dropHeld t t.relSlots t.relTiles) with relSlots := false, relTiles := false })
      onTeamGroups (onTeamProgs s k endRelease) k endRelease
    else s

/-! ### Issue of matrix operations (R253 to R255, R394) -/

def heldSlot (s : State) (k slot : Nat) : Bool := match Tab.look s.teams k with | some t => decide (slot < t.slots) | none => false
def heldTile (s : State) (k tile : Nat) : Bool := match Tab.look s.teams k with | some t => decide (tile < t.tiles) | none => false

/-- Records the engine queues: those whose pass has not taken the array, and tile operations without effect yet (R394). -/
def mxCap : Nat := 64
def Chamois.queued (m : Chamois) : Nat :=
  m.queue.length + m.waits.length + ((m.closed ++ m.opn.toList).map (fun p => p.recs.length)).sum
def mxFull (s : State) (w : Sw) : Bool := decide (mxCap ≤ (s.core (coreOf w.gk)).mx.queued)

/-- A record issues: it takes the next sequence number of the core (R39) and joins the queue. -/
def mxPush (s : State) (core : Nat) (r : MRec) : State :=
  let (s, q) := nextSeq s core
  s.onCore core (fun c => { c with mx := { c.mx with queue := c.mx.queue ++ [{ r with seq := q }] } })

/-- The participants of an MMA: the threads of its quarter, or the program (R253, R261). -/
def mmaSel (w : Sw) : KeySet :=
  let q := w.e.imm.toNat % 4
  if w.g.prog.isSome then w.all else w.parts.filter (fun t => decide (64 * q ≤ t ∧ t < 64 * q + 64))

/-- The participants of an MMZ; a program always performs it (R261). -/
def mmzSel (w : Sw) : KeySet := if w.g.prog.isSome then w.all else w.parts

def mmaStart (w : Sw) (flag : Option Nat) (s : State) (_ : Nat) : Except Stop State :=
  let k := w.g.ids.team
  let a := w.e.a.toNat
  let b := w.e.b.toNat
  let c := w.e.c.toNat
  if !(heldSlot s k a && heldSlot s k b && heldTile s k c) then .error (stopAt cMATRIX_UNCLAIMED 0)
  else if (mmaFormat w.g.r.fmt).isNone then .error (stopAt cMATRIX_FORMAT 0)
  else .ok (mxPush s (coreOf w.gk)
    ⟨0, w.seq, s.time.clock, 4, a, b, c, w.e.imm.toNat % 4, w.g.r.fmt, k, w.g.ids.world, w.gk, flag, 0, [], []⟩)

def mmzStart (w : Sw) (flag : Option Nat) (s : State) (_ : Nat) : Except Stop State :=
  let k := w.g.ids.team
  let c := w.e.c.toNat
  if !heldTile s k c then .error (stopAt cMATRIX_UNCLAIMED 0)
  else .ok (mxPush s (coreOf w.gk) ⟨0, w.seq, s.time.clock, 5, 0, 0, c, 0, 0, k, w.g.ids.world, w.gk, flag, 0, [], []⟩)

/-- The checks of ACCRD and ACCWR at their first participant (R255). -/
def accCheck (w : Sw) (s : State) : Option Stop :=
  if !heldTile s w.g.ids.team w.e.c.toNat then some (stopAt cMATRIX_UNCLAIMED 0)
  else if w.e.imm.toNat % 2 ≠ 0 ∨ 126 < w.e.imm.toNat then some (stopAt cCOPY_TARGET 0)
  else none

def accrdStart (w : Sw) (flag : Option Nat) (s : State) (_ : Nat) : Except Stop State :=
  match accCheck w s with
  | some e => .error e
  | none =>
    let s := mxPush s (coreOf w.gk) ⟨0, w.seq, s.time.clock, 6, 0, 0, w.e.c.toNat, w.e.imm.toNat, 0, w.g.ids.team,
      w.g.ids.world, w.gk, flag, w.e.d.toNat, w.parts, []⟩
    .ok (s.onGroup w.gk (fun g =>
      pushPend (w.parts.foldl (fun g t => w.supersede g t) g) w flag false
        (w.parts.map (fun t => PWrite.acc t w.e.d.toNat))))

def accwrStart (w : Sw) (flag : Option Nat) (s : State) (_ : Nat) : Except Stop State :=
  match accCheck w s with
  | some e => .error e
  | none =>
    .ok (mxPush s (coreOf w.gk) ⟨0, w.seq, s.time.clock, 7, 0, 0, w.e.c.toNat, w.e.imm.toNat, 0, w.g.ids.team,
      w.g.ids.world, w.gk, flag, 0, w.parts, w.parts.map (fun t => (t, (w.srcA t).setWidth 32))⟩)

/-! ### The engine (R392 to R394) -/

def State.onMx (s : State) (core : Nat) (f : Chamois → Chamois) : State := s.onCore core (fun c => { c with mx := f c.mx })

/-- The open pass closes. -/
def closePass (m : Chamois) : Chamois :=
  match m.opn with
  | none => m
  | some p => { m with opn := none, closed := m.closed ++ [p] }

/-- May the quarter join the open pass (R254, R393)? -/
def joins (p : Pass) (r : MRec) (clock : Nat) : Bool :=
  decide (p.recs.length < 4 ∧ clock < p.opened + 16) &&
    p.recs.all (fun x => x.world == r.world && x.team == r.team && x.slotB == r.slotB && x.fmt == r.fmt &&
      !(x.tile == r.tile && x.row == r.row)) &&
    (match p.recs with | x :: _ => decide (r.issued < x.issued + 16) | [] => false)

/-- QUARTER_ARRIVE: the quarter at the head of the queue joins the open pass or opens one; its flag clears (R253). -/
def quarterArrive (s : State) (core : Nat) : State :=
  let m := (s.core core).mx
  match m.queue with
  | [] => s
  | r :: q =>
    if r.op ≠ 4 then s
    else
      let m := { m with queue := q }
      let m := match m.opn with
        | some p =>
          if joins p r s.time.clock then
            let p := { p with recs := p.recs ++ [r] }
            if p.recs.length = 4 then closePass { m with opn := some p } else { m with opn := some p }
          else { (closePass m) with opn := some ⟨[r], s.time.clock, [], 0⟩ }
        | none => { m with opn := some ⟨[r], s.time.clock, [], 0⟩ }
      (s.onMx core (fun _ => m)).onIssuer r.gk (fun g => clearFlag g r.flag)

/-- PASS_WINDOW_EXPIRY. -/
def passWindow (s : State) (core : Nat) : State :=
  match (s.core core).mx.opn with
  | some p => if p.opened + 16 ≤ s.time.clock then s.onMx core closePass else s
  | none => s

/-- A pass leaves the array 128 clocks after it took it (R392). -/
def freeArray (m : Chamois) (clock : Nat) : Chamois :=
  match m.run with
  | some p => if p.ends ≤ clock then { m with run := none, ended := m.ended ++ [p] } else m
  | none => m

/-- The new rows of a pass. -/
def writeRows (s : State) (p : Pass) : State :=
  p.rows.foldl (fun s x =>
    s.onTeam x.1 (fun t => { t with tdat := x.2.2.foldl (fun d e => Tab.cput 0 d e.1 e.2) t.tdat })) s

/-- Does a tile operation that has arrived before the pass, and names a tile of it, wait (R394)? -/
def Chamois.heldBack (m : Chamois) (p : Pass) : Bool :=
  m.waits.any (fun r => p.recs.any (fun x => x.team == r.team && x.tile == r.tile && seqOlder r.seq x.seq))

/-- PASS_START (R392): the first closed pass takes the array once it is free and no tile operation before it still waits; it reads
its slots now, and its tiles as the passes before it leave them (log 24). -/
def passStartOp (s : State) (core : Nat) : State :=
  let m := freeArray (s.core core).mx s.time.clock
  match m.run, m.closed with
  | none, p :: l =>
    if m.heldBack p then s
    else
    let s' := m.ended.foldl writeRows s
    let rows := p.recs.map (fun r =>
      (r.team, r.tile, match Tab.look s'.teams r.team with | some t => quarterRows t r | none => []))
    s.onMx core (fun _ => { m with closed := l, run := some { p with rows := rows, ends := s.time.clock + 128 } })
  | _, _ => s

/-- PASS_WRITEBACK (R394): 32 clocks after the pass ends its rows hold the new values. -/
def passWriteback (s : State) (core : Nat) : State :=
  let m := freeArray (s.core core).mx s.time.clock
  match m.ended with
  | [] => s
  | p :: l => if s.time.clock < p.ends + 32 then s else (writeRows s p).onMx core (fun _ => { m with ended := l })

/-- Tile element of participant t (R255). -/
def accElem (r : MRec) (t : Nat) : Nat × Nat := (r.row + t / 128, t % 128)

/-- The value an ACCRD delivers takes the place of its pending mark. -/
def fillAcc (tm : Team) (r : MRec) (w : PWrite) : PWrite :=
  match w with
  | .acc t d => .v t d (tileAt tm r.tile (accElem r t).1 (accElem r t).2)
  | w => w

/-- The MMZ, ACCRD or ACCWR at the head of the queue arrives: it closes the open pass and joins nothing (R393). -/
def arriveTile (m : Chamois) : Chamois :=
  match m.queue with
  | r :: q => if r.op = 4 then m else { (closePass m) with queue := q, waits := m.waits ++ [r] }
  | [] => m

/-- May a tile operation that waits take effect: no earlier pass names its tile, nor an earlier one that waits (R394)? -/
def tileReady (m : Chamois) (r : MRec) : Bool :=
  let older := fun (x : MRec) => x.team == r.team && x.tile == r.tile && seqOlder x.seq r.seq
  !(m.passes.flatMap (fun p => p.recs)).any older && !m.waits.any older

/-- What it does. -/
def tileEffect (s : State) (r : MRec) : State :=
  match Tab.look s.teams r.team with
  | none => s
  | some tm =>
    if r.op = 5 then
      (s.onTeam r.team (fun t => { t with tdat := t.tdat.filter (fun e => e.1 / 2 ^ 14 != r.tile) })).onIssuer r.gk
        (fun g => clearFlag g r.flag)
    else if r.op = 6 then
      s.onIssuer r.gk (fun g => { g with
        pend := g.pend.map (fun p => if p.seq = r.sweep then { p with writes := p.writes.map (fillAcc tm r) } else p) })
    else
      (s.onTeam r.team (fun t => r.data.foldl (fun t e => t.setTile r.tile (accElem r e.1).1 (accElem r e.1).2 e.2) t)).onIssuer
        r.gk (fun g => clearFlag g r.flag)

/-- TILE_OP_EFFECT: the tile operation at the head of the queue arrives, and the first that may takes effect (R393, R394). -/
def tileOpEffect (s : State) (core : Nat) : State :=
  let m := arriveTile (s.core core).mx
  match m.waits.find? (tileReady m) with
  | none => s.onMx core (fun _ => m)
  | some r => tileEffect (s.onMx core (fun _ => { m with waits := m.waits.filter (fun x => x.seq != r.seq) })) r

/-- Tiles hold the canonical NaN, or zero for integers, where slot or tile data is lost (R364): the last format decides. -/
def spoilQuarter (t : Team) (tile q : Nat) (int : Bool) : Team :=
  (List.range 32).foldl (fun t x => (List.range 128).foldl (fun t j =>
    t.setTile tile (32 * q + x) j (if int then 0 else 0x7FC00000)) t) t

/-! ### SETFMT and CPYW -/

/-- A pass at work that still writes a spoiled quarter writes it spoiled (R364). -/
def spoilPass (tk tile q : Nat) (int : Bool) (p : Pass) : Pass :=
  { p with rows := p.rows.map (fun x =>
      if x.1 = tk ∧ x.2.1 = tile then
        (x.1, x.2.1, x.2.2.map (fun e => if e.1 % 2 ^ 14 / 128 / 32 = q then (e.1, if int then 0 else 0x7FC00000) else e))
      else x) }

/-- SETFMT (R249). -/
def setfmtStart (w : Sw) (s : State) (_ : Nat) : Except Stop State :=
  match w.parts.getLast? with
  | none => .ok s
  | some t => .ok (s.onGroup w.gk (fun g => { g with r := { g.r with fmt := (w.srcA t).setWidth 32 } }))

/-- The value CPYW reads when its sweep issues (R245). -/
def cpywValue (s : State) (core : Nat) (w : Sw) : W64 := (s.core core).wpOf (w.e.imm.toNat % 4)

end Sys2Proof.Machine
end

