-- ==== Sys2Proof/Machine/Futures.lean ====
section
/-! DEFINITION. Futures, engine programs and the issue of launches (R256 to R264). -/

namespace Sys2Proof.Machine

/-! ### Handles as sources (R33, R233) -/

/-- The pending write of handle register r, if any: the last one counts (R259). -/
def pendH (l : List Pend) (r : Nat) : Option (Option W64) :=
  l.findSome? (fun p => (p.writes.filterMap (fun w => match w with | .h r' x => if r' = r then some x else none | _ => none)).getLast?)

/-- Read handle register r: a pending LDH may be seen or not (R23). -/
def readH (g : Group) (base r : Nat) : Option W64 :=
  match pendH g.pend r with
  | none => g.handle r
  | some x => if Config.pendNew (choiceIx base 0 0 r) then x else g.handle r

/-- The status a handle reads (R231): null when it is invalid. -/
def statusOf (s : State) (h : Option W64) : W32 := match h with | some h => s.status h | none => stNULL

/-- Hold the group until the operations of the handles have completed (R256). Those that have completed already are observed
now (R244). -/
def holdOn (w : Sw) (s : State) (hs : List W64) : State :=
  let wait := hs.filter (fun h => !s.handleDone h)
  let s := observe s w.gk (hs.filter s.handleDone)
  if wait = [] then s
  else s.onGroup w.gk (fun g => { (waitThreads g w.parts .join 0) with hold := .handles wait })

/-- HWAIT: the handle in field A. -/
def hwaitStart (w : Sw) (s : State) (_ : Nat) : Except Stop State :=
  .ok (holdOn w s (match readH w.g w.base w.e.a.toNat with | some h => [h] | none => []))

/-- JOIN: every valid handle whose bit of G[B] is set. -/
def joinStart (w : Sw) (s : State) (_ : Nat) : Except Stop State :=
  let m := w.gB
  .ok (holdOn w s ((List.range 16).filterMap (fun i => if m.getLsbD i then readH w.g w.base i else none)))

/-- HTEST for one participant: the status that the handle's first read of the sweep gave, which its data keeps. -/
def htestOne (w : Sw) (s : State) (d : Tab W64) (t : Nat) : Except Stop OneS :=
  let x := match Tab.look d 0 with
    | some x => x
    | none => (statusOf s (readH w.g w.base w.e.a.toNat)).setWidth 64
  .ok ⟨s.onGroup w.gk (fun g => w.writeD g t x), [], Tab.put d 0 x⟩

/-- HTEST observes a completed operation (R244, R339). -/
def htestPost (w : Sw) (s : State) : State :=
  match readH w.g w.base w.e.a.toNat with
  | some h => if s.handleDone h then observe s w.gk [h] else s
  | none => s

/-! ### Cancellation (R257) -/

/-- Cancel a copy: a queued one leaves its queue with CANCELLED; the served one stops at its next row boundary. -/
def cancelCopy (s : State) (core ch hcore seq : Nat) : State :=
  let c := s.core core
  match c.chan ch with
  | [] => s
  | x :: l =>
    if x.seq = seq ∧ x.hcore = hcore ∧ c.isServing ch then
      s.onCore core (fun c => c.setChan ch ({ x with cancel := true } :: l))
    else match (x :: l).find? (fun y => y.seq = seq ∧ y.hcore = hcore) with
      | none => s
      | some y => copyGone (abandonRows s core y) core ch y stCANCELLED

/-- Is g the engine program of an operation? -/
def isProg (hcore seq : Nat) (g : Group) : Bool :=
  match g.prog with | some p => p.seq == seq && p.hcore == hcore | none => false

/-- Has a program that does not run started nothing that still goes on? -/
def progQuiet (s : State) (g : Group) : Bool :=
  g.pend == [] && (match g.prog with
    | some p => p.ops.all s.handleDone && p.outcome.isNone &&
        s.cores.all (fun c => c.2.mx.recs.all (fun r => r.gk != progName p))
    | none => true)

/-- Cancel an engine program: a queued one is removed, a running one ends before its next instruction. One that a switch has put
back into its queue ends like a running one while operations it started go on (R261). -/
def cancelProgram (s : State) (hcore seq : Nat) : State :=
  let is := isProg hcore seq
  let queued := s.cores.flatMap (fun c => (c.2.pq0 ++ c.2.pq1).filter is)
  if queued ≠ [] then
    if queued.all (progQuiet s) then
      opDone { s with cores := Tab.mapv (fun _ c =>
          { c with pq0 := c.pq0.filter (fun g => !is g), pq1 := c.pq1.filter (fun g => !is g) }) s.cores }
        hcore seq stCANCELLED
    else
      let f := fun (g : Group) => if is g then endedProgram stCANCELLED g else g
      { s with cores := Tab.mapv (fun _ c => { c with pq0 := c.pq0.map f, pq1 := c.pq1.map f }) s.cores }
  else match s.groups.find? (fun x => is x.2) with
    | some x => endProgram s x.1 stCANCELLED
    | none => s

def State.onLaunch (s : State) (lid : Nat) (f : Launch → Launch) : State :=
  match Tab.look s.launches lid with
  | some l => { s with launches := Tab.put s.launches lid (f l) }
  | none => s

/-- The head unit of the highest non-empty priority. -/
def headUnit (d : Dist) : Option (Nat × Nat) :=
  (([3, 2, 1, 0] : List Nat).flatMap (fun p => Tab.lookD d.queues p [])).head?.map (fun e => (e.launch, e.lo))

/-- The head is watched: its millisecond restarts when another unit becomes head (R278). -/
def watchHead (s : State) : State :=
  let h := headUnit s.dist
  if h = s.dist.head then s
  else { s with dist := { s.dist with head := h, headSince := s.time.ftime, aged := false } }

/-- A launch reaches a final state with a status (R276). -/
def endLaunch (s : State) (lid : Nat) (x : W32) : State :=
  match Tab.look s.launches lid with
  | none => s
  | some l =>
    let q := Tab.mapv (fun _ (q : List QEnt) => q.filter (fun e => e.launch != lid)) s.dist.queues
    opDone (watchHead ({ s with dist := { s.dist with queues := q } }.onLaunch lid (fun l => { l with st := .final }))) l.core l.seq x

/-- HCANCEL of a launch: no effect once a unit is placed (R257, R276). -/
def cancelLaunch (s : State) (core seq : Nat) : State :=
  match s.launches.find? (fun x => x.2.core == core && x.2.seq == seq) with
  | none => s
  | some (lid, l) =>
    match l.st with
    | .reading | .dependent | .timed | .queued =>
      let s := match l.gk with | some k => s.onGroup k (fun g => if l.st = .reading then clearFlag g l.flag else g) | none => s
      endLaunch s lid stCANCELLED
    | _ => s

/-- A copy that a switched-out unit carries leaves its records when it is cancelled (R257, R376). -/
def cancelSavedCopy (s : State) (hcore seq : Nat) : State :=
  let is := fun (c : Copy) => c.seq == seq && c.hcore == hcore
  if s.units.any (fun u => match u.2.saved with | some v => v.copies.any (fun c => is c.2.2) | none => false) then
    opDone { s with units := Tab.mapv (fun _ u => { u with saved := u.saved.map (fun v =>
        { v with copies := v.copies.filter (fun c => !is c.2.2) }) }) s.units } hcore seq stCANCELLED
  else s

/-- Do operations that a saved program started still go on? -/
def savedBusy (s : State) (v : UnitSave) (p : Nat × Nat × Group) : Bool :=
  !progQuiet s p.2.2 || (match p.2.2.prog with
    | some q => v.mrecs.any (fun r => r.2.gk == progName q || (r.1 == p.1 && p.2.1 == 2 && r.2.gk == 128 + q.sq))
    | none => false)

/-- A program that a switched-out unit carries has its outcome, and its handle completes when what it started has ended (R261):
at once where nothing goes on, else after the unit's return. -/
def cancelSavedProg (s : State) (hcore seq : Nat) : State :=
  let is := isProg hcore seq
  let busy := s.units.any (fun u => match u.2.saved with
    | some v => v.progs.any (fun p => is p.2.2 && savedBusy s v p)
    | none => false)
  if !s.units.any (fun u => match u.2.saved with | some v => v.progs.any (fun p => is p.2.2) | none => false) then s
  else if busy then
    { s with units := Tab.mapv (fun _ u => { u with saved := u.saved.map (fun v =>
      { v with progs := v.progs.map (fun p => if is p.2.2 then (p.1, p.2.1, endedProgram stCANCELLED p.2.2) else p) }) }) s.units }
  else
    opDone { s with units := Tab.mapv (fun _ u => { u with saved := u.saved.map (fun v =>
        { v with progs := v.progs.filter (fun p => !is p.2.2) }) }) s.units } hcore seq stCANCELLED

/-- HCANCEL (R257): a completed operation keeps its status. -/
def cancelOp (s : State) (h : W64) : State :=
  if s.handleDone h then s
  else match hKind h with
    | 1 => cancelSavedCopy ((Tab.keys s.cores).foldl (fun s core =>
        (List.range 4).foldl (fun s ch => cancelCopy s core ch (hCore h) (hSeq h)) s) s) (hCore h) (hSeq h)
    | 3 => cancelSavedProg (cancelProgram s (hCore h) (hSeq h)) (hCore h) (hSeq h)
    | 4 => cancelLaunch s (hCore h) (hSeq h)
    | _ => s

def hcancelStart (w : Sw) (s : State) (_ : Nat) : Except Stop State :=
  match readH w.g w.base w.e.a.toNat with
  | some h => .ok (cancelOp s h)
  | none => .ok s

/-! ### Handles in memory (R258, R259) -/

/-- STH: the sealed handle capability, or 16 zero bytes for an invalid handle, under the checks of a tagged STC (R258); a last-read mark on C invalidates the
register when the sweep ends. -/
def sthSweep (i : Instr) (s : State) : Out :=
  enter i s (fun w flag s =>
    let h := readH w.g w.base w.e.c.toNat
    let v := match h with | some h => capOfHandle h | none => Cap.null
    let f := fun (s : State) (d : Tab W64) (t : Nat) =>
      if w.on t then (match storeCapAs (capOfHandle 0) w s t v with | .error e => .error e | .ok s => .ok ⟨s, [], d⟩)
      else Except.ok (⟨s, [], d⟩ : OneS)
    let r := runSweepS w f ⟨s, [], w.data0, none⟩
    let r := if r.stop.isNone && w.e.lc then { r with s := r.s.onGroup w.gk (fun g => writeH g w.e.c.toNat none) } else r
    .next (concludeS w flag false true r))

/-- LDH for one participant: a tagged granule of type 5 gives a valid handle. -/
def ldhOne (w : Sw) (s : State) (d : Tab W64) (t : Nat) : Except Stop OneS :=
  match loadBytes w s t false w.byp [pLD] 0 16 16 with
  | .error e => .error e
  | .ok (s', bs, ts) =>
    let tag := match ts with | (tg, _) :: _ => readPieceTag s' w.who w.byp tg (w.ea t).toNat | [] => false
    let c := keepTag s' w (w.capA t) bs tag
    .ok ⟨s', [.h w.e.d.toNat (if c.tag && capOtype c == 5 then some (capAddr c) else none)], d⟩

/-! ### Engine programs (R260, R261) -/

/-- The sequencer a FORK names, and its queue. -/
def forkSq (w : Sw) : Nat := w.e.imm.toNat % 2
def Core.pq (c : Core) (sq : Nat) : List Group := if sq = 0 then c.pq0 else c.pq1
def Core.setPq (c : Core) (sq : Nat) (l : List Group) : Core := if sq = 0 then { c with pq0 := l } else { c with pq1 := l }

/-- Programs a sequencer queues beside the one it runs. -/
def pqCap : Nat := 8
def progKey (core sq : Nat) : Nat := core * 256 + 128 + sq

/-- A full queue stalls FORK: an idle sequencer with an empty queue has room too. -/
def forkFull (s : State) (w : Sw) : Bool := decide (pqCap ≤ ((s.core (coreOf w.gk)).pq (forkSq w)).length)

/-- The group's g0 to g15 and gc0 to gc15 as FORK reads them (R260): registers with a load outstanding as any other operand. -/
def forkG (w : Sw) : Tab W64 := ((List.range 16).map (fun r => (r, readG w.g w.base 3 r))).filter (fun x => x.2 != 0)
def forkC (w : Sw) : Tab Cap := ((List.range 16).map (fun r => (r, readC w.g w.base 3 0 (32 + r)))).filter (fun x => x.2 != Cap.null)

/-- The state a program starts with. R260 does not name its fpctl: every exception is masked and rounding is to nearest even, as in a
fresh group (DESIGN CHOICE, log 77). -/
def newProgram (s : State) (w : Sw) (c : Cap) (seq : Nat) (start : W64) : Group :=
  let g := w.g
  let th := { Thread.reset with st := .runnable, code := capUnseal (revCheck s g.ids.asid c) }
  { newGroup g.ids [] [(0, th)] with
    r := ⟨forkG w, Tab.mapv (fun _ c => revCheck s g.ids.asid c) (forkC w), [], [], g.r.fmt, 0⟩
    prog := some ⟨forkSq w, seq, coreOf w.gk, start, [], none⟩ }

def forkStart (w : Sw) (_ : Option Nat) (s : State) (t : Nat) : Except Stop State :=
  let c := w.capA t
  match targetCheck c with
  | some e => .error e
  | none =>
    let core := coreOf w.gk
    let (s, q) := nextSeq s core
    let h := mkHandle q core 3
    let start := if w.e.imm.getLsbD 1 then w.gB else 0
    let p := newProgram s w c q start
    let s := opBegin s core q w.g.ids.world
    let s := s.onCore core (fun k => k.setPq (forkSq w) (k.pq (forkSq w) ++ [p]))
    .ok (s.onGroup w.gk (fun g => noteOp (writeH g w.e.d.toNat (some h)) h))

/-- The operations that a program has started before a switch are those of the sequencer on which it goes on (R376). -/
def State.takeUp (s : State) (core : Nat) (g : Group) (key : Nat) : State :=
  match g.prog with
  | none => s
  | some p =>
    let on := fun (gk : Nat) => if gk = progName p then key else gk
    let rec_ := fun (r : MRec) => ({ r with gk := on r.gk } : MRec)
    let pass := fun (x : Pass) => ({ x with recs := x.recs.map rec_ } : Pass)
    s.onCore core (fun c => { c with
      ch := Tab.mapv (fun _ l => l.map (fun (y : Copy) => ({ y with gk := on y.gk } : Copy))) c.ch
      mx := ⟨c.mx.queue.map rec_, c.mx.opn.map pass, c.mx.closed.map pass, c.mx.run.map pass, c.mx.ended.map pass,
        c.mx.waits.map rec_⟩ })

/-- PROGRAM_START: the next program starts when the sequencer is free and its start time has come. -/
def programStartOp (s : State) (core sq : Nat) : State :=
  if 2 ≤ sq ∨ (s.group (progKey core sq)).isSome then s
  else match (s.core core).pq sq with
    | [] => s
    | p :: l =>
      let start := match p.prog with | some x => (if x.outcome.isSome then 0 else x.start.toNat) | none => 0
      if s.time.ftime < start then s
      else ((s.onCore core (fun c => c.setPq sq l)).setGroup (progKey core sq) p).takeUp core p (progKey core sq)

/-- Every operation a program started has completed. -/
def programIdle (s : State) (core sq : Nat) (g : Group) (p : Prog) : Bool :=
  p.ops.all s.handleDone && g.pend.all (fun x => !pendHeld s core x) &&
    (s.core core).mx.recs.all (fun r => r.gk != progKey core sq)

/-- PROGRAM_END: the handle completes with the program's own outcome. -/
def programEndOp (s : State) (core sq : Nat) : State :=
  match s.group (progKey core sq) with
  | none => s
  | some g =>
    match g.prog with
    | none => s
    | some p =>
      match p.outcome with
      | none => s
      | some x =>
        if programIdle s core sq g p then
          opDone (workEnded (noteRan { s with groups := Tab.rem s.groups (progKey core sq) } core p.hcore p.seq) g.ids.team)
            p.hcore p.seq x
        else s

/-! ### LAUNCH at issue (R263) -/

def Launch.blank : Launch :=
  { st := .reading, core := 0, seq := 0, gk := none, flag := none, recBytes := [], world := 0, asid := 0, entry := Cap.null,
    args := [], nteam := 0, ngrp := 0, lastn := 0, rows := 0, slots := 0, tiles := 0, prio := 0, w := 1, h := 1, vault := 0,
    timed := false, start := 0, deps := [], placedUnits := 0, teamsLeft := 0, bySup := false }

/-- A launch enters the distributor with its record as read. -/
def addLaunch (s : State) (l : Launch) : State :=
  { s with launches := Tab.put s.launches s.dist.nextLaunch l, dist := { s.dist with nextLaunch := s.dist.nextLaunch + 1 } }

/-- LAUNCH: the launch takes a sequence number of its own beside its sweep's, which its handle carries: R39 lists the launches
of supervisor cores, and R33 has every handle name one number (DESIGN CHOICE, log 53). -/
def launchStart (w : Sw) (flag : Option Nat) (s : State) (t : Nat) : Except Stop State :=
  let c := w.capA t
  match recordCheck c 6 256 with
  | some e => .error e
  | none =>
    match readGranules w c 16 (capAddr c).toNat s with
    | .error e => .error e
    | .ok (s, gs) =>
      let core := coreOf w.gk
      let (s, q) := nextSeq s core
      let h := mkHandle q core 4
      let s := opBegin s core q w.g.ids.world
      let s := addLaunch s { Launch.blank with
        core := core, seq := q, gk := some w.gk, flag := flag, recBytes := gs.map (fun x => (x.bits, x.tag))
        world := w.g.ids.world, asid := w.g.ids.asid }
      .ok (s.onGroup w.gk (fun g => noteOp (writeH g w.e.d.toNat (some h)) h))

end Sys2Proof.Machine
end

