-- ==== Sys2Proof/Machine/Launching.lean ====
section
/-! DEFINITION. Launches and the work distributor: records, dependences, queues, placement, the formation and the
retirement of groups and teams (R262 to R264, R276 to R285, R172). -/

namespace Sys2Proof.Machine

/-! ### Records (R262, R264, R448) -/

def granAt (gs : List (BitVec 128 × Bool)) (i : Nat) : Cap := match gs[i]? with | some (b, t) => ⟨b, t⟩ | none => Cap.null

/-- The world that a KEY gives (R448): none when it is refused. -/
def keyWorld (s : State) (l : Launch) (k : Cap) : Option (Nat × Nat) :=
  if k = Cap.null then some (l.world, l.asid)
  else
    let a := (capAddr k).toNat
    let w := s.keys.world (a % 2 ^ 12)
    let d1 := s.sys.tier == 1 && s.sys.tiers.getLsbD 1
    if k.tag && capOtype k == 7 && w.st == 2 && w.key != 0 && w.token.toNat == a / 2 ^ 12 && !(d1 && w.prot) then
      some (a % 2 ^ 12, if a % 2 ^ 12 = l.world then l.asid else (Config.worldAsid (a % 2 ^ 12)).toNat)
    else none

/-- Bytes 160 to 191 of the record as fields. -/
def recField (gs : List (BitVec 128 × Bool)) (o n : Nat) : Nat :=
  (granAt gs (o / 16)).bits.toNat / 2 ^ (8 * (o % 16)) % 2 ^ (8 * n)

/-- Cluster width and height: 0x00 counts as one core (R277). -/
def clusterOf (b : Nat) : Nat × Nat := if b = 0 then (1, 1) else (b % 16, b / 16)

/-- A branch target's checks as a test (R168). -/
def entryOk (c : Cap) : Bool := (targetCheck c).isNone

def line10Ok (gs : List (BitVec 128 × Bool)) : Bool :=
  let f := recField gs
  let (w, h) := clusterOf (f 170 1)
  decide (1 ≤ f 160 3 ∧ f 163 1 = 0 ∧ 1 ≤ f 164 1 ∧ f 164 1 ≤ 64) && decide (4 ≤ f 166 1 ∧ f 166 1 ≤ 128) &&
    decide (f 167 1 ≤ 64 ∧ f 168 1 ≤ 16 ∧ f 169 1 < 4) && decide (1 ≤ w ∧ w ≤ 6 ∧ 1 ≤ h ∧ h ≤ 4 ∧ w * h ≤ 12) &&
    f 160 3 % (w * h) == 0 && f 171 1 == 0 && f 172 4 % 4096 == 0 && decide (f 172 4 ≤ 2 ^ 22)

/-- The first 16-byte line of the record that fails (R264): none when it is accepted. -/
def recordFault (s : State) (l : Launch) : Option Nat :=
  let gs := l.recBytes
  let f := recField gs
  if !entryOk (granAt gs 0) then some 0
  else if (keyWorld s l (granAt gs 1)).isNone then some 1
  else if !line10Ok gs then some 10
  else if f 176 4 / 2 ≠ 0 ∨ f 180 4 ≠ 0 then some 11
  else ([12, 13, 14, 15] : List Nat).find? (fun i =>
    let d := granAt gs i
    !(d == Cap.null || (d.tag && capOtype d == 5)))

/-- The launch with its record's fields. -/
def fillLaunch (s : State) (l : Launch) : Launch :=
  let gs := l.recBytes
  let f := recField gs
  let (w, h) := clusterOf (f 170 1)
  let (world, asid) := (keyWorld s l (granAt gs 1)).getD (l.world, l.asid)
  { l with
    st := .dependent, world := world, asid := asid, entry := granAt gs 0
    args := (List.range 8).map (fun i => granAt gs (2 + i))
    nteam := f 160 3, ngrp := f 164 1, lastn := f 165 1, rows := f 166 1, slots := f 167 1, tiles := f 168 1, prio := f 169 1
    w := w, h := h, vault := f 172 4, timed := decide (f 176 4 % 2 = 1), start := BitVec.ofNat 64 (f 184 8)
    deps := (([12, 13, 14, 15] : List Nat).map (granAt gs)).filterMap (fun d => if d.tag then some (capAddr d) else none)
    teamsLeft := f 160 3 }

/-- Launches that take a place of the distributor (R279). -/
def placesTaken (s : State) : Nat :=
  (s.launches.filter (fun x => x.2.st == .dependent || x.2.st == .timed || x.2.st == .queued)).length
def placeCap : Nat := 4096

/-- LAUNCH_RECORD_READ: into a free place, checked; the launch flag clears (R263, R264, R276). -/
def recordRead (s : State) (lid : Nat) : State :=
  match Tab.look s.launches lid with
  | none => s
  | some l =>
    if l.st ≠ .reading ∨ placeCap ≤ placesTaken s then s
    else
      let s := match l.gk with | some k => s.onGroup k (fun g => clearFlag g l.flag) | none => s
      match recordFault s l with
      | some line => endLaunch s lid (statusWord 0x000C line)
      | none => s.onLaunch lid (fillLaunch s)

/-- Granules of physical memory with the tags that a record of an address space takes: of well-formed capabilities only (R81), which are
checked while a revocation sweep runs (R103). -/
def granulesAt (s : State) (asid pa : Nat) (n : Nat) : List (BitVec 128 × Bool) :=
  (List.range n).map (fun i => let c := revCheck s asid (capSane (s.readCapAt (pa + 16 * i))); (c.bits, c.tag))

/-- LAUNCH_SUBMIT by a supervisor core (R264): a full distributor answers busy, and nothing is submitted (R279). -/
def launchSubmitOp (s : State) (core pa asid world : Nat) : State :=
  if placeCap ≤ placesTaken s ∨ 65536 ≤ asid then s
  else
    let (s, q) := nextSeq s core
    let s := snoopFor (opBegin s core q world) pa 256 false
    addLaunch s { Launch.blank with
      core := core, seq := q, recBytes := granulesAt s asid pa 16, world := world, asid := asid, bySup := true }

/-- Units of a launch (R277). -/
def Launch.units (l : Launch) : Nat := l.nteam / (l.w * l.h)

/-- Units that may be placed, by priority, then queue order: of each launch the one of lowest index (R278). -/
def candidates (d : Dist) : List (Nat × QEnt) :=
  let all := ([3, 2, 1, 0] : List Nat).flatMap (fun p => (Tab.lookD d.queues p []).map (fun e => (p, e)))
  all.filter (fun x => !all.any (fun y => y.2.launch == x.2.launch && decide (y.2.lo < x.2.lo)))

/-- Enter the queue of the launch's priority (R278). -/
def enterQueue (s : State) (lid : Nat) : State :=
  match Tab.look s.launches lid with
  | none => s
  | some l =>
    let q := Tab.lookD s.dist.queues l.prio []
    watchHead { (s.onLaunch lid (fun l => { l with st := .queued })) with
      dist := { s.dist with queues := Tab.put s.dist.queues l.prio (q ++ [⟨lid, 0, l.units, false⟩]) } }

/-- A pre-empted unit enters the head of its queue (R296), behind those of lower index of its own launch (R278). -/
def queueBack (q : List QEnt) (e : QEnt) : List QEnt :=
  match q with
  | [] => [e]
  | x :: l => if (x :: l).any (fun y => y.launch == e.launch && decide (y.lo < e.lo)) then x :: queueBack l e else e :: x :: l

/-- Statuses that do not fail a dependence (R231, 0x000D). -/
def depGood (x : W32) : Bool := [0, 1, 2].contains (x.toNat % 2 ^ 16)

/-- LAUNCH_DEPS_DONE: every dependence has completed (R264, R276). -/
def depsDone (s : State) (lid : Nat) : State :=
  match Tab.look s.launches lid with
  | none => s
  | some l =>
    if l.st ≠ .dependent ∨ !l.deps.all s.handleDone then s
    else if !l.deps.all (fun h => depGood (s.status h)) then endLaunch s lid (statusWord 0x000D 0)
    else if l.timed ∧ s.time.ftime < l.start.toNat then s.onLaunch lid (fun l => { l with st := .timed })
    else enterQueue s lid

/-- LAUNCH_START_TIME (R276). -/
def startTime (s : State) (lid : Nat) : State :=
  match Tab.look s.launches lid with
  | none => s
  | some l => if l.st = .timed ∧ l.start.toNat ≤ s.time.ftime then enterQueue s lid else s

/-! ### Fitting and scoring (R280 to R283) -/

def teamsOn (s : State) (core : Nat) : List Team :=
  (s.teams.filter (fun x => x.2.placed && !x.2.retired && x.2.core == core)).map Prod.snd

/-- Vault windows that are taken on a core: those of teams that have retired too, while their unit's work runs (log 26). -/
def windowsOn (s : State) (core : Nat) : List (Nat × Nat) :=
  (s.teams.filter (fun x => x.2.placed && x.2.core == core)).map (fun x => (x.2.vbase, x.2.vlen))

/-- A free range of n bytes in a core's vault: the lowest (DESIGN CHOICE, log 65). -/
def vaultFit (s : State) (core n : Nat) : Option Nat :=
  let used := windowsOn s core
  let starts := (0 :: used.map (fun u => u.1 + u.2)).filter (fun b => decide (b + n ≤ 2 ^ 22) &&
    used.all (fun u => decide (u.2 = 0 ∨ b + n ≤ u.1 ∨ u.1 + u.2 ≤ b)))
  if n = 0 then some 0 else minNat starts

/-- Has another world retired whose state is still to be scrubbed (R377)? -/
def unscrubbed (s : State) (l : Launch) : Bool := s.keys.worlds.any (fun x => x.2.retired && x.1 != l.world)

/-- A core fits a team of the launch (R280), once no retired world's state stands (R377). -/
def coreFits (s : State) (l : Launch) (core : Nat) : Bool :=
  let c := s.core core
  let ts := teamsOn s core
  !c.pw.closed && !c.pw.lostRet && !unscrubbed s l && decide (l.ngrp + reservedPos s core ≤ freePosCount s core) && (vaultFit s core l.vault).isSome &&
    decide ((ts.map (fun t => t.slotCeil)).sum + l.slots ≤ 64 ∧ (ts.map (fun t => t.tileCeil)).sum + l.tiles ≤ 16) &&
    decide (ts.length < 128)

/-- The score of a core (R281). -/
def score (s : State) (core : Nat) : Int :=
  let c := s.core core
  let ts := teamsOn s core
  let free : Nat := ((List.range 8).map (fun p => (c.part p).gen)).sum
  let vf : Nat := 1024 - ((windowsOn s core).map (fun t => t.2 / 4096)).sum
  let sl : Nat := 64 - (ts.map (fun t => t.slotCeil)).sum
  let ti : Nat := 16 - (ts.map (fun t => t.tileCeil)).sum
  (free : Int) + (vf : Int) + 32 * (sl : Int) + 128 * (ti : Int) - 64 * max 0 ((c.pw.temp : Int) - 80) - 16 * ((min c.pw.droop 255 : Nat) : Int)

/-- Core at column x and row y of a die (R283). -/
def coreAt (die x y : Nat) : Nat := die * 24 + y * 6 + x

/-- The cores of a rectangle by position. -/
def rectCores (l : Launch) (die x y : Nat) : List Nat :=
  (List.range l.h).flatMap (fun j => (List.range l.w).map (fun i => coreAt die (x + i) (y + j)))

/-- Rectangles in the order of ties: die, then origin core. -/
def rects (l : Launch) : List (List Nat) :=
  (List.range 8).flatMap (fun d => (List.range (5 - l.h)).flatMap (fun y => (List.range (7 - l.w)).map (fun x => rectCores l d x y)))

def minInt : List Int → Int
  | [] => 0
  | [a] => a
  | a :: l => min a (minInt l)

/-- The fitting rectangle of highest score, the first among equals (R283). -/
def bestRect (s : State) (l : Launch) : Option (List Nat) :=
  ((rects l).filter (fun r => r.all (coreFits s l))).foldl (fun best r =>
    match best with
    | none => some r
    | some b => if minInt (b.map (score s)) < minInt (r.map (score s)) then some r else best) none

/-! ### Placing a unit (R278, R283, R284) -/

def Memory.clearRange (m : Memory) (a n : Nat) : Memory :=
  { cells := m.cells.filter (fun c => !(decide (a ≤ c.1 ∧ c.1 < a + n)))
    tags := m.tags.filter (fun g => !(decide (a ≤ 16 * g ∧ 16 * g < a + n)))
    errs := m.errs.filter (fun g => !(decide (a ≤ 64 * g ∧ 64 * g < a + n))) }

/-- The lowest core-local index no team of the core has (R375). -/
def freeIdx (s : State) (core : Nat) : Nat :=
  ((List.range 128).find? (fun i => !(teamsOn s core).any (fun t => t.idx == i))).getD 0

/-- Reserve a team's place on a core (R283). -/
def seatTeam (s : State) (l : Launch) (core : Nat) (t : Team) : Team :=
  { t with core := core, idx := freeIdx s core, vbase := (vaultFit s core l.vault).getD 0, placed := true }

/-- Form one launch group (R284, R277), at the lowest free position of its partition (DESIGN CHOICE, log 65). -/
def formGroup (l : Launch) (tk core grp : Nat) (s : State) : State :=
  match choosePart s core with
  | none => s
  | some p =>
    match (freePositions s core p).head? with
    | none => s
    | some pos =>
      let n := if grp + 1 = l.ngrp then l.lastn + 1 else 256
      let th := (List.range n).map (fun t => (t, newThread l.entry []))
      s.setGroup (core * 256 + pos) (newGroup ⟨tk, grp, l.asid, l.world, l.rows, 0, 0, grp⟩ l.args th)

/-- A core serves a launch's world: it is powered, and that is its last world (R378). -/
def useCore (l : Launch) (core : Nat) (s : State) : State :=
  s.onCore core (fun c => { c with pw := { c.pw with gated := false, lastWorld := some l.world } })

/-- A fresh team: its window reads zero, the core's device generation steps, its launch groups form (R299, R317, R284). -/
def formTeam (lid : Nat) (l : Launch) (ukey u : Nat) (x : Nat × Nat) (s : State) : State :=
  let (pos, core) := x
  let num := u * l.w * l.h + pos
  let tk := lid * 2 ^ 24 + num
  let t := seatTeam s l core
    ⟨num, lid, ukey, pos, core, 0, 0, l.vault, l.slots, l.tiles, 0, 0, [], [], [], none, false, false, 64, true, false⟩
  let s := { s with teams := Tab.put s.teams tk t, mem := s.mem.clearRange (vaultHome core t.vbase) t.vlen }
  let s := useCore l core (stepGen s core true)
  (List.range l.ngrp).foldl (fun s grp => formGroup l tk core grp s) s

def unitKey (lid u : Nat) : Nat := lid * 2 ^ 24 + u

/-- Place unit u of a launch on the cores of a rectangle; a pre-empted unit is reserved, the windows of teams
that have retired too (log 26), and restored by UNIT_RESTORE. -/
def placeUnit (s : State) (lid : Nat) (l : Launch) (u : Nat) (back : Bool) (cores : List Nat) : State :=
  let uk := unitKey lid u
  let seats := (List.range cores.length).zip cores
  if back then
    seats.foldl (fun s x => useCore l x.2 (s.onTeam (lid * 2 ^ 24 + u * l.w * l.h + x.1) (seatTeam s l x.2))) s
  else
    let unit : CUnit := ⟨lid, u, l.w, l.h, seats.map (fun x => lid * 2 ^ 24 + u * l.w * l.h + x.1), none⟩
    let s := { s with units := Tab.put s.units uk unit }
    let s := seats.foldl (fun s x => formTeam lid l uk u x s) s
    s.onLaunch lid (fun l => { l with st := .running, placedUnits := l.placedUnits + 1 })

/-- Take the first unit of a queue entry. -/
def takeUnit (d : Dist) (p : Nat) (e : QEnt) : Dist :=
  let q := Tab.lookD d.queues p []
  let q := q.flatMap (fun x => if x = e then (if x.lo + 1 < x.hi then [{ x with lo := x.lo + 1 }] else []) else [x])
  { d with queues := Tab.put d.queues p q }

/-- 1 ms of fabric time in 1/16 ns. -/
def msTicks : Nat := 16000000

def clampUnit (e : QEnt) : QEnt := { e with hi := e.lo + 1 }

/-- DISTRIBUTOR_CONSIDER (R278): at most one unit every 16 clocks. -/
def considerOp (s : State) : State :=
  let s := watchHead s
  if s.time.clock < s.dist.lastConsider + 16 then s
  else
    let s := { s with dist := { s.dist with lastConsider := s.time.clock } }
    let cs := candidates s.dist
    let cs := if s.dist.head.isSome && decide (s.dist.headSince + msTicks ≤ s.time.ftime) then
      cs.filter (fun x => s.dist.head == some (x.2.launch, x.2.lo)) else cs
    match cs.findSome? (fun x =>
        match Tab.look s.launches x.2.launch with
        | some l => (bestRect s l).map (fun r => (x, l, r))
        | none => none) with
    | none => s
    | some ((p, e), l, r) =>
      watchHead (placeUnit { s with dist := takeUnit s.dist p e } e.launch l e.lo e.back r)

/-- HEAD_AGING_EXPIRY (R278). -/
def headAging (s : State) : State :=
  let s := watchHead s
  if s.dist.head.isSome && decide (s.dist.headSince + msTicks ≤ s.time.ftime) then { s with dist := { s.dist with aged := true } }
  else s

/-! ### Retirement (R172, R252, R264, R276) -/

/-- Copies, programs and matrix operations of a launch that have not ended (R370). -/
def launchWorks (s : State) (lid : Nat) : Bool :=
  let mine := fun (tk : Nat) => match Tab.look s.teams tk with | some t => t.launch == lid | none => false
  s.cores.any (fun c => c.2.ch.any (fun x => x.2.any (fun y => mine y.team)) || c.2.mx.recs.any (fun r => mine r.team) ||
    (c.2.pq0 ++ c.2.pq1).any (fun g => mine g.ids.team)) ||
  s.groups.any (fun x => x.2.prog.isSome && mine x.2.ids.team)

/-- A spawn bin holds records of the team (R377): of its core, or of one that a switch has taken it from (log 76). -/
def binsHold (s : State) (tk : Nat) : Bool := s.cores.any (fun c => c.2.bins.any (fun b => b.2.team == tk && b.2.recs != []))

/-- A launch whose last team has retired completes: SUCCESS, or, once every operation of the launch has ended, CANCELLED after
TERMINATE (R264, R276, R370). -/
def launchDone (s : State) (lid : Nat) : State :=
  match Tab.look s.launches lid with
  | none => s
  | some l =>
    if l.teamsLeft ≠ 0 then s
    else if l.st = .running then endLaunch s lid stSUCCESS
    else if l.st = .ending ∧ !launchWorks s lid then endLaunch s lid stCANCELLED
    else s

/-- The team retires: its slots, its tiles and its place return to the core (R252), its window with its unit (log 26). -/
def retireTeam (s : State) (tk : Nat) : State :=
  match Tab.look s.teams tk with
  | none => s
  | some t =>
    let s := s.onTeam tk (fun t => { t with retired := true, slotCeil := 0, tileCeil := 0, slots := 0, tiles := 0, sdat := [],
                                            sscale := [], tdat := [], claim := none, relSlots := false, relTiles := false })
    launchDone (dropUnit (s.onLaunch t.launch (fun l => { l with teamsLeft := l.teamsLeft - 1 })) t.unit) t.launch

/-- Every position has exited and every operation bound to a flag or a handle of the group has completed (R172). Another
group's copy into its registers is none of them (R265). -/
def groupDone (s : State) (g : Group) : Bool :=
  g.prog.isNone && g.th.all (fun x => x.2.st == .exited) && g.pend.all (fun p => p.flag == none) && g.r.fl == [] &&
    g.r.h.all (fun h => s.handleDone h.2)

/-- A group's request to SYS goes with it: requests are known by team and group, not by position (R192). -/
def ofGroup (g : Group) (r : SysReq) : Bool := r.team == g.ids.team && r.grp == g.ids.grp

def Sup.done (u : Sup) (r : BitVec 3) : Sup := { u with busy := false, result := r }
def State.onSup (s : State) (core : Nat) (f : Sup → Sup) : State := s.onCore core (fun c => { c with sup := f c.sup })

/-- A group ends before the park that its supervisor core has asked for: the command is done, RESULT 1, not parked (R366; log 75). -/
def dropPark (s : State) (k : Nat) (g : Group) : State :=
  if g.park = .requested then s.onSup (coreOf k) (fun u => u.done 1) else s

/-- GROUP_RETIRE. -/
def groupRetireOp (s : State) (k : Nat) : State :=
  match s.group k with
  | none => s
  | some g =>
    if !groupDone s g then s
    else
      let tk := g.ids.team
      let last := (teamGroups s tk).length ≤ 1
      let s := dropPark s k g
      let s := freeRows { s with groups := Tab.rem s.groups k, sysq := s.sysq.filter (fun r => !ofGroup g r) } k
        (g.mapped.length + (if g.trap.isSome then 8 else 0))
      match Tab.look s.teams tk with
      | none => s
      | some _ => if last ∧ !binsHold s tk then retireTeam s tk else s

/-! ### Bins (R189, R285) -/

/-- BIN_TIMER_EXPIRY. -/
def binExpiry (s : State) (core bin : Nat) : State :=
  let b := (s.core core).bin bin
  if b.recs ≠ [] ∧ b.deadline ≤ s.time.clock then
    s.onCore core (fun c => { c with bins := Tab.put c.bins bin { b with due := true } })
  else s

/-- SPAWN_GROUP_FORM: a due bin forms its group when it can, after those of lower number that are due and can, and one group
in a clock (R285). -/
def binForm (s : State) (core bin : Nat) : State :=
  if ((s.core core).bin bin).isDue && binTurn s core bin then (formBin s core bin).getD s else s

/-- BARRIER_COMPLETE (R185): of a team, or of a cluster unit, whose waiting threads' cores step CGC (R303). -/
def barrierOp (s : State) (cluster : Bool) (owner num : Nat) : State :=
  if cluster then
    match Tab.look s.units owner with
    | none => s
    | some u =>
      if allArrived (u.teams.flatMap (teamGroups s)) .barc num then
        let cores := u.teams.filterMap (fun tk => (Tab.look s.teams tk).bind (fun t =>
          if t.placed && residentGroups s tk != 0 then some t.core else none))
        let s := u.teams.foldl (fun s tk => onTeamGroups s tk (releaseBarrier .barc num)) s
        cores.foldl (fun s c => stepGen s c false) s
      else s
  else if allArrived (teamGroups s owner) .bar num then onTeamGroups s owner (releaseBarrier .bar num)
  else s

end Sys2Proof.Machine
end

