-- ==== Sys2Proof/Machine/Images.lean ====
section
/-! DEFINITION. The walk of a group's capabilities by a revocation sweep (R103), and the images of save areas in memory (R361,
R363, R364, R372 to R374). The machine restores from the plain
records that the state keeps; software sees the images only as ciphertext (R378; log 27). -/

namespace Sys2Proof.Machine

/-! ### The check that a save makes, and a walk (R103) -/

/-- Untag what the armed map revokes. -/
def walkCap (s : State) (asid : Nat) (c : Cap) : Cap := if revoked s asid c then capUntag c else c

def walkThread (s : State) (asid : Nat) (x : Thread) : Thread :=
  { x with c := Tab.mapv (fun _ c => walkCap s asid c) x.c, code := walkCap s asid x.code, kept := walkCap s asid x.kept }

def walkWrite (s : State) (asid : Nat) (w : PWrite) : PWrite :=
  match w with
  | .c t r x => .c t r (walkCap s asid x)
  | .gc r x => .gc r (walkCap s asid x)
  | w => w

/-- Does a region of the sweep name the address space? -/
def named (s : State) (asid : Nat) : Bool := s.rev.regions.any (fun r => r.asid == asid)

/-- The capabilities of one group, each revoked one untagged; a handler entry that loses its tag is removed. -/
def walkGroup (s : State) (g : Group) : Group :=
  let a := g.ids.asid
  if !named s a then g
  else
    let h := walkCap s a g.handler
    { g with
      th := Tab.mapv (fun _ x => walkThread s a x) g.th
      r := { g.r with gc := Tab.mapv (fun _ c => walkCap s a c) g.r.gc }
      pend := g.pend.map (fun p => { p with writes := p.writes.map (walkWrite s a) })
      handler := if g.handler.tag && !h.tag then Cap.null else h }

/-- The capabilities of a copy's record. -/
def walkCopy (s : State) (c : Copy) : Copy :=
  { c with dest := walkCap s c.asid c.dest, lay := { c.lay with src := walkCap s c.asid c.lay.src } }

/-- One piece of an image: bytes, or a granule with its tag, at an offset. -/
inductive Piece where
  | data (off : Nat) (bs : List Byte)
  | cap (off : Nat) (c : Cap)
  deriving DecidableEq, Repr

/-- A piece of an image whose bytes have come under their key. -/
def putPiece (base : Nat) (s : State) (p : Piece) : State :=
  match p with
  | .data off bs => rawWrite s (base + off) bs
  | .cap off c => rawCap s (base + off) c

/-- Write an image of n bytes under a world's key: what no piece covers is zero. -/
def putImage (s : State) (world base n : Nat) (ps : List Piece) : State :=
  ps.foldl (putPiece base) (keyZero s (s.keys.world world).key base n)

def statCode : TStat → Nat
  | .runnable => 0
  | .waiting => 1
  | .held => 2
  | .exited => 3

def waitCode : WaitKind → Nat
  | .none => 0
  | .bar => 1
  | .barc => 2
  | .atTime => 3
  | .sleep => 4
  | .handle => 5
  | .join => 6
  | .sys => 7

/-- The words of a thread entry of the group block. -/
def threadWord (x : Thread) : Nat := statCode x.st + 4 * waitCode x.wait + 256 * x.barNum

/-- Handle valid bits and flags as masks. -/
def handleMask (g : Group) : Nat := maskNat (Tab.keys g.r.h)
def flagMask (g : Group) : Nat := maskNat (Tab.keys g.r.fl)

/-- tcause, tres, tinst and tmask that the group block holds: of trap mode, or of a delivery that waits (R359). -/
def blockTrap (g : Group) : Nat × Nat × Nat × KeySet :=
  match g.trap with
  | some t => (t.tcause.toNat, t.tres, t.tinst.toNat, t.tmask)
  | none =>
    match g.deliv with
    | some d => (d.tcause.toNat, d.tres, d.tinst.toNat, d.tmask)
    | none => (0, 0, 0, [])

/-- Every held sweep of a group, in the order of issue: the interrupted ones in trap mode before the handler's (R361, R372). -/
def allHeld (g : Group) : List Held := (match g.trap with | some t => t.saved | none => []) ++ g.held

/-- The group block (R373). -/
def groupBlock (s : State) (g : Group) : List Piece :=
  let fl := (if g.trap.isSome then 1 else 0) + (if allHeld g ≠ [] then 2 else 0) + (if g.sched.ovOn then 4 else 0) +
    (if g.deliv.isSome then 8 else 0)
  let (tc, tr, ti, tm) := blockTrap g
  let preds := fun (p : Nat) => maskNat ((g.th.filter (fun x => x.2.p.getLsbD p)).map Prod.fst)
  [.data 0 (leBytes 1 4 ++ leBytes fl 4 ++ leBytes (threadId s g 0) 8 ++ leBytes g.sched.ovc 2 ++ leBytes g.mapped.length 2 ++
     leBytes g.ids.asid 2 ++ leBytes g.ids.world 2 ++ leBytes tc 2 ++ leBytes tr 2 ++ leBytes ti 4 ++ leBytes (maskNat tm) 32 ++
     leBytes g.r.fpctl.toNat 4 ++ leBytes g.r.fmt.toNat 4 ++ leBytes (handleMask g) 2 ++ leBytes (flagMask g) 2),
   .cap 0x50 g.handler] ++
  g.r.g.map (fun x => .data (0x100 + 8 * x.1) (leBytes x.2.toNat 8)) ++
  g.r.gc.map (fun x => .cap (0x300 + 16 * x.1) x.2) ++
  g.r.h.map (fun x => .data (0x400 + 8 * x.1) (leBytes x.2.toNat 8)) ++
  [.data 0x500 ((List.range 256).flatMap (fun t => leBytes (threadWord (g.thread t)) 2)),
   .data 0x700 ((List.range 7).flatMap (fun p => leBytes (preds p) 32))] ++
  g.th.map (fun x => .data (0x800 + 4 * x.1) (leBytes x.2.fpst.toNat 4)) ++
  [.data 0xC00 ((List.range 128).flatMap (fun r =>
     leBytes (if KeySet.has g.mapped r then (g.mapped.filter (· < r)).length else 0xFF) 1))]

/-- Does an instruction mark a source last read (R42)? -/
def marksRead (i : Instr) : Bool := match formOf i with | some (_, e) => e.la || e.lb || e.lc | none => false

/-- Is the instruction a TST, whose data are staged elements (R223)? -/
def isTst (i : Instr) : Bool := match i with | .tst _ => true | _ => false

/-- What stands in DATA (R361), by place, eight bytes each. A staged element has its bytes there, by thread, and its address in the
plain record. An exchange has what R183 names: the last value, or acc, in the first place; acc and flags of RED; and what the
others have gathered, by thread: values, for VOTE the predicates, for TOPK the companions above 32-bit keys; for COMPACT the
selected values in order with their number in the last place, where NEXT keeps its last participant's b (a held sweep has not
reached thread 255; DESIGN CHOICE, log 27). -/
def dataImage (i : Instr) (d : Tab W64) : List (Nat × W64) :=
  let parts := exParts d
  match i with
  | .tst _ => d.filterMap (fun x => if x.1 % 2 = 1 then some (x.1 / 2, x.2) else none)
  | .red _ => [(0, Tab.lookD d 1024 0), (1, Tab.lookD d 1025 0)]
  | .vote _ => parts.map (fun t => (t, if exSel d t then 1 else 0))
  | .topk _ => parts.map (fun t => (t, (exGotB d t).setWidth 32 ++ (exGot d t).setWidth 32))
  | .compact _ =>
    let ys := parts.filter (exSel d)
    (ys.zipIdx.map (fun x => (x.2, exGot d x.1))) ++ [(255, BitVec.ofNat 64 ys.length)]
  | .nextI _ => parts.map (fun t => (t, exGot d t)) ++ [(255, exGotB d (parts.getLast?.getD 0))]
  | _ => d.filter (·.1 < 256)

/-- A replay record (R361). -/
def replayImage (h : Held) : List Piece :=
  let carried := h.data ≠ [] ∧ dataImage h.instr h.data ≠ []
  let kind := 1 + (if carried ∧ !isTst h.instr then 2 else 0) + (if carried ∧ isTst h.instr then 4 else 0) +
    (if marksRead h.instr then 8 else 0)
  [.data 0 (leBytes h.seq 8 ++ leBytes h.iaddr.toNat 8 ++ leBytes h.res 2 ++
      leBytes (match h.flag with | some n => n + 16 | none => 0) 2 ++ leBytes kind 4),
   .data 0x18 (h.words.flatMap bytesOfWord),
   .data 0x40 (leBytes (maskNat h.active) 32 ++ leBytes (maskNat h.defer) 32 ++ leBytes h.dflags.toNat 4)] ++
  (if carried then (dataImage h.instr h.data).map (fun x => .data (0x800 + 8 * x.1) (leBytes x.2.toNat 8)) else [])

def shiftPiece (n : Nat) : Piece → Piece
  | .data o b => .data (n + o) b
  | .cap o c => .cap (n + o) c

/-- A group save area (R372). -/
def groupImage (s : State) (g : Group) : List Piece :=
  groupBlock s g ++
  g.th.map (fun x => .cap (0x1000 + 16 * x.1) x.2.code) ++
  g.th.map (fun x => .data (0x2000 + 8 * x.1) (leBytes x.2.tpc.toNat 8)) ++
  [.data 0x3000 ((List.range 128).flatMap (fun r =>
     leBytes (maskNat ((g.aband.filter (fun k => k / 256 == r)).map (· % 256))) 32))] ++
  (((allHeld g).take 4).zipIdx.flatMap (fun x => (replayImage x.1).map (shiftPiece (0x4000 + 4096 * x.2)))) ++
  (g.th.flatMap (fun x => x.2.c.map (fun c => Piece.cap (0x8000 + 512 * x.1 + 16 * c.1) c.2))) ++
  (g.th.flatMap (fun x => x.2.w.map (fun w => Piece.data (0x28000 + 1024 * w.1 + 4 * x.1) (leBytes w.2.toNat 4)))) ++
  (g.th.flatMap (fun x => x.2.v.map (fun v =>
     Piece.data (0x2A000 + 1024 * (g.mapped.filter (· < v.1)).length + 4 * x.1) (leBytes v.2.toNat 4))))

/-- A copy record (R363). -/
def copyImage (ch : Nat) (c : Copy) : List Piece :=
  let l := c.lay
  let ctl := l.ndim + l.stype.toNat * 2 ^ 4 + l.dtype.toNat * 2 ^ 10 + (if l.zpad then 2 ^ 16 else 0)
  [.data 0 (leBytes c.seq 8 ++ leBytes (mkHandle c.seq c.hcore 1).toNat 8 ++ leBytes ch 1 ++
      leBytes ((if c.cpyc then 1 else 0) + (if c.count < c.next then 2 else 0)) 1 ++ leBytes 0 6 ++ leBytes c.count 4 ++
      leBytes c.next 4 ++ c.ops.flatMap (fun x => leBytes x.toNat 4)),
   .cap 0x40 c.dest, .cap 0x80 l.src,
   .data 0x90 (leBytes ctl 4 ++ leBytes 0 4 ++ l.ext.flatMap (fun e => leBytes e 4) ++ leBytes 0 4 ++
      l.sstr.flatMap (fun d => leBytes (BitVec.ofInt 64 d).toNat 8) ++ l.dpitch.flatMap (fun d => leBytes d 4))]

/-- A matrix issue record (R364). -/
def mrecImage (r : MRec) : List Byte :=
  leBytes r.seq 6 ++ leBytes r.op 1 ++ leBytes r.slotA 1 ++ leBytes r.slotB 1 ++ leBytes r.tile 1 ++ leBytes r.row 1 ++
    leBytes r.fmt.toNat 4 ++ leBytes 0 1

/-- An engine program record (R374). -/
def progImage (g : Group) (started : Bool) : List Piece :=
  match g.prog with
  | none => []
  | some p =>
    [.data 0 (leBytes (g.thread 0).pc 8 ++ leBytes (mkHandle p.seq p.hcore 3).toNat 8 ++ leBytes (flagMask g) 2 ++
       leBytes (handleMask g) 2 ++ leBytes g.r.fmt.toNat 4 ++ leBytes p.start.toNat 8 ++
       leBytes (p.sq + (if started then 2 else 0)) 1)] ++
    g.r.gc.map (fun x => .cap (0x40 + 16 * x.1) x.2) ++ g.r.h.map (fun x => .data (0x140 + 8 * x.1) (leBytes x.2.toNat 8)) ++
    g.r.g.map (fun x => .data (0x200 + 8 * x.1) (leBytes x.2.toNat 8))

/-- The team block (R374), in the order its rule names the parts; barrier arrivals of numbers 0 to 15, then 0 to 7 of the
cluster (log 27). -/
def teamBlock (s : State) (tk : Nat) (t : Team) (world : Nat) : List Piece :=
  let arr := fun (k : WaitKind) (n : Nat) =>
    ((teamGroups s tk).map (fun g => (g.th.filter (fun x => x.2.wait == k && x.2.barNum == n)).length)).sum
  [.data 0 (leBytes t.num 4 ++ leBytes world 2 ++ leBytes t.pos 2 ++ leBytes t.slots 1 ++ leBytes t.tiles 1 ++ leBytes 0 6 ++
     (List.range 16).flatMap (fun n => leBytes (arr .bar n) 4) ++ (List.range 8).flatMap (fun n => leBytes (arr .barc n) 4))]

/-- Team save area: its parts that the team uses (R374). -/
def teamImage (s : State) (tk : Nat) (t : Team) (world : Nat) (copies : List (Nat × Copy)) (recs : List MRec)
    (progs : List (Group × Bool)) : List Piece :=
  teamBlock s tk t world ++
  ((copies.zipIdx).flatMap (fun x => (copyImage x.1.1 x.1.2).map (shiftPiece (0x1000 + 256 * x.2)))) ++
  ((recs.zipIdx).map (fun x => Piece.data (0x5000 + 16 * x.2) (mrecImage x.1))) ++
  ((progs.zipIdx).flatMap (fun x => (progImage x.1.1 x.1.2).map (shiftPiece (0x6000 + 1024 * x.2)))) ++
  t.sdat.map (fun x => Piece.data (0x128A000 + 0x8800 * (x.1 / 2 ^ 16) + x.1 % 2 ^ 16) [x.2]) ++
  t.sscale.map (fun x => Piece.data (0x128A000 + 0x8800 * (x.1 / 2 ^ 12) + 0x8000 + x.1 % 2 ^ 12) [x.2]) ++
  t.tdat.map (fun x => Piece.data (0x14AA000 + 0x10000 * (x.1 / 2 ^ 14) + 4 * (x.1 % 2 ^ 14)) (leBytes x.2.toNat 4))

/-- The team save area that a core's table names (R375): zero where none is named. -/
def saveArea (s : State) (core : Nat) (t : Team) : Nat :=
  s.readNat ((s.core core).sup.savebase.toNat + 8 * t.idx) 8 % 2 ^ 56

/-- Save the image of a group at its place in its team's save area (R374): of the rows area, the rows it holds (R372). -/
def saveGroup (s : State) (area : Nat) (g : Group) : State :=
  putImage s g.ids.world (area + 0xA000 + 0x4A000 * g.ids.place) (0x2A000 + 1024 * g.mapped.length) (groupImage s g)

/-- The parts of a team save area that the team uses, groups and window apart: offsets and lengths (R374). -/
def teamParts (t : Team) (copies recs progs : Nat) : List (Nat × Nat) :=
  [(0, 0x1000), (0x1000, 256 * copies), (0x5000, 16 * recs), (0x6000, 1024 * progs)] ++
    (List.range t.slots).map (fun n => (0x128A000 + 0x8800 * n, 0x8800)) ++
    (List.range t.tiles).map (fun n => (0x14AA000 + 0x10000 * n, 0x10000))

/-- Save the image of a team: every byte of a part that is used is written. -/
def saveTeam (s : State) (area tk : Nat) (t : Team) (world : Nat) (copies : List (Nat × Copy)) (recs : List MRec)
    (progs : List (Group × Bool)) : State :=
  let s' := (teamParts t copies.length recs.length progs.length).foldl (fun s p =>
    keyZero s (s.keys.world world).key (area + p.1) p.2) s
  (teamImage s tk t world copies recs progs).foldl (putPiece area) s'

end Sys2Proof.Machine
end

