-- ==== Sys2Proof/Machine/Supervise.lean ====
section
/-! DEFINITION. Completion of long-latency work, deliveries, parking, and the supervisor core's access to groups
(R23, R34, R208, R294 to R296, R359 to R371, R375, R376). -/

namespace Sys2Proof.Machine

/-! ### Completion (R34, R123, R208) -/

/-- LONG_LATENCY_COMPLETE: the n-th pending instruction of the group, unless an engine has still to produce it; the part
of a held sweep keeps its flag (R34). -/
def llComplete (s : State) (k n : Nat) : State :=
  match s.group k with
  | none => s
  | some g =>
    match g.pend[n]? with
    | none => s
    | some p => if p.ldw || pendHeld s (coreOf k) p then s else s.setGroup k (completePend g p)

/-- LDW_RETURN: the oldest LDW of the group. -/
def ldwReturnOp (s : State) (k : Nat) : State :=
  match s.group k with
  | none => s
  | some g =>
    match (g.pend.filter (fun p => p.ldw)).getLast? with
    | none => s
    | some p => s.setGroup k (completePend g p)

/-! ### Rows (R44, R45, R294) -/

/-- ROW_FREED: one row refills the reserve up to 64, and then the general rows. -/
def rowFreedOp (s : State) (core part : Nat) : State :=
  s.onCore core (fun c =>
    let p := c.part part
    if p.freeing = 0 then c
    else c.setPart part (if p.rsv < 64 then { p with rsv := p.rsv + 1, freeing := p.freeing - 1 }
                         else { p with gen := p.gen + 1, freeing := p.freeing - 1 }))

/-- No engine pass that has started works for the team (R371). -/
def noRunPass (s : State) (core tk : Nat) : Bool :=
  let m := (s.core core).mx
  (m.ended ++ m.run.toList).all (fun p => p.recs.all (fun r => r.team != tk))

/-- Flags that held sweeps keep set (R34) are not waited for: their instructions have completed for the threads processed so
far (R295). -/
def heldFlags (g : Group) : List Nat := (allHeld g).filterMap (fun h => h.flag)

/-- Every flag is clear but for those. -/
def flagsQuiet (g : Group) : Bool := g.r.fl.all (fun x => decide (x.2 ≤ ((heldFlags g).filter (· == x.1)).length))

/-- What a park waits for is done (R295, R371): the clause boundary, or a stop; long-latency work of the threads processed so
far; copies into the registers; a started pass. Of the two ends that R295 leaves the device for a sweep in flight, the model takes
completion (DESIGN CHOICE, log 79). -/
def parkReady (s : State) (k : Nat) (g : Group) : Bool :=
  (g.clause.isNone || g.sup.isSome || g.deliv.isSome) && g.drain.isNone && g.pend == [] &&
    flagsQuiet g && !copyInto s (coreOf k) g && noRunPass s (coreOf k) g.ids.team

/-- Take a group off its position, its rows freed. -/
def unseat (s : State) (k : Nat) (g : Group) : State :=
  freeRows { s with groups := Tab.rem s.groups k } k (g.mapped.length + (if g.trap.isSome then 8 else 0))

/-- Rank of a group for eviction: the identifier of its lowest live thread, then the world (R45). A group all of whose threads have
exited has none: it ranks with identifier 0 (DESIGN CHOICE, log 54). -/
def evictRank (s : State) (g : Group) : Nat :=
  (match g.lowestLive with | some t => threadId s g t | none => 0) * 2 ^ 12 + g.ids.world

/-- Rows a group holds: general ones, and its window's. -/
def groupRows (g : Group) : Nat := g.mapped.length + (if g.trap.isSome then 8 else 0)

/-- The group a partition evicts (R45). Teams of two launches of a world may give two groups one rank: the first in the order
of positions goes then (DESIGN CHOICE, log 54). -/
def evictVictim (s : State) (core part : Nat) : Option (Nat × Group) :=
  (s.groups.filter (fun x => coreOf x.1 == core && partOf x.1 == part && posOf x.1 < 128 && groupRows x.2 != 0 &&
    !favoured s x.1)).foldl (fun best x =>
      match best with
      | none => some x
      | some y => if evictRank s y.2 < evictRank s x.2 then some x else best) none

/-- The save area named for a group's team: zero for none (R375). -/
def groupSave (s : State) (k : Nat) (g : Group) : Nat :=
  match Tab.look s.teams g.ids.team with | some t => saveArea s (coreOf k) t | none => 0

/-- The event that a park needs a save area (R375). -/
def saveMissing (s : State) (k : Nat) (g : Group) : State :=
  let d : Delivery := ⟨0x4000, 0, [], 0, 0, 0, 0, 0, false⟩
  coreEvent s (coreOf k) (eventRecord s k g d 0)

/-- Save a group in its area, its capabilities checked while a revocation sweep runs (R103), with a release at .dev for its threads
(R324); where the area is not named the event is raised and the group waits in `wait` (R375). -/
def parkGroup (s : State) (k : Nat) (g : Group) (wait : ParkState) (f : State → Group → State) : State :=
  let area := groupSave s k g
  if area = 0 then saveMissing (s.setGroup k { g with park := wait }) k g
  else
    let g := walkGroup s g
    f (releaseFar (saveGroup s area g) 3) g

/-- How a group stands once it has been saved: one that a delivery or a command has parked stays parked, and its resumption takes the
step of R324; any other runs again when it is seated. -/
def parkedAs (g : Group) : ParkState := if g.sup.isSome ∨ g.park = .parked then .parked else .running

/-- Evict a group that is ready: its rows are saved and freed, and it waits in its core's return list (R45, R294). -/
def evictNow (s : State) (k : Nat) (g : Group) : State :=
  parkGroup s k g .missingEvict (fun s g =>
    (unseat s k g).onCore (coreOf k) (fun c => { c with ret := c.ret ++ [{ g with park := parkedAs g }] }))

/-- What a group that waits for its save area goes on with. -/
def afterMissing : ParkState → Option ParkState
  | .missing => some .requested
  | .missingEvict => some .evicting
  | .missingStop => some .stopping
  | _ => none

/-- A partition's eviction goes on: the group that is to be evicted stops at its next clause boundary, and is evicted when it
is ready; a group that has become favoured stays. One that is being parked already is evicted once it stands parked. -/
def evictGroup (s : State) (core part : Nat) : State :=
  match s.groups.find? (fun x => coreOf x.1 == core && partOf x.1 == part && (x.2.park == .evicting || x.2.park == .missingEvict)) with
  | some (k, g) =>
    if g.park = .missingEvict then s
    else if favoured s k then s.setGroup k { g with park := .running }
    else if parkReady s k g then evictNow s k g
    else s
  | none =>
    match evictVictim s core part with
    | none => s
    | some (k, g) =>
      if g.park = .requested ∨ (afterMissing g.park).isSome then s
      else if g.sup.isSome ∨ g.park = .parked then (if parkReady s k g then evictNow s k g else s)
      else s.setGroup k { g with park := .evicting }

/-- Is an eviction of the partition under way (R294)? -/
def evictionOn (s : State) (core part : Nat) : Bool :=
  s.groups.any (fun x => coreOf x.1 == core && partOf x.1 == part && x.2.park == .evicting)

/-- Seat a group on a partition that has a position and its rows (R294), the lowest-numbered of them (DESIGN CHOICE, log 65); `none` where no partition has, or where the
positions left are reserved (R283). The core's device generation steps before the group issues (R324). -/
def seatGroup (s : State) (core : Nat) (g : Group) : Option State := do
  let c := s.core core
  if !positionFree s core then none
  let p ← (List.range 8).find? (fun p => freePositions s core p != [] && decide (groupRows g ≤ (c.part p).gen))
  let pos ← (freePositions s core p).head?
  let s := s.setCore core (c.setPart p { (c.part p) with gen := (c.part p).gen - groupRows g })
  some (wakeHandles (stepGen (s.setGroup (core * 256 + pos) { g with ids := { g.ids with rsv := 0 } }) core true))

/-- Parked groups return in ascending identifier of their lowest runnable thread (R294); those without one come after all others, by
their thread 0 (DESIGN CHOICE, log 65). -/
def returnOrder (s : State) (g : Group) : Nat :=
  match g.lowestOwed with | some t => threadId s g t | none => 2 ^ 40 + threadId s g 0

def firstReturn (s : State) : List Group → Option Group
  | [] => none
  | g :: l =>
    match firstReturn s l with
    | none => some g
    | some h => if returnOrder s h < returnOrder s g then some h else some g

/-- EVICTED_RETURN. -/
def evictedReturnOp (s : State) (core : Nat) : State :=
  let c := s.core core
  match firstReturn s c.ret with
  | none => s
  | some g => (seatGroup (s.setCore core { c with ret := c.ret.erase g }) core g).getD s

/-! ### Deliveries (R24, R25, R359) -/

/-- Entry to the user handler once its window's rows can be taken; the delivery waits otherwise. -/
def enterOrWait (s : State) (k : Nat) (d : Delivery) : State :=
  match takeWindow s k with
  | none => s.onGroup k (fun g => { g with deliv := some d })
  | some s => s.onGroup k (fun g => enterHandler g d)

/-- A waiting delivery of one class is delivered: STOP_FAULT_DELIVER, SWEEP_END_TRAP and HANDLER_ENTRY. -/
def deliverWaiting (s : State) (k : Nat) (f : Delivery → Bool) : State :=
  match s.group k with
  | none => s
  | some g =>
    match g.deliv with
    | none => s
    | some d => if f d && g.park == .running then enterOrWait s k d else s

/-! ### Parking (R295, R371, R375) -/

/-- The group a supervisor core selects (R366). -/
def selKey (s : State) (core : Nat) : Nat := core * 256 + (s.core core).sup.pwsel.toNat

/-- PARK_COMPLETE: the group is saved and stands parked, or the missing save area is reported. The command is done then with RESULT 1,
not parked, so that the RESUME for which the park waits (R375) is taken and not ignored under BUSY (R370; DESIGN CHOICE, log 75). -/
def parkComplete (s : State) (k : Nat) : State :=
  match s.group k with
  | none => s
  | some g =>
    if g.park ≠ .requested ∨ !parkReady s k g then s
    else
      let missing := groupSave s k g = 0
      (parkGroup s k g .missing (fun s g => s.setGroup k { g with park := .parked })).onSup (coreOf k)
        (fun u => u.done (if missing then 1 else 0))

/-- Every PWCTL command is ignored while BUSY is set, and refused when no group is selected (R367, R370). -/
def pwctl (s : State) (core : Nat) (f : Nat → Group → State) : State :=
  if (s.core core).sup.busy then s
  else match s.group (selKey s core) with
    | none => s.onSup core (fun u => u.done 4)
    | some g => if posOf (selKey s core) < 128 then f (selKey s core) g else s.onSup core (fun u => u.done 4)

/-- PARK. A group that a command has parked already is done at once; one that a delivery has parked is saved with it (R371). -/
def parkOp (s : State) (core : Nat) : State :=
  pwctl s core (fun k g =>
    match g.park with
    | .running | .stopping | .evicting | .delivered => (s.setGroup k { g with park := .requested }).onSup core (fun u => { u with busy := true })
    | _ => s.onSup core (fun u => u.done 0))

/-- Release a group: its held sweeps replay (R362); threads whose tpc was changed have left them (R369). -/
def resumeGroup (g : Group) : Group :=
  let g := { g with sup := none, park := .running }
  { g with clause := keepClause g [] g.clause }

/-- RESUME. A park that waits for its save area goes on with the table as it now stands (R375): one that a command has asked for is a
command under way again. -/
def resumeOp (s : State) (core : Nat) : State :=
  pwctl s core (fun k g =>
    match afterMissing g.park with
    | some p => (s.setGroup k { g with park := p }).onSup core (fun u => if p = .requested then { u with busy := true } else u.done 0)
    | none =>
      if g.park = .delivered ∨ g.park = .parked then
        let s := if g.park = .parked then stepGen s core true else s
        wakeHandles ((s.setGroup k (resumeGroup g)).onSup core (fun u => u.done 0))
      else s.onSup core (fun u => u.done 1))

/-- May the supervisor core reach the group's registers? -/
def pwOpen (g : Group) : Bool := g.park == .delivered || g.park == .parked || (afterMissing g.park).isSome || g.sup.isSome

/-- REFLECT (R370): RESULT 2 for a group in trap mode or without a handler; a group that was parked resumes with an acquire at .dev
(R324). With no handler installed a fault that is held goes to the supervisor core, its event carrying IN_HANDLER (R360). -/
def reflectOp (s : State) (core : Nat) : State :=
  pwctl s core (fun k g =>
    if !pwOpen g then s.onSup core (fun u => u.done 1)
    else
      let held := g.sup.map (fun d => { d with tcause := (s.core core).sup.pwdata.setWidth 16 })
      if g.trap.isSome then s.onSup core (fun u => u.done 2)
      else if !g.hasHandler then
        (match held with
         | some d => coreEvent ((s.setGroup k { g with sup := some d }).onSup core (fun u => u.done 2)) core (eventRecord s k g d (eventFlags g + 1))
         | none => s.onSup core (fun u => u.done 2))
      else match held with
        | none => s.onSup core (fun u => u.done 1)
        | some d =>
          let s := if g.park = .parked then stepGen s core true else s
          (enterOrWait (s.setGroup k { g with sup := none, park := .running }) k d).onSup core (fun u => u.done 0))

/-! ### TERMINATE (R276, R370) -/

/-- A group of a terminated launch runs nothing more. -/
def stopGroup (g : Group) : Group :=
  { g with
    th := Tab.mapv (fun _ x => { x with st := .exited, wait := .none }) g.th
    clause := none, held := [], deliv := none, drain := none, sup := none, park := .running, hold := .none
    trap := g.trap.map (fun t => { t with saved := [] })
    r := { g.r with fl := (heldFlags g).foldl (fun f n => Tab.cput 0 f n (Tab.lookD f n 0 - 1)) g.r.fl }
    pend := g.pend.filter (fun p => p.flag.isSome) }

/-- Copies of a launch are cancelled on every channel. -/
def cancelLaunchOps (s : State) (lid : Nat) : State :=
  let mine := fun (tk : Nat) => match Tab.look s.teams tk with | some t => t.launch == lid | none => false
  let s := s.cores.foldl (fun s c => c.2.ch.foldl (fun s x => x.2.foldl (fun s y =>
    if mine y.team then cancelCopy s c.1 x.1 y.hcore y.seq else s) s) s) s
  let progs := (s.groups.filterMap (fun x => if x.2.prog.isSome && mine x.2.ids.team then x.2.prog else none)) ++
    s.cores.flatMap (fun c => (c.2.pq0 ++ c.2.pq1).filterMap (fun g => if mine g.ids.team then g.prog else none))
  progs.foldl (fun s p => cancelProgram s p.hcore p.seq) s

/-- A blocked claim of a terminated team is dropped; its predicate stays as it was. -/
def dropClaim (s : State) (tk : Nat) : State :=
  match (Tab.look s.teams tk).bind (fun t => t.claim) with
  | none => s
  | some c =>
    (s.onTeam tk (fun t => { t with claim := none })).onGroup c.gk (fun g =>
      clearFlag { g with pend := g.pend.filter (fun p => p.seq != c.seq) } c.flag)

/-- End a launch that runs: unplaced and saved units go, groups stop, engines are cancelled. -/
def terminateLaunch (s : State) (lid : Nat) : State :=
  match Tab.look s.launches lid with
  | none => s
  | some l =>
    let d := { s.dist with queues := Tab.mapv (fun _ q => q.filter (fun e => e.launch != lid)) s.dist.queues }
    let s := watchHead { s with dist := d }
    let s := cancelLaunchOps s lid
    let saved := s.units.filter (fun u => u.2.launch == lid && u.2.saved.isSome)
    let ops := saved.flatMap (fun u => match u.2.saved with
      | some v => (v.copies.map (fun c => (c.2.2.hcore, c.2.2.seq, stCANCELLED))) ++
          v.progs.filterMap (fun p => p.2.2.prog.map (fun q => (q.hcore, q.seq, q.outcome.getD stCANCELLED)))
      | none => [])
    let s := ops.foldl (fun s x => opDone s x.1 x.2.1 x.2.2) s
    let gone := s.teams.filter (fun t => t.2.launch == lid && saved.any (fun u => u.1 == t.2.unit))
    let s := { s with teams := s.teams.filter (fun t => !gone.any (fun x => x.1 == t.1))
                      units := s.units.filter (fun u => !saved.any (fun x => x.1 == u.1)) }
    let mine := s.teams.filter (fun t => t.2.launch == lid && !t.2.retired)
    let s := mine.foldl (fun s t => dropClaim s t.1) s
    let isMine := fun (g : Group) => mine.any (fun t => t.1 == g.ids.team)
    let cut := fun (c : Core) => ({ c with ret := c.ret.filter (fun g => !isMine g),
                                           bins := c.bins.filter (fun b => !mine.any (fun t => t.1 == b.2.team)) } : Core)
    let s := s.groups.foldl (fun s x => if isMine x.2 then dropPark s x.1 x.2 else s) s
    let s := { s with groups := Tab.mapv (fun _ g => if isMine g ∧ g.prog.isNone then stopGroup g else g) s.groups,
                      cores := Tab.mapv (fun _ c => cut c) s.cores,
                      sysq := s.sysq.filter (fun r => !mine.any (fun t => t.1 == r.team)) }
    let s := s.onLaunch lid (fun l => { l with st := .ending, teamsLeft := mine.length })
    let s := mine.foldl (fun s t => if teamGroups s t.1 = [] then retireTeam s t.1 else s) s
    if l.st = .running then launchDone s lid else s

/-- TERMINATE of the selected group's launch. -/
def terminateOp (s : State) (core : Nat) : State :=
  pwctl s core (fun _ g =>
    (match Tab.look s.teams g.ids.team with
     | some t => terminateLaunch s t.launch
     | none => s).onSup core (fun u => u.done 0))

/-! ### Register access (R367, R368) -/

/-- A special register as PWDATA reads it (R367). -/
def pwSpecial (s : State) (k : Nat) (g : Group) (t n : Nat) : Option W64 :=
  let tm := Tab.look s.teams g.ids.team
  let la := tm.bind (fun x => Tab.look s.launches x.launch)
  let tr : Nat × Nat × Nat × KeySet := match g.trap with
    | some x => (x.tcause.toNat, x.tinst.toNat, x.tres, x.tmask)
    | none => (match g.sup with | some d => (d.tcause.toNat, d.tinst.toNat, d.tres, d.tmask) | none => (0, 0, 0, []))
  let tpc := if g.trap.isSome then (g.thread t).tpc
    else match g.sup with
      | some d => if d.tmask.head? = some t ∨ d.tres = t then BitVec.ofNat 64 (g.thread t).pc else 0
      | none => 0
  let o := fun (x : Nat) => some (BitVec.ofNat 64 x)
  match n with
  | 0x00 => o t
  | 0x01 => o g.ids.grp
  | 0x02 => o (teamNum s g)
  | 0x03 => o (match tm.bind (fun x => Tab.look s.units x.unit) with | some u => u.index % 256 | none => 0)
  | 0x04 => some (g.r.fmt.setWidth 64)
  | 0x05 => some ((g.thread t).fpst.setWidth 64)
  | 0x06 => some (g.r.fpctl.setWidth 64)
  | 0x07 => some tpc
  | 0x08 => o tr.1
  | 0x09 => o tr.2.1
  | 0x0A => o (maskNat tr.2.2.2 % 2 ^ 64)
  | 0x0B => o (maskNat tr.2.2.2 / 2 ^ 64 % 2 ^ 64)
  | 0x0C => o (maskNat tr.2.2.2 / 2 ^ 128 % 2 ^ 64)
  | 0x0D => o (maskNat tr.2.2.2 / 2 ^ 192 % 2 ^ 64)
  | 0x0E => o tr.2.2.1
  | 0x0F => o s.time.ftime
  | 0x10 => o (s.core (coreOf k)).seq
  | 0x11 => o (match la with | some l => l.nteam | none => 0)
  | 0x12 => o (match la with | some l => l.ngrp | none => 0)
  | _ => none

/-- Half h of a capability. -/
def capHalf (c : Cap) (h : Nat) : W64 := c.bits.extractLsb' (64 * h) 64
def capSetHalf (c : Cap) (h : Nat) (x : W64) : Cap :=
  ⟨if h = 0 then c.bits.extractLsb' 64 64 ++ x else x ++ c.bits.extractLsb' 0 64, false⟩

/-- What PWDATA reads at an index: none for one the table does not list. -/
def pwRead (s : State) (k : Nat) (g : Group) (t ix : Nat) : Option W64 :=
  if ix < 0x1A0 then some ((regRead g s.ctr t ix).setWidth 64)
  else if ix < 0x1A8 then some (if g.trap.isSome then (Tab.lookD (g.thread t).w (ix - 0x1A0) 0).setWidth 64 else 0)
  else if 0x200 ≤ ix ∧ ix < 0x240 then some (g.greg (ix - 0x200))
  else if 0x240 ≤ ix ∧ ix < 0x260 then some (capHalf (g.gcap ((ix - 0x240) / 2)) (ix % 2))
  else if 0x260 ≤ ix ∧ ix < 0x270 then some (if (g.gcap (ix - 0x260)).tag then 1 else 0)
  else if 0x280 ≤ ix ∧ ix < 0x290 then some ((g.handle (ix - 0x280)).getD 0)
  else if ix = 0x290 then some (BitVec.ofNat 64 (handleMask g))
  else if ix = 0x291 then some (BitVec.ofNat 64 (flagMask g))
  else if ix = 0x292 then some (BitVec.ofNat 64 (statCode (g.thread t).st))
  else if 0x300 ≤ ix ∧ ix < 0x400 then pwSpecial s k g t (ix - 0x300)
  else none

/-- PWDATA_READ: the value read stands in PWDATA. -/
def pwdataReadOp (s : State) (core : Nat) : State :=
  let u := (s.core core).sup
  let k := selKey s core
  match s.group k with
  | none => s.onSup core (fun u => { u with pwdata := 0, result := 4 })
  | some g =>
    if !pwOpen g then s.onSup core (fun u => { u with pwdata := 0, result := 1 })
    else match pwRead s k g u.pwtid.toNat u.pwidx.toNat with
      | none => s.onSup core (fun u => { u with pwdata := 0, result := 3 })
      | some x => s.onSup core (fun u => { u with pwdata := x, result := 0 })

/-- What a PWDATA write comes to. -/
inductive PwRes where
  | ok (s : State)
  | badIndex
  | refused
  deriving DecidableEq, Repr

/-- A first write by PWDATA needs a general row within the budget (R367). -/
def pwMap (s : State) (k : Nat) (g : Group) (r : Nat) : Option State :=
  if KeySet.has g.mapped r then some s
  else
    let c := s.core (coreOf k)
    let p := c.part (partOf k)
    if g.ids.budget ≤ g.mapped.length ∨ p.gen = 0 then none
    else
      some ((s.setCore (coreOf k) (c.setPart (partOf k) { p with gen := p.gen - 1 })).setGroup k
        { g with mapped := KeySet.ins g.mapped r, ids := { g.ids with rows := g.ids.rows + 1 } })

/-- The supervisor core changes a thread's tpc (R369): it leaves every held sweep and the clause, and resumes at the new tpc. In
trap mode a handler thread's tpc is where it resumes after ERET, which drops it then (R195); another thread leaves the
interrupted sweeps now. -/
def pwTpc (g : Group) (t : Nat) (x : W64) : Group :=
  let moved := (g.onThread t (fun th => { th with code := capSetAddr th.code (x.toNat : Int) }))
  if BitVec.ofNat 64 (g.thread t).pc = x ∧ g.trap.isNone then g
  else match g.trap with
    | some tr =>
      if KeySet.has tr.tmask t then g.onThread t (fun th => { th with tpc := x })
      else
        let new := dropThreads tr.saved [t]
        let c := tr.clause.map (fun c => { c with set := c.set.filter (· != t) })
        clearDropped tr.saved new { moved with trap := some { tr with saved := new, clause := c } }
    | none =>
      let new := dropThreads g.held [t]
      let c := moved.clause.map (fun c => { c with set := c.set.filter (· != t) })
      clearDropped g.held new { moved with held := new, clause := c }

/-- PWDATA writes by index (R367, R369). -/
def pwWrite (s : State) (k : Nat) (g : Group) (t ix : Nat) (x : W64) : PwRes :=
  let y : W32 := x.setWidth 32
  let set := fun (f : Group → Group) => PwRes.ok (s.setGroup k (f g))
  if ix < 0x80 then
    match pwMap s k g ix with
    | none => .refused
    | some s => .ok (s.onGroup k (fun g => regWrite g t ix y))
  else if ix < 0x1A0 then set (fun g => regWrite g t ix y)
  else if ix < 0x1A8 then
    if g.trap.isSome then set (fun g => g.onThread t (fun th => th.setV true (ix - 0x1A0 + 120) y)) else .badIndex
  else if 0x200 ≤ ix ∧ ix < 0x240 then set (fun g => writeG g (ix - 0x200) x)
  else if 0x240 ≤ ix ∧ ix < 0x260 then
    let j := (ix - 0x240) / 2
    set (fun g => writeC g t (32 + j) (capSetHalf (g.gcap j) (ix % 2) x))
  else if 0x260 ≤ ix ∧ ix < 0x270 then
    let j := ix - 0x260
    set (fun g => if x.getLsbD 0 then g else writeC g t (32 + j) (capUntag (g.gcap j)))
  else if 0x280 ≤ ix ∧ ix < 0x290 then set (fun g => writeH g (ix - 0x280) (some ((x.setWidth 60).setWidth 64)))
  else if ix = 0x290 then
    set (fun g => (List.range 16).foldl (fun g i => if x.getLsbD i then g else writeH g i none) g)
  else if ix = 0x304 then set (fun g => { g with r := { g.r with fmt := y } })
  else if ix = 0x305 then set (fun g => g.onThread t (fun th => { th with fpst := fpstStored y }))
  else if ix = 0x306 then set (fun g => { g with r := { g.r with fpctl := fpctlStored y } })
  else if ix = 0x307 then set (fun g => pwTpc g t x)
  else .badIndex

/-- PWDATA_WRITE: PWDATA keeps what is written, for REFLECT, CAPLOAD and CAPSTORE (R368, R370). -/
def pwdataWriteOp (s : State) (core : Nat) (x : W64) : State :=
  let s := s.onSup core (fun u => { u with pwdata := x })
  let u := (s.core core).sup
  let k := selKey s core
  match s.group k with
  | none => s.onSup core (fun u => { u with result := 4 })
  | some g =>
    if !pwOpen g then s.onSup core (fun u => { u with result := 1 })
    else match pwWrite s k g u.pwtid.toNat u.pwidx.toNat x with
      | .ok s => s.onSup core (fun u => { u with result := 0 })
      | .badIndex => s.onSup core (fun u => { u with result := 3 })
      | .refused => s.onSup core (fun u => { u with result := 4 })

/-- The capability register PWIDX names: a thread's, or gc as 32 + j (R368). -/
def pwCapReg (ix : Nat) : Option Nat :=
  if 0x100 ≤ ix ∧ ix < 0x180 ∧ ix % 4 = 0 then some ((ix - 0x100) / 4)
  else if 0x240 ≤ ix ∧ ix < 0x260 ∧ ix % 2 = 0 then some (32 + (ix - 0x240) / 2)
  else none

/-- CAPLOAD and CAPSTORE share their checks (R368). -/
def pwCap (s : State) (core : Nat) (f : Nat → Group → Nat → Nat → State) : State :=
  pwctl s core (fun k g =>
    let u := (s.core core).sup
    if !pwOpen g then s.onSup core (fun u => u.done 1)
    else match pwCapReg u.pwidx.toNat with
      | none => s.onSup core (fun u => u.done 3)
      | some r =>
        if u.pwdata.toNat % 16 ≠ 0 ∨ !paLocal s u.pwdata.toNat then s.onSup core (fun u => u.done 4)
        else (f k g r u.pwdata.toNat).onSup core (fun u => u.done 0))

def caploadOp (s : State) (core : Nat) : State :=
  pwCap s core (fun k g r pa =>
    (snoopFor s pa 16 false).setGroup k (writeC g (s.core core).sup.pwtid.toNat r (revCheck s g.ids.asid (devCap s pa))))

/-- CAPSTORE stores the register with its tag; a capability without ROAM loses it, since R89 confines it to registers and vault memory,
which no address of R368 names (DESIGN CHOICE, log 67). A page that no agent may write keeps its granule (R453). -/
def capstoreOp (s : State) (core : Nat) : State :=
  pwCap s core (fun _ g r pa =>
    keyCap s (s.keys.world 0).key pa (roamOnly (revCheck s g.ids.asid (g.capField (s.core core).sup.pwtid.toNat r))))

/-! ### Context switches (R296, R376) -/

/-- Does the record belong to a team of the unit? -/
def inUnit (u : CUnit) (tk : Nat) : Bool := u.teams.contains tk

/-- The teams of a unit with their cores. -/
def unitTeams (s : State) (u : CUnit) : List (Nat × Team) := u.teams.filterMap (fun k => (Tab.look s.teams k).map (fun t => (k, t)))

/-- Granules of memory, each with its tag, of which a revocation sweep leaves the tag (R103). -/
def tagsKept (s : State) (asid : Nat) (m : Memory) (tags : KeySet) : KeySet :=
  tags.filter (fun g => (revCheck s asid (capOfBytes (m.bytes (16 * g) 16) true)).tag)

/-- The address space of a team. -/
def teamAsid (s : State) (t : Team) : Nat := match Tab.look s.launches t.launch with | some l => l.asid | none => 0

/-- Cells and tags of a team's window, by offset; a tagged capability is checked while a revocation sweep runs (R103). -/
def windowOf (s : State) (t : Team) : Tab Byte × KeySet :=
  let a := vaultHome t.core t.vbase
  ((s.mem.cells.filter (fun c => a ≤ c.1 ∧ c.1 < a + t.vlen)).map (fun c => (c.1 - a, c.2)),
   (tagsKept s (teamAsid s t) s.mem (s.mem.tags.filter (fun g => a ≤ 16 * g ∧ 16 * g < a + t.vlen))).map (fun g => g - a / 16))

/-- Is every part of the unit at a point where it can be saved? Engine programs stop before their next instruction, and a copy
into registers, skipped rows included, is waited for (R376). -/
def unitReady (s : State) (u : CUnit) : Bool :=
  s.groups.all (fun x => !inUnit u x.2.ids.team || x.2.prog.isSome ||
    (parkReady s x.1 x.2 && x.2.park != .requested && (afterMissing x.2.park).isNone)) &&
    s.cores.all (fun c => c.2.ch.all (fun x => x.2.all (fun y => !inUnit u y.team || descKind (opDesc y.ops) != 3))) &&
    (unitTeams s u).all (fun t => noRunPass s t.2.core t.1 && t.2.claim.isNone && !t.2.relSlots && !t.2.relTiles)

/-- A saved group: stopped for the switch, it runs again when it is seated; one that a delivery or a command has parked stays
parked (R296, R365). -/
def savedGroup (s : State) (g : Group) : Group :=
  walkGroup s { g with park := parkedAs g }

/-- The issuer of a record that moves: a program's sequencer, or a group, whose flags are clear. -/
def movedKey (gk : Nat) : Nat := if 2 ^ 41 ≤ gk then gk else if posOf gk < 128 then 2 ^ 40 else posOf gk

/-- Matrix records of a unit that have not started, in the order of issue (R364): one that has joined a pass has cleared its
flag. -/
def unitRecs (m : Chamois) (u : CUnit) : List MRec :=
  let joined := (m.closed ++ m.opn.toList).flatMap (fun p => p.recs)
  seqSort MRec.seq ((joined.map (fun r : MRec => ({ r with flag := none } : MRec)) ++ m.waits ++ m.queue).filter (fun r => inUnit u r.team))

/-- Everything a switch saves (R374 to R376). -/
def saveUnit (s : State) (u : CUnit) : UnitSave :=
  let cores := (unitTeams s u).map (fun t => (t.2.pos, t.2.core))
  { groups := (s.groups.filterMap (fun x => if inUnit u x.2.ids.team ∧ x.2.prog.isNone then some (savedGroup s x.2) else none)) ++
      cores.flatMap (fun c => ((s.core c.2).ret.filter (fun g => inUnit u g.ids.team)).map (walkGroup s))
    copies := cores.flatMap (fun c => (s.core c.2).ch.flatMap (fun x =>
      (x.2.filter (fun y => inUnit u y.team)).map (fun y => (c.1, x.1, walkCopy s { y with gk := movedKey y.gk }))))
    mrecs := cores.flatMap (fun c => (unitRecs (s.core c.2).mx u).map (fun r => (c.1, { r with gk := movedKey r.gk })))
    progs := cores.flatMap (fun c =>
      (s.groups.filterMap (fun x => if coreOf x.1 = c.2 ∧ inUnit u x.2.ids.team ∧ x.2.prog.isSome then some (c.1, 2, savedGroup s x.2) else none)) ++
      (((s.core c.2).pq0 ++ (s.core c.2).pq1).filter (fun g => inUnit u g.ids.team)).map (fun g => (c.1, 0, walkGroup s g)))
    vaults := (unitTeams s u).map (fun t => (t.2.pos, windowOf s t.2))
    areas := ((unitTeams s u).filter (fun t => !t.2.retired)).map (fun t => (t.2.pos, saveArea s t.2.core t.2)) }

/-- Passes and queues without the unit's records. -/
def mxWithout (u : CUnit) (m : Chamois) : Chamois :=
  let keep := fun (r : MRec) => !inUnit u r.team
  let f := fun (p : Pass) => { p with recs := p.recs.filter keep }
  { m with queue := m.queue.filter keep, waits := m.waits.filter keep, opn := (m.opn.map f).filter (fun p => p.recs != []),
           closed := (m.closed.map f).filter (fun p => p.recs != []) }

/-- The unit's parts leave their cores. -/
def clearUnit (s : State) (u : CUnit) : State :=
  let keys := (s.groups.filter (fun x => inUnit u x.2.ids.team)).map Prod.fst
  let s := keys.foldl (fun s k => match s.group k with | some g => unseat s k g | none => s) s
  let s := (unitTeams s u).foldl (fun s t =>
    { (s.onTeam t.1 (fun t => { t with placed := false })) with mem := s.mem.clearRange (vaultHome t.2.core t.2.vbase) t.2.vlen }) s
  let cores := (unitTeams s u).map (fun t => t.2.core)
  cores.foldl (fun s c => s.onCore c (fun k => { k with
    ret := k.ret.filter (fun g => !inUnit u g.ids.team)
    serving := k.serving.filter (fun x => match (k.chan x.1) with | y :: _ => !inUnit u y.team | [] => false)
    ch := Tab.mapv (fun _ l => l.filter (fun y => !inUnit u y.team)) k.ch
    pq0 := k.pq0.filter (fun g => !inUnit u g.ids.team), pq1 := k.pq1.filter (fun g => !inUnit u g.ids.team)
    mx := mxWithout u k.mx })) s

/-- Write the images of a unit's teams where their save areas are named; one that has retired has no area any more. -/
def unitImages (s : State) (u : CUnit) (v : UnitSave) : State :=
  (unitTeams s u).foldl (fun s t =>
    let area := saveArea s t.2.core t.2
    if area = 0 ∨ t.2.retired then s
    else
      let world := match Tab.look s.launches u.launch with | some l => l.world | none => 0
      let s := saveTeam s area t.1 t.2 world
        ((v.copies.filter (fun c => c.1 == t.2.pos)).map (fun c => (c.2.1, c.2.2)))
        ((v.mrecs.filter (fun r => r.1 == t.2.pos)).map (fun r => r.2))
        ((v.progs.filter (fun p => p.1 == t.2.pos)).map (fun p => (p.2.2, p.2.1 == 2)))
      let s := (v.groups.filter (fun g => g.ids.team == t.1)).foldl (fun s g => saveGroup s area g) s
      match Tab.look v.vaults t.2.pos with
      | none => s
      | some (cells, tags) =>
        let a := area + 0x15AA000
        let s := cells.foldl (fun s c => rawPiece s (a + c.1) [c.2]) (keyZero s (s.keys.world world).key a t.2.vlen)
        { s with mem := { s.mem with tags := tags.foldl (fun ts g =>
          if pageKept s (a + 16 * g) then ts else KeySet.ins ts (g + a / 16)) s.mem.tags } }) s

/-- A group of the unit whose team has no save area named (R375). -/
def unitMissing (s : State) (u : CUnit) : Option (Nat × Group) :=
  s.groups.find? (fun x => inUnit u x.2.ids.team && x.2.prog.isNone && groupSave s x.1 x.2 == 0)

/-- CONTEXT_SWITCH: the unit is parked and saved, with a release at .dev (R324), and re-enters the head of its queue; while some group is not at its
boundary every group of the unit is asked to stop there. -/
def contextSwitchOp (s : State) (uk : Nat) : State :=
  match Tab.look s.units uk with
  | none => s
  | some u =>
    if u.saved.isSome then s
    else if !unitReady s u then
      { s with groups := Tab.mapv (fun _ g =>
          if inUnit u g.ids.team ∧ g.park = .running ∧ g.prog.isNone then { g with park := .stopping } else g) s.groups }
    else match unitMissing s u with
    | some (k, g) => saveMissing (s.setGroup k { g with park := .missingStop }) k g
    | none =>
      let v := saveUnit s u
      let s := clearUnit (releaseFar (unitImages s u v) 3) u
      let s := { s with units := Tab.put s.units uk { u with saved := some v } }
      match Tab.look s.launches u.launch with
      | none => s
      | some l =>
        let q := Tab.lookD s.dist.queues l.prio []
        watchHead { s with dist := { s.dist with
          queues := Tab.put s.dist.queues l.prio (queueBack q ⟨u.launch, u.index, u.index + 1, true⟩) } }

/-- Put a window back, its tagged capabilities checked while a revocation sweep runs (R103). -/
def restoreWindow (s : State) (t : Team) (w : Tab Byte × KeySet) : State :=
  let a := vaultHome t.core t.vbase
  let m := w.1.foldl (fun m c => m.put (a + c.1) c.2) (s.mem.clearRange a t.vlen)
  { s with mem := { m with tags := (tagsKept s (teamAsid s t) m (w.2.map (· + a / 16))).foldl KeySet.ins m.tags } }

/-- A record's issuer on the core it has come to: a program that goes on there, or one that waits for its sequencer. -/
def homeKey (s : State) (v : UnitSave) (pos core gk : Nat) : Nat :=
  if 2 ^ 40 ≤ gk then gk
  else match (v.progs.filter (fun p => p.1 == pos && p.2.1 == 2)).findSome? (fun p => p.2.2.prog.bind (fun q => if q.sq + 128 = gk then some q else none)) with
    | some q => if (s.group (progKey core q.sq)).any (isProg q.hcore q.seq) then progKey core q.sq else progName q
    | none => core * 256 + gk

/-- Matrix operations reissue in the order of their numbers: each takes the next number of the new core (R39, R364), under which a
revocation sweep still waits for it (R103). -/
def reissue (core : Nat) (s : State) (rs : List MRec) : State :=
  let q := (s.core core).seq
  let new := rs.zipIdx.map (fun x => ((x.1.team, x.1.seq), (x.1.team, (q + x.2) % 2 ^ 48)))
  let s := rs.foldl (fun s r => mxPush s core { r with issued := s.time.clock }) s
  { s with rev := { s.rev with waitMx := s.rev.waitMx.map (fun x => ((new.find? (fun n => n.1 == x)).map Prod.snd).getD x) } }

/-- Restored programs, copies and matrix operations of one team's core (R376): copies enter the head of their channels behind the one
that is served, matrix operations reissue in the order of their numbers. -/
def restoreCore (v : UnitSave) (pos core : Nat) (s : State) : State :=
  let ps := v.progs.filter (fun p => p.1 == pos)
  let s := ps.foldl (fun s p =>
    let g := walkGroup s p.2.2
    let sq := match g.prog with | some q => q.sq | none => 0
    if p.2.1 = 2 ∧ (s.group (progKey core sq)).isNone then s.setGroup (progKey core sq) g
    else s.onCore core (fun c => c.setPq sq (c.pq sq ++ [g]))) s
  let back := fun (c : Copy) => walkCopy s { c with gk := homeKey s v pos core c.gk }
  let s := s.onCore core (fun c => (List.range 4).foldl (fun c ch =>
    let l := (v.copies.filter (fun x => x.1 == pos && x.2.1 == ch)).map (fun x => back x.2.2)
    if l = [] then c
    else match c.chan ch with
      | y :: r => if c.isServing ch then c.setChan ch (y :: (l ++ r)) else c.setChan ch (l ++ y :: r)
      | [] => c.setChan ch l) c)
  reissue core s (seqSort MRec.seq ((v.mrecs.filter (fun r => r.1 == pos)).map (fun r => { r.2 with gk := homeKey s v pos core r.2.gk })))

/-- Has the engine of a core room for the operations that a team brings back (R394)? -/
def recsFit (s : State) (v : UnitSave) (pos core : Nat) : Bool :=
  decide ((s.core core).mx.queued + (v.mrecs.filter (fun r => r.1 == pos)).length ≤ mxCap)

/-- UNIT_RESTORE: once every team of the unit is placed again, and each engine has room for its operations. -/
def unitRestoreOp (s : State) (uk : Nat) : State :=
  match Tab.look s.units uk with
  | none => s
  | some u =>
    match u.saved with
    | none => s
    | some v =>
      let ts := unitTeams s u
      if !ts.all (fun t => t.2.placed && recsFit s v t.2.pos t.2.core) then s
      else
        let s := ts.foldl (fun s t => match Tab.look v.vaults t.2.pos with | some w => restoreWindow s t.2 w | none => s) s
        let s := ts.foldl (fun s t => restoreCore v t.2.pos t.2.core s) s
        let s := { s with units := Tab.put s.units uk { u with saved := none } }
        (v.groups.map (walkGroup s)).foldl (fun s g =>
          match Tab.look s.teams g.ids.team with
          | none => s
          | some t => (seatGroup s t.core g).getD (s.onCore t.core (fun c => { c with ret := c.ret ++ [g] }))) s

end Sys2Proof.Machine
end

