-- ==== Sys2Proof/Machine/Pages.lean ====
section
/-! DEFINITION. Commands over translation, remote fences, revocation and residency (R102 to R105, R306 to R308, R416 to
R420, R423). -/

namespace Sys2Proof.Machine

/-! ### Invalidation (R416, R417) -/

def State.onXlat (s : State) (f : Xlat → Xlat) : State := { s with xlat := f s.xlat }

/-- Discard every L1 and instruction-cache line of an address space on every core. -/
def dropAsidLines (s : State) (asid : Nat) : State := s.discardLines (fun k _ => k / 2 ^ 57 == asid)

/-- Bump a generation (R416). -/
def bumpGen (s : State) (asid : Nat) : State :=
  let g := s.xlat.gen asid
  let s := dropAsidLines s asid
  s.onXlat (fun x => { x with
    gens := Tab.cput 0 x.gens asid (g + 1)
    tlb := if g = 4095 then x.tlb.filter (fun e => e.asid != asid) else x.tlb })

/-- Does [a, a + n) meet the range of base va and length len, 0 for the whole space? -/
def meets (va len : W64) (a n : Nat) : Bool := len == 0 || decide (a < va.toNat + len.toNat ∧ va.toNat < a + n)

/-- The page of a cached translation meets the range. -/
def tlbMeets (va len : W64) (e : Tlb) : Bool :=
  let size := 2 ^ (12 + 9 * e.level)
  meets va len (e.vpn * size) size

/-- The page of the line at key k meets the range, in an address space that `f` names. -/
def lineMeets (f : Nat → Bool) (va len : W64) (k : Nat) (x : Line) : Bool :=
  let size := 2 ^ (12 + 9 * x.level)
  f (k / 2 ^ 57) && meets va len (k % 2 ^ 57 * 128 / size * size) size

/-- Invalidate a range in the address spaces that `f` names (R417): translations, and lines whose page meets it. -/
def invalidate (s : State) (f : Nat → Bool) (va len : W64) : State :=
  (s.onXlat (fun x => { x with tlb := x.tlb.filter (fun e => !(f e.asid && tlbMeets va len e)) })).discardLines (lineMeets f va len)

/-- The same of instruction caches alone (R420). -/
def invalidateCode (s : State) (f : Nat → Bool) (va len : W64) : State := s.discardCode (lineMeets f va len)

/-! ### The translation control page (R418, R419, R423) -/

/-- A command starts, or is refused while BUSY (R418). -/
def tcmd (s : State) (c : TCmd) (f : State → State) : State :=
  if s.xlat.busy then s.onXlat (fun x => { x with refused := true })
  else (f s).onXlat (fun x => { x with busy := true, refused := false, cmds := [c] })

/-- Address spaces live at once (R3). -/
def asidCount : Nat := 65536

def bumpOp (s : State) (asid : Nat) : State := if asidCount ≤ asid then s else tcmd s ⟨1, asid, 0, 0⟩ (fun s => bumpGen s asid)
def invRangeOp (s : State) (asid : Nat) : State :=
  if asidCount ≤ asid then s else
  tcmd s ⟨2, asid, s.xlat.tva, s.xlat.tlen⟩ (fun s => invalidate s (· == asid) s.xlat.tva s.xlat.tlen)
def invAllOp (s : State) : State :=
  tcmd s ⟨3, 0, s.xlat.tva, s.xlat.tlen⟩ (fun s => invalidate s (fun _ => true) s.xlat.tva s.xlat.tlen)

/-- The chip's entries of an address space that a dump records (R423): those whose count has reached the threshold, in the order
held, up to TDLEN. -/
def dumped (s : State) (asid : Nat) : List Tlb :=
  (s.xlat.tlb.filter (fun e => decide (e.place = .chip) && e.asid == asid && counted e &&
    decide (s.xlat.tthr.toNat ≤ e.count.toNat))).take s.xlat.tdlen.toNat

/-- A record. -/
def dumpRecord (e : Tlb) : List Byte :=
  leBytes (e.vpn * 2 ^ (12 + 9 * e.level)) 8 ++ leBytes e.asid 2 ++ leBytes e.count.toNat 2 ++ leBytes 0 4

/-- Write records from number n on. -/
def dumpRecs (s : State) : List Tlb → Nat → State
  | [], _ => s
  | e :: l, n => dumpRecs (devWrite s (s.xlat.tdump.toNat + 16 * n) (dumpRecord e)) l (n + 1)

/-- DUMP_COUNTERS: the records are written and their counters zeroed; the others keep their values. -/
def dumpOp (s : State) (asid : Nat) : State :=
  if asidCount ≤ asid then s else
  tcmd s ⟨4, asid, 0, 0⟩ (fun s =>
    let es := dumped s asid
    (dumpRecs s es 0).onXlat (fun x => { x with tlb := x.tlb.map (fun e => if es.contains e then { e with count := 0 } else e) }))

/-- A write of TCMD (R418): [15:0] is the address space, [19:16] the operation; one that is none of the four is refused. -/
def tcmdWrite (s : State) (x : W64) : State :=
  let asid := x.toNat % 2 ^ 16
  match x.toNat / 2 ^ 16 % 16 with
  | 1 => bumpOp s asid
  | 2 => invRangeOp s asid
  | 3 => invAllOp s
  | 4 => dumpOp s asid
  | _ => s.onXlat (fun t => { t with refused := true })

/-- TRANSLATION_CMD_DONE: accesses of one step are whole, so those under discarded entries have been performed (R419). -/
def tcmdDone (s : State) : State := if s.xlat.busy then s.onXlat (fun x => { x with busy := false, cmds := x.cmds.drop 1 }) else s

/-! ### Remote fences (R420) -/

def rfStart (s : State) (link kind : Nat) (icache : Bool) : State :=
  s.onHost link (fun x => { x with rfreqs := x.rfreqs ++ [⟨kind, icache, x.rfasid.toNat, x.rfva, x.rflen⟩] })

/-- A write of RFCTL (R420): [1:0] is the kind, [2] instruction caches only. -/
def rfctlWrite (s : State) (link : Nat) (x : W64) : State := rfStart s link (x.toNat % 4) (x.getLsbD 2)

/-- Device address spaces bound to the host on a link, and those of them bound to one address space of its (R420). -/
def boundOn (s : State) (link : Nat) : List Nat := (s.xlat.bound.filter (fun b => b.2 % 64 == link)).map Prod.fst
def boundTo (s : State) (link host : Nat) : List Nat := (s.xlat.bound.filter (fun b => b.2 == host * 64 + link)).map Prod.fst

/-- What a request of the host on a link does when it completes. A request with ICACHE set discards lines of instruction caches
only. -/
def rfEffect (s : State) (link : Nat) (r : RFReq) : State :=
  let drop := if r.icache then invalidateCode else invalidate
  let all := boundOn s link
  let one := boundTo s link r.asid
  match r.kind with
  | 0 => drop s (fun a => all.contains a) 0 0
  | 1 => drop s (fun a => one.contains a) 0 0
  | 2 => drop s (fun a => one.contains a) r.va r.len
  | _ => drop s (fun a => all.contains a) r.va r.len

/-- Is vector n of the BAR enabled: MSI-X as a whole, and the vector not masked (log 63)? -/
def vectorOn (h : HostSide) (n : Nat) : Bool := h.msixOn && !(Tab.lookD h.table (4 * n + 3) 1).getLsbD 0

/-- RF_REQUEST_DONE: a host's requests complete in order; its RFDONE rises and vector 0 fires if it is enabled. -/
def rfDone (s : State) (link : Nat) : State :=
  match (s.sys.port link).host.rfreqs with
  | [] => s
  | r :: l => (rfEffect s link r).onHost link (fun x =>
      { x with rfreqs := l, rfdone := x.rfdone + 1, msix := if vectorOn x 0 then x.msix + 1 else x.msix })

/-! ### Revocation (R102 to R105) -/

/-- Descriptor i of the region table. -/
def regionAt (s : State) (i : Nat) : Region × Nat :=
  let a := s.rev.tab.toNat + 32 * i
  (⟨BitVec.ofNat 64 (s.readNat a 8), BitVec.ofNat 64 (s.readNat (a + 8) 8), BitVec.ofNat 64 (s.readNat (a + 16) 8),
    s.readNat (a + 24) 2⟩, s.readNat (a + 26) 6)

def regionOk (r : Region × Nat) : Bool :=
  r.1.hbase.toNat % 4096 == 0 && r.1.hlen.toNat % 4096 == 0 && r.1.hlen != 0 && r.1.map.toNat % 16 == 0 && r.2 == 0

/-- Copies and programs issued before the sweep, those that a switched-out unit carries among them. -/
def engineOps (s : State) : List (Nat × Nat) :=
  let prog := fun (g : Group) => g.prog.map (fun p => (p.hcore, p.seq))
  s.cores.flatMap (fun c => c.2.ch.flatMap (fun x => x.2.map (fun y => (y.hcore, y.seq))) ++ (c.2.pq0 ++ c.2.pq1).filterMap prog) ++
    s.groups.filterMap (fun x => prog x.2) ++
    s.units.flatMap (fun u => match u.2.saved with
      | some v => v.copies.map (fun c => (c.2.2.hcore, c.2.2.seq)) ++ v.progs.filterMap (fun p => prog p.2.2)
      | none => [])

/-- Matrix operations of teams, by number: on their cores, and in switched-out units. -/
def matrixOps (s : State) : List (Nat × Nat) :=
  let name := fun (r : MRec) => (r.team, r.seq)
  s.cores.flatMap (fun c => c.2.mx.recs.map name) ++
    s.units.flatMap (fun u => match u.2.saved with | some v => v.mrecs.map (fun r => name r.2) | none => [])

/-- START (R105). One that is refused for BUSY or RVNUM leaves the index of the last malformed descriptor, and one that arms a sweep
clears it (DESIGN CHOICE, log 66). -/
def revStart (s : State) : State :=
  let n := s.rev.num.toNat % 512
  if s.rev.busy ∨ n = 0 ∨ 256 < n then { s with rev := { s.rev with refused := true } }
  else
    let rs := (List.range n).map (regionAt s)
    match (List.range n).find? (fun i => match rs[i]? with | some r => !regionOk r | none => false) with
    | some i => { s with rev := { s.rev with refused := true, badIdx := i } }
    | none => { s with rev := { s.rev with busy := true, refused := false, badIdx := 0, phase := 2, regions := rs.map Prod.fst,
                                           waitOps := engineOps s, waitMx := matrixOps s, walked := [] } }

/-- A write of RVCMD (R105): 1 is START, any other command is refused, the index as it stands (DESIGN CHOICE, log 66). -/
def rvCmd (s : State) (x : W64) : State :=
  if x.toNat % 16 = 1 then revStart s else { s with rev := { s.rev with refused := true } }

/-- The older engine work has ended (R103, phase 2). -/
def revDrained (s : State) : Bool :=
  s.rev.waitOps.all (fun x => !KeySet.has (s.core x.1).store.live x.2) && s.rev.waitMx.all (fun x => !(matrixOps s).contains x)

def walkBin (s : State) (b : Bin) : Bin :=
  let a := asidOf s b.team
  if named s a then { b with recs := b.recs.map (fun r => { r with entry := walkCap s a r.entry }) } else b

def walkLaunch (s : State) (l : Launch) : Launch :=
  if named s l.asid then
    { l with entry := walkCap s l.asid l.entry, args := l.args.map (walkCap s l.asid)
             recBytes := l.recBytes.map (fun x => (x.1, (walkCap s l.asid ⟨x.1, x.2⟩).tag)) }
  else l

/-- A saved window: its granules that hold revoked capabilities lose their tags. -/
def walkWindow (s : State) (asid : Nat) (w : Tab Byte × KeySet) : Tab Byte × KeySet :=
  (w.1, w.2.filter (fun g =>
    !revoked s asid (capOfBytes ((List.range 16).map (fun i => Tab.lookD w.1 (16 * g + i) Memory.blank)) true)))

/-- What a switched-out unit carries. -/
def walkSaved (s : State) (asid : Nat) (v : UnitSave) : UnitSave :=
  { v with
    groups := v.groups.map (walkGroup s)
    progs := v.progs.map (fun p => (p.1, p.2.1, walkGroup s p.2.2))
    copies := v.copies.map (fun c => (c.1, c.2.1, walkCopy s c.2.2))
    vaults := if named s asid then Tab.mapv (fun _ w => walkWindow s asid w) v.vaults else v.vaults }

/-- A group's name in the sweep's record of those walked. -/
def walkName (g : Group) : Nat := g.ids.team * 2 ^ 16 + g.ids.grp

/-- Has phase 3 still to walk the group? Programs issued before the sweep have ended, and FORK checks the later ones. -/
def toWalk (s : State) (g : Group) : Bool := named s g.ids.asid && g.prog.isNone && !KeySet.has s.rev.walked (walkName g)

/-- The walk of one seated group: parked at a clause boundary under R295, it is saved and walked, and released; the core's device
generation steps before it issues again (R324). One that was to be evicted is released too, and one that a delivery has parked stays
so until a command resumes it with that step. -/
def walkSeated (s : State) (k : Nat) : State :=
  match s.group k with
  | none => s
  | some g =>
    if !toWalk s g || (afterMissing g.park).isSome then s
    else if parkReady s k g then
      parkGroup s k g .missingStop (fun s g =>
        let run := g.park == .stopping || g.park == .evicting
        let s := s.setGroup k { g with park := if run then .running else if g.park = .delivered then .parked else g.park }
        let s := { s with rev := { s.rev with walked := KeySet.ins s.rev.walked (walkName g) } }
        if run || g.park == .running then wakeHandles (stepGen s (coreOf k) true) else s)
    else if g.park = .running then s.setGroup k { g with park := .stopping }
    else s

def walkCore (s : State) (c : Core) : Core :=
  { c with
    bins := Tab.mapv (fun _ b => walkBin s b) c.bins
    ret := c.ret.map (walkGroup s)
    pq0 := c.pq0.map (walkGroup s)
    pq1 := c.pq1.map (walkGroup s) }

/-- REVOKE_WALK_GROUPS: phase 3, once phase 2 has ended. Each group is walked when it stands parked; the phase ends when none
is left, with the walk of what stands nowhere. -/
def walkGroupsOp (s : State) : State :=
  if !s.rev.busy ∨ s.rev.phase ≠ 2 ∨ !revDrained s then s
  else
    let s := (Tab.keys s.groups).foldl walkSeated s
    if s.groups.any (fun x => toWalk s x.2) then s
    else
      { s with
        cores := Tab.mapv (fun _ c => walkCore s c) s.cores
        launches := Tab.mapv (fun _ l => walkLaunch s l) s.launches
        rev := { s.rev with phase := 4, walked := [] } }

/-- Memory pages that an address space maps: base and bytes of every leaf under a table at a level. -/
def leaves (s : State) : Nat → Nat → List (Nat × Nat)
  | 0, _ => []
  | fuel + 1, table =>
    (List.range 512).flatMap (fun i =>
      let e := s.readNat (table * 4096 + 8 * i) 8
      let ppn := e / 2 ^ 10 % 2 ^ 44
      if e % 2 = 0 then []
      else if e / 2 % 8 = 0 then leaves s fuel ppn
      else [(ppn * 4096, 2 ^ (12 + 9 * fuel))])

/-- Pages of an address space. -/
def asidPages (s : State) (asid : Nat) : List (Nat × Nat) :=
  match asidRoot s asid with | some (root, _) => leaves s 5 root | none => []

/-- The save areas that the tables name, and those of units that are switched out, as pages of their teams' address spaces
(R103, R375). -/
def areaPages (s : State) : List (Nat × List (Nat × Nat)) :=
  let one := fun (tk a : Nat) => if a = 0 then [] else [(asidOf s tk, [(a, 0x19AA000)])]
  s.teams.flatMap (fun t => if t.2.placed && !t.2.retired then one t.1 (saveArea s t.2.core t.2) else []) ++
    s.units.flatMap (fun u => match u.2.saved with
      | some v => v.areas.flatMap (fun x => match u.2.teams[x.1]? with | some tk => one tk x.2 | none => [])
      | none => [])

/-- Is the tagged granule at pa revoked for an address space that maps it? -/
def granuleRevoked (s : State) (pages : List (Nat × List (Nat × Nat))) (pa : Nat) : Bool :=
  pages.any (fun x => x.2.any (fun p => decide (p.1 ≤ pa ∧ pa < p.1 + p.2)) && revoked s x.1 (s.readCapAt pa))

/-- The tags that come with a line over a link: one of a malformed granule is dropped (R81), and so is that of a handle, which
another package's is here (R259). -/
def lineTags (d : List Byte) (t : BitVec 8) : BitVec 8 :=
  (List.range 8).foldl (fun (a : BitVec 8) i =>
    let c := capOfBytes ((d.drop (16 * i)).take 16) true
    if t.getLsbD i && capWell c && capOtype c != 5 then a ||| BitVec.ofNat 8 (2 ^ i) else a) 0

/-- Lines that borrowers hold come back: what they modified is written here (R431), from those that have given them up or answer. A page measured into a world keeps what it holds (R453). -/
def farTake (s : State) (f : Nat → FarLine → Bool) : State :=
  let take := fun (x : Nat × FarLine) => f x.1 x.2 && (x.2.snoop || !(s.lease.lender x.2.entry).silent)
  let s' := (s.lease.far.filter take).foldl (fun s x =>
    match x.2.mod with
    | some (d, t) =>
      if pageKept s (128 * x.1) then s
      else { s with mem := putGranules s (128 * x.1) true ⟨false, true, d, t⟩ 8 s.mem }
    | none => s) s
  { s' with lease := { s'.lease with far := s'.lease.far.filter (fun x => !take x) } }

/-- The lease addresses of a home that a read-write slot in use maps. -/
def leasePas (s : State) (h : Nat) : List Nat :=
  s.lease.slots.filterMap (fun x =>
    let b := leaseHome x.2 0
    if x.2.mode = 2 ∧ x.2.st = 2 ∧ b ≤ h ∧ h < b + x.2.elen.toNat * 2 ^ 28 then some (0xF * 2 ^ 52 + x.1 * 2 ^ 40 + (h - b)) else none)

/-- A tag at a home that phase 4 clears: of this package's memory, or of a lender's that it has leased read-write and of which it
holds no line (log 29). -/
def badTag (s : State) (pages : List (Nat × List (Nat × Nat))) (h : Nat) : Bool :=
  if h < 2 ^ 56 then granuleRevoked s pages h
  else (leasePas s h).any (fun pa => (heldLine s pa).isNone && granuleRevoked s pages pa)

/-- The tags that a held line of a read-write lease keeps. -/
def keptTags (s : State) (pages : List (Nat × List (Nat × Nat))) (k : Nat) (l : LeaseLine) : BitVec 8 :=
  if (s.lease.slot (k / 2 ^ 33)).mode ≠ 2 then l.tags
  else BitVec.ofNat 8 ((List.range 8).foldl (fun a i =>
    if l.tags.getLsbD i && !granuleRevoked s pages (lineAddr k + 16 * i) then a + 2 ^ i else a) 0)

/-- REVOKE_WALK_PAGES: phase 4. Lines that borrowers hold of the pages are snooped first; a held line of a lease that loses a tag
is modified. The lines of every L1 and instruction cache that held a cleared tag are discarded (log 29). -/
def walkPagesOp (s : State) : State :=
  if !s.rev.busy ∨ s.rev.phase ≠ 4 then s
  else
    let asids := (s.rev.regions.map (fun r => r.asid)).eraseDups
    let pages := asids.map (fun a => (a, asidPages s a)) ++ areaPages s
    let s := farTake s (fun k _ => pages.any (fun x => x.2.any (fun p => decide (p.1 ≤ 128 * k ∧ 128 * k < p.1 + p.2))))
    let bad := s.mem.tags.filter (fun g => badTag s pages (16 * g))
    let lost := s.lease.lines.filter (fun x => keptTags s pages x.1 x.2 != x.2.tags)
    let homes := bad.map (fun g => 16 * g) ++ lost.flatMap (fun x => (List.range 8).map (fun i => homeOf s (lineAddr x.1) + 16 * i))
    let lines := Tab.mapv (fun k (l : LeaseLine) =>
      let t := keptTags s pages k l
      if t = l.tags then l else { l with tags := t, excl := true, dirty := true }) s.lease.lines
    let s' := { s with
      mem := { s.mem with tags := s.mem.tags.filter (fun g => !bad.contains g) }
      lease := { s.lease with lines := lines }
      units := Tab.mapv (fun _ (u : CUnit) => { u with saved := u.saved.map (walkSaved s (asidOf s (u.teams.headD 0))) }) s.units }
    let s' := s'.discardLines (fun _ x => homes.any (fun h => decide (x.home ≤ h ∧ h < x.home + 128)))
    { s' with rev := { s'.rev with phase := 5 } }

/-- REVOKE_SWEEP_DONE: phase 5. -/
def revDone (s : State) : State :=
  if s.rev.busy ∧ s.rev.phase = 5 then
    sysEvent { s with rev := { s.rev with busy := false, done := s.rev.done + 1, phase := 0, regions := [], waitOps := [], waitMx := [] } } 11 0
  else s

/-! ### Residency (R306 to R308) -/

/-- Pages of one slice that may be kept: three quarters of 16 MiB. The slices' shares of a region are not visible (R305), so
a keep can meet the cap of some slice once the kept regions come to more than that; whether it does is a free value. -/
def keptCap : Nat := 3072

def keptPages (l : List (Nat × Nat)) : Nat := (l.map Prod.snd).sum

/-- The kept regions without the n pages from a on. -/
def unkeep (l : List (Nat × Nat)) (a n : Nat) : List (Nat × Nat) :=
  l.flatMap (fun k =>
    let e := a + 4096 * n
    let top := k.1 + 4096 * k.2
    if e ≤ k.1 ∨ top ≤ a then [k]
    else (if k.1 < a then [(k.1, (a - k.1) / 4096)] else []) ++ (if e < top then [(e, (top - e) / 4096)] else []))

/-- One entry of a step: `full` says whether a keep that could meet the cap met it. -/
def applyEntry (full : Bool) (r : Resid) (e : RsEnt) : Resid :=
  match e.action.toNat with
  | 0 =>
    let kept := unkeep r.kept e.pbase.toNat e.npage ++ [(e.pbase.toNat, e.npage)]
    { r with kept := kept, ovf := r.ovf || (decide (keptCap < keptPages kept) && full) }
  | 1 => { r with kept := unkeep r.kept e.pbase.toNat e.npage }
  | _ => r

/-- RESIDENCY_STEP_APPLY: the entries of the oldest queued step, in table order. A store that waited takes its place. -/
def resApply (s : State) (d : Nat) : State :=
  match (s.die d).queue with
  | [] => s
  | v :: q =>
    { s with ctr := s.ctr + 1 }.onDie d (fun r =>
      { ((r.table.filter (fun (e : RsEnt) => e.stp == v)).foldl (applyEntry (Config.keepFull s.ctr)) r) with
        queue := q, stp := (q[stepCap - 1]?).getD r.stp })

/-- Entry i of the schedule table in memory. -/
def rsEntry (s : State) (base i : Nat) : RsEnt :=
  let a := base + 16 * i
  ⟨BitVec.ofNat 64 (s.readNat a 8), s.readNat (a + 8) 4, BitVec.ofNat 16 (s.readNat (a + 12) 2), BitVec.ofNat 8 (s.readNat (a + 14) 1)⟩

/-- ENABLE = 1 (R308). -/
def resEnable (s : State) (d world : Nat) : State :=
  let r := s.die d
  if r.len = 0 ∨ 4096 < r.len.toNat ∨ r.base.toNat % 16 ≠ 0 ∨ (s.keys.world world).st ≠ 2 ∨ (r.active ∧ r.world ≠ world) then
    s.onDie d (fun r => { r with refused := true })
  else
    s.onDie d (fun r => { r with refused := false, world := world, loading := true, stp := 0, queue := [], kept := []
                                 table := (List.range r.len.toNat).map (rsEntry s r.base.toNat) })

/-- RESIDENCY_LOAD_DONE. -/
def resLoaded (s : State) (d : Nat) : State :=
  if (s.die d).loading then s.onDie d (fun r => { r with loading := false, active := true }) else s

/-- ENABLE = 0, or the end of the world (R308). -/
def resDisable (s : State) (d : Nat) : State :=
  s.onDie d (fun r => { r with active := false, loading := false, queue := [], kept := [], table := [] })

/-- CLROVF. -/
def resClrovf (s : State) (d : Nat) : State := s.onDie d (fun r => { r with ovf := false })

/-- A write of RSCTL (R308): [0] enables the mode for the world in [27:16] or ends it, [1] clears OVF. An ENABLE that is refused
changes nothing else. -/
def rsctlWrite (s : State) (d : Nat) (x : W64) : State :=
  let s := if x.getLsbD 0 then resEnable s d (x.extractLsb' 16 12).toNat else resDisable s d
  if x.getLsbD 1 && !(x.getLsbD 0 && (s.die d).refused) then resClrovf s d else s

/-- GEN_PASS_DONE (R304). -/
def genPassDone (s : State) (core : Nat) (dev : Bool) : State :=
  s.l1Map core (fun l =>
    if dev then (if l.passD then { l.discard (fun _ x => x.lgd == l.cgd + 1) with passD := false } else l)
    else (if l.passC then { l.discard (fun _ x => x.lgc == l.cgc + 1) with passC := false } else l))

/-- L1_FILL (R302, R316): the oldest fill on its way is installed with its generations at request. -/
def l1FillOp (s : State) (core : Nat) : State :=
  s.l1Map core (fun l => match l.fills with | (k, ln) :: _ => l.install k ln | [] => l)

end Sys2Proof.Machine
end

