-- ==== Sys2Proof/Machine/Leases.lean ====
section
/-! DEFINITION. Markhor: the lender table, the borrower slots, their commands and events, and the lines a borrower holds
(R424 to R436, R421, R422, R445). -/

namespace Sys2Proof.Machine

/-! ### Commands (R428, R429) -/

/-- LSTAT's RESULT; BUSY clears (R428). -/
def leaseResult (s : State) (r : BitVec 3) : State := { s with lease := { s.lease with busy := false, result := r } }

/-- Entries of the lender table and borrower slots (R424, R426). -/
def lenderCount : Nat := 16384
def slotCount : Nat := 4096

/-- A command on a lender entry in one of its From states; `f` refuses with none. While BUSY is set a command is ignored (DESIGN
CHOICE, log 37). -/
def lenderCmd (s : State) (i : Nat) (froms : List Byte) (f : Lender → Option State) : State :=
  if s.lease.busy then s
  else if lenderCount ≤ i then leaseResult s 2
  else if !froms.contains (s.lease.lender i).st then leaseResult s 1
  else match f (s.lease.lender i) with
    | some s => leaseResult s 0
    | none => leaseResult s 1

/-- A command on a slot in one of its From states. -/
def slotCmd (s : State) (i : Nat) (froms : List Byte) (f : Slot → Option State) : State :=
  if s.lease.busy then s
  else if slotCount ≤ i then leaseResult s 2
  else if !froms.contains (s.lease.slot i).st then leaseResult s 1
  else match f (s.lease.slot i) with
    | some s => leaseResult s 0
    | none => leaseResult s 1

/-- Do the extents of two entries meet? -/
def extentsMeet (a b : Lender) : Bool :=
  decide (a.ebase.toNat < b.ebase.toNat + b.elen.toNat ∧ b.ebase.toNat < a.ebase.toNat + a.elen.toNat)

/-- May entry i be offered (R425, R439)? Read-write entries stand alone; read-only ones stand once for each borrower. -/
def offerOk (s : State) (i : Nat) (l : Lender) : Bool :=
  s.sys.pbrValid && (l.mode == 1 || l.mode == 2) &&
  decide (1 ≤ l.elen.toNat ∧ l.elen.toNat ≤ 4096 ∧ l.ebase.toNat < 12288 ∧
    l.ebase.toNat + l.elen.toNat ≤ s.power.poolExtents) &&
  s.lease.lenders.all (fun x => x.1 == i || x.2.st == 0 || !extentsMeet l x.2 ||
    (l.mode == 1 && x.2.mode == 1 && x.2.borrower != l.borrower))

def offerOp (s : State) (i : Nat) : State :=
  lenderCmd s i [0] (fun l => if offerOk s i l then some (s.onLender i (fun l => { l with st := 1 })) else none)

/-- GRANT sends Add Capacity; the entry is active once the borrower accepts (R429). -/
def grantOp (s : State) (i : Nat) : State :=
  lenderCmd s i [1] (fun l => some { s with
    out := s.out ++ [.addCapacity i (l.borrower.setWidth 12) l.lid l.mode l.ebase l.elen l.expiry] })

def withdrawOp (s : State) (i : Nat) : State := lenderCmd s i [1] (fun _ => some (s.onLender i (fun l => { l with st := 0 })))

/-- EXPIRY := LARG when it is later. -/
def lenderRenewOp (s : State) (i : Nat) : State :=
  lenderCmd s i [2] (fun _ => some (s.onLender i (fun l => { l with expiry := if l.expiry.toNat < s.lease.larg.toNat then s.lease.larg else l.expiry })))

/-- An entry is to be returned: a borrower that answers no more leaves the release unanswered from now on (R433). -/
def Lender.recalled (l : Lender) (now : Nat) : Lender := let l := { l with st := 3 }; if l.silent then l.awaits now else l

def recallOp (s : State) (i : Nat) : State :=
  lenderCmd s i [2] (fun l =>
    some { (s.onLender i (fun l => l.recalled s.time.ftime)) with
      out := s.out ++ [.forcedRelease i (l.borrower.setWidth 12) l.lid] })

def clearOp (s : State) (i : Nat) : State := lenderCmd s i [4, 5] (fun _ => some (s.onLender i (fun l => { l with st := 0, silent := false, wait := none })))

/-- CLAIM: a package without an identifier cannot borrow (R439). -/
def slotClaimOp (s : State) (i : Nat) : State :=
  slotCmd s i [0] (fun _ => if s.sys.pbrValid then some (s.onSlot i (fun x => { x with st := 1, flushed := false, releasing := false, silent := false, wait := none })) else none)

def borrowerRenewOp (s : State) (i : Nat) : State :=
  slotCmd s i [2] (fun _ => some (s.onSlot i (fun x => { x with expiry := if x.expiry.toNat < s.lease.larg.toNat then s.lease.larg else x.expiry })))

def cancelSlotOp (s : State) (i : Nat) : State := slotCmd s i [1] (fun _ => some (s.onSlot i (fun x => { x with st := 0 })))

/-! ### Lines, the flush and salvage (R431, R433, R434) -/

/-- Held lines of a slot, in ascending offset. -/
def slotLines (s : State) (i : Nat) : List (Nat × LeaseLine) := s.lease.lines.filter (fun x => x.1 / 2 ^ 33 == i)

def dropSlotLines (s : State) (i : Nat) : State :=
  { s with lease := { s.lease with lines := s.lease.lines.filter (fun x => x.1 / 2 ^ 33 != i) } }

/-- Step 1 of the flush: every L1 line of the slot goes (R206). -/
def dropSlotL1 (s : State) (i : Nat) : State := s.discardLines (fun _ x => x.slot == some i)

/-- A slot leaves active for a flush. -/
def leaveActive (s : State) (i : Nat) (st : Byte) : State :=
  dropSlotL1 (s.onSlot i (fun x => { x with st := st, flushed := false })) i

/-- LEASE_FLUSH_DONE: modified lines are written back, all are dropped, the return is sent, and a RELEASE that waited for it ends
(R429). It waits until every request under the slot has been answered, a write-back of its own among them (R433). -/
def flushDone (s : State) (i : Nat) : State :=
  let sl := s.lease.slot i
  if (sl.st = 3 ∨ sl.st = 4) ∧ !sl.flushed ∧ sl.wait = none then
    if sl.silent && (slotLines s i).any (fun x => x.2.dirty) then s.onSlot i (fun x => x.awaits s.time.ftime)
    else
    let s := (slotLines s i).foldl (fun s x => writeBack s x.1 x.2) (dropSlotL1 s i)
    let s := (dropSlotLines s i).onSlot i (fun x =>
      { x with flushed := true, releasing := false, st := if sl.releasing then 0 else x.st })
    let s := { s with out := s.out ++ [.returned i (sl.lender.setWidth 12) sl.lid] }
    if sl.releasing then leaseResult s 0 else s
  else s

def returnOp (s : State) (i : Nat) : State := slotCmd s i [2] (fun _ => some (leaveActive s i 3))

/-- RELEASE: BUSY until the flush has ended. -/
def slotReleaseOp (s : State) (i : Nat) : State :=
  let sl := s.lease.slot i
  if s.lease.busy = false ∧ i < slotCount ∧ (sl.st = 3 ∨ sl.st = 4) ∧ !sl.flushed then
    { s with lease := { s.lease with busy := true, slots := Tab.put s.lease.slots i { sl with releasing := true } } }
  else slotCmd s i [3, 4, 5] (fun _ => some (s.onSlot i (fun x => { x with st := 0 })))

/-- One salvage record (R434): the line's offset in the lease window, where slot n begins at n · 2^40. -/
def salvageRecord (x : Nat × LeaseLine) : List Byte :=
  leBytes (lineAddr x.1 % 2 ^ 52) 8 ++ x.2.data ++ leBytes x.2.tags.toNat 8

/-- Write salvage records from number n on. -/
def salvage (buf : Nat) : List (Nat × LeaseLine) → Nat → State → State
  | [], _, s => s
  | x :: l, n, s => salvage buf l (n + 1) (devWrite s (buf + 144 * n) (salvageRecord x))

/-- A slot becomes lost: events 5 and 7 (R433, R434). A RELEASE that waited for its flush ends. -/
def loseSlot (s : State) (i : Nat) : State :=
  let sl := s.lease.slot i
  if sl.st = 2 ∨ sl.st = 3 ∨ sl.st = 4 then
    let dirty := (slotLines s i).filter (fun x => x.2.dirty)
    let room := if sl.salv = 0 then 0 else sl.salvlen.toNat * 4096 / 144
    let kept := dirty.take room
    let s := leaseEvent s 5 1 i sl.lid
    let s := salvage sl.salv.toNat kept 0 (dropSlotL1 s i)
    let s := (dropSlotLines s i).onSlot i (fun x => { x with
      st := if sl.releasing then 0 else 5, flushed := true, releasing := false, silent := false, wait := none
      salvn := BitVec.ofNat 32 kept.length, dropped := BitVec.ofNat 32 (dirty.length - kept.length) })
    leaseEvent (if sl.releasing then leaseResult s 0 else s) 7 1 i sl.lid
  else s

/-- A lender entry becomes lost: memory keeps the lender's last copy of what its borrower held (R433). What the borrower gave up
to a snoop has come back (R431). -/
def loseLender (s : State) (i : Nat) : State :=
  let l := s.lease.lender i
  if l.st = 2 ∨ l.st = 3 then
    let s := (farTake s (fun _ x => x.entry == i && x.snoop)).onLender i (fun l => { l with st := 5, silent := false, wait := none })
    leaseEvent { s with lease := { s.lease with far := s.lease.far.filter (fun x => x.2.entry != i) } } 5 0 i l.lid
  else s

/-- Is some fabric link to a package up? -/
def peerUp (s : State) (p : BitVec 12) : Bool := s.sys.ports.any (fun x => x.2.up && x.2.role == .fabric && x.2.peers.contains p)

/-- 1 ms of fabric time without an answer (R433). -/
def unanswered (s : State) (w : Option Nat) : Bool := match w with | some t => decide (t + msTicks ≤ s.time.ftime) | none => false

/-- SLOT_LOST: the link to the lender is down, or a request has had no answer for 1 ms (R433). -/
def slotLost (s : State) (i : Nat) : State :=
  let sl := s.lease.slot i
  if !peerUp s (sl.lender.setWidth 12) || unanswered s sl.wait then loseSlot s i else s

/-- LENDER_LOST: the link to the borrower is down, or a snoop or a release has had no answer for 1 ms (R433). -/
def lenderLost (s : State) (i : Nat) : State :=
  let l := s.lease.lender i
  if !peerUp s (l.borrower.setWidth 12) || unanswered s l.wait then loseLender s i else s

/-- Every lease with a package becomes lost: its link is down or reset (R433, R446). -/
def loseWith (s : State) (peer : BitVec 12) : State :=
  let s := (s.lease.lenders.filter (fun x => x.2.borrower.setWidth 12 == peer)).foldl (fun s x => loseLender s x.1) s
  (s.lease.slots.filter (fun x => x.2.lender.setWidth 12 == peer)).foldl (fun s x => loseSlot s x.1) s

/-- The package at the other end of a lease answers no more, or, `on` clear, answers again (log 42). What is outstanding then waits: a
release; a snoop or a request begins to wait when it is sent. -/
def fallSilent (s : State) (lender : Bool) (i : Nat) (on : Bool) : State :=
  if lender then s.onLender i (fun l =>
    if !on then { l with silent := false, wait := none }
    else if l.st = 2 then { l with silent := true }
    else if l.st = 3 then ({ l with silent := true }).awaits s.time.ftime
    else l)
  else s.onSlot i (fun l =>
    if !on then { l with silent := false, wait := none }
    else if l.st = 2 ∨ l.st = 3 ∨ l.st = 4 then { l with silent := true } else l)

/-! ### The lender's directory (R431) -/

/-- A borrower takes a line of an extent lent to it read-write, or writes it: the home slice records it. What it gave up before has
come back first. It writes no page that is measured into a world (R453). What it writes stands open, as what comes over a lease does
(log 62). -/
def farLineOp (s : State) (i pa : Nat) (excl : Bool) (mod : Option (List Byte × BitVec 8)) : State :=
  let l := s.lease.lender i
  let ext := (pa - 2 ^ 52) / 2 ^ 28
  if paRegion pa = 1 ∧ l.mode = 2 ∧ (l.st = 2 ∨ l.st = 3) ∧ l.silent = false ∧ l.ebase.toNat ≤ ext ∧ ext < l.ebase.toNat + l.elen.toNat ∧
      mod.all (fun d => excl && d.1.length == 128) then
    let mod := if pageKept s pa then none else if peerTagged s (l.borrower.setWidth 12) then mod else mod.map (fun d => (d.1, 0))
    let s := farTake s (fun k x => k == pa / 128 && x.snoop)
    let x : FarLine := { entry := i, excl := excl, snoop := false, mod := mod.map (fun d => (d.1, lineTags d.1 d.2)) }
    let s := if mod.isSome then sealWith s 0 (pa / 128 * 128) 128 else s
    { s with lease := { s.lease with far := Tab.put s.lease.far (pa / 128) x } }
  else s

/-- What borrowers have given up to snoops comes to memory (R431). -/
def snoopsAnswered (s : State) : State :=
  if s.lease.far.any (fun x => x.2.snoop) then farTake s (fun _ l => l.snoop) else s

/-- A held line of a lease leaves the slice, what is modified with a write-back (R436). -/
def evictLineOp (s : State) (k : Nat) : State :=
  match Tab.look s.lease.lines k with
  | none => s
  | some l => { (writeBack s k l) with lease := { s.lease with lines := Tab.rem s.lease.lines k } }

/-- The lender writes bytes of an extent that it has lent read-write: lines held here are snooped first (R431). While it lends them
read-only it writes nothing there (R344). -/
def farWriteOp (s : State) (home : Nat) (data : List Byte) : State :=
  let mine := fun (m : Byte) (x : Nat × Slot) => x.2.mode == m && x.2.st == 2 &&
    decide (leaseHome x.2 0 < home + data.length ∧ home < leaseHome x.2 0 + x.2.elen.toNat * 2 ^ 28)
  if home < 2 ^ 60 ∨ 2 ^ 62 < home + data.length ∨ s.lease.slots.any (mine 1) then s
  else
    let s := (s.lease.lines.filter (fun x =>
      decide (homeOf s (lineAddr x.1) < home + data.length ∧ home < homeOf s (lineAddr x.1) + 128))).foldl (fun s x => evictLineOp s x.1) s
    { s with mem := s.mem.write home data }

/-! ### Arrivals and expiries (R430, R433) -/

/-- Does a message answer the Add Capacity sent for entry i? -/
def isGrant (i : Nat) (lid : W32) : Msg → Bool
  | .addCapacity j _ l _ _ _ _ => j == i && l == lid
  | _ => false

/-- ADD_CAPACITY: its arrival at a claiming slot with its LENDER and LID, or the acceptance at the lender. -/
def addCapacityOp (s : State) (lenderSide : Bool) (m : AddCapMsg) : State :=
  if lenderSide then
    if (s.lease.lender m.idx).st = 1 ∧ s.out.any (isGrant m.idx m.lid) then
      leaseEvent { (s.onLender m.idx (fun l => { l with st := 2 })) with out := s.out.filter (fun x => !isGrant m.idx m.lid x) } 1 0 m.idx m.lid
    else s
  else
    match s.lease.slots.find? (fun x => x.2.st == 1 && x.2.lender.setWidth 12 == m.peer && x.2.lid == m.lid) with
    | none => s
    | some (i, _) =>
      let s := s.onSlot i (fun x => { x with st := 2, mode := m.mode, ebase := m.ebase, elen := m.elen, expiry := m.expiry, flushed := false })
      leaseEvent { s with out := s.out ++ [.accepted m.peer m.lid] } 1 1 i m.lid

/-- GRANT_REFUSED: the entry stays offered (R429). -/
def grantRefusedOp (s : State) (i : Nat) : State :=
  let l := s.lease.lender i
  if l.st = 1 ∧ s.out.any (isGrant i l.lid) then
    leaseEvent { s with out := s.out.filter (fun x => !isGrant i l.lid x) } 2 0 i l.lid
  else s

/-- FORCED_RELEASE. -/
def forcedReleaseOp (s : State) (i : Nat) : State :=
  if (s.lease.slot i).st = 2 then leaseEvent (leaveActive s i 3) 3 1 i (s.lease.slot i).lid else s

/-- LENDER_EXPIRY. -/
def lenderExpiryOp (s : State) (i : Nat) : State :=
  let l := s.lease.lender i
  if l.st = 2 ∧ l.expiry.toNat ≤ s.time.ftime then leaseEvent (s.onLender i (fun l => l.recalled s.time.ftime)) 4 0 i l.lid else s

/-- SLOT_EXPIRY: 1 µs before EXPIRY by this package's clock. -/
def slotExpiryOp (s : State) (i : Nat) : State :=
  let x := s.lease.slot i
  if x.st = 2 ∧ x.expiry.toNat ≤ s.time.ftime + 16000 then leaseEvent (leaveActive s i 4) 4 1 i x.lid else s

/-- RETURN_ARRIVE: every line is back (R433). -/
def returnArriveOp (s : State) (i : Nat) : State :=
  let l := s.lease.lender i
  if l.st = 2 ∨ l.st = 3 then
    let s := (s.onLender i (fun l => { l with st := 4, silent := false, wait := none }))
    leaseEvent (farTake s (fun _ x => x.entry == i)) 6 0 i l.lid
  else s

/-- BACK_INVALIDATE: a snoop of a line of a read-write lease (R431). -/
def backInvalidateOp (s : State) (slot off : Nat) : State :=
  let k := slot * 2 ^ 33 + off / 128
  if (s.lease.slot slot).mode ≠ 2 then s else evictLineOp s k

/-- The parts of [pa, pa + n) within pages of 4 KiB. -/
def pageParts : Nat → Nat → Nat → List (Nat × Nat)
  | 0, _, _ => []
  | fuel + 1, pa, n =>
    if n = 0 then []
    else
      let k := min n (4096 - pa % 4096)
      (pa, k) :: pageParts fuel (pa + k) (n - k)

/-- Write bytes that came over a link, tags cleared; a locked page and an extent lent read-only keep theirs (R432, R453). Lines that
a borrower holds are snooped (R431). -/
def linkWrite (s : State) (key pa : Nat) (bs : List Byte) : State :=
  (pageParts (bs.length / 4096 + 2) pa bs.length).foldl (fun s x =>
    if writeBarred s x.1 then s
    else (sealWith (snoopFor s x.1 x.2 true) key x.1 x.2).writeBytes x.1 ((bs.drop (x.1 - pa)).take x.2)) s

/-- The tags of the n granules from pa on, as a link carries them. -/
def linkTags (s : State) (pa : Nat) : Nat → BitVec 8
  | 0 => 0
  | n + 1 => linkTags s pa n ||| (if s.readTag (pa + 16 * n) then BitVec.ofNat 8 (2 ^ n) else 0)

/-- Set the tags that came with n granules; one that is malformed stays untagged (R81), and so does another package's handle
(R259). -/
def setLinkTags (pa : Nat) (tags : BitVec 8) : Nat → State → State
  | 0, s => s
  | n + 1, s =>
    let s := setLinkTags pa tags n s
    let c := capSane (capOfBytes (s.readBytes (pa + 16 * n) 16) true)
    if tags.getLsbD n && !writeBarred s (pa + 16 * n) then s.writeCapAt (pa + 16 * n) (if capOtype c = 5 then capUntag c else c) else s

/-- A line that the writing package itself holds is written back by its write. -/
def farDrop (s : State) (peer : BitVec 12) (pa n : Nat) : State :=
  { s with lease := { s.lease with far := s.lease.far.filter (fun x =>
      !(decide (pa / 128 ≤ x.1 ∧ x.1 ≤ (pa + n - 1) / 128) && (s.lease.lender x.2.entry).borrower.setWidth 12 == peer)) } }

/-- FORWARDED_ACCESS: served at this package's home slice, once a borrower that has to be snooped answers, with tags where the route carries them (R421, R422, R101). What a lease
brings stands open to every world (DESIGN CHOICE, log 62). -/
def forwardedOp (s : State) (r : FwdReq) : State :=
  let tagged := peerTagged s r.peer && r.pa % 16 == 0
  let last := r.pa + max r.len r.data.length - 1
  let waits := fun (a : Nat) => (farAwaited s a r.write).any (fun i => (s.lease.lender i).borrower.setWidth 12 != r.peer)
  if !paLocal s r.pa || peerStalled s r.peer then s
  else if waits r.pa || waits last then
    awaitFar (awaitFar s r.pa r.write) last r.write
  else if r.write then
    let s' := linkWrite (farDrop s r.peer r.pa r.data.length) 0 r.pa r.data
    if tagged then setLinkTags r.pa r.tags (min 8 (r.data.length / 16)) s' else s'
  else
    let s := snoopFor s r.pa r.len false
    { s with out := s.out ++ [.peerReply r.peer (s.readBytes r.pa r.len) (if tagged then linkTags s r.pa (min 8 (r.len / 16)) else 0)] }

/-! ### The lease engine page (R424, R426, R428) -/

/-- A write of LCMD (R428): [7:0] is the opcode, [21:8] the index; an opcode the table does not list has RESULT 1,
unless BUSY. -/
def lcmdWrite (s : State) (x : W64) : State :=
  let i := x.toNat / 2 ^ 8 % 2 ^ 14
  match x.toNat % 2 ^ 8 with
  | 0x01 => offerOp s i
  | 0x02 => grantOp s i
  | 0x03 => withdrawOp s i
  | 0x04 => lenderRenewOp s i
  | 0x05 => recallOp s i
  | 0x06 => clearOp s i
  | 0x11 => slotClaimOp s i
  | 0x12 => borrowerRenewOp s i
  | 0x13 => returnOp s i
  | 0x14 => slotReleaseOp s i
  | 0x15 => cancelSlotOp s i
  | _ => if s.lease.busy then s else leaseResult s 1

/-- A write of eight bytes at an offset of a lender entry: only in state free; STATE and VIOL are the engine's, and reserved bits
keep zero (R9). -/
def lenderWrite (s : State) (i off : Nat) (x : W64) : State :=
  if lenderCount ≤ i ∨ (s.lease.lender i).st ≠ 0 then s
  else s.onLender i (fun l =>
    if off = 0 then { l with ebase := (x.setWidth 14).setWidth 32, elen := x.extractLsb' 32 32 }
    else if off = 8 then { l with lid := x.setWidth 32, borrower := (x.extractLsb' 32 12).setWidth 16, mode := x.extractLsb' 48 8 }
    else if off = 16 then { l with expiry := x }
    else l)

/-- A write of eight bytes at an offset of a slot: STATE, SALVN and DROPPED are the engine's. -/
def slotWrite (s : State) (i off : Nat) (x : W64) : State :=
  if slotCount ≤ i then s
  else s.onSlot i (fun l =>
    if off = 0 then { l with lender := (x.setWidth 12).setWidth 16, mode := x.extractLsb' 16 8, lid := x.extractLsb' 32 32 }
    else if off = 8 then { l with ebase := x.setWidth 32, elen := x.extractLsb' 32 32 }
    else if off = 16 then { l with expiry := x }
    else if off = 24 then { l with salv := x }
    else if off = 32 then { l with salvlen := x.setWidth 32 }
    else l)

end Sys2Proof.Machine
end

