-- ==== Sys2Proof/Machine/Trust.lean ====
section
/-! DEFINITION. The key store, the services of SYS, the scrub of a world, and debug tiers (R192, R270, R377, R378, R447 to
R457). -/

namespace Sys2Proof.Machine

/-! ### The key store (R448 to R450) -/

def State.onKeys (s : State) (f : Keys → Keys) : State := { s with keys := f s.keys }
def State.onWorld (s : State) (w : Nat) (f : World → World) : State :=
  s.onKeys (fun k => { k with worlds := Tab.put k.worlds w (f (k.world w)) })

/-- KSSTAT's RESULT; KSHANDLE reads zero after any command but FINAL. -/
def ksResult (s : State) (r : BitVec 3) : State := s.onKeys (fun k => { k with busy := false, result := r, handle := 0 })

/-- A write of KSCMD: while BUSY, for a world number out of range, or for a world in the From state `st`. -/
def ksCmd (s : State) (w st : Nat) (f : World → Option State) : State :=
  if s.keys.busy then s.onKeys (fun k => { k with result := 4 })
  else if w = 0 ∨ 4096 ≤ w then ksResult s 2
  else if (s.keys.world w).st ≠ st then ksResult s 1
  else match f (s.keys.world w) with
    | some s => s
    | none => ksResult s 1

/-- A key that no world has had: world 0 starts with number 1 (R448, R451). -/
def freshKey (s : State) : Nat := s.ctr + 2

/-- CREATE: the key and the token are drawn, the digest is 48 zero bytes. Tier D3 refuses it (R457). -/
def ksCreateOp (s : State) (w : Nat) (prot : Bool) : State :=
  ksCmd s w 0 (fun x =>
    if !x.scrubbed || s.keys.refuse then none
    else
      some (ksResult ({ s with ctr := s.ctr + 1 }.onWorld w (fun _ =>
        ⟨1, prot, false, Config.keyToken s.ctr, List.replicate 48 0, freshKey s, false⟩)) 0))

/-- MEASURE: the page enters the digest and is locked; addresses must be 4 KiB aligned. -/
def ksMeasureOp (s : State) (w : Nat) : State :=
  ksCmd s w 1 (fun x =>
    let va := s.keys.va
    let pa := s.keys.pa.toNat
    if va.toNat % 4096 ≠ 0 ∨ pa % 4096 ≠ 0 then some (ksResult s 3)
    else match Tab.look s.keys.locked (pa / 4096) with
      | some v => if v = w then some (go s x va pa) else none
      | none => some (go s x va pa))
where
  go (s : State) (x : World) (va : W64) (pa : Nat) : State :=
    let d := sha384 (x.digest ++ leBytes va.toNat 8 ++ s.readBytes pa 4096)
    ksResult ((s.onWorld w (fun x => { x with digest := d })).onKeys (fun k => { k with locked := Tab.put k.locked (pa / 4096) w })) 0

/-- FINAL: the world is live and its key handle's address is readable. -/
def ksFinalOp (s : State) (w : Nat) : State :=
  ksCmd s w 1 (fun x =>
    some ((ksResult (s.onWorld w (fun x => { x with st := 2 })) 0).onKeys (fun k =>
      { k with handle := BitVec.ofNat 64 (w + x.token.toNat * 2 ^ 12) })))

/-- The world of a team. -/
def teamWorld (s : State) (t : Team) : Option Nat := (Tab.look s.launches t.launch).map (fun l => l.world)

/-- A team of the world is resident or parked, or a launch of it is between its first placement and COMPLETE (R276). -/
def worldBusy (s : State) (w : Nat) : Bool :=
  s.teams.any (fun t => teamWorld s t.2 == some w) ||
    s.launches.any (fun l => l.2.world == w && (l.2.st == .running || l.2.st == .ending))

/-- DESTROY: refused while a team of the world stands; else BUSY until the world has been scrubbed (R377, R449). -/
def ksDestroyOp (s : State) (w : Nat) : State :=
  ksCmd s w 2 (fun _ =>
    if worldBusy s w then none
    else some ((s.onWorld w (fun x => { x with retired := true })).onKeys (fun k => { k with busy := true, handle := 0 })))

/-- A write of KSCMD (R450): [3:0] is the opcode, [15:4] the world, [16] PROTECTED; an opcode that is none of the four has
RESULT 3, unless BUSY. -/
def kscmdWrite (s : State) (x : W64) : State :=
  let w := x.toNat / 2 ^ 4 % 2 ^ 12
  match x.toNat % 16 with
  | 1 => ksCreateOp s w (x.getLsbD 16)
  | 2 => ksMeasureOp s w
  | 3 => ksFinalOp s w
  | 4 => ksDestroyOp s w
  | _ => if s.keys.busy then s.onKeys (fun k => { k with result := 4 }) else ksResult s 3

/-! ### The scrub (R377, R378) -/

/-- A core without the world's statuses and write pointers; the next world of that number has flows of its own (R451). -/
def scrubCore (w : Nat) (c : Core) : Core :=
  let mine := fun (q : Nat) => Tab.look c.store.worlds q == some w
  { c with
    store := ⟨c.store.live.filter (fun q => !mine q), c.store.stat.filter (fun x => !mine x.1),
      c.store.order.filter (fun q => !mine q), c.store.worlds.filter (fun x => x.2 != w), c.store.ran.filter (fun x => !mine x.1)⟩
    wp := c.wp.filter (fun x => Tab.look c.wpWorld x.1 != some w)
    wpWorld := c.wpWorld.filter (fun x => x.2 != w)
    flows := Tab.rem c.flows w }

/-- Is a vault address within the window of a placed team? -/
def inWindow (s : State) (h : Nat) : Bool :=
  s.teams.any (fun t => t.2.placed && decide (vaultHome t.2.core t.2.vbase ≤ h ∧ h < vaultHome t.2.core t.2.vbase + t.2.vlen))

/-- Vault memory that no window covers reads zero, with tags clear. -/
def scrubVaults (s : State) : State :=
  { s with mem :=
    { cells := s.mem.cells.filter (fun c => decide (c.1 < vaultBase) || inWindow s c.1)
      tags := s.mem.tags.filter (fun g => decide (16 * g < vaultBase) || inWindow s (16 * g))
      errs := s.mem.errs.filter (fun g => decide (64 * g < vaultBase) || inWindow s (64 * g)) } }

/-- Everything of R377 that outlives the world's teams. -/
def scrub (s : State) (w : Nat) : State :=
  let s := { s with cores := Tab.mapv (fun _ c => scrubCore w c) s.cores }
  let s := s.discardLines (fun _ x => x.world == w)
  let s := { s with resid := Tab.mapv (fun _ r => if r.world = w then
    { r with active := false, loading := false, queue := [], kept := [], table := [] } else r) s.resid }
  wakeHandles (scrubVaults s)

/-- WORLD_SCRUB, once no team of the world stands; a DESTROY that waited for it ends: the key is zeroed and the pages are
unlocked. -/
def worldScrubOp (s : State) (w : Nat) : State :=
  if worldBusy s w then s
  else
    let s := scrub s w
    if (s.keys.world w).retired then
      ksResult ((s.onWorld w (fun _ => World.reset)).onKeys (fun k => { k with locked := k.locked.filter (fun x => x.2 != w) })) 0
    else s

/-! ### Replies to SYS (R192, R447) -/

/-- The request that a reply answers, and the rest of the list. -/
def findReq (s : State) (gk seq : Nat) : Option SysReq := s.sysq.find? (fun r => r.gk == gk && r.seq == seq)

/-- The capability that a reply gives participant t: for a register gc0 to gc15 the last participant's alone (R192). It is
checked while a revocation sweep runs. -/
def replyCap (s : State) (r : SysReq) (rep : SysReplyData) (asid t : Nat) : Option Cap :=
  if decide (32 ≤ r.areg) && r.parts.getLast? != some t then none
  else (Tab.look rep.caps t).map (fun c => revCheck s asid (derivedCap s (Tab.look r.caps t) c))

/-- Write a reply into a group: a result and perhaps a capability for each participant that still waits for it. -/
def replyGroup (s : State) (r : SysReq) (rep : SysReplyData) (g : Group) : Group :=
  let ts := r.parts.filter (fun t => (g.thread t).wait == .sys)
  let one := fun (g : Group) (t : Nat) =>
    let g := match r.breg with
      | some b =>
        { (g.onThread t (fun x => x.setV false b (BitVec.ofNat 32 (Tab.lookD rep.results t 0).toNat))) with
          mapped := KeySet.ins g.mapped b, pend := dropPend g.pend (isPV t b), aband := KeySet.del g.aband (b * 256 + t) }
      | none => g
    let g := match replyCap s r rep g.ids.asid t with
      | some c => writeC g t r.areg c
      | none => g
    g.onThread t (fun x => { x with st := if x.st == .waiting then .runnable else x.st, wait := .none })
  ts.foldl one g

/-- Is g the group that sent a request? -/
def sentBy (r : SysReq) (g : Group) : Bool := g.ids.team == r.team && g.ids.grp == r.grp && g.prog.isNone

/-- Where the group of a request is seated now: it may have moved since. -/
def reqKey (s : State) (r : SysReq) : Option Nat := (s.groups.find? (fun x => sentBy r x.2)).map Prod.fst

/-- The core of that group, or the one that sent the request. -/
def reqCore (s : State) (r : SysReq) : Nat := coreOf ((reqKey s r).getD r.gk)

/-- Rows that a reply needs for a register its group has since unmapped (R41): none while its partition has no row for it, or
its budget no room (R43; log 18). -/
def replyRows (s : State) (r : SysReq) : Option State :=
  match (teamGroups s r.team).find? (sentBy r), r.breg with
  | some g, some b =>
    if KeySet.has g.mapped b then some s
    else if g.ids.budget ≤ g.mapped.length then none
    else match reqKey s r with
      | some k => takeRows s k 1
      | none => some (onTeamGroups s r.team (fun g => if sentBy r g then { g with ids := { g.ids with rows := g.ids.rows + 1 } } else g))
  | _, _ => some s

/-- Deliver a reply: the group is found by its identifiers wherever it stands; the reply acquires at .dev on the core that it
stands on (R303). A reply that needs a row waits for one. -/
def sysDeliver (s : State) (r : SysReq) (rep : SysReplyData) : State :=
  match replyRows s r with
  | none => s
  | some s =>
    let core := reqCore s r
    let s' := onTeamGroups s r.team (fun g => if sentBy r g then replyGroup s r rep g else g)
    stepGen { s' with sysq := s'.sysq.filter (fun q => !(q.gk == r.gk && q.seq == r.seq)) } core true

/-- A request for one service. -/
def withReq (s : State) (gk seq service : Nat) (f : SysReq → State) : State :=
  match findReq s gk seq with
  | some r => if r.service = service then f r else s
  | none => s

/-- The same result for every participant. -/
def allResults (r : SysReq) (x : W32) : Tab W32 := r.parts.map (fun t => (t, x))

/-- SYS_REPLY: services from 0x40 on are Mydal's; one below that no table names gives all ones. -/
def sysReplyOp (s : State) (gk seq : Nat) (rep : SysReplyData) : State :=
  match findReq s gk seq with
  | none => s
  | some r =>
    if 0x40 ≤ r.service then sysDeliver s r rep
    else if ([0x01, 0x02, 0x21, 0x30] : List Nat).contains r.service then s
    else sysDeliver s r ⟨allResults r 0xFFFFFFFF, []⟩

/-- A capability that Mydal derives from root n (R90): these permissions at most, and the n bytes at a base, exactly. -/
def fromRoot (s : State) (root : Nat) (perms : BitVec 16) (base n : Nat) : Cap :=
  let c := (s.roots[root]?).getD Cap.null
  (capSetBounds (capSetAddr (capWithPerms c (capPerms c &&& perms)) (base : Int)) n true).1

/-- A heap capability of n bytes at a base with permissions among the data root's; none when bounds are not exact. -/
def heapCap (s : State) (base n : Nat) (perms : BitVec 16) : Option Cap :=
  let c := fromRoot s 0 perms base n
  if c.tag && capBase c == base && capTop c == base + n then some c else none

/-- ALLOC (R447): `bases` are the blocks found for the participants. -/
def sysAllocOp (s : State) (gk seq : Nat) (bases : List (Nat × Nat)) (perms : BitVec 16) : State :=
  withReq s gk seq 0x01 (fun r =>
    let got := r.parts.map (fun t => (t, (Tab.look bases t).bind (fun b => heapCap s b (Tab.lookD r.vals t 0).toNat perms)))
    sysDeliver s r ⟨got.map (fun x => (x.1, if x.2.isSome then 0 else 1)),
      got.filterMap (fun x => x.2.map (fun c => (x.1, c)))⟩)

/-- Set the revocation bits of the granules of [b, t) (R102). -/
def freeGranules (s : State) (asid : Nat) (c : Cap) : State :=
  match ((List.range (s.rev.num.toNat % 512)).map (fun i => (regionAt s i).1)).find? (fun r => r.asid == asid &&
      decide (r.hbase.toNat ≤ capBase c ∧ capBase c < r.hbase.toNat + r.hlen.toNat)) with
  | none => s
  | some r =>
    let i0 := (capBase c - r.hbase.toNat) / 16
    let i1 := (min (capTop c) (r.hbase.toNat + r.hlen.toNat) - r.hbase.toNat + 15) / 16
    (List.range (i1 - i0)).foldl (fun s j =>
      let i := i0 + j
      let a := r.map.toNat + i / 8
      devWrite s a [s.readByte a ||| BitVec.ofNat 8 (2 ^ (i % 8))]) s

/-- The address space and world of the request's group. -/
def reqIds (s : State) (r : SysReq) : Nat × Nat :=
  match (teamGroups s r.team).find? (fun g => g.ids.grp == r.grp) with
  | some g => (g.ids.asid, g.ids.world)
  | none => (0, 0)

/-- FREE (R447). -/
def sysFreeOp (s : State) (gk seq : Nat) : State :=
  withReq s gk seq 0x02 (fun r =>
    let s' := r.parts.foldl (fun s t => match Tab.look r.caps t with
      | some c => if c.tag then freeGranules s (reqIds s r).1 c else s
      | none => s) s
    sysDeliver s' r ⟨allResults r 0, []⟩)

/-- A team's window capability (R270), from the vault root. -/
def windowCap (s : State) (t : Team) : Cap := fromRoot s 2 0x2A1B (t.pos * 2 ^ 22) t.vlen

/-- VAULT_WINDOW (R270): a null capability and 1 for a team without a window. -/
def vaultWindowOp (s : State) (gk seq : Nat) : State :=
  withReq s gk seq 0x21 (fun r =>
    match Tab.look s.teams r.team with
    | none => s
    | some t =>
      if t.vlen = 0 then sysDeliver s r ⟨allResults r 1, r.parts.map (fun p => (p, Cap.null))⟩
      else sysDeliver s r ⟨allResults r 0, r.parts.map (fun p => (p, windowCap s t))⟩)

/-! ### Attestation (R456) -/

/-- Check chunks of 64 bytes from `a` on. -/
def checkChunks (w : Who) (k : Kind) (c : Cap) (perms : List Nat) : Nat → Nat → State → Except Stop (State × List (List (Target × Nat)))
  | 0, _, s => .ok (s, [])
  | n + 1, a, s =>
    match checkAccess s w k c 0 perms 0 1 (a : Int) 64 with
    | .error e => .error e
    | .ok (s, t) =>
      match checkChunks w k c perms n (a + 64) s with
      | .error e => .error e
      | .ok (s, ts) => .ok (s, t :: ts)

def writeChunks (w : Who) : List (List (Target × Nat)) → Nat → List Byte → State → State
  | [], _, _, s => s
  | t :: ts, a, bs, s => writeChunks w ts (a + 64) (bs.drop 64) (writePieces w true t a (bs.take 64) s)

def cfgBytes (f : Nat → Byte) (n : Nat) : List Byte := (List.range n).map f

/-- The report's first 416 bytes. -/
def reportBody (s : State) (world : Nat) (nonce : List Byte) : List Byte :=
  let w := s.keys.world world
  leBytes 1 4 ++ leBytes (world + if w.prot then 4096 else 0) 4 ++ leBytes Config.serial.toNat 8 ++
  cfgBytes (Config.firmwareHash s.power.installed) 48 ++ cfgBytes Config.kernelHash 48 ++
  (if w.prot then w.digest else List.replicate 48 0) ++ leBytes s.time.ftime 8 ++
  leBytes (s.sys.tier.toNat + 16 * s.sys.tiers.toNat) 8 ++ nonce ++ List.replicate 176 0

/-- The access of a buffer that has to wait for another package (R431, R435). -/
def attestWait (s : State) (r : SysReq) (core asid : Nat) (t : Nat) : Option Stop :=
  let c := Tab.lookD r.caps t Cap.null
  let w : Who := ⟨core, asid, r.team⟩
  let a := (capAddr c).toNat
  let waits := fun (e : Stop) => if e.cause = cWAIT then some e else none
  match checkAccess s w (kindLoad false true) c 0 [pLD] 0 1 (a : Int) 64 with
  | .error e => waits e
  | .ok (s, _) => (match checkChunks w (kindStore false false) c [pST] 8 a s with | .error e => waits e | .ok _ => none)

/-- One participant's report: its result. A buffer that the capability or its pages refuse, and the want of an attestation
key (R457), answer as a service that Mydal does not have (log 18). -/
def attestOne (s : State) (r : SysReq) (core asid world : Nat) (t : Nat) : State × W32 :=
  let c := Tab.lookD r.caps t Cap.null
  let w : Who := ⟨core, asid, r.team⟩
  let a := (capAddr c).toNat
  if !s.keys.attest || !capHas c pSYS then (s, 0xFFFFFFFF)
  else match checkAccess s w (kindLoad false true) c 0 [pLD] 0 1 (a : Int) 64 with
    | .error _ => (s, 0xFFFFFFFF)
    | .ok (s', ts) =>
      match readPieces w true ts a s' with
      | .error _ => (s, 0xFFFFFFFF)
      | .ok (s', nonce) =>
        match checkChunks w (kindStore false false) c [pST] 8 a s' with
        | .error _ => (s, 0xFFFFFFFF)
        | .ok (s', ch) =>
          let body := reportBody s' world nonce
          let sig := cfgBytes (Config.signature s'.ctr body) 96
          (writeChunks w ch a (body ++ sig) { s' with ctr := s'.ctr + 1 }, 0)

def attestAll (r : SysReq) (core asid world : Nat) : List Nat → State → Tab W32 → State × Tab W32
  | [], s, res => (s, res)
  | t :: l, s, res =>
    let (s, x) := attestOne s r core asid world t
    attestAll r core asid world l s (res ++ [(t, x)])

/-- ATTEST (R447, R456): it waits while one of its accesses has to. -/
def attestOp (s : State) (gk seq : Nat) : State :=
  withReq s gk seq 0x30 (fun r =>
    let (asid, world) := reqIds s r
    match r.parts.findSome? (attestWait s r (reqCore s r) asid) with
    | some e => awaitPeer s e
    | none =>
      let (s, res) := attestAll r (reqCore s r) asid world r.parts s []
      sysDeliver s r ⟨res, []⟩)

/-! ### Debug tiers (R457) -/

/-- Open a tier; system event 8. The challenge is used up, and no world of its own is inspected any more. -/
def openTier (s : State) (n : Nat) : State :=
  sysEvent { s with sys := { s.sys with
    tier := BitVec.ofNat 2 n, tiers := s.sys.tiers ||| BitVec.ofNat 4 (2 ^ n), challenge := none, inspect := none } } 8 0

/-- D0: authorised by the world's own key; it opens for that world. -/
def debugD0Op (s : State) (w : Nat) : State :=
  if (s.keys.world w).key = 0 then s
  else
    let s := openTier s 0
    { s with sys := { s.sys with inspect := some w } }

/-- D1: refused while a protected world is live. -/
def debugD1Op (s : State) : State := if s.keys.worlds.any (fun x => x.2.st == 2 && x.2.prot) then s else openTier s 1

/-- Every world is scrubbed and destroyed, the cores reset, and Mydal starts again. -/
def wipeWorlds (s : State) : State :=
  let s := { s with groups := [], teams := [], units := [], launches := [], sysq := [], dist := State.reset.dist }
  let s := { s with cores := Tab.mapv (fun _ c => { Core.reset with pw := c.pw }) s.cores, resid := [] }
  { (scrubVaults s).onKeys (fun k => { k with
      busy := false, handle := 0, worlds := [(0, { World.mydal with key := freshKey s })], locked := [] }) with ctr := s.ctr + 1 }

def debugD2Op (s : State) : State := openTier (wipeWorlds s) 2

/-- D3: everything is wiped; the key store refuses CREATE and no attestation key exists until the next cold boot. -/
def debugD3Op (s : State) : State :=
  openTier ({ (wipeWorlds s) with
      mem := ⟨[], [], []⟩, sealed := [], lease := { s.lease with lines := [], far := [] } }.onKeys (fun k => { k with attest := false, refuse := true })) 3

/-- The debug port offers a challenge of 48 bytes. -/
def challengeOp (s : State) : State :=
  { s with ctr := s.ctr + 1, sys := { s.sys with challenge := some (cfgBytes (Config.challenge s.ctr) 48) } }

/-- A response opens a tier, where it is a signature of the challenge under the tier's key: for D0 the world's own. -/
def responseOp (s : State) (tier world : Nat) (sig : List Byte) : State :=
  match s.sys.challenge with
  | none => s
  | some c =>
    if !Config.signed tier (if tier = 0 then (s.keys.world world).key else 0) c sig then s
    else match tier with
    | 0 => debugD0Op s world
    | 1 => debugD1Op s
    | 2 => debugD2Op s
    | 3 => debugD3Op s
    | _ => s

/-- Bytes of a team save area (R374). -/
def areaBytes : Nat := 26910720

/-- The save area of a team: of one whose unit a switch has taken, the one that goes with the unit (R375). -/
def teamArea (s : State) (t : Team) : Nat :=
  match (Tab.look s.units t.unit).bind (fun u => u.saved) with
  | some v => Tab.lookD v.areas t.pos 0
  | none => saveArea s t.core t

/-- While D0 is open for a world, bytes of the save area of a team of it are read in plaintext. -/
def inspectOp (s : State) (tk off n : Nat) : State :=
  match s.sys.inspect, Tab.look s.teams tk with
  | some w, some t =>
    let area := teamArea s t
    if s.sys.tier = 0 ∧ teamWorld s t = some w ∧ area ≠ 0 ∧ off + n ≤ areaBytes then
      { s with sys := { s.sys with
        shown := openBytes s (s.keys.world w).key (area + off) (s.readBytes (area + off) n) } }
    else s
  | _, _ => s

end Sys2Proof.Machine
end

