-- ==== Sys2Proof/Machine/Fabric.lean ====
section
/-! DEFINITION. Roles, fabric time, links, inbound traffic, register writes, event rings, soft errors, power and bring-up
(R105, R281, R282, R303, R305, R366, R378, R428, R437 to R446, R451, R458 to R460). -/

namespace Sys2Proof.Machine

/-! ### Roles (R438, R439) -/

/-- Change the role; system event 4 when it changes. The manager is the root of time (R439, R442). -/
def setRole (s : State) (r : FabricRole) : State :=
  if s.sys.role = r then s
  else sysEvent { s with sys := { s.sys with role := r }, time := { s.time with root := r == .manager } } 4 0

/-- Candidates of lower serial heard within 4 ms. -/
def lowerHeard (s : State) : Nat :=
  (s.sys.heard.filter (fun x => decide (x.1 < Config.serial.toNat ∧ s.time.ftime < x.2 + 4 * msTicks))).length

/-- The time since which no candidate of lower serial has been heard. -/
def lastLower (s : State) : Nat :=
  (s.sys.heard.filter (fun x => decide (x.1 < Config.serial.toNat))).foldl (fun a x => max a x.2) 0

def fabricUp (s : State) : Bool := s.sys.ports.any (fun p => p.2.up && p.2.role == .fabric)

/-- BEACON: every 1 ms of fabric time on fabric ports. -/
def beaconDue (s : State) : Bool := fabricUp s && decide (s.sys.lastBeacon + msTicks ≤ s.time.ftime)

def beaconOp (s : State) : State :=
  if beaconDue s then
    { s with sys := { s.sys with lastBeacon := s.time.ftime }
             out := s.out ++ [.beacon Config.serial s.sys.role s.sys.candidate] }
  else s

/-- MANAGER_STEP_DOWN: a manager meets one of lower serial. -/
def stepDownOp (s : State) (serial : W64) : State :=
  if s.sys.role = .manager ∧ serial.toNat < Config.serial.toNat then setRole s .member else s

/-- BEACON_RECEIVED: the candidate of next lowest serial is standby; a manager that hears one of lower serial steps down at once,
which is within the 4 ms. -/
def beaconReceivedOp (s : State) (serial : W64) (role : FabricRole) (cand : Bool) : State :=
  let y := s.sys
  let y := if cand then { y with heard := Tab.put y.heard serial.toNat s.time.ftime } else y
  let y := if role = .manager then { y with mgrAt := s.time.ftime } else y
  let s := { s with sys := y }
  let s := if role = .manager then stepDownOp s serial else s
  if s.sys.candidate ∧ s.sys.role ≠ .manager then setRole s (if lowerHeard s = 1 then .standby else .member) else s

/-- MANAGER_TIMEOUT. -/
def managerDue (s : State) : Bool :=
  s.sys.candidate && s.sys.role != .manager && (decide (lastLower s + 4 * msTicks ≤ s.time.ftime) ||
    (s.sys.role == .standby && decide (s.sys.mgrAt + 4 * msTicks ≤ s.time.ftime)))

def managerTimeoutOp (s : State) : State := if managerDue s then setRole s .manager else s

/-- PBR_IDENTIFIER_ASSIGN. -/
def pbrAssignOp (s : State) (p : BitVec 12) : State := { s with sys := { s.sys with pbr := p, pbrValid := true } }

/-! ### Time (R440, R441) -/

/-- Parts of a unit of fabric time: every clock frequency of R459 makes a clock a whole number of them. -/
def tickUnit : Nat := 5342931457063200


/-- SYNC_GAINED: behind, the count steps forward once; ahead, it runs at half rate until the fabric's time reaches it. An
exchange while SYNC is set corrects by rate alone: the clocks to come make up what it finds (R440). -/
def syncGainedOp (s : State) (t : W64) : State :=
  let diff := (t.toNat : Int) - (s.time.ftime : Int)
  let corr := BitVec.ofInt 32 diff
  if s.time.sync then
    { s with time := { s.time with syncAt := s.time.ftime, correction := corr, owe := diff * tickUnit - s.time.frac } }
  else if s.time.ftime ≤ t.toNat then
    sysEvent { s with time := { s.time with
      ftime := t.toNat, frac := 0, sync := true, half := false, target := none, syncAt := t.toNat, correction := corr, owe := 0 } } 6 0
  else { s with time := { s.time with half := true, target := some t.toNat, correction := corr } }

/-- SYNC_LOST: no exchange for 100 ms. -/
def syncDue (s : State) : Bool := s.time.sync && decide (s.time.syncAt + 100 * msTicks ≤ s.time.ftime)

def syncLostOp (s : State) : State :=
  if syncDue s then sysEvent { s with time := { s.time with sync := false } } 5 0 else s

/-! ### Links (R437, R443, R446, R451) -/

/-- Link ports of a package (R3, R437), and the links into which they may be bifurcated, four for each. -/
def portCount : Nat := 16
def linkCount : Nat := 64

/-- The port of a link. -/
def portOf (n : Nat) : Nat := n % portCount

/-- How many links of a width its port has: one of 16 lanes, two of 8 or four of 4 (R437); the code of a width is the logarithm of
its lanes (DESIGN CHOICE, log 61). -/
def widthLinks (width : BitVec 4) : Nat :=
  match width.toNat with
  | 4 => 1
  | 3 => 2
  | 2 => 4
  | _ => 0

/-- May link n train to a width: a link of a port that is divided so, each of whose links that are up has that width (R437)? -/
def linkFits (s : State) (n : Nat) (width : BitVec 4) : Bool :=
  decide (n / portCount < widthLinks width) &&
    s.sys.ports.all (fun x => x.1 == n || portOf x.1 != portOf n || !x.2.up || x.2.width == width)

/-- A link trains: each link of a port takes a role of its own; the tag extension is offered on fabric ports only. -/
def trainLink (s : State) (n : Nat) (role : PortRole) (width : BitVec 4) (tags : Bool) : State :=
  if linkFits s n width then
    s.onPort n (fun p => { p with role := role, up := true, hot := false, width := width, tagExt := tags && role == .fabric })
  else s

/-- LINK_UP. -/
def linkUpOp (s : State) (n : Nat) (role : PortRole) (width : BitVec 4) (tags : Bool) : State :=
  if linkFits s n width then sysEvent (trainLink s n role width tags) 3 (portOf n) else s

/-- LINK_DOWN: leases with the packages that no other link reaches are lost (R433). -/
def linkDownOp (s : State) (n : Nat) : State :=
  let p := s.sys.port n
  if !p.up then s
  else
    let s := s.onPort n (fun p => { p with up := false })
    let s := if p.role = .fabric then p.peers.foldl (fun s q => if peerUp s q then s else loseWith s q) s else s
    sysEvent s 2 (portOf n)

/-- UPSTREAM_HOT_RESET (R446): what the host on that link sees of the device goes, with the leases of every package reached through it. -/
def hotResetOp (s : State) (n : Nat) : State :=
  let p := s.sys.port n
  if p.role ≠ .upstream then s
  else
    let s := s.onPort n (fun p => { p with
      up := false, hot := true, cut := true, resets := if p.resets = 255 then 255 else p.resets + 1, host := HostSide.reset })
    let s := p.peers.foldl loseWith s
    let s := (boundOn s n).foldl (fun s a => (bumpGen s a).onXlat (fun x =>
      { x with detached := KeySet.ins x.detached a, bound := Tab.rem x.bound a })) s
    sysEvent s 1 (portOf n)

/-- SEQUENCE_WARNING. -/
def sequenceWarningOp (s : State) (n : Nat) : State := if portCount ≤ n then s else sysEvent s 7 n

/-- A link's traffic carries the sequence number n: it never falls, and does not pass its end. -/
def flowOp (s : State) (port n : Nat) : State :=
  let p := s.sys.port port
  if linkCount ≤ port ∨ n ≤ p.flow ∨ flowEnd < n then s
  else
    let s := s.onPort port (fun p => { p with flow := n })
    if p.flow ≤ flowWarn ∧ flowWarn < n then sequenceWarningOp s (portOf port) else s

/-- The same for the traffic of a world from a core into the network. -/
def coreFlowOp (s : State) (core world n : Nat) : State :=
  let f := Tab.lookD (s.core core).flows world 0
  if Config.nCores ≤ core ∨ 4096 ≤ world ∨ n ≤ f ∨ flowEnd < n then s
  else
    let s := s.onCore core (fun c => { c with flows := Tab.put c.flows world n })
    if f ≤ flowWarn ∧ flowWarn < n then sysEvent s 7 core else s

/-- A flow at its end stalls: what would come over the link waits, without end (R291, R451). -/
def flowStalled (s : State) (port : Nat) : Bool := decide (flowEnd ≤ (s.sys.port port).flow)

/-! ### Inbound traffic (R445, R432) -/

/-- What the lines of n bytes wait for. -/
def inboundAwait (s : State) (pa n : Nat) (write : Bool) : Option W64 :=
  ((List.range ((pa + n - 1) / 128 - pa / 128 + 1)).map (fun i => max pa ((pa / 128 + i) * 128))).findSome? (fun a => awaitPa s a write)

/-- What translating an inbound access comes to: its pieces, a failure, or a wait for another package (R431, R435). -/
inductive InRes where
  | ok (s : State) (l : List (Nat × Nat × Bool))
  | bad (s : State)
  | wait (s : State)
  deriving DecidableEq, Repr

/-- Translate an inbound access under the port's address space, page by page. -/
def inboundXlat (s : State) (port : Nat) (need : Need) : Nat → Nat → Nat → InRes
  | 0, _, _ => .ok s []
  | fuel + 1, va, n =>
    if n = 0 then .ok s []
    else
      let k := min n (4096 - va % 4096)
      let asid := (s.sys.port port).asid
      match translateBy s [.chip] asid va need with
      | .error _ => .bad (metClean s [.chip] asid va need)
      | .ok (s, x) =>
        if (leaseCheck s x.pa).isSome then .bad s
        else match inboundAwait s x.pa k need.w with
          | some d => .wait (awaitPeer s ⟨cWAIT, 0, d, none⟩)
          | none =>
            match inboundXlat s port need fuel (va + k) (n - k) with
            | .ok s l => .ok s ((x.pa, k, x.io) :: l)
            | r => r

/-- VIOL counts a write to an extent lent read-only. -/
def countViol (s : State) (pa : Nat) : State :=
  if lentShared s pa then
    { s with lease := { s.lease with lenders := Tab.mapv (fun _ l =>
        let ext := (pa - 2 ^ 52) / 2 ^ 28
        if l.mode = 1 ∧ (l.st = 2 ∨ l.st = 3) ∧ l.ebase.toNat ≤ ext ∧ ext < l.ebase.toNat + l.elen.toNat ∧ l.viol.toNat + 1 < 2 ^ 32
        then { l with viol := l.viol + 1 } else l) s.lease.lenders } }
  else s

def inboundPut (key : Nat) : List (Nat × Nat × Bool) → List Byte → State → State
  | [], _, s => s
  | (pa, k, io) :: l, bs, s =>
    let d := bs.take k
    inboundPut key l (bs.drop k)
      (if io || isMmio pa then deviceStore s key pa d else linkWrite (countViol s pa) key pa d)

/-- INBOUND_WRITE: performed at the home slices, tags cleared; a failed translation is an unsupported request. -/
def inboundWriteOp (s : State) (port : Nat) (va : W64) (data : List Byte) : State :=
  if flowStalled s port then s
  else match inboundXlat s port needStore (data.length / 4096 + 2) va.toNat data.length with
  | .wait s => s
  | .bad s => { s with out := s.out ++ [.inboundReply port false []] }
  | .ok s l => inboundPut (keyOf s (s.sys.port port).asid) l data s

/-- The bytes of an inbound read's pieces. -/
def inboundGet (key : Nat) : List (Nat × Nat × Bool) → State → State × List Byte
  | [], s => (s, [])
  | (pa, k, io) :: l, s =>
    let (s, b) := if io || isMmio pa then deviceLoad s key pa k else (snoopFor s pa k false, openBytes s key pa (s.readBytes pa k))
    let (s, bs) := inboundGet key l s
    (s, b ++ bs)

/-- INBOUND_READ. -/
def inboundReadOp (s : State) (port : Nat) (va : W64) (len : Nat) : State :=
  if flowStalled s port then s
  else match inboundXlat s port needLoad (len / 4096 + 2) va.toNat len with
  | .wait s => s
  | .bad s => { s with out := s.out ++ [.inboundReply port false []] }
  | .ok s l =>
    if l.any (fun x => (s.mem.err (homeOf s x.1) x.2.1).isSome) then { s with out := s.out ++ [.inboundReply port false []] }
    else
      let (s, bs) := inboundGet (keyOf s (s.sys.port port).asid) l s
      { s with out := s.out ++ [.inboundReply port true bs] }

/-! ### Registers with no behaviour of their own (R9), and the rings -/

/-- A physical address as a register keeps it: 56 bits (R410, R9). -/
def paReg (x : W64) : W64 := x &&& 0xFFFFFFFFFFFFFF

/-- PWCTL (R370): bits [3:0] are the command; one that is none of the six is ignored, with RESULT 3, unless BUSY. -/
def pwctlWrite (s : State) (core : Nat) (x : W64) : State :=
  match x.toNat % 16 with
  | 1 => parkOp s core
  | 2 => resumeOp s core
  | 3 => reflectOp s core
  | 4 => terminateOp s core
  | 5 => caploadOp s core
  | 6 => capstoreOp s core
  | _ => if (s.core core).sup.busy then s else s.onSup core (fun u => u.done 3)

/-- What PWSTAT reads (R366). -/
def pwStat (s : State) (core : Nat) : W64 :=
  let u := (s.core core).sup
  BitVec.ofNat 64 ((if u.busy then 1 else 0) + 2 * u.result.toNat)

/-- REGISTER_WRITE: a command register carries out the command written, the others keep what is written: a base below its alignment
too, RVTAB's included, whose table is then read where it lies (DESIGN CHOICE, log 80). -/
def registerWriteOp (s : State) (r : Reg) (x : W64) : State :=
  match r with
  | .pwctl c => pwctlWrite s c x
  | .rvcmd => rvCmd s x
  | .tcmd => tcmdWrite s x
  | .rfctl n => rfctlWrite s n x
  | .lcmd => lcmdWrite s x
  | .rsctl d => rsctlWrite s d x
  | .kscmd => kscmdWrite s x
  | .pwsel c => s.onSup c (fun u => { u with pwsel := x.setWidth 7 })
  | .pwtid c => s.onSup c (fun u => { u with pwtid := x.setWidth 8 })
  | .pwidx c => s.onSup c (fun u => { u with pwidx := x.setWidth 12 })
  | .savebase c => s.onSup c (fun u => { u with savebase := paReg x })
  | .evbase c => s.onSup c (fun u => { u with evbase := paReg x })
  | .evsize c => s.onSup c (fun u => { u with evsize := ringSize (x.setWidth 4) })
  | .rvtab => { s with rev := { s.rev with tab := paReg x } }
  | .rvnum => { s with rev := { s.rev with num := x &&& 0x1FF } }
  | .tva => s.onXlat (fun t => { t with tva := x })
  | .tlen => s.onXlat (fun t => { t with tlen := x })
  | .tgensel => s.onXlat (fun t => { t with gensel := x.setWidth 16 })
  | .tbase => s.onXlat (fun t => { t with tbase := paReg x })
  | .tdump => s.onXlat (fun t => { t with tdump := paReg x })
  | .tdlen => s.onXlat (fun t => { t with tdlen := x })
  | .tthr => s.onXlat (fun t => { t with tthr := x.setWidth 16 })
  | .rfasid n => s.onHost n (fun h => { h with rfasid := x.setWidth 16 })
  | .rfva n => s.onHost n (fun h => { h with rfva := x })
  | .rflen n => s.onHost n (fun h => { h with rflen := x })
  | .larg => { s with lease := { s.lease with larg := x } }
  | .levbase => { s with lease := { s.lease with evbase := paReg x } }
  | .levsize => { s with lease := { s.lease with evsize := ringSize (x.setWidth 4) } }
  | .lender i off => lenderWrite s i off x
  | .slot i off => slotWrite s i off (if off = 24 then paReg x else x)
  | .rsbase d => s.onDie d (fun r => { r with base := paReg x })
  | .rslen d => s.onDie d (fun r => { r with len := x.setWidth 13 })
  | .ksva => s.onKeys (fun k => { k with va := x })
  | .kspa => s.onKeys (fun k => { k with pa := paReg x })
  | .kssel => s.onKeys (fun k => { k with sel := x.setWidth 12 })
  | .sevbase => { s with sys := { s.sys with evbase := paReg x } }
  | .sevsize => { s with sys := { s.sys with evsize := ringSize (x.setWidth 4) } }

/-- EVTAIL: the tail advances, and events held back are written while there is room (R366, R430, R443). -/
def evtailOp (s : State) (r : RingName) (x : W64) : State :=
  match r with
  | .core c =>
    let s := s.onSup c (fun u => { u with evtail := x.toNat % 2 ^ u.evsize.toNat })
    coreDrain c (s.core c).sup.waiting.length s
  | .lease =>
    let s := { s with lease := { s.lease with evtail := x.toNat % 2 ^ s.lease.evsize.toNat } }
    leaseDrain s.lease.waiting.length s
  | .system =>
    let s := { s with sys := { s.sys with evtail := x.toNat % 2 ^ s.sys.evsize.toNat } }
    sysDrain s.sys.waiting.length s

/-- SUPERVISOR_FENCE (R303, R323): a release and an acquire at .dev. What its core has modified of leases reaches the lender
(R344, R436). -/
def supervisorFenceOp (s : State) (core : Nat) : State := stepGen (releaseFar s 3) core true

/-! ### Soft errors (R305, R364) -/

/-- The oldest operation queued on a tile. -/
def tileRec (s : State) (tk : Nat) (t : Team) (tile : Nat) : Option MRec :=
  (seqSort MRec.seq (s.core t.core).mx.recs).find? (fun r => r.team == tk && r.tile == tile)

/-- The format that decides what a lost quarter reads as: that of an operation queued on the tile, else that of the
team's lowest group (log 19). -/
def tileInt (s : State) (tk : Nat) (t : Team) (tile : Nat) : Bool :=
  let fmt : W32 := match tileRec s tk t tile with
    | some r => r.fmt
    | none => (match (teamGroups s tk).head? with | some g => g.r.fmt | none => 0)
  match mmaFormat fmt with | some f => f.int | none => false

/-- The event record of an engine's error: no group is parked (R365). SEQ is the operation's; with none queued it is zero (log 19). -/
def engineEvent (s : State) (tk : Nat) (t : Team) (seq : Nat) : State :=
  let la := Tab.look s.launches t.launch
  let r := leBytes seq 8 ++ leBytes 0x2500 2 ++ leBytes 0 2 ++ leBytes 2 4 ++ leBytes t.num 4 ++ leBytes 0 2 ++ leBytes 0 1 ++
    leBytes 0 1 ++ leBytes 0 8 ++ leBytes 0 4 ++ leBytes (match la with | some l => l.asid | none => 0) 2 ++
    leBytes (match la with | some l => l.world | none => 0) 2 ++ leBytes 0 8 ++ leBytes 0 8 ++ leBytes 0 8 ++ leBytes 0 32
  if (Tab.look s.teams tk).isSome then coreEvent s t.core r else s

/-- UNCORRECTABLE_SOFT_ERROR. -/
def softErrorOp (s : State) (u : ErrUnit) : State :=
  match u with
  | .memory pa => { s with mem := { s.mem with errs := KeySet.ins s.mem.errs (homeOf s pa / 64) } }
  | .vault core off => { s with mem := { s.mem with errs := KeySet.ins s.mem.errs (vaultHome core (off % 2 ^ 22) / 64) } }
  | .quarter tk tile q =>
    match Tab.look s.teams tk with
    | none => s
    | some t =>
      if tile < 16 ∧ q < 4 then
        let int := tileInt s tk t tile
        let spoil := spoilPass tk tile q int
        let s' := s.onMx t.core (fun m => { m with run := m.run.map spoil, ended := m.ended.map spoil })
        engineEvent (s'.onTeam tk (fun x => spoilQuarter x tile q int)) tk t
          (match tileRec s tk t tile with | some r => r.seq | none => 0)
      else s

/-! ### Power and bring-up (R282, R378, R458 to R460) -/

def State.onPw (s : State) (core : Nat) (f : CPower → CPower) : State := s.onCore core (fun c => { c with pw := f c.pw })

/-- CORE_CLOSE and CORE_REOPEN. -/
def closeDue (s : State) (core : Nat) : Bool := let p := (s.core core).pw; !p.closed && decide (95 ≤ p.temp)
def reopenDue (s : State) (core : Nat) : Bool := let p := (s.core core).pw; p.closed && decide (p.temp < 88)

def coreCloseOp (s : State) (core : Nat) : State :=
  if closeDue s core then sysEvent (s.onPw core (fun p => { p with closed := true })) 9 core else s
def coreReopenOp (s : State) (core : Nat) : State :=
  if reopenDue s core then sysEvent (s.onPw core (fun p => { p with closed := false })) 10 core else s

/-- CLOCK_STEP_DOWN and CLOCK_STEP_UP: 50 MHz of a nominal 2.0 GHz. R459 names no lowest frequency: the last step leaves 50 MHz
(DESIGN CHOICE, log 49). -/
def clockDownOp (s : State) : State :=
  if s.power.overLimit ∧ s.power.stepsDown < 39 then { s with power := { s.power with stepsDown := s.power.stepsDown + 1 } } else s
def clockUpOp (s : State) : State :=
  if s.power.overLimit then s else { s with power := { s.power with stepsDown := s.power.stepsDown - 1 } }

/-- THERMAL_SHUTDOWN: 110 °C on any die, of the cores, the vaults or I/O. -/
def shutdownDue (s : State) : Bool := s.cores.any (fun c => decide (110 ≤ c.2.pw.temp)) || s.power.dieTemp.any (fun x => decide (110 ≤ x.2))
def hottest (s : State) : Nat := s.power.dieTemp.foldl (fun a x => max a x.2) (s.cores.foldl (fun a c => max a c.2.pw.temp) 0)

def shutdownOp (s : State) : State :=
  if shutdownDue s then { s with power := { s.power with down := true }, out := s.out ++ [.overheated (hottest s)] } else s

/-- Nothing runs: the package has shut down (R459), or a failed cold boot holds it in reset (R458). -/
def stopped (s : State) : Bool := s.power.down || s.power.held.isSome

/-- FIRMWARE_UPDATE stages an image for the next cold boot. -/
def firmwareUpdateOp (s : State) (image : W64) : State := { s with power := { s.power with staged := some image } }

/-- The package before the first step of a cold boot: as after reset, but with nothing found or handed over yet. What stands
outside it, at the far sides of its links, stays. -/
def bootBegin (s : State) : State :=
  { State.reset with
    agenda := s.agenda, ctr := s.ctr, roots := [], cores := []
    power := { State.reset.power with
      installed := s.power.installed, staged := s.power.staged, poolExtents := 0, ends := s.power.ends, fabricTime := s.power.fabricTime } }

/-- Clocks of the 100 ms that a cold boot waits for fabric time (R458), at 2.0 GHz. -/
def syncWait : Nat := 200000000

/-- Fabric time at a cold boot (R441, R458): with no fabric link the count runs freely from 0; with one it is synchronised where the
fabric's time can be had, and runs freely after 100 ms where it cannot. The count is behind any fabric time then, and steps to it
(log 74). -/
def bootTime (s : State) : Time :=
  let t := State.reset.time
  if !fabricUp s then t
  else match s.power.fabricTime with
    | some f => { t with ftime := f, sync := true, syncAt := f, correction := BitVec.ofNat 32 f }
    | none => { t with clock := syncWait, ftime := 100 * msTicks }

/-- Step n of a cold boot of s0 (R458): the firmware in place is verified and measured, the pool is found and the links are trained,
fabric time synchronises or runs freely, the roots are handed over, and the distributor accepts launches. -/
def bootStep (s0 : State) (n : Nat) (s : State) : State :=
  match n with
  | 1 => { s with power := { s.power with installed := s.power.staged.getD s.power.installed, staged := none } }
  | 2 => s.power.ends.foldl (fun s x => trainLink s x.1 x.2.1 x.2.2.1 x.2.2.2)
      { s with power := { s.power with poolExtents := s0.power.poolExtents } }
  | 3 => { s with time := bootTime s }
  | 4 => { s with roots := rootCaps }
  | _ => { s with dist := State.reset.dist }

/-- COLD_BOOT: its five steps in order. One that fails holds the package in reset and is reported; the steps before it have been
done. -/
def coldBootOp (s : State) : State :=
  let run := fun (ns : List Nat) => ns.foldl (fun s' n => bootStep s n s') (bootBegin s)
  match s.power.failing with
  | some n =>
    let s' := run ((List.range 6).filter (fun i => decide (1 ≤ i ∧ i < n)))
    { s' with power := { s'.power with held := some n }, out := [.bootFailed n] }
  | none => run [1, 2, 3, 4, 5]

/-- POWER_GATE of a core that holds no team. -/
def powerGateOp (s : State) (core : Nat) (retained : Bool) : State :=
  if teamsOn s core = [] then s.onPw core (fun p => { p with gated := true, lostRet := !retained }) else s

/-- Drop a core's vault. -/
def zeroVault (s : State) (core : Nat) : State := { s with mem := s.mem.clearRange (vaultHome core 0) (2 ^ 22) }

/-- WAKE_WITH_ZEROING. -/
def wakeZeroOp (s : State) (core : Nat) : State :=
  if (s.core core).pw.gated then
    let s := if teamsOn s core = [] then zeroVault s core else s
    s.onCore core (fun c => { c with
      l1 := { c.l1 with lines := [], fills := [], order := [] }, ic := [], wp := [], wpWorld := [],
      pw := { c.pw with gated := false, lostRet := false, lastWorld := none } })
  else s

end Sys2Proof.Machine
end

