-- ==== Sys2Proof/Machine/Sched.lean ====
section
/-! DEFINITION. Issue and time: the fetch of an instruction (R27, R120), the picker and the override (R286 to R290), the
holds of a group (R191), the order of internal steps, and the advance of clocks (logs 7, 8). -/

namespace Sys2Proof.Machine

/-! ### Fetch (R27, R120) -/

/-- Who fetches for a group. -/
def fetcher (k : Nat) (g : Group) : Who := ⟨coreOf k, g.ids.asid, g.ids.team⟩

/-- The instruction cache keeps the line at va, as a fetch for some team of the core reads it now (log 28). -/
def codeFill (s : State) (core asid va : Nat) : State :=
  let a := va / 128 * 128
  let team := ((s.teams.filter (fun t => t.2.placed && t.2.core == core)).map Prod.fst).headD noTeam
  let w : Who := ⟨core, asid, team⟩
  match translate s w a needFetch, fetchPiece (s.discardCode (fun _ _ => true)) w a 128 0 with
  | .ok (s, x), .ok b =>
    let world := match asidRoot s asid with | some x => x.2 | none => 0
    let level := match tlbAt s (.core core) asid a with | some e => e.level | none => 4
    let tags := (fetchLine s (keyOf s asid) x.pa).2
    let ln : Line := ⟨0xF, world, level, homeOf s x.pa, b, tags, 4, if isLease x.pa then some (leaseSlotOf x.pa) else none, 0, 0⟩
    s.onCore core (fun c => { c with ic := Tab.put c.ic (lineKey asid va) ln })
  | _, _ => s

/-- What a thread's code capability makes of a fetch of n bytes at pc (R27). -/
def codeCheck (c : Cap) (pc n : Nat) : Option Stop :=
  let fa := BitVec.ofNat 64 pc
  match capCheck c 0 [pX] fa with
  | some e => some e
  | none => if boundsCheck c 0 (pc : Int) n then none else some (stopAt cCAP_BOUNDS fa)

/-- Words that the first word calls for (R106). -/
def lenWords (w : W32) : Nat :=
  match (w.extractLsb' 0 2).toNat with
  | 0 => 1
  | 1 => 3
  | 2 => 3
  | _ => 5

/-- A fetch that fails after it has read word 0 keeps that word, for tinst (R355). -/
structure FetchErr where
  stop : Stop
  word : W32
  deriving DecidableEq, Repr

/-- What fetched words decode to. An address that is no multiple of 4 holds no instruction (R107): ILL stands for it, as for
words that decode to nothing (R134). -/
def decodedAt (pc : Nat) (b : List Byte) : Instr :=
  if pc % 4 ≠ 0 then .ill 0 0
  else match decodeBytes b with
    | .ok (i, _) => i
    | .error _ => .ill 0 0

/-- Fetch for one thread: the instruction with its words. Words beyond the first are fetched where the first calls for them,
so word 0 that is illegal by itself is so wherever TOP stands (DESIGN CHOICE, log 51). -/
def fetchAt (s : State) (w : Who) (code : Cap) (pc : Nat) : Except FetchErr (Instr × List W32) :=
  let fa := BitVec.ofNat 64 pc
  match codeCheck code pc 4 with
  | some e => .error ⟨e, 0⟩
  | none =>
    match fetchBytes s w pc 4 fa with
    | .error e => .error ⟨e, 0⟩
    | .ok b0 =>
      match decodeBytes b0 with
      | .error .truncated =>
        let w0 := (wordsOf b0).headD 0
        let n := 4 * lenWords w0
        (match codeCheck code pc n with
         | some e => .error ⟨e, w0⟩
         | none =>
           match fetchBytes s w pc n fa with
           | .error e => .error ⟨e, w0⟩
           | .ok b => .ok (decodedAt pc b, wordsOf b))
      | _ => .ok (decodedAt pc b0, wordsOf b0)

/-- The first of some threads whose code capability refuses n bytes at pc. -/
def fetchFails (g : Group) (pc n : Nat) (ts : List Nat) : Option (Nat × Stop) :=
  ts.findSome? (fun t => (codeCheck (g.thread t).code pc n).map (fun e => (t, e)))

/-- A fetch that fails at the sweep's first thread: the sweep issues and stops there (R27, R135). Nothing is held: the
thread fetches again when it resumes. tinst is word 0 where that could be fetched, else 0 (DESIGN CHOICE, log 51). One that waits for
another package has not issued (R435, log 42). -/
def fetchFault (s : State) (k t pc : Nat) (tinst : W32) (e : Stop) : State :=
  if e.cause = cWAIT then awaitPeer s e else
  let (s, q) := nextSeq s (coreOf k)
  match s.group k with
  | none => s
  | some g =>
    if g.prog.isSome then endProgram s k (stopStatus e.cause)
    else takeException s k ⟨e.cause ++ (0 : BitVec 8), t, [t], BitVec.ofNat 64 pc, tinst, q, e.faddr, e.detail, false⟩

/-! ### The override (R290) -/

def overrideDue (g : Group) : Bool := g.clause.isNone && !g.sched.ovOn && decide (64 ≤ g.sched.ovc) && g.runnable != []

/-- OVERRIDE_ENTER: at a clause boundary, once 64 clauses have been counted. -/
def overrideEnterOp (s : State) (k : Nat) : State :=
  s.onGroup k (fun g =>
    if overrideDue g then
      { g with sched := { g.sched with ovOn := true, ovl := 0, ovT := g.lowestRunnable.getD 0 } }
    else g)

/-- The override ends: its thread waits, where it has not ended with the wait already, or exits, or 64 clauses have run. -/
def overrideOver (g : Group) : Bool :=
  g.sched.ovOn && g.clause.isNone &&
    (decide (64 ≤ g.sched.ovl) || (g.thread g.sched.ovT).st == .waiting || (g.thread g.sched.ovT).st == .exited)

/-- OVERRIDE_END. -/
def overrideEndOp (s : State) (k : Nat) : State :=
  s.onGroup k (fun g => if overrideOver g then { g with sched := { g.sched with ovOn := false, ovc := 0, ovl := 0 } } else g)

/-! ### Holds, yields and owed slots (R191, R288, R289) -/

/-- AT_RELEASE. -/
def atReleaseOp (s : State) (k : Nat) : State :=
  s.onGroup k (fun g =>
    match g.hold with
    | .at ft => if ft.toNat ≤ s.time.ftime then { (wakeThreads g [.atTime]) with hold := .none } else g
    | _ => g)

/-- SLEEP_EXPIRY. -/
def sleepExpiryOp (s : State) (k : Nat) : State :=
  s.onGroup k (fun g =>
    match g.hold with
    | .sleep c => if c ≤ s.time.clock then { (wakeThreads g [.sleep]) with hold := .none } else g
    | _ => g)

/-- YIELD_EXPIRY: after 64 clocks. -/
def yieldExpiryOp (s : State) (k : Nat) : State :=
  s.onGroup k (fun g =>
    if g.sched.yieldUntil ≠ 0 ∧ g.sched.yieldUntil ≤ s.time.clock then { g with sched := { g.sched with yieldUntil := 0 } } else g)

/-- OWED_REFRESH: every 64 clocks each favoured group is owed a slot, once in that clock. -/
def owedRefreshOp (s : State) (core : Nat) : State :=
  if s.time.clock % 64 ≠ 0 ∨ (s.core core).owedAt = s.time.clock + 1 then s
  else
    let s := s.onCore core (fun c => { c with owedAt := s.time.clock + 1 })
    { s with groups := Tab.mapv (fun k g =>
      if coreOf k = core ∧ g.prog.isNone ∧ favoured s k then { g with sched := { g.sched with owed := true } } else g) s.groups }

/-! ### What a group would issue -/

/-- May the group issue (R286, R295, R365)? A park or a stop lets it finish its clause, a held sweep first, and one that drains behind a stop
goes on until the stop is delivered. -/
def canIssue (g : Group) : Bool :=
  g.sup.isNone && g.deliv.isNone && g.hold == .none &&
    (g.park == .running || g.drain.isSome ||
      ((g.park == .requested || g.park == .stopping || g.park == .evicting) && g.clause.isSome)) &&
    (match g.prog with | some p => p.outcome.isNone | none => true) &&
    (g.held != [] || g.clause.isSome || g.runnable != []) && !overrideDue g && !overrideOver g

/-- The address of the next instruction, the threads that would execute it, and the instruction of a held sweep. -/
def nextOf (g : Group) : Nat × KeySet × Option Held :=
  match g.drain with
  | some d => drainNext g d
  | none =>
  match g.held with
  | h :: _ => (h.iaddr.toNat, h.active.filter (fun t => (g.thread t).st != .exited && decide (h.res ≤ t)), some h)
  | [] => ((match g.clause with | some c => c.ipc | none => g.blockPc.getD 0), g.execSet, none)

/-- The instruction that the group would issue next, if its fetch succeeds. -/
def nextInstr (s : State) (k : Nat) (g : Group) : Option Instr :=
  match nextOf g with
  | (_, _, some h) => some h.instr
  | (pc, t :: _, none) => (match fetchAt s (fetcher k g) (g.thread t).code pc with | .ok x => some x.1 | .error _ => none)
  | (_, [], none) => none

/-- Record the thread at which the fetch fails, for the sweep to stop there. -/
def withFetchStop (s : State) (g : Group) (pc n : Nat) (ts : List Nat) : State :=
  { s with fetchStop := (fetchFails g pc n ts).map (fun x => (x.1, x.2.cause, x.2.faddr, x.2.detail)) }

/-- Clear the fetch record after an instruction. -/
def settle (o : Out) : Out :=
  match o with
  | .next s => .next { s with fetchStop := none, fetched := [] }
  | .fault f => .fault f
  | .refused r => .refused r

/-- Group k issues its next sweep: `ex` is the machine's exec. Behind a stop, a younger sweep that cannot be fetched was not
in flight, and the stop is delivered (R24). -/
def groupStep (ex : Instr → State → Out) (s : State) (k : Nat) : Out :=
  match s.group k with
  | none => .next s
  | some g =>
    if !canIssue g then .next s
    else
      let s := { s with focus := k }
      match nextOf g with
      | (pc, ts, some h) => settle (ex h.instr (withFetchStop s g pc (instrLen h.instr) ts))
      | (_, [], none) => .next (if g.drain.isSome then deliverDrained s k else s.setGroup k { g with clause := none })
      | (pc, t :: ts, none) =>
        match fetchAt s (fetcher k g) (g.thread t).code pc with
        | .error e => .next (if g.drain.isSome then deliverDrained s k else fetchFault s k t pc e.word e.stop)
        | .ok x =>
          let s := fetchFill s (fetcher k g) pc (4 * x.2.length)
          settle (ex x.1 { (withFetchStop s g pc (instrLen x.1) ts) with fetched := x.2 })

/-! ### Rows that stall a favoured group (R45) -/

/-- The group whose rows are missing where group k stalls for a row: its own for a trap window, for registers that its next
sweep writes first and for those that RSET names; that of the destination for a copy. -/
def rowStall (s : State) (k : Nat) (g : Group) : Option Nat :=
  if g.deliv.isSome then (if (takeWindow s k).isNone then some k else none)
  else if !canIssue g then none
  else do
    let i ← nextInstr s k g
    let w ← sweepNow i { s with focus := k }
    let copy := fun (cpyc : Bool) => do
      let t ← w.parts.head?
      if chanFull s w then none
      match copyIssue cpyc w none s t with
      | .stall => descGroup s (coreOf k) g.ids.team (opDesc (copyOps w t))
      | _ => none
    match mapRegs s k w.dests with
    | .stall => some k
    | .budget => none
    | .ok _ =>
      match i with
      | .rset _ => (match mapNumbers s k (rsetRegs w) with | .stall => some k | _ => none)
      | .cpy _ => copy false
      | .cpyc _ => copy true
      | _ => none

/-- A partition evicts for a favoured group that stalls for rows that the reserve no longer gives. Rows are taken together, so
a reserve with fewer than the group needs is an empty one (DEDUCED, log 54). Rows on their way to the reserve are awaited:
a second eviction follows only where the stall outlasts the first (R294). -/
def evictWanted (s : State) (core part : Nat) : Bool :=
  let p := (s.core core).part part
  decide (p.freeing = 0) && s.groups.any (fun x => favoured s x.1 &&
    (match rowStall s x.1 x.2 with
     | some k => coreOf k == core && partOf k == part && (k == x.1 || decide (p.rsv = 0))
     | none => false))

/-- EVICT: an eviction begun goes on; else one begins. -/
def evictOp (s : State) (core part : Nat) : State :=
  if evictionOn s core part || evictWanted s core part then evictGroup s core part else s

/-! ### The picker (R288, R289) -/

/-- Distance of a position upward from rr, modulo 16. -/
def rrDist (rr p : Nat) : Nat := (p % 16 + 16 - rr % 16) % 16

/-- Insertion sort by a key; equal keys keep their order. -/
def insBy {α : Type} (f : α → Nat) (x : α) : List α → List α
  | [] => [x]
  | y :: l => if f x < f y then x :: y :: l else y :: insBy f x l

def sortBy {α : Type} (f : α → Nat) (l : List α) : List α := l.foldl (fun acc x => insBy f x acc) []

/-- Clocks for which a group's next sweep has been ready. -/
def age (s : State) (g : Group) : Nat := s.time.clock - g.sched.readySince.getD s.time.clock

/-- May the group issue in this clock: it has not done so yet, and its partition has issued fewer than four sweeps (R288)? -/
def mayPick (s : State) (k : Nat) (g : Group) : Bool :=
  let p := (s.core (coreOf k)).part (partOf k)
  g.sched.issuedAt != s.time.clock + 1 && (p.pickAt != s.time.clock + 1 || decide (p.picked < 4))

/-- Groups of a partition in the order of the picker. Groups that a step ranks alike (the same identifier in two worlds, the same
wait) stand by position, the lowest first (DESIGN CHOICE, log 65). -/
def pickOrder (s : State) (core part : Nat) : List Nat :=
  let gs := s.groups.filter (fun x => coreOf x.1 == core && partOf x.1 == part && canIssue x.2 && mayPick s x.1 x.2)
  let low := fun (g : Group) => match g.lowestOwed with | some t => threadId s g t | none => 0
  let rr := ((s.core core).part part).rr
  let owed := sortBy (fun x => low x.2) (gs.filter (fun x => x.2.sched.owed))
  let old := sortBy (fun x => 2 ^ 64 - age s x.2) (gs.filter (fun x => !x.2.sched.owed && decide (1024 ≤ age s x.2)))
  let rest := sortBy (fun x => rrDist rr (posOf x.1)) (gs.filter (fun x => !x.2.sched.owed && decide (age s x.2 < 1024) &&
    x.2.sched.yieldUntil == 0))
  (owed ++ old ++ rest).map Prod.fst

/-- Did the group come from step 3? -/
def fromStep3 (s : State) (g : Group) : Bool := !g.sched.owed && decide (age s g < 1024)

/-- rr passes n positions of a partition: a yield ends once it has passed every other position (R289). -/
def passYields (s : State) (core part n k : Nat) : State :=
  { s with groups := Tab.mapv (fun j (g : Group) =>
      if coreOf j = core ∧ partOf j = part ∧ j ≠ k ∧ g.sched.yieldUntil ≠ 0 then
        (if g.sched.yieldLeft ≤ n then { g with sched := { g.sched with yieldUntil := 0, yieldLeft := 0 } }
         else { g with sched := { g.sched with yieldLeft := g.sched.yieldLeft - n } })
      else g) s.groups }

/-- After group k has issued, from state s0 to s: its owed slot is spent, its wait starts again, its partition has issued one
sweep more, and a choice of step 3 moves rr past it. A YIELD of this sweep counts the positions from where rr then stands. -/
def issued (s0 s : State) (k : Nat) : State :=
  match s0.group k with
  | none => s
  | some g0 =>
    let core := coreOf k
    let part := partOf k
    let p := (s0.core core).part part
    let now := s0.time.clock + 1
    let step3 := posOf k < 128 && fromStep3 s0 g0
    let rr := if step3 then (posOf k + 1) % 16 else p.rr
    let s := if step3 then passYields s core part (rrDist p.rr (posOf k) + 1) k else s
    let s := s.onGroup k (fun g => { g with sched := { g.sched with
      owed := false, readySince := none, issuedAt := now
      yieldLeft := if g.sched.yieldLeft = 16 then (if rr = (posOf k + 1) % 16 then 15 else 16) else g.sched.yieldLeft } })
    s.onCore core (fun c => c.setPart part { (c.part part) with
      rr := rr, pickAt := now, picked := if p.pickAt = now then p.picked + 1 else 1 })

/-- Partitions that hold groups, and the sequencers of engine programs. -/
def partOrder (s : State) : List (Nat × Nat) := (s.groups.map (fun x => (coreOf x.1, partOf x.1))).eraseDups

/-- Every group that may issue in this clock, in order. -/
def readyOrder (s : State) : List Nat := (partOrder s).flatMap (fun p => pickOrder s p.1 p.2)

/-! ### Time (R5, R440, R441, R459; log 8) -/

/-- The parts of 1/16 ns in one core clock: 8 units at 2.0 GHz, more as the clock steps down (R459). -/
def clockTicks (s : State) : Nat := 320 * tickUnit / (40 - s.power.stepsDown)

/-- Would the group issue now (R286)? -/
def groupReady (ex : Instr → State → Out) (s : State) (k : Nat) : Bool :=
  match groupStep ex s k with
  | .next s' => s'.group k != s.group k
  | _ => true

/-- Since when each group's next sweep has been ready, as the clock that begins finds it (R288). -/
def noteReady (ex : Instr → State → Out) (s : State) : State :=
  { s with groups := Tab.mapv (fun k (g : Group) => { g with sched := { g.sched with
      readySince := if groupReady ex s k then some (g.sched.readySince.getD s.time.clock) else none } }) s.groups }

/-- What the rate makes up of a correction in n parts: at most 200 in a million of them, while SYNC is set (R440). -/
def Time.adjust (t : Time) (n : Nat) : Int := if t.sync then max (-(n / 5000 : Nat)) (min t.owe (n / 5000 : Nat)) else 0

/-- Fabric time goes on by one core clock: at half rate while it waits for the fabric's (R441). -/
def Time.pass (t : Time) (n : Nat) : Time :=
  let d := if t.half then n / 2 else n
  let e := ((d : Int) + t.adjust n).toNat
  { t with
    clock := t.clock + 1
    ftime := t.ftime + (t.frac + e) / tickUnit
    frac := (t.frac + e) % tickUnit
    owe := t.owe - t.adjust n
    target := t.target.map (fun x => x + (2 * (t.frac + d) / tickUnit - 2 * t.frac / tickUnit)) }

/-- One core clock passes. -/
def tick (ex : Instr → State → Out) (s : State) : State :=
  noteReady ex { s with time := s.time.pass (clockTicks s) }

/-! ### The steps of copy channels (R237, R241, R242, R312, R313, R363) -/

/-- COPY_ACCEPT: the oldest copy of the channel not yet accepted; its flag clears. -/
def copyAcceptOp (s : State) (core ch : Nat) : State :=
  match ((s.core core).chan ch).find? (fun c => !c.accepted) with
  | none => s
  | some c =>
    (s.onCore core (fun k => k.setChan ch ((k.chan ch).map (fun x => if x.seq = c.seq ∧ x.hcore = c.hcore then { x with accepted := true } else x)))).onIssuer
      c.gk (fun g => clearFlag g c.flag)

/-- The head copy of a channel, when the channel serves it or not. -/
def headCopy (s : State) (core ch : Nat) (serving : Bool) : Option Copy :=
  if (s.core core).isServing ch = serving then ((s.core core).chan ch).head? else none

/-- COPY_SERVE_BEGIN: wp(ch) is set to the first destination byte of the row to come (R312, R363). -/
def copyServeOp (s : State) (core ch : Nat) : State :=
  match headCopy s core ch false with
  | none => s
  | some c =>
    if !c.accepted || c.cancel then s
    else
      wpToRow (s.onCore core (fun k => k.setServing ch true)) core ch c

/-- COPY_ROW_SKIP. -/
def copySkipOp (s : State) (core ch : Nat) : State :=
  match headCopy s core ch true with
  | none => s
  | some c => if !c.cancel && rowSkipped s core c then copyAdvance s core ch c else s

/-- What a row that another package or a register's row holds up leaves: the request that has no answer is timed (R433). -/
def rowHeld (s : State) (e : Stop) : State := if e.cause = cWAIT then awaitPeer s e else s

/-- Before its rows are delivered, a served copy whose source has LEASE reads the lines of row n ahead (R436). -/
def copyAheadOp (s : State) (core ch n : Nat) : State :=
  match headCopy s core ch true with
  | none => s
  | some c =>
    if c.cancel || !capLease c.lay.src || capHas c.lay.src pVLT || decide (n < c.next ∨ c.lay.rows ≤ n ∨ c.count ≤ n) then s
    else ((rowLines c n).take aheadCap).foldl (readAhead core c) s

/-- COPY_ROW_DELIVER. -/
def copyDeliverOp (s : State) (core ch : Nat) : State :=
  match headCopy s core ch true with
  | none => s
  | some c =>
    if c.cancel || rowSkipped s core c then s
    else match tryRow s core c with
      | .ok (s, c) => copyAdvance s core ch c
      | .error e => rowHeld s e

/-- COPY_STOP: the row to come cannot be read or written. -/
def copyStopOp (s : State) (core ch : Nat) : State :=
  match headCopy s core ch true with
  | none => s
  | some c =>
    if c.cancel || rowSkipped s core c then s
    else match tryRow s core c with
      | .ok _ => s
      | .error e =>
        if e.cause = cWAIT then s
        else copyEnd (abandonRows (wpToRow (dropRefused s c.asid e) core ch c) core c) core ch c (statusWord (copyCode e.cause) 0)

/-- COPY_CANCEL: a cancelled copy that is served stops at its row boundary, wp(ch) at the start of the row to come (R242, R257); one
still queued leaves its queue. -/
def copyCancelOp (s : State) (core ch : Nat) : State :=
  match ((s.core core).chan ch).find? (fun c => c.cancel) with
  | none => s
  | some c =>
    let s := if headCopy s core ch true = some c then wpToRow s core ch c else s
    copyGone (abandonRows s core c) core ch c stCANCELLED

/-! ### Internal steps in their default order (log 7) -/

/-- An internal step: what it makes of a state. -/
abbrev Auto := State → State

def groupEvents (s : State) (k : Nat) (g : Group) : List Auto :=
  let bars := g.th.filterMap (fun x => match x.2.wait with
    | .bar => some (false, g.ids.team, x.2.barNum)
    | .barc => (Tab.look s.teams g.ids.team).map (fun t => (true, t.unit, x.2.barNum))
    | _ => none)
  [fun s => overrideEnterOp s k, fun s => overrideEndOp s k, fun s => ldwReturnOp s k] ++
  (List.range g.pend.length).map (fun n s => llComplete s k (g.pend.length - 1 - n)) ++
  [fun s => deliverWaiting s k (fun _ => true), fun s => atReleaseOp s k, fun s => sleepExpiryOp s k, fun s => yieldExpiryOp s k,
   fun s => parkComplete s k] ++
  bars.eraseDups.map (fun b s => barrierOp s b.1 b.2.1 b.2.2) ++
  (if posOf k < 128 then [fun s => groupRetireOp s k] else [])

def channelEvents (c ch : Nat) : List Auto :=
  [fun s => copyAcceptOp s c ch, fun s => copyCancelOp s c ch, fun s => copyServeOp s c ch, fun s => copySkipOp s c ch,
   fun s => copyDeliverOp s c ch, fun s => copyStopOp s c ch]

def coreEvents (c : Nat) (k : Core) : List Auto :=
  (List.range 8).flatMap (fun p => [fun s => rowFreedOp s c p, fun s => evictOp s c p]) ++
  [fun s => evictedReturnOp s c, fun s => owedRefreshOp s c, fun s => genPassDone s c false, fun s => genPassDone s c true] ++
  k.l1.fills.map (fun _ s => l1FillOp s c) ++
  (k.ch.filter (fun x => x.2 != [])).flatMap (fun x => channelEvents c x.1) ++
  [fun s => passWriteback s c, fun s => passStartOp s c, fun s => tileOpEffect s c, fun s => quarterArrive s c, fun s => passWindow s c,
   fun s => claimGrantOp s c, fun s => programStartOp s c 0, fun s => programStartOp s c 1, fun s => programEndOp s c 0,
   fun s => programEndOp s c 1] ++
  k.bins.flatMap (fun b => [fun s => binExpiry s c b.1, fun s => binForm s c b.1]) ++
  [fun s => coreCloseOp s c, fun s => coreReopenOp s c]

/-- Requests to SYS that the manual alone answers: those of the services it fixes, less ALLOC. -/
def sysEvents (r : SysReq) : List Auto :=
  if r.service = 0x21 then [fun s => vaultWindowOp s r.gk r.seq]
  else if r.service = 0x30 then [fun s => attestOp s r.gk r.seq]
  else if r.service = 0x02 then [fun s => sysFreeOp s r.gk r.seq]
  else if r.service < 0x40 ∧ r.service ≠ 0x01 then [fun s => sysReplyOp s r.gk r.seq ⟨[], []⟩]
  else []

def launchEvents (l : Nat × Launch) : List Auto :=
  match l.2.st with
  | .reading => [fun s => recordRead s l.1]
  | .dependent => [fun s => depsDone s l.1]
  | .timed => [fun s => startTime s l.1]
  | .ending => [fun s => launchDone s l.1]
  | _ => []

/-- The end of a half-rate catch-up (R441). -/
def catchUp (s : State) : State :=
  match s.time.target with
  | some t => if s.time.half ∧ s.time.ftime ≤ t then syncGainedOp s (BitVec.ofNat 64 t) else s
  | none => s

def packageEvents (s : State) : List Auto :=
  s.launches.flatMap launchEvents ++
  (if s.lease.far.any (fun x => x.2.snoop) then [snoopsAnswered] else []) ++
  (if s.dist.queues.any (fun q => q.2 != []) then [considerOp, headAging] else []) ++
  s.units.map (fun u s => if u.2.saved.isSome then unitRestoreOp s u.1 else dropUnit s u.1) ++
  s.teams.filterMap (fun t => if t.2.relSlots || t.2.relTiles then some (fun s => releaseDoneOp s t.1) else none) ++
  s.sysq.flatMap sysEvents ++
  (if s.rev.busy then [walkGroupsOp, walkPagesOp, revDone] else []) ++
  s.resid.flatMap (fun r => [fun s => resLoaded s r.1, fun s => resApply s r.1]) ++
  (tcmdDone :: s.sys.ports.map (fun p s => rfDone s p.1)) ++
  s.lease.lenders.flatMap (fun l => [fun s => lenderExpiryOp s l.1, fun s => lenderLost s l.1]) ++
  s.lease.slots.flatMap (fun l => [fun s => slotExpiryOp s l.1, fun s => slotLost s l.1, fun s => flushDone s l.1]) ++
  s.keys.worlds.filterMap (fun w => if w.2.retired then some (fun s => worldScrubOp s w.1) else none) ++
  [beaconOp, managerTimeoutOp, catchUp, syncLostOp, clockDownOp, clockUpOp, shutdownOp]

def events (s : State) : List Auto :=
  s.groups.flatMap (fun g => groupEvents s g.1 g.2) ++ s.cores.flatMap (fun c => coreEvents c.1 c.2) ++ packageEvents s

/-- The first of some internal steps that changes the state. -/
def firstEvent (s : State) : List Auto → Option State
  | [] => none
  | f :: l => if f s = s then firstEvent s l else some (f s)

/-- The first ready group that does not stall: what it leaves of its own record tells. What a group that stalls leaves beside it
stands: a bin that is due, a request that is timed. -/
def firstGroup (ex : Instr → State → Out) (s : State) : List Nat → State × Option Out
  | [] => (s, none)
  | k :: l =>
    match groupStep ex s k with
    | .next s' => if s'.group k = s.group k then firstGroup ex s' l else (s, some (.next (issued s s' k)))
    | o => (s, some o)

/-! ### Inputs -/

/-- Steps of engines, supervisor cores and the fabric, as against encoded instructions. -/
def isEvent (i : Instr) : Bool :=
  match i with
  | .clauseHeader _ _ _ _ => false
  | .ill _ _ => false
  | i => (formOf i).isNone

/-- A supervisor core's access to memory: at va of an address space, which lies at pa of this package's memory (R301, R302). -/
def superReaches (s : State) (va pa n : Nat) : Bool := paLocal s pa && paLocal s (pa + n - 1) && va % 4096 == pa % 4096

/-- One that waits for a borrower's answer: nothing is done yet, and the wait is timed (R431, R433). -/
def superWaits (s : State) (pa : Nat) (write : Bool) (go : State) : State :=
  match awaitPa s pa write with
  | some d => awaitPeer s ⟨cWAIT, BitVec.ofNat 64 pa, d, none⟩
  | none => go

/-- A supervisor core's store: its core's L1 holds it as a store of the core's own, and memory takes it under the key of that address
space's world. -/
def superStoreOp (s : State) (core asid va pa : Nat) (bs : List Byte) : State :=
  if !superReaches s va pa bs.length || writeBarred s pa then s
  else superWaits s pa true (
    let s := (cuts (bs.length / 128 + 2) va bs.length).foldl (fun s x =>
      l1Store s core asid x.1 (pa + (x.1 - va)) false ((bs.drop (x.1 - va)).take x.2) false) s
    linkWrite s (keyOf s asid) pa bs)

/-- A capability that a supervisor core stores: one that derives from the roots (R90) keeps its tag, unless a revocation sweep
revokes it (R103). -/
def superGives (s : State) (asid : Nat) (c : Cap) : Cap := revCheck s asid (derivedCap s none c)

/-- A supervisor core stores a capability of its own into package memory, to which one without ROAM goes untagged (R89). -/
def superCapOp (s : State) (core asid va pa : Nat) (c : Cap) : State :=
  if !superReaches s va pa 16 || pa % 16 != 0 || writeBarred s pa then s
  else superWaits s pa true (
    let c := roamOnly (superGives s asid c)
    keyCap (l1Store s core asid va pa false (capBytes c) c.tag) (keyOf s asid) pa c)

/-- What a supervisor core's last load gave it. -/
def superGets (s : State) (core : Nat) (bs : List Byte) : State := s.onSup core (fun u => { u with rd := bs })

/-- A supervisor core's load: a hit of the L1 it shares with its core gives the line's bytes from va on, a miss begins a fill
(R301). -/
def superLoadOp (s : State) (core asid va pa : Nat) : State :=
  if !superReaches s va pa 1 then s
  else match l1Hit s core asid va with
    | some l => superGets s core (l.data.drop (va % 128))
    | none => superWaits s pa false (
      let r := l1Miss (snoopFor s pa 1 false) core asid va pa
      superGets r.1 core (r.2.data.drop (va % 128)))

/-- A supervisor core's accesses to the vaults of its die, in the die view (R298): a store, a load of n bytes, and a capability store,
whose value may lack ROAM (R89). -/
def superVaultStoreOp (s : State) (core a : Nat) (bs : List Byte) : State :=
  match vaultDie core a bs.length with | some h => { s with mem := s.mem.write h bs } | none => s

def superVaultLoadOp (s : State) (core a n : Nat) : State :=
  match vaultDie core a n with | some h => superGets s core (s.mem.bytes h n) | none => s

def superVaultCapOp (s : State) (core asid a : Nat) (c : Cap) : State :=
  let c := superGives s asid c
  match vaultDie core a 16 with
  | some h => if a % 16 = 0 then { s with mem := s.mem.writeCap h (capBytes c) c.tag } else s
  | none => s

/-- A supervisor core's load from an MMIO page, under the key of Mydal's world. -/
def superMmioOp (s : State) (core pa n : Nat) : State :=
  if !isMmio pa then s
  else
    let r := deviceLoad s (s.keys.world 0).key pa n
    superGets r.1 core r.2

/-- A supervisor core reads the status of an operation. One that has completed is observed: of another core's, and of a launch, the
observation steps the observer's CGD (R317, R339). -/
def superStatusOp (s : State) (core : Nat) (h : W64) : State :=
  let s := if s.handleDone h && (ranOn s h != core || hKind h == 4) then stepGen s core true else s
  superGets s core (leBytes (s.status h).toNat 4)

/-- A change from outside. -/
def applyInput (s : State) (x : Input) : State :=
  match x with
  | .run _ => s
  | .runTo _ _ => s
  | .ev _ => s
  | .inFlight k n => s.onGroup k (fun g => { g with sched := { g.sched with ahead := min n 3 } })
  | .dropLine core key => s.l1Map core (fun l => l.discard (fun k _ => k == key))
  | .codeLine core asid va => codeFill s core asid va
  | .dropCode core key => s.onCore core (fun c => { c with ic := Tab.rem c.ic key })
  | .dropTlb n => s.onXlat (fun t => { t with tlb := t.tlb.eraseIdx n })
  | .temperature core deg => s.onPw core (fun p => { p with temp := deg })
  | .dieTemperature die deg => { s with power := { s.power with dieTemp := Tab.put s.power.dieTemp die deg } }
  | .droops core n => s.onPw core (fun p => { p with droop := n })
  | .powerOver b => { s with power := { s.power with overLimit := b } }
  | .superStore core asid va pa data => superStoreOp s core asid va pa data
  | .superCap core asid va pa c => superCapOp s core asid va pa c
  | .superLoad core asid va pa => superLoadOp s core asid va pa
  | .superVault core a data => superVaultStoreOp s core a data
  | .superVaultLoad core a n => superVaultLoadOp s core a n
  | .superVaultCap core asid a c => superVaultCapOp s core asid a c
  | .superMmio core pa n => superMmioOp s core pa n
  | .superStatus core h => superStatusOp s core h
  | .superCopy core ch asid lay ops dest => superCopyOp s core ch asid lay ops dest
  | .ctlPage base page => { s with ctl := match page with | some p => Tab.put s.ctl base p | none => Tab.rem s.ctl base }
  | .register r x => registerWriteOp s r x
  | .evtail r x => evtailOp s r x
  | .residPage d page => s.onDie d (fun r => { r with page := page })
  | .routeTags peer ok => { s with sys := { s.sys with
      noTags := if ok then KeySet.del s.sys.noTags peer else KeySet.ins s.sys.noTags peer } }
  | .bindAsid a (some h) => s.onXlat (fun t => { t with bound := Tab.put t.bound a h, detached := KeySet.del t.detached a })
  | .bindAsid a none => s.onXlat (fun t => { t with bound := Tab.rem t.bound a })
  | .retention core lost => s.onPw core (fun p => { p with lostRet := p.lostRet || (lost && p.gated) })
  | .portAsid n a => s.onPort n (fun p => { p with asid := a })
  | .portPeer n p on => s.onPort n (fun x => { x with peers := x.peers.filter (· != p) ++ (if on then [p] else []) })
  | .flow port n => flowOp s port n
  | .hostCfg l off x => s.onHost l (fun h => { h with cfg := Tab.put h.cfg off x })
  | .hostBar l n x => s.onHost l (fun h => { h with bars := Tab.put h.bars n x })
  | .hostMsix l on i x => s.onHost l (fun h => { h with msixOn := on, table := Tab.put h.table i x })
  | .linkEnd l far => { s with power := { s.power with ends := match far with
      | some x => Tab.put s.power.ends l x
      | none => Tab.rem s.power.ends l } }
  | .hostLink l => { s with sys := { s.sys with hostLink := l } }
  | .fabricOffer t => { s with power := { s.power with fabricTime := t } }
  | .farLine entry pa excl mod => farLineOp s entry pa excl mod
  | .farWrite home data => farWriteOp s home data
  | .evictLine key => evictLineOp s key
  | .copyAhead core ch n => copyAheadOp s core ch n
  | .silent lender i on => fallSilent s lender i on
  | .coreFlow core world n => coreFlowOp s core world n
  | .challenge => challengeOp s
  | .response tier world sig => responseOp s tier world sig
  | .inspect team off n => inspectOp s team off n
  | .bootFails n => { s with power := { s.power with failing := n.filter (fun n => decide (1 ≤ n ∧ n ≤ 5)) } }
  | .portWindow n b k => s.onPort n (fun x => { x with win := (b, k), cut := x.cut && !x.up })

/-- Group k issues, in the next clock where it has issued in this one or its partition has issued four sweeps; a group that
stalls leaves the clock as it stands. -/
def runGroup (ex : Instr → State → Out) (s : State) (k : Nat) : Out :=
  let s := match s.group k with | some g => if mayPick s k g then s else tick ex s | none => s
  match groupStep ex s k with
  | .next s' => .next (if s'.group k = s.group k then s' else issued s s' k)
  | o => o

/-- Group k issues its next sweep, which comes as far as before thread t for now (R21; log 3). -/
def runPart (ex : Instr → State → Out) (s : State) (k t : Nat) : Out :=
  match runGroup ex { s with cut := some t } k with
  | .next s => .next { s with cut := none }
  | o => o

/-- One step, given the machine's exec: the next input, else the first internal step that changes something, else the
first group that may issue in this clock and does not stall, else the next clock. -/
def schedule (ex : Instr → State → Out) (s : State) : Out :=
  match s.agenda with
  | x :: l =>
    let s := { s with agenda := l }
    (match x with
     | .run k => runGroup ex s k
     | .runTo k t => runPart ex s k t
     | .ev i => if isEvent i then ex i s else .next s
     | x => .next (applyInput s x))
  | [] =>
    match firstEvent s (events s) with
    | some s' => .next s'
    | none =>
      match firstGroup ex s (readyOrder s) with
      | (_, some o) => o
      | (s', none) => .next (tick ex s')

/-! ### Placing one instruction (log 11) -/

/-- Where the instruction stands. -/
def placeAt : Nat := 0x10000

/-- An unbounded code capability at an address. -/
def codeAt (a : Nat) : Cap := capMk (BitVec.ofNat 64 a) 0 0 63 false 0 0x804D true

/-- A state whose group 0 issues the instruction with the given words next: an address space that maps the first 256 TiB
onto physical memory, one thread, and a clause of one instruction, or none where the word is a header. -/
def placeWords (s : State) (ws : List W32) : State :=
  let s := s.discardCode (fun _ _ => true)
  let mem := s.mem.write placeAt (ws.flatMap bytesOfWord)
  let mem := mem.write 0x1000 (leBytes 0xCF 8)
  let mem := mem.write 0x2000 (leBytes (1 + 0xA * 2 ^ 56) 8)
  let g : Group := newGroup ⟨0, 0, 0, 0, 128, 0, 0, 0⟩ [] [(0, newThread (codeAt placeAt) [])]
  let header := (ws.headD 0).extractLsb' 0 8 == (0 : BitVec 8)
  let g := { g with clause := if header then none else some ⟨placeAt, 1, 15, 15, false, [0]⟩ }
  { (s.setGroup 0 g) with mem := mem, xlat := { s.xlat with tbase := 0x2000 }, agenda := [.run 0] }

end Sys2Proof.Machine
end

