-- ==== Sys2Proof/Machine/Accesses.lean ====
section
/-! DEFINITION. Memory, capability and atomic instructions (R199 to R229). -/

namespace Sys2Proof.Machine

/-! ### Loads and stores (R207) -/

/-- LDW: a load whose result readers wait for (R208). -/
def execLdw (o : Base) (s : State) : Out := sweepMem (.ldw o) s true (fun _ s => s) (loadOne false false 0 1)

/-- LDW with a literal offset. -/
def execLdwLit (o : Base) (lit : W64) (s : State) : Out :=
  sweepMem (.ldwLit o lit) s true (fun _ s => s) (loadOne false false 0 1)

/-- STW. -/
def execStw (o : Base) (s : State) : Out := sweepMem (.stw o) s false (fun _ s => s) (storeOne false false 0 0 1)

/-- STW with a literal offset. -/
def execStwLit (o : Base) (lit : W64) (s : State) : Out :=
  sweepMem (.stwLit o lit) s false (fun _ s => s) (storeOne false false 0 0 1)

/-- LD: a plain load; .byp reads at the point of coherence (R209). -/
def execLd (o : Ext) (s : State) : Out :=
  sweepMem (.ld o) s false (fun _ s => s) (fun w => loadOne false w.byp 0 1 w)

/-- LDA: an acquire at its scope (R211). -/
def execLda (o : Ext) (s : State) : Out :=
  sweepMem (.lda o) s false (acquireStep o.imm) (fun w => loadOne false (acqDirect o.imm) 0 w.width w)

/-- PREF: no register, order or fault; the line may come to the vector L1 (R224). -/
def execPref (o : Ext) (s : State) : Out := sweepS (.pref o) s false prefOne

/-- ST: a plain store. -/
def execSt (o : Ext) (s : State) : Out :=
  sweepMem (.st o) s false (fun _ s => s) (fun w => storeOne false w.byp 0 0 1 w)

/-- STL: a release (R211, R336, R344); accesses take effect in program order (log 6). -/
def execStl (o : Ext) (s : State) : Out :=
  sweepMem (.stl o) s false (releaseStep o.imm) (fun w => storeOne false false (qScope o.imm) 0 w.width w)

/-- LDC: a capability load (R214). -/
def execLdc (o : Ext) (s : State) : Out := sweepMem (.ldc o) s false (fun _ s => s) ldcOne

/-- STC: a capability store (R215). -/
def execStc (o : Ext) (s : State) : Out := sweepMem (.stc o) s false (fun _ s => s) stcOne

/-! ### Atomics (R216 to R218) -/

/-- An AMO is an acquire and a release at its scope (R218). -/
def amo (i : Instr) (o : Ext) (s : State) (f : Sw → W64 → W64 → W64 → W64) : Out :=
  sweepMem i s false (bothStep o.imm) (amoOne f)

/-- AMO .add. -/
def execAmoAdd (o : Ext) (s : State) : Out := amo (.amoAdd o) o s amoAddF

/-- AMO .and. -/
def execAmoAnd (o : Ext) (s : State) : Out := amo (.amoAnd o) o s (amoInt (fun a b => a &&& b))

/-- AMO .or. -/
def execAmoOr (o : Ext) (s : State) : Out := amo (.amoOr o) o s (amoInt (fun a b => a ||| b))

/-- AMO .xor. -/
def execAmoXor (o : Ext) (s : State) : Out := amo (.amoXor o) o s (amoInt (fun a b => a ^^^ b))

/-- AMO .min. -/
def execAmoMin (o : Ext) (s : State) : Out := amo (.amoMin o) o s (amoMinF false)

/-- AMO .max. -/
def execAmoMax (o : Ext) (s : State) : Out := amo (.amoMax o) o s (amoMinF true)

/-- AMO .swap. -/
def execAmoSwap (o : Ext) (s : State) : Out := amo (.amoSwap o) o s amoSwapF

/-- AMO .cas. -/
def execAmoCas (o : Ext) (s : State) : Out := amo (.amoCas o) o s amoCasF

/-- AMOC .swap: stores C[C] and returns the old capability (R217). -/
def execAmocSwap (o : Ext) (s : State) : Out :=
  sweepMem (.amocSwap o) s false (bothStep o.imm) (amocOne Sw.capC (fun _ _ => none))

/-- AMOC .cas: stores C[C+1] where the granule equals C[C], tag for tag (R217). -/
def execAmocCas (o : Ext) (s : State) : Out :=
  sweepMem (.amocCas o) s false (bothStep o.imm) (amocOne Sw.capC1 (fun w t => some (w.capC t)))

/-! ### Fences and panels (R219 to R223) -/

/-- FENCE: an acquire and a release; one with no participant orders nothing. -/
def execFence (o : Ext) (s : State) : Out :=
  sweepAll (.fence o) s true (fun w _ s => .ok (if w.parts = [] then s else bothStep o.imm w s))

/-- TLD. -/
def execTld (o : Ext) (s : State) : Out := tldSweep (.tld o) s

/-- TST. -/
def execTst (o : Ext) (s : State) : Out := tstSweep (.tst o) s

/-! ### Capability instructions (R225 to R228) -/

/-- REFADR: the address. -/
def execRefadr (o : Ext) (s : State) : Out := inspect (.refadr o) s (fun w t => capAddr (w.capA t))

/-- REFBASE: BASE, 0 when malformed. -/
def execRefbase (o : Ext) (s : State) : Out := inspect (.refbase o) s (fun w t => BitVec.ofNat 64 (capBase (w.capA t)))

/-- REFLEN: TOP − BASE. -/
def execReflen (o : Ext) (s : State) : Out := inspect (.reflen o) s (fun w t => capLenWord (w.capA t))

/-- REFPERM: PERMS. -/
def execRefperm (o : Ext) (s : State) : Out := inspect (.refperm o) s (fun w t => (capPerms (w.capA t)).setWidth 64)

/-- REFTYPE: OTYPE, M [39:36] and the tag. -/
def execReftype (o : Ext) (s : State) : Out := inspect (.reftype o) s (fun w t => (capTypeWord (w.capA t)).setWidth 64)

/-- REFSETA: cap_set_addr to b. -/
def execRefseta (o : Ext) (s : State) : Out := derive (.refseta o) s (fun w t => capSetAddr (w.capA t) (w.b64 t : Int))

/-- REFADD: cap_set_addr to A(c) + b, exactly. -/
def execRefadd (o : Ext) (s : State) : Out := derive (.refadd o) s (fun w t => capSetAddr (w.capA t) (w.ea t))

/-- REFNAR: cap_set_bounds, rounding outward. -/
def execRefnar (o : Ext) (s : State) : Out := derive (.refnar o) s (fun w t => (capSetBounds (w.capA t) (w.b64 t) false).1)

/-- REFNARX: cap_set_bounds, stopping with CAP_INEXACT where it would round. -/
def execRefnarx (o : Ext) (s : State) : Out :=
  sweepG (.refnarx o) s (fun w g d t =>
    let r := capSetBounds (w.capA t) (w.b64 t) true
    if r.2 then .error (stopAt cCAP_INEXACT 0) else .ok ⟨w.writeCD g t r.1, 0, [], d⟩)

/-- REFDROP: PERMS less the bits of b [15:0]. -/
def execRefdrop (o : Ext) (s : State) : Out := derive (.refdrop o) s (fun w t => capDrop (w.capA t) ((w.srcB t).setWidth 16))

/-- REFWRAP: sealed with the type IMM8 (R92). -/
def execRefwrap (o : Ext) (s : State) : Out := derive (.refwrap o) s (fun w t => capWrap (w.capA t) (w.capB t) w.e.imm.toNat)

/-- REFUNWR: unsealed (R92). -/
def execRefunwr (o : Ext) (s : State) : Out := derive (.refunwr o) s (fun w t => capUnwrap (w.capA t) (w.capB t))

/-- REFCHK: the tag. -/
def execRefchk (o : Ext) (s : State) : Out := aluPred (.refchk o) s (fun w t _ _ => ((w.capA t).tag, 0))

/-- REFVOID: the tag clear. -/
def execRefvoid (o : Ext) (s : State) : Out := derive (.refvoid o) s (fun w t => capUntag (w.capA t))

/-- REFDIFF: the difference of two addresses. -/
def execRefdiff (o : Ext) (s : State) : Out := inspect (.refdiff o) s (fun w t => capAddr (w.capA t) - capAddr (w.capB t))

/-- REFEQ: equal bits and tags. -/
def execRefeq (o : Ext) (s : State) : Out := aluPred (.refeq o) s (fun w t _ _ => (decide (w.capA t = w.capB t), 0))

/-- REFMINT: a capability from a pattern, within the authority c (R228). -/
def execRefmint (o : Ext) (s : State) : Out := derive (.refmint o) s (fun w t => capMint (w.capA t) (mintPattern w t))

/-- REFMOV: a copy. -/
def execRefmov (o : Ext) (s : State) : Out := derive (.refmov o) s (fun w t => w.capA t)

end Sys2Proof.Machine
end

