-- ==== Sys2Proof/Machine/Control.lean ====
section
/-! DEFINITION. Clause headers, transfers of control, barriers, spawning, time, system calls, traps and special registers
(R119 to R124, R167 to R173, R184 to R198). -/

namespace Sys2Proof.Machine

/-! ### Clause headers and ILL -/

/-- The form of a word that has no operands. -/
def bareForm : Form := ⟨0, 0, .no, .no, .no, .no, .no, .no, .no, .no, .no, false, false, true, false, .zero, .zero, .no⟩

def bareExt : Ext := ⟨false, 0, 0, 0, false, false, 0, false, 7, false, 0, 0, 0, false, 0, 0, 0, none⟩

/-- The sweep of a word that has no operands: `f` acts with its first active thread. -/
def bare (i : Instr) (s : State) (f : Group → Sw → Nat → Out) : Out :=
  match s.group s.focus with
  | none => .fault .noGroup
  | some g =>
    let w := sweepOf s s.focus g i bareForm bareExt
    if g.drain.isSome then .next (deliverDrained s s.focus) else
    match w.all with
    | [] => .next { s with groups := Tab.put s.groups w.gk { g with held := g.held.drop 1, clause := none } }
    | t :: _ => f g w t

/-- ILLEGAL_INSTRUCTION of such a word (R120, R134, R135). -/
def bareIllegal (s : State) (g : Group) (w : Sw) (t : Nat) : Out :=
  .next (stopFirst s w (tinstOf s w) t cILLEGAL)

/-- A clause begins (R119, R120): its threads go past the header; the override counts it (R290). -/
def openClause (g : Group) (w : Sw) (set0 set1 count : BitVec 4) : Group :=
  let inside := match g.lowestRunnable with | some l => KeySet.has w.all l | none => false
  let g := advancePc g w.all w.iaddr 4
  { g with
    clause := some ⟨w.iaddr + 4, count.toNat + 1, set0.toNat, set1.toNat, false, w.all⟩
    held := if w.replay then g.held.drop 1 else g.held
    sched := { g.sched with
      ovc := if inside then 0 else g.sched.ovc
      ovl := if g.sched.ovOn then g.sched.ovl + 1 else g.sched.ovl } }

/-- CLAUSE_HEADER: the clause begins once every flag in WAIT is clear (R122); a header inside a clause, or with reserved
flag numbers, is illegal (R120, R134). A thread that cannot fetch it stops, the others standing at the header (R27). -/
def execClauseHeader (wait : BitVec 12) (set0 set1 count : BitVec 4) (s : State) : Out :=
  bare (.clauseHeader wait set0 set1 count) s (fun g w t =>
    if !headerOk set0 set1 || g.clause.isSome then bareIllegal s g w t
    else match w.lim with
      | some (k, st) => .next (fetchFault s w.gk k w.iaddr (tinstOf s w) st)
      | none => if waitBlocked g wait then .next s else .next (s.setGroup w.gk (openClause g w set0 set1 count)))

/-- ILL: every word of major 0x3F, and all words no map assigns, stop with ILLEGAL_INSTRUCTION (R124, R134, R135); in an
engine program it ends the program (R133). -/
def execIll (len : BitVec 2) (rest : BitVec 24) (s : State) : Out :=
  bare (.ill len rest) s (fun g w t =>
    if g.prog.isSome then .next (endProgram s w.gk (statusWord 0x000A 0)) else bareIllegal s g w t)

/-! ### Transfers of control (R167 to R173) -/

/-- BRA: to word 0 plus 4 × OFF. -/
def execBra (o : Ext) (s : State) : Out :=
  branch (.bra o) s (fun _ => true) (fun w g t => .ok (setPc g t (brTarget w)))

/-- BRC: as BRA, when G[A] is not zero. -/
def execBrc (o : Ext) (s : State) : Out :=
  branch (.brc o) s (fun w => w.gA != 0) (fun w g t => .ok (setPc g t (brTarget w)))

/-- JMP: to the address of C[A], which becomes the code capability (R168). -/
def execJmp (o : Ext) (s : State) : Out := branch (.jmp o) s (fun _ => true) (fun w g t => jumpTo w g t false)

/-- CALL: as BRA, with the return sentry in c31 (R169). -/
def execCall (o : Ext) (s : State) : Out :=
  branch (.call o) s (fun _ => true) (fun w g t =>
    .ok (setPc (writeC g t 31 (capReturn (g.thread t).code (w.iaddr + 12))) t (brTarget w)))

/-- CALLR: as JMP, with the return sentry in c31. -/
def execCallr (o : Ext) (s : State) : Out := branch (.callr o) s (fun _ => true) (fun w g t => jumpTo w g t true)

/-- RET for thread t: c31, a return sentry, becomes the code capability, unsealed (R170). -/
def returnTo (w : Sw) (g : Group) (t : Nat) : Except Stop Group :=
  let c := readC w.g w.base 0 t 31
  if !c.tag then .error (stopAt cRETURN_UNTAGGED 0)
  else if capOtype c ≠ 1 then .error (stopAt cCAP_SEAL 0)
  else .ok (g.onThread t (fun x => { x with code := capUnseal c }))

def execRet (o : Ext) (s : State) : Out := branch (.ret o) s (fun _ => true) returnTo

/-- A pending write of one of these threads. -/
def writeOf (ts : KeySet) (w : PWrite) : Bool :=
  match w with
  | .v t _ _ => KeySet.has ts t
  | .c t _ _ => KeySet.has ts t
  | .p t _ _ => KeySet.has ts t
  | .acc t _ => KeySet.has ts t
  | _ => false

/-- Threads exit: the pending results of their loads are discarded, and no others (R172). -/
def exitThreads (g : Group) (ts : KeySet) : Group :=
  { g with
    th := Tab.mapv (fun t x => if KeySet.has ts t then { x with st := .exited, wait := .none } else x) g.th
    pend := g.pend.map (fun p => if p.load then { p with writes := p.writes.filter (fun x => !writeOf ts x) } else p) }

/-- Does some thread outside `ts` wait at a barrier (R186)? -/
def barWaits (g : Group) (ts : KeySet) : Bool :=
  g.th.any (fun x => !KeySet.has ts x.1 && x.2.st == .waiting && (x.2.wait == .bar || x.2.wait == .barc))

/-- EXIT: the participants exit, unless another thread waits at a barrier (R172, R186); an engine program ends with
success (R173). -/
def execExit (o : Ext) (s : State) : Out :=
  sweepAll (.exit o) s true (fun w _ s =>
    if w.parts = [] then .ok s
    else if w.g.prog.isSome then .ok (endProgram s w.gk stSUCCESS)
    else if barWaits w.g w.parts then .error (stopAt cBARRIER_ORPHANED 0)
    else .ok (s.onGroup w.gk (fun g => exitThreads g w.parts)))

/-- YIELD: the group takes part in the picker's third step again after 64 clocks, or when passed over (R173, R289). -/
def execYield (o : Ext) (s : State) : Out :=
  sweepAll (.yield o) s true (fun w _ s =>
    .ok (s.onGroup w.gk (fun g => { g with sched := { g.sched with yieldUntil := s.time.clock + 64, yieldLeft := 16 } })))

/-- NOP. -/
def execNop (o : Ext) (s : State) : Out := sweepAll (.nop o) s true (fun _ _ s => .ok s)

/-! ### Barriers (R184 to R186) -/

/-- The threads of the executing set arrive at a barrier, unless that orphans one. -/
def arrive (k : WaitKind) (w : Sw) (s : State) : Except Stop State :=
  let g := waitThreads w.g w.all k w.e.imm.toNat
  if orphans g then .error (stopAt cBARRIER_ORPHANED 0)
  else .ok (s.onGroup w.gk (fun g => waitThreads g w.all k w.e.imm.toNat))

/-- BAR: arrival at team barrier IMM8. -/
def execBar (o : Ext) (s : State) : Out := sweepAll (.bar o) s true (fun w _ s => arrive .bar w s)

/-- BARC: arrival at cluster barrier IMM8. -/
def execBarc (o : Ext) (s : State) : Out := sweepAll (.barc o) s true (fun w _ s => arrive .barc w s)

/-! ### Spawning (R187 to R189) -/

/-- The mark of a record that waits for its bin's clock (R285): no cause of a stop. -/
def spawnWait : Stop := stopAt 0 0

/-- One record of a SPAWN. -/
def spawnOne (w : Sw) (s : State) (d : Tab W64) (t : Nat) : Except Stop OneS :=
  let c := w.capA t
  match targetCheck c with
  | some e => .error e
  | none =>
    match spawnRecord s (coreOf w.gk) w.g.ids.team ⟨c, (List.range 4).map (fun j => w.vBefore 1 t t (w.e.b.toNat + j))⟩ with
    | .full => .error (stopAt cSPAWN_FULL 0)
    | .wait => .error spawnWait
    | .ok s => .ok ⟨s, [], d⟩

/-- The bin of thread t's record is due to form: the record displaces what it holds (R187, R285). -/
def spawnDue (w : Sw) (t : Nat) (s : State) : State := binDue s (coreOf w.gk) (spawnBin (w.capA t))

/-- SPAWN: one thread record for each participant (R187). It stands at a thread whose record waits for its bin's clock. -/
def execSpawn (o : Ext) (s : State) : Out :=
  enter (.spawn o) s (fun w flag s' =>
    let h := fun (s : State) (d : Tab W64) (t : Nat) => if w.on t then spawnOne w s d t else .ok ⟨s, [], d⟩
    let r := runSweepS w h ⟨s', [], w.data0, none⟩
    match r.stop with
    | some (t, e) =>
      if e = spawnWait then
        (if w.todo.head? = some t then .next (spawnDue w t s)
         else .next (concludeS { w with upTo := some t } flag false true { r with s := spawnDue w t r.s, stop := none }))
      else .next (concludeS w flag false true (if e.cause = cSPAWN_FULL then { r with s := spawnDue w t r.s } else r))
    | none => .next (concludeS w flag false true r))

/-- BINCFG: the timer of bin IMM8 [3:0] of the core (R189). -/
def execBincfg (o : Ext) (s : State) : Out :=
  sweepAll (.bincfg o) s true (fun w _ s =>
    if w.parts = [] then .ok s
    else .ok (s.onCore (coreOf w.gk) (fun c =>
      { c with binTimers := Tab.put c.binTimers (w.e.imm.toNat % 16) (max 64 (min 65536 w.gA.toNat)) })))

/-! ### Time (R190, R191) -/

/-- TIME: fabric time when the sweep issues. -/
def execTime (o : Ext) (s : State) : Out := inspectOnce (.time o) s (fun s _ => BitVec.ofNat 64 s.time.ftime)

/-- The group is held and the active threads wait. -/
def holdGroup (w : Sw) (s : State) (h : Hold) (k : WaitKind) : State :=
  s.onGroup w.gk (fun g => { (waitThreads g w.all k 0) with hold := h })

/-- AT: held until fabric time G[A], unsigned; a time already past does not hold. -/
def execAtI (o : Ext) (s : State) : Out :=
  sweepAll (.atI o) s true (fun w _ s =>
    .ok (if w.gA.toNat ≤ s.time.ftime then s else holdGroup w s (.at w.gA) .atTime))

/-- SLEEP: held for G[A] [31:0] core clocks. -/
def execSleep (o : Ext) (s : State) : Out :=
  sweepAll (.sleep o) s true (fun w _ s =>
    let n := w.gA.toNat % 2 ^ 32
    .ok (if n = 0 then s else holdGroup w s (.sleep (s.time.clock + n)) .sleep))

/-! ### System calls and traps (R192 to R195) -/

/-- The tag of a capability in a request is kept only with SYS (R86, R192). -/
def sysCap (s : State) (asid : Nat) (c : Cap) : Cap :=
  let c := revCheck s asid c
  { c with tag := c.tag && capHas c pSYS }

/-- The request that a SYS sends. -/
def sysRequest (w : Sw) (s : State) : SysReq :=
  { gk := w.gk, team := w.g.ids.team, grp := w.g.ids.grp, seq := w.seq, service := w.e.imm.toNat, parts := w.parts
    caps := w.parts.map (fun t => (t, sysCap s w.g.ids.asid (w.capA t)))
    vals := w.parts.map (fun t => (t, (w.srcB t).setWidth 32))
    areg := w.e.a.toNat
    breg := if w.e.lit.isSome || modG w.e.modB then none else some w.e.b.toNat }

/-- SYS: one request for the participants, which wait for its reply (R192). -/
def execSys (o : Ext) (s : State) : Out :=
  sweepAll (.sys o) s true (fun w _ s =>
    if w.parts = [] then .ok s
    else .ok ({ s with sysq := s.sysq ++ [sysRequest w s] }.onGroup w.gk (fun g => waitThreads g w.parts .sys 0)))

/-- TRAP: a sweep-end trap for each participant (R193). -/
def execTrap (o : Ext) (s : State) : Out :=
  enter (.trap o) s (fun w flag s =>
    let tinst := tinstOf s w
    match firstStop w with
    | some (k, st) => .next (stopSweep s w tinst k st [] 0 [] flag)
    | none => .next (finishSweep s w tinst true w.parts (cSOFTWARE_TRAP ++ w.e.imm)))

/-- The return from trap mode once every handler thread has left (R195). -/
def leaveTrap (s : State) (k : Nat) : State :=
  match s.group k with
  | some g =>
    (match g.trap with
     | some tr =>
       if tr.tmask.all (fun t => KeySet.has tr.left t || (g.thread t).st == .exited) then returnFrom s k else s
     | none => s)
  | none => s

/-- Handler threads leave and wait for the rest. -/
def leaveThreads (g : Group) (ts : KeySet) : Group :=
  { g with
    th := Tab.mapv (fun t x => if KeySet.has ts t then { x with st := .held } else x) g.th
    trap := g.trap.map (fun tr => { tr with left := ts.foldl KeySet.ins tr.left }) }

/-- ERET: the participants leave trap mode; with the last the group returns (R195). -/
def execEret (o : Ext) (s : State) : Out :=
  enter (.eret o) s (fun w flag s =>
    let tinst := tinstOf s w
    match firstStop w with
    | some (k, st) => .next (stopSweep s w tinst k st [] 0 [] flag)
    | none => .next (leaveTrap (finishSweep (s.onGroup w.gk (fun g => leaveThreads g w.parts)) w tinst true [] 0) w.gk))

/-- TRAPCFG: the group's handler entry; a null capability removes it (R194). -/
def execTrapcfg (o : Ext) (s : State) : Out :=
  sweepAll (.trapcfg o) s true (fun w _ s =>
    match w.parts.getLast? with
    | none => .ok s
    | some t =>
      let c := w.capA t
      if c = Cap.null then .ok (s.onGroup w.gk (fun g => { g with handler := Cap.null }))
      else match targetCheck c with
        | some e => .error e
        | none => .ok (s.onGroup w.gk (fun g => { g with handler := revCheck s g.ids.asid c })))

/-! ### Access to registers by number (R196, R197) -/

/-- RGET: the register of the handler's own thread that index a names. -/
def execRget (o : Ext) (s : State) : Out :=
  stallIf (.rget o) s rBlocked
    (sweepG (.rget o) s (fun w g d t =>
      let ix := w.rIx t
      if decide (ix < 0x80) && KeySet.has g.aband (ix * 256 + t) then .error (stopAt cCOPY_ABANDONED 0)
      else .ok ⟨w.writeD g t ((regRead w.g w.base t ix).setWidth 64), 0, [], d⟩))

/-- RSET: writes the register that index a names; a first write takes a row (R41). -/
def execRset (o : Ext) (s : State) : Out :=
  stallIf (.rset o) s rBlocked
    (enter (.rset o) s (fun w flag s' =>
      match mapNumbers s' w.gk (rsetRegs w) with
      | .stall => .next s
      | .budget => .next (stopSweep s' w (tinstOf s' w) (w.todo.headD 0) (stopAt cROW_BUDGET 0) w.defer0 w.dfl0 w.data0 flag)
      | .ok s' =>
        match s'.group w.gk with
        | none => .next s'
        | some g =>
          let h := fun (g : Group) (d : Tab W64) (t : Nat) =>
            Except.ok (⟨if w.on t then regWrite g t (w.rIx t) ((w.srcB t).setWidth 32) else g, 0, [], d⟩ : One)
          .next (conclude w flag false true s' (runSweep w h (Run.start w g)))))

/-- Special registers that every thread has of its own: tid, fpst and tpc (R37). -/
def sregOwn (o : Ext) : Bool := [0x00, 0x05, 0x07].contains o.imm.toNat

/-- SREGR: reads special register IMM8 (R37, R38); a register that is not the thread's own gives every participant the same value
(R197). -/
def execSregr (o : Ext) (s : State) : Out :=
  guardIllegal (.sregr o) s (sregBad false)
    (if sregOwn o then inspect (.sregr o) s (fun w t => sregRead s w t) else inspectOnce (.sregr o) s (fun s w => sregRead s w 0))

/-- SREGW: writes special register IMM8; a per-group one ends with the last participant's value (R197). -/
def execSregw (o : Ext) (s : State) : Out :=
  guardIllegal (.sregw o) s (sregBad true) (sweepG (.sregw o) s (fun w g d t => .ok ⟨sregWrite w g t, 0, [], d⟩))

end Sys2Proof.Machine
end

