-- ==== Sys2Proof/Machine/Engines.lean ====
section
/-! DEFINITION. Copy, matrix, future and launch instructions (R230 to R265). -/

namespace Sys2Proof.Machine

/-! ### Copies (R237 to R245) -/

/-- A command's queue is full and it has a participant to act for. -/
def queueStall (sel : Sw → KeySet) (full : Sw → Bool) (w : Sw) : Bool := sel w != [] && full w

/-- The first of some threads: the one whose registers a command reads (R240, R253, R263). -/
def first (sel : Sw → KeySet) (w : Sw) : KeySet := (sel w).take 1

/-- CPY and CPYC: one copy for the first participant; its flag clears when the channel accepts it. -/
def copySweep (cpyc : Bool) (i : Instr) (s : State) : Out :=
  stallIf i s (queueStall Sw.parts (chanFull s))
    (enter i s (fun w flag s' =>
      let tinst := tinstOf s' w
      match w.lim with
      | some (k, st) => .next (stopSweep s' w tinst k st [] 0 [] flag)
      | none =>
        match w.parts with
        | [] => .next (finishSweep (s'.onGroup w.gk (fun g => pushPend g w flag false [])) w tinst true [] 0)
        | l :: _ =>
          match (if abandonedAt w l then .stop (stopAt cCOPY_ABANDONED 0) else copyIssue cpyc w flag s' l) with
          | .ok s'' => .next (finishSweep s'' w tinst true [] 0)
          | .stop e => .next (stopSweep s' w tinst l e [] 0 [] flag)
          | .stall => .next s))

/-- CPY. -/
def execCpy (o : Ext) (s : State) : Out := copySweep false (.cpy o) s

/-- CPYC: rows at or above G[n] are skipped. -/
def execCpyc (o : Ext) (s : State) : Out := copySweep true (.cpyc o) s

/-- CPYW: the write pointer of channel IMM8 (R245). -/
def execCpyw (o : Ext) (s : State) : Out := inspectOnce (.cpyw o) s (fun s w => cpywValue s (coreOf w.gk) w)

/-! ### Matrix operations (R249 to R255) -/

/-- SETFMT: the last participant's value. -/
def execSetfmt (o : Ext) (s : State) : Out := sweepOnce (.setfmt o) s false Sw.parts (fun w => w.parts.getLast?.toList) (fun w _ s t => setfmtStart w s t)

/-- CLAIM. -/
def execClaim (o : Ext) (s : State) : Out := sweepOnce (.claim o) s true Sw.parts (first Sw.parts) claimStart

/-- RELEASE. -/
def execRelease (o : Ext) (s : State) : Out := sweepOnce (.release o) s false Sw.parts (first Sw.parts) (fun w _ s t => releaseStart w s t)

/-- An operation of the matrix engine: a full queue stalls it (R394). -/
def mxSweep (i : Instr) (s : State) (sel readers : Sw → KeySet) (f : Sw → Option Nat → State → Nat → Except Stop State)
    (check : Sw → State → Option Stop := fun _ _ => none) : Out :=
  stallIf i s (queueStall sel (mxFull s)) (sweepOnce i s true sel readers f check)

/-- MMA. -/
def execMma (o : Ext) (s : State) : Out := mxSweep (.mma o) s mmaSel (first mmaSel) mmaStart

/-- MMZ. -/
def execMmz (o : Ext) (s : State) : Out := mxSweep (.mmz o) s mmzSel (first mmzSel) mmzStart

/-- ACCRD. -/
def execAccrd (o : Ext) (s : State) : Out := mxSweep (.accrd o) s Sw.parts (first Sw.parts) accrdStart

/-- ACCWR: the source of every participant is read, those after the first once its checks have passed (R255). -/
def execAccwr (o : Ext) (s : State) : Out := mxSweep (.accwr o) s Sw.parts Sw.parts accwrStart accCheck

/-! ### Futures and launches (R256 to R264) -/

/-- FORK. -/
def execFork (o : Ext) (s : State) : Out :=
  stallIf (.fork o) s (queueStall Sw.parts (forkFull s)) (sweepOnce (.fork o) s false Sw.parts (first Sw.parts) forkStart)

/-- JOIN. -/
def execJoin (o : Ext) (s : State) : Out := sweepOnce (.join o) s false Sw.parts (first Sw.parts) (fun w _ s t => joinStart w s t)

/-- HWAIT. -/
def execHwait (o : Ext) (s : State) : Out := sweepOnce (.hwait o) s false Sw.parts (first Sw.parts) (fun w _ s t => hwaitStart w s t)

/-- HTEST: the status of the handle in A. -/
def execHtest (o : Ext) (s : State) : Out := sweepMem (.htest o) s false htestPost htestOne

/-- HCANCEL. -/
def execHcancel (o : Ext) (s : State) : Out := sweepOnce (.hcancel o) s false Sw.parts (first Sw.parts) (fun w _ s t => hcancelStart w s t)

/-- STH. -/
def execSth (o : Ext) (s : State) : Out := sthSweep (.sth o) s

/-- LDH: the last participant's handle. -/
def execLdh (o : Ext) (s : State) : Out := sweepMem (.ldh o) s false (fun _ s => s) ldhOne

/-- LAUNCH: its flag clears when the record has been read. -/
def execLaunch (o : Ext) (s : State) : Out := sweepOnce (.launch o) s true Sw.parts (first Sw.parts) launchStart

end Sys2Proof.Machine
end

