-- ==== Sys2Proof/Machine/Events.lean ====
section
/-! DEFINITION. The steps of engines, supervisor cores, translation, leases, the key store and the fabric, by the names of
the opcode table. A step that is not enabled leaves the state (log 7). -/

namespace Sys2Proof.Machine

/-- LONG_LATENCY_COMPLETE: a pending result is written and its flag clears (R23, R34). -/
def execLongLatencyComplete (gk idx : Nat) (s : State) : Out := .next (llComplete s gk idx)

/-- LDW_RETURN: the pending results of LDW are written and their marks clear (R208). -/
def execLdwReturn (gk : Nat) (s : State) : Out := .next (ldwReturnOp s gk)

/-- ROW_FREED: a freed row is handed on (R44). -/
def execRowFreed (core part : Nat) (s : State) : Out := .next (rowFreedOp s core part)

/-- EVICT: a group is evicted for the rows of a favoured one (R45). -/
def execEvict (core part : Nat) (s : State) : Out := .next (evictOp s core part)

/-- EVICTED_RETURN: an evicted group returns (R45). -/
def execEvictedReturn (core : Nat) (s : State) : Out := .next (evictedReturnOp s core)

/-- STOP_FAULT_DELIVER: a stop waiting for its window is delivered (R24, R359). -/
def execStopFaultDeliver (gk : Nat) (s : State) : Out := .next (deliverWaiting s gk (fun d => decide (d.tres < 256)))

/-- SWEEP_END_TRAP: a sweep-end trap waiting for its window is delivered (R25, R359). -/
def execSweepEndTrap (gk : Nat) (s : State) : Out := .next (deliverWaiting s gk (fun d => decide (d.tres = 256)))

/-- HANDLER_ENTRY: the handler is entered once its window has rows (R346, R359). -/
def execHandlerEntry (gk : Nat) (s : State) : Out := .next (deliverWaiting s gk (fun _ => true))

/-- OWED_REFRESH: favoured groups are owed a slot (R289). -/
def execOwedRefresh (core : Nat) (s : State) : Out := .next (owedRefreshOp s core)

/-- YIELD_EXPIRY: a yield ends (R289). -/
def execYieldExpiry (gk : Nat) (s : State) : Out := .next (yieldExpiryOp s gk)

/-- OVERRIDE_ENTER: the override begins (R290). -/
def execOverrideEnter (gk : Nat) (s : State) : Out := .next (overrideEnterOp s gk)

/-- OVERRIDE_END: the override ends (R290). -/
def execOverrideEnd (gk : Nat) (s : State) : Out := .next (overrideEndOp s gk)

/-- BARRIER_COMPLETE: a barrier instance completes (R185). -/
def execBarrierComplete (cluster : Bool) (owner num : Nat) (s : State) : Out := .next (barrierOp s cluster owner num)

/-- AT_RELEASE: fabric time reaches the hold (R191). -/
def execAtRelease (gk : Nat) (s : State) : Out := .next (atReleaseOp s gk)

/-- SLEEP_EXPIRY: the sleep ends (R191). -/
def execSleepExpiry (gk : Nat) (s : State) : Out := .next (sleepExpiryOp s gk)

/-- SYS_REPLY: a request is answered (R192). -/
def execSysReply (gk seq : Nat) (rep : SysReplyData) (s : State) : Out := .next (sysReplyOp s gk seq rep)

/-- ALLOC: service ALLOC is answered with these bases and permissions (R192). -/
def execSysAlloc (gk seq : Nat) (bases : List (Nat × Nat)) (perms : BitVec 16) (s : State) : Out := .next (sysAllocOp s gk seq bases perms)

/-- FREE: service FREE is answered. -/
def execSysFree (gk seq : Nat) (s : State) : Out := .next (sysFreeOp s gk seq)

/-- VAULT_WINDOW: service VAULT_WINDOW is answered (R299). -/
def execVaultWindow (gk seq : Nat) (s : State) : Out := .next (vaultWindowOp s gk seq)

/-- ATTEST: service ATTEST is answered with reports (R454, R455). -/
def execAttest (gk seq : Nat) (s : State) : Out := .next (attestOp s gk seq)

/-- BIN_TIMER_EXPIRY: a bin's timer runs out (R189). -/
def execBinTimerExpiry (core bin : Nat) (s : State) : Out := .next (binExpiry s core bin)

/-- SPAWN_GROUP_FORM: a due bin forms its group (R188, R189). -/
def execSpawnGroupForm (core bin : Nat) (s : State) : Out := .next (binForm s core bin)

/-- GROUP_RETIRE: a group all of whose threads have exited retires (R16). -/
def execGroupRetire (gk : Nat) (s : State) : Out := .next (groupRetireOp s gk)

/-- LAUNCH_SUBMIT: a supervisor core submits a launch (R264). -/
def execLaunchSubmit (core pa asid world : Nat) (s : State) : Out := .next (launchSubmitOp s core pa asid world)

/-- LAUNCH_RECORD_READ: the record has been read and is judged (R263, R264). -/
def execLaunchRecordRead (lid : Nat) (s : State) : Out := .next (recordRead s lid)

/-- LAUNCH_DEPS_DONE: the dependences have completed (R264). -/
def execLaunchDepsDone (lid : Nat) (s : State) : Out := .next (depsDone s lid)

/-- LAUNCH_START_TIME: the start time has come (R262). -/
def execLaunchStartTime (lid : Nat) (s : State) : Out := .next (startTime s lid)

/-- DISTRIBUTOR_CONSIDER: the distributor considers its queues (R278 to R284). -/
def execDistributorConsider (s : State) : Out := .next (considerOp s)

/-- HEAD_AGING_EXPIRY: the head of a queue has aged (R278). -/
def execHeadAgingExpiry (s : State) : Out := .next (headAging s)

/-- GEN_PASS_DONE: a pass over stale lines ends (R303). -/
def execGenPassDone (core : Nat) (dev : Bool) (s : State) : Out := .next (genPassDone s core dev)

/-- L1_FILL: a fill arrives (R302). -/
def execL1Fill (core : Nat) (s : State) : Out := .next (l1FillOp s core)

/-- COPY_ACCEPT: a channel accepts a copy (R237). -/
def execCopyAccept (core ch : Nat) (s : State) : Out := .next (copyAcceptOp s core ch)

/-- COPY_SERVE_BEGIN: a channel begins to serve its next copy (R312, R363). -/
def execCopyServeBegin (core ch : Nat) (s : State) : Out := .next (copyServeOp s core ch)

/-- COPY_ROW_DELIVER: the next row is delivered (R241). -/
def execCopyRowDeliver (core ch : Nat) (s : State) : Out := .next (copyDeliverOp s core ch)

/-- COPY_ROW_SKIP: the next row is skipped (R241, R265). -/
def execCopyRowSkip (core ch : Nat) (s : State) : Out := .next (copySkipOp s core ch)

/-- COPY_STOP: the copy stops at a row that cannot be moved (R242). -/
def execCopyStop (core ch : Nat) (s : State) : Out := .next (copyStopOp s core ch)

/-- COPY_CANCEL: a cancelled copy stops at its row boundary (R257). -/
def execCopyCancel (core ch : Nat) (s : State) : Out := .next (copyCancelOp s core ch)

/-- QUARTER_ARRIVE: a quarter joins a pass (R253, R393). -/
def execQuarterArrive (core : Nat) (s : State) : Out := .next (quarterArrive s core)

/-- PASS_WINDOW_EXPIRY: the open pass closes after 16 clocks (R393). -/
def execPassWindowExpiry (core : Nat) (s : State) : Out := .next (passWindow s core)

/-- PASS_START: a pass takes the array (R392). -/
def execPassStart (core : Nat) (s : State) : Out := .next (passStartOp s core)

/-- PASS_WRITEBACK: a pass writes its rows back (R394). -/
def execPassWriteback (core : Nat) (s : State) : Out := .next (passWriteback s core)

/-- TILE_OP_EFFECT: an MMZ, ACCRD or ACCWR takes effect (R255, R394). -/
def execTileOpEffect (core : Nat) (s : State) : Out := .next (tileOpEffect s core)

/-- CLAIM_GRANT: a blocked claim is granted (R251). -/
def execClaimGrant (core : Nat) (s : State) : Out := .next (claimGrantOp s core)

/-- RELEASE_DONE: a waiting release returns what it names (R252). -/
def execReleaseDone (team : Nat) (s : State) : Out := .next (releaseDoneOp s team)

/-- PROGRAM_START: a sequencer starts its next program (R260). -/
def execProgramStart (core sq : Nat) (s : State) : Out := .next (programStartOp s core sq)

/-- PROGRAM_END: a program's handle completes (R261). -/
def execProgramEnd (core sq : Nat) (s : State) : Out := .next (programEndOp s core sq)

/-- PARK_COMPLETE: a requested park is complete (R295, R375). -/
def execParkComplete (gk : Nat) (s : State) : Out := .next (parkComplete s gk)

/-- UNIT_RESTORE: a saved unit is restored (R376). -/
def execUnitRestore (unit : Nat) (s : State) : Out := .next (unitRestoreOp s unit)

/-- WORLD_SCRUB: a destroyed world's state is scrubbed (R449). -/
def execWorldScrub (world : Nat) (s : State) : Out := .next (worldScrubOp s world)

/-- PARK: PWCTL PARK (R366, R375). -/
def execPark (core : Nat) (s : State) : Out := .next (parkOp s core)

/-- RESUME: PWCTL RESUME (R366). -/
def execResume (core : Nat) (s : State) : Out := .next (resumeOp s core)

/-- REFLECT: PWCTL REFLECT (R366). -/
def execReflect (core : Nat) (s : State) : Out := .next (reflectOp s core)

/-- TERMINATE: PWCTL TERMINATE (R366). -/
def execTerminate (core : Nat) (s : State) : Out := .next (terminateOp s core)

/-- CAPLOAD: PWCTL CAPLOAD (R368). -/
def execCapload (core : Nat) (s : State) : Out := .next (caploadOp s core)

/-- CAPSTORE: PWCTL CAPSTORE (R368). -/
def execCapstore (core : Nat) (s : State) : Out := .next (capstoreOp s core)

/-- PWDATA_READ: a read of PWDATA (R367). -/
def execPwdataRead (core : Nat) (s : State) : Out := .next (pwdataReadOp s core)

/-- PWDATA_WRITE: a write of PWDATA (R367). -/
def execPwdataWrite (core : Nat) (val : W64) (s : State) : Out := .next (pwdataWriteOp s core val)

/-- REGISTER_WRITE: a write of a register that only stores (R105, R308, R366, R418, R420, R428, R442, R450). -/
def execRegisterWrite (reg : Reg) (val : W64) (s : State) : Out := .next (registerWriteOp s reg val)

/-- START: RVCTL START (R105). -/
def execRvStart (s : State) : Out := .next (revStart s)

/-- REVOKE_WALK_GROUPS: phase 3 of a revocation sweep (R103). -/
def execRevokeWalkGroups (s : State) : Out := .next (walkGroupsOp s)

/-- REVOKE_WALK_PAGES: phase 4 of a revocation sweep (R103). -/
def execRevokeWalkPages (s : State) : Out := .next (walkPagesOp s)

/-- REVOKE_SWEEP_DONE: a revocation sweep ends (R103, R105). -/
def execRevokeSweepDone (s : State) : Out := .next (revDone s)

/-- STEP: a write of RSSTEP (R307). -/
def execRsStep (die : Nat) (val : BitVec 16) (s : State) : Out := .next (resStep s die val)

/-- RESIDENCY_STEP_APPLY: the entries of a step take effect (R307). -/
def execResidencyStepApply (die : Nat) (s : State) : Out := .next (resApply s die)

/-- ENABLE: RSCTL ENABLE (R308). -/
def execRsEnable (die world : Nat) (s : State) : Out := .next (resEnable s die world)

/-- DISABLE: RSCTL DISABLE (R308). -/
def execRsDisable (die : Nat) (s : State) : Out := .next (resDisable s die)

/-- CLROVF: RSCTL CLROVF (R308). -/
def execRsClrovf (die : Nat) (s : State) : Out := .next (resClrovf s die)

/-- RESIDENCY_LOAD_DONE: the residency table has been read (R308). -/
def execResidencyLoadDone (die : Nat) (s : State) : Out := .next (resLoaded s die)

/-- BUMP: TCMD BUMP (R415, R418). -/
def execBump (asid : Nat) (s : State) : Out := .next (bumpOp s asid)

/-- INVALIDATE_RANGE: TCMD INVALIDATE_RANGE (R418). -/
def execInvalidateRange (asid : Nat) (s : State) : Out := .next (invRangeOp s asid)

/-- INVALIDATE_RANGE_ALL: TCMD INVALIDATE_RANGE for every ASID (R418). -/
def execInvalidateRangeAll (s : State) : Out := .next (invAllOp s)

/-- DUMP_COUNTERS: TCMD DUMP_COUNTERS (R423). -/
def execDumpCounters (asid : Nat) (s : State) : Out := .next (dumpOp s asid)

/-- TRANSLATION_CMD_DONE: the translation command under way ends (R418). -/
def execTranslationCmdDone (s : State) : Out := .next (tcmdDone s)

/-- RFCTL_ALL: RFCTL ALL (R420). -/
def execRfctlAll (s : State) : Out := .next (rfStart s s.sys.hostLink 0 false)

/-- RFCTL_ASID: RFCTL ASID (R420). -/
def execRfctlAsid (s : State) : Out := .next (rfStart s s.sys.hostLink 1 false)

/-- RFCTL_RANGE: RFCTL RANGE (R420). -/
def execRfctlRange (s : State) : Out := .next (rfStart s s.sys.hostLink 2 false)

/-- RFCTL_RANGE_ALL_ASIDS: RFCTL RANGE for every ASID (R420). -/
def execRfctlRangeAllAsids (s : State) : Out := .next (rfStart s s.sys.hostLink 3 false)

/-- RFCTL_ICACHE: RFCTL with ICACHE (R420). -/
def execRfctlIcache (kind : BitVec 2) (s : State) : Out := .next (rfStart s s.sys.hostLink kind.toNat true)

/-- RF_REQUEST_DONE: the oldest remote fence is done (R420). -/
def execRfRequestDone (s : State) : Out := .next (rfDone s s.sys.hostLink)

/-- OFFER: LCMD OFFER (R427, R428). -/
def execLeaseOffer (idx : Nat) (s : State) : Out := .next (offerOp s idx)

/-- GRANT: LCMD GRANT (R427). -/
def execLeaseGrant (idx : Nat) (s : State) : Out := .next (grantOp s idx)

/-- WITHDRAW: LCMD WITHDRAW (R427). -/
def execLeaseWithdraw (idx : Nat) (s : State) : Out := .next (withdrawOp s idx)

/-- LENDER_RENEW: LCMD RENEW of a lender entry (R427). -/
def execLenderRenew (idx : Nat) (s : State) : Out := .next (lenderRenewOp s idx)

/-- RECALL: LCMD RECALL (R427, R433). -/
def execLeaseRecall (idx : Nat) (s : State) : Out := .next (recallOp s idx)

/-- CLEAR: LCMD CLEAR (R427). -/
def execLeaseClear (idx : Nat) (s : State) : Out := .next (clearOp s idx)

/-- SLOT_CLAIM: LCMD CLAIM of a slot (R429). -/
def execSlotClaim (idx : Nat) (s : State) : Out := .next (slotClaimOp s idx)

/-- BORROWER_RENEW: LCMD RENEW of a slot (R429). -/
def execBorrowerRenew (idx : Nat) (s : State) : Out := .next (borrowerRenewOp s idx)

/-- RETURN: LCMD RETURN (R429, R433). -/
def execLeaseReturn (idx : Nat) (s : State) : Out := .next (returnOp s idx)

/-- SLOT_RELEASE: LCMD RELEASE of a slot (R429). -/
def execSlotRelease (idx : Nat) (s : State) : Out := .next (slotReleaseOp s idx)

/-- CANCEL: LCMD CANCEL (R429). -/
def execLeaseCancel (idx : Nat) (s : State) : Out := .next (cancelSlotOp s idx)

/-- ADD_CAPACITY: an Add Capacity event or its acceptance arrives (R427, R429). -/
def execAddCapacity (lenderSide : Bool) (msg : AddCapMsg) (s : State) : Out := .next (addCapacityOp s lenderSide msg)

/-- GRANT_REFUSED: the borrower has refused a grant (R427). -/
def execGrantRefused (idx : Nat) (s : State) : Out := .next (grantRefusedOp s idx)

/-- FORCED_RELEASE: a forced release arrives at a slot (R433). -/
def execForcedRelease (idx : Nat) (s : State) : Out := .next (forcedReleaseOp s idx)

/-- LENDER_EXPIRY: a lender entry expires (R434). -/
def execLenderExpiry (idx : Nat) (s : State) : Out := .next (lenderExpiryOp s idx)

/-- SLOT_EXPIRY: a slot expires (R434). -/
def execSlotExpiry (idx : Nat) (s : State) : Out := .next (slotExpiryOp s idx)

/-- LEASE_FLUSH_DONE: the flush of a slot ends (R433, R434). -/
def execLeaseFlushDone (idx : Nat) (s : State) : Out := .next (flushDone s idx)

/-- RETURN_ARRIVE: a return arrives at the lender (R433). -/
def execReturnArrive (idx : Nat) (s : State) : Out := .next (returnArriveOp s idx)

/-- LENDER_LOST: a lender entry's borrower is lost (R436). -/
def execLenderLost (idx : Nat) (s : State) : Out := .next (lenderLost s idx)

/-- SLOT_LOST: a slot's lender is lost (R436). -/
def execSlotLost (idx : Nat) (s : State) : Out := .next (slotLost s idx)

/-- BACK_INVALIDATE: the lender takes a line back (R431). -/
def execBackInvalidate (slot off : Nat) (s : State) : Out := .next (backInvalidateOp s slot off)

/-- FORWARDED_ACCESS: a peer's access to a line homed here (R422). -/
def execForwardedAccess (req : FwdReq) (s : State) : Out := .next (forwardedOp s req)

/-- INBOUND_WRITE: a host write through an upstream port (R445). -/
def execInboundWrite (port : Nat) (va : W64) (data : List Byte) (s : State) : Out := .next (inboundWriteOp s port va data)

/-- CREATE: KSCMD CREATE (R449). -/
def execKsCreate (world : Nat) (prot : Bool) (s : State) : Out := .next (ksCreateOp s world prot)

/-- MEASURE: KSCMD MEASURE (R449, R451). -/
def execKsMeasure (world : Nat) (s : State) : Out := .next (ksMeasureOp s world)

/-- FINAL: KSCMD FINAL (R449). -/
def execKsFinal (world : Nat) (s : State) : Out := .next (ksFinalOp s world)

/-- DESTROY: KSCMD DESTROY (R449). -/
def execKsDestroy (world : Nat) (s : State) : Out := .next (ksDestroyOp s world)

/-- BEACON: a beacon is sent (R438). -/
def execBeacon (s : State) : Out := .next (beaconOp s)

/-- BEACON_RECEIVED: a beacon arrives (R438). -/
def execBeaconReceived (serial : W64) (role : FabricRole) (cand : Bool) (s : State) : Out := .next (beaconReceivedOp s serial role cand)

/-- MANAGER_TIMEOUT: the manager's beacons have stopped (R438). -/
def execManagerTimeout (s : State) : Out := .next (managerTimeoutOp s)

/-- MANAGER_STEP_DOWN: a manager meets one of lower serial (R438). -/
def execManagerStepDown (serial : W64) (s : State) : Out := .next (stepDownOp s serial)

/-- SYNC_GAINED: fabric time is set (R440, R441). -/
def execSyncGained (ft : W64) (s : State) : Out := .next (syncGainedOp s ft)

/-- SYNC_LOST: fabric time is lost (R440). -/
def execSyncLost (s : State) : Out := .next (syncLostOp s)

/-- LINK_UP: a link trains (R437). -/
def execLinkUp (port : Nat) (role : PortRole) (width : BitVec 4) (tags : Bool) (s : State) : Out := .next (linkUpOp s port role width tags)

/-- LINK_DOWN: a link fails (R437). -/
def execLinkDown (port : Nat) (s : State) : Out := .next (linkDownOp s port)

/-- UPSTREAM_HOT_RESET: an upstream port is reset (R447). -/
def execUpstreamHotReset (port : Nat) (s : State) : Out := .next (hotResetOp s port)

/-- SEQUENCE_WARNING: a tag sequence runs out (R443). -/
def execSequenceWarning (port : Nat) (s : State) : Out := .next (sequenceWarningOp s port)

/-- DEBUG_D0: tier D0 opens (R457). -/
def execDebugD0 (world : Nat) (s : State) : Out := .next (debugD0Op s world)

/-- DEBUG_D1: tier D1 opens (R457). -/
def execDebugD1 (s : State) : Out := .next (debugD1Op s)

/-- DEBUG_D2: tier D2 opens, worlds wiped (R457). -/
def execDebugD2 (s : State) : Out := .next (debugD2Op s)

/-- DEBUG_D3: tier D3 opens (R457). -/
def execDebugD3 (s : State) : Out := .next (debugD3Op s)

/-- COLD_BOOT: the package boots (R458). -/
def execColdBoot (s : State) : Out := .next (coldBootOp s)

/-- CORE_CLOSE: a hot core closes (R282, R459). -/
def execCoreClose (core : Nat) (s : State) : Out := .next (coreCloseOp s core)

/-- CORE_REOPEN: a cool core opens again (R282, R459). -/
def execCoreReopen (core : Nat) (s : State) : Out := .next (coreReopenOp s core)

/-- CLOCK_STEP_DOWN: the clock steps down (R459). -/
def execClockStepDown (s : State) : Out := .next (clockDownOp s)

/-- THERMAL_SHUTDOWN: the package stops (R459). -/
def execThermalShutdown (s : State) : Out := .next (shutdownOp s)

/-- FIRMWARE_UPDATE: an image is staged (R460). -/
def execFirmwareUpdate (image : W64) (s : State) : Out := .next (firmwareUpdateOp s image)

/-- CONTEXT_SWITCH: a unit is saved and leaves its cores (R296, R374). -/
def execContextSwitch (unit : Nat) (s : State) : Out := .next (contextSwitchOp s unit)

/-- SUPERVISOR_FENCE: a supervisor core's fence (R304). -/
def execSupervisorFence (core : Nat) (s : State) : Out := .next (supervisorFenceOp s core)

/-- EVTAIL: a write of a ring's tail (R366, R430, R442). -/
def execEvtail (ring : RingName) (val : W64) (s : State) : Out := .next (evtailOp s ring val)

/-- UNCORRECTABLE_SOFT_ERROR: an uncorrectable error strikes (R305, R364). -/
def execUncorrectableSoftError (unit : ErrUnit) (s : State) : Out := .next (softErrorOp s unit)

/-- CLOCK_STEP_UP: the clock steps up (R459). -/
def execClockStepUp (s : State) : Out := .next (clockUpOp s)

/-- POWER_GATE: a core is gated (R378). -/
def execPowerGate (core : Nat) (retained : Bool) (s : State) : Out := .next (powerGateOp s core retained)

/-- WAKE_WITH_ZEROING: a core wakes with its vault zeroed (R378). -/
def execWakeWithZeroing (core : Nat) (s : State) : Out := .next (wakeZeroOp s core)

/-- PBR_IDENTIFIER_ASSIGN: the fabric assigns the package its identifier (R439). -/
def execPbrIdentifierAssign (pbr : BitVec 12) (s : State) : Out := .next (pbrAssignOp s pbr)

/-- INBOUND_READ: a host read through an upstream port (R445). -/
def execInboundRead (port : Nat) (va : W64) (len : Nat) (s : State) : Out := .next (inboundReadOp s port va len)

end Sys2Proof.Machine
end

