-- ==== Sys2Proof/Machine/Exchanges.lean ====
section
/-! DEFINITION. Exchange through time and predicates (R174 to R183). -/

namespace Sys2Proof.Machine

/-- PREV: a of the nearest participant below, b for the first (R177). -/
def execPrev (o : Ext) (s : State) : Out := exch (.prev o) s exPrev

/-- NEXT: a of the nearest participant above, b for the last (R177). -/
def execNextI (o : Ext) (s : State) : Out := exchLL (.nextI o) s exGather (fun w d t => (exNext w d t, 0))

/-- SCAN: the running combination (R178, R179). -/
def execScan (o : Ext) (s : State) : Out := exch (.scan o) s (exScan false)

/-- SEGSCAN: the running combination within segments headed by P[C] (R178, R179). -/
def execSegscan (o : Ext) (s : State) : Out := exch (.segscan o) s (exScan true)

/-- RED: the combination of all participants (R180). -/
def execRed (o : Ext) (s : State) : Out := exchLL (.red o) s redGather exRed

/-- VOTE: what P[C] holds among the participants, by mode (R181). -/
def execVote (o : Ext) (s : State) : Out := exchLL (.vote o) s exGather (fun w d t => (exVote w d t, 0))

/-- RANK: the number of participants ordered before (R182). -/
def execRank (o : Ext) (s : State) : Out := exchLL (.rank o) s exGather (fun w d t => (exRank w d t, 0))

/-- COMPACT: a of the selected participants, packed to the front (R182). -/
def execCompact (o : Ext) (s : State) : Out := exchLL (.compact o) s exGather (fun w d t => (exCompact w d t, 0))

/-- TOPK: keys and companions in descending order, into D and D + 1 (R182). -/
def execTopk (o : Ext) (s : State) : Out :=
  exchWait (.topk o) s exGather
    (fun w d t => [.v t w.e.d.toNat (exTopk w d t).1, .v t (w.e.d.toNat + 1) (exTopk w d t).2]) (fun _ _ _ => 0)

/-- PSET: a ≠ 0 (R174). -/
def execPset (o : Ext) (s : State) : Out := aluPred (.pset o) s opPset

/-- PSET_LEAD: true for the lowest participant (R174). -/
def execPsetLead (o : Ext) (s : State) : Out := sweepG (.psetLead o) s leadOne

/-- PAND: AND of predicates (R174). -/
def execPand (o : Ext) (s : State) : Out := aluPred (.pand o) s (opP (fun a b => a && b))

/-- POR: OR of predicates (R174). -/
def execPor (o : Ext) (s : State) : Out := aluPred (.por o) s (opP (fun a b => a || b))

/-- PXOR: XOR of predicates (R174). -/
def execPxor (o : Ext) (s : State) : Out := aluPred (.pxor o) s (opP xor)

/-- PNOT: NOT of predicates (R174). -/
def execPnot (o : Ext) (s : State) : Out := aluPred (.pnot o) s (opP (fun a _ => !a))

/-- PMOV: a copy of predicates (R174). -/
def execPmov (o : Ext) (s : State) : Out := aluPred (.pmov o) s (opP (fun a _ => a))

end Sys2Proof.Machine
end

