-- ==== Sys2Proof/Machine/Floating.lean ====
section
/-! DEFINITION. Floating-point arithmetic, comparison, integral parts and special functions (R152 to R157). -/

namespace Sys2Proof.Machine

/-- FADD: a + b (R152), base form. -/
def execFadd (o : Base) (s : State) : Out := alu (.fadd o) s opFadd

/-- FADD_LIT: a + b (R152), literal form (R111). -/
def execFaddLit (o : Base) (lit : W64) (s : State) : Out := alu (.faddLit o lit) s opFadd

/-- FADD_X: a + b (R152), extended form. -/
def execFaddX (o : Ext) (s : State) : Out := alu (.faddX o) s opFadd

/-- FSUB: a − b (R152), base form. -/
def execFsub (o : Base) (s : State) : Out := alu (.fsub o) s opFsub

/-- FSUB_LIT: a − b (R152), literal form (R111). -/
def execFsubLit (o : Base) (lit : W64) (s : State) : Out := alu (.fsubLit o lit) s opFsub

/-- FSUB_X: a − b (R152), extended form. -/
def execFsubX (o : Ext) (s : State) : Out := alu (.fsubX o) s opFsub

/-- FMUL: a × b (R152), base form. -/
def execFmul (o : Base) (s : State) : Out := alu (.fmul o) s opFmul

/-- FMUL_LIT: a × b (R152), literal form (R111). -/
def execFmulLit (o : Base) (lit : W64) (s : State) : Out := alu (.fmulLit o lit) s opFmul

/-- FMUL_X: a × b (R152), extended form. -/
def execFmulX (o : Ext) (s : State) : Out := alu (.fmulX o) s opFmul

/-- FFMA: a × b + c, c being D in the base form (R152), base form. -/
def execFfma (o : Base) (s : State) : Out := alu (.ffma o) s opFfma

/-- FFMA_LIT: a × b + c, c being D in the base form (R152), literal form (R111). -/
def execFfmaLit (o : Base) (lit : W64) (s : State) : Out := alu (.ffmaLit o lit) s opFfma

/-- FFMA_X: a × b + c, c being D in the base form (R152), extended form. -/
def execFfmaX (o : Ext) (s : State) : Out := alu (.ffmaX o) s opFfma

/-- FMIN: minimumNumber (R153), base form. -/
def execFmin (o : Base) (s : State) : Out := alu (.fmin o) s opFmin

/-- FMIN_LIT: minimumNumber (R153), literal form (R111). -/
def execFminLit (o : Base) (lit : W64) (s : State) : Out := alu (.fminLit o lit) s opFmin

/-- FMIN_X: minimumNumber (R153), extended form. -/
def execFminX (o : Ext) (s : State) : Out := alu (.fminX o) s opFmin

/-- FMAX: maximumNumber (R153), base form. -/
def execFmax (o : Base) (s : State) : Out := alu (.fmax o) s opFmax

/-- FMAX_LIT: maximumNumber (R153), literal form (R111). -/
def execFmaxLit (o : Base) (lit : W64) (s : State) : Out := alu (.fmaxLit o lit) s opFmax

/-- FMAX_X: maximumNumber (R153), extended form. -/
def execFmaxX (o : Ext) (s : State) : Out := alu (.fmaxX o) s opFmax

/-- FCMP: the relation IMM8 of a and b (R154). -/
def execFcmp (o : Ext) (s : State) : Out := aluPred (.fcmp o) s opFcmp

/-- FCLASS: one bit for the class of a (R155). -/
def execFclass (o : Ext) (s : State) : Out := alu (.fclass o) s opFclass

/-- FROUND: the nearest integer under RND (R156). -/
def execFround (o : Ext) (s : State) : Out := alu (.fround o) s opFround

/-- FFRACT: the fractional part (R156). -/
def execFfract (o : Ext) (s : State) : Out := alu (.ffract o) s opFfract

/-- FRCP: 1 / a, long-latency (R157). -/
def execFrcp (o : Ext) (s : State) : Out := aluLL (.frcp o) s opFrcp

/-- FRSQ: 1 / √a, long-latency (R157). -/
def execFrsq (o : Ext) (s : State) : Out := aluLL (.frsq o) s opFrsq

/-- FSQRT: √a, long-latency (R157). -/
def execFsqrt (o : Ext) (s : State) : Out := aluLL (.fsqrt o) s opFsqrt

/-- FDIV: a / b, long-latency (R157). -/
def execFdiv (o : Ext) (s : State) : Out := aluLL (.fdiv o) s opFdiv

/-- FEXP2: 2^a, long-latency (R157). -/
def execFexp2 (o : Ext) (s : State) : Out := aluLL (.fexp2 o) s opFexp2

/-- FLOG2: log₂ a, long-latency (R157). -/
def execFlog2 (o : Ext) (s : State) : Out := aluLL (.flog2 o) s opFlog2

/-- FSIN: sin a, long-latency (R157). -/
def execFsin (o : Ext) (s : State) : Out := aluLL (.fsin o) s opFsin

/-- FCOS: cos a, long-latency (R157). -/
def execFcos (o : Ext) (s : State) : Out := aluLL (.fcos o) s opFcos

end Sys2Proof.Machine
end

