-- ==== Sys2Proof/Machine/Integer.lean ====
section
/-! DEFINITION. Integer arithmetic, logic, shifts, bit fields, moves and comparison (R146 to R151). -/

namespace Sys2Proof.Machine

/-- IADD: a + b (R146), base form. -/
def execIadd (o : Base) (s : State) : Out := alu (.iadd o) s opIadd

/-- IADD_LIT: a + b (R146), literal form (R111). -/
def execIaddLit (o : Base) (lit : W64) (s : State) : Out := alu (.iaddLit o lit) s opIadd

/-- IADD_X: a + b (R146), extended form. -/
def execIaddX (o : Ext) (s : State) : Out := alu (.iaddX o) s opIadd

/-- ISUB: a − b (R146), base form. -/
def execIsub (o : Base) (s : State) : Out := alu (.isub o) s opIsub

/-- ISUB_LIT: a − b (R146), literal form (R111). -/
def execIsubLit (o : Base) (lit : W64) (s : State) : Out := alu (.isubLit o lit) s opIsub

/-- ISUB_X: a − b (R146), extended form. -/
def execIsubX (o : Ext) (s : State) : Out := alu (.isubX o) s opIsub

/-- IMUL: a × b (R146), base form. -/
def execImul (o : Base) (s : State) : Out := alu (.imul o) s opImul

/-- IMUL_LIT: a × b (R146), literal form (R111). -/
def execImulLit (o : Base) (lit : W64) (s : State) : Out := alu (.imulLit o lit) s opImul

/-- IMUL_X: a × b (R146), extended form. -/
def execImulX (o : Ext) (s : State) : Out := alu (.imulX o) s opImul

/-- AND: a AND b (R148), base form. -/
def execAndI (o : Base) (s : State) : Out := alu (.andI o) s opAnd

/-- AND_LIT: a AND b (R148), literal form (R111). -/
def execAndLit (o : Base) (lit : W64) (s : State) : Out := alu (.andLit o lit) s opAnd

/-- AND_X: a AND b (R148), extended form. -/
def execAndX (o : Ext) (s : State) : Out := alu (.andX o) s opAnd

/-- OR: a OR b (R148), base form. -/
def execOrI (o : Base) (s : State) : Out := alu (.orI o) s opOr

/-- OR_LIT: a OR b (R148), literal form (R111). -/
def execOrLit (o : Base) (lit : W64) (s : State) : Out := alu (.orLit o lit) s opOr

/-- OR_X: a OR b (R148), extended form. -/
def execOrX (o : Ext) (s : State) : Out := alu (.orX o) s opOr

/-- XOR: a XOR b (R148), base form. -/
def execXorI (o : Base) (s : State) : Out := alu (.xorI o) s opXor

/-- XOR_LIT: a XOR b (R148), literal form (R111). -/
def execXorLit (o : Base) (lit : W64) (s : State) : Out := alu (.xorLit o lit) s opXor

/-- XOR_X: a XOR b (R148), extended form. -/
def execXorX (o : Ext) (s : State) : Out := alu (.xorX o) s opXor

/-- SHL: left shift by b [7:0] (R148), base form. -/
def execShl (o : Base) (s : State) : Out := alu (.shl o) s opShl

/-- SHL_LIT: left shift by b [7:0] (R148), literal form (R111). -/
def execShlLit (o : Base) (lit : W64) (s : State) : Out := alu (.shlLit o lit) s opShl

/-- SHL_X: left shift by b [7:0] (R148), extended form. -/
def execShlX (o : Ext) (s : State) : Out := alu (.shlX o) s opShl

/-- SHR: right shift, zeros in (R148), base form. -/
def execShr (o : Base) (s : State) : Out := alu (.shr o) s opShr

/-- SHR_LIT: right shift, zeros in (R148), literal form (R111). -/
def execShrLit (o : Base) (lit : W64) (s : State) : Out := alu (.shrLit o lit) s opShr

/-- SHR_X: right shift, zeros in (R148), extended form. -/
def execShrX (o : Ext) (s : State) : Out := alu (.shrX o) s opShr

/-- SAR: right shift, copies of the top bit in (R148), base form. -/
def execSar (o : Base) (s : State) : Out := alu (.sar o) s opSar

/-- SAR_LIT: right shift, copies of the top bit in (R148), literal form (R111). -/
def execSarLit (o : Base) (lit : W64) (s : State) : Out := alu (.sarLit o lit) s opSar

/-- SAR_X: right shift, copies of the top bit in (R148), extended form. -/
def execSarX (o : Ext) (s : State) : Out := alu (.sarX o) s opSar

/-- IMIN: the lesser (R146), base form. -/
def execImin (o : Base) (s : State) : Out := alu (.imin o) s opImin

/-- IMIN_LIT: the lesser (R146), literal form (R111). -/
def execIminLit (o : Base) (lit : W64) (s : State) : Out := alu (.iminLit o lit) s opImin

/-- IMIN_X: the lesser (R146), extended form. -/
def execIminX (o : Ext) (s : State) : Out := alu (.iminX o) s opImin

/-- IMAX: the greater (R146), base form. -/
def execImax (o : Base) (s : State) : Out := alu (.imax o) s opImax

/-- IMAX_LIT: the greater (R146), literal form (R111). -/
def execImaxLit (o : Base) (lit : W64) (s : State) : Out := alu (.imaxLit o lit) s opImax

/-- IMAX_X: the greater (R146), extended form. -/
def execImaxX (o : Ext) (s : State) : Out := alu (.imaxX o) s opImax

/-- MOV: b (R150), base form. -/
def execMov (o : Base) (s : State) : Out := alu (.mov o) s opMov

/-- MOV_LIT: b (R150), literal form (R111). -/
def execMovLit (o : Base) (lit : W64) (s : State) : Out := alu (.movLit o lit) s opMov

/-- MOV_X: b (R150), extended form. -/
def execMovX (o : Ext) (s : State) : Out := alu (.movX o) s opMov

/-- SEL: P[pc] ? a : b, p0 in the base form (R150), base form. -/
def execSel (o : Base) (s : State) : Out := alu (.sel o) s opSel

/-- SEL_LIT: P[pc] ? a : b, p0 in the base form (R150), literal form (R111). -/
def execSelLit (o : Base) (lit : W64) (s : State) : Out := alu (.selLit o lit) s opSel

/-- SEL_X: P[pc] ? a : b, p0 in the base form (R150), extended form. -/
def execSelX (o : Ext) (s : State) : Out := alu (.selX o) s opSel

/-- IMULH: the high half of the product (R146). -/
def execImulh (o : Ext) (s : State) : Out := alu (.imulh o) s opImulh

/-- IMAD: a × b + c (R146). -/
def execImad (o : Ext) (s : State) : Out := alu (.imad o) s opImad

/-- IDIV: the quotient truncated toward zero, all ones by zero (R147). -/
def execIdiv (o : Ext) (s : State) : Out := alu (.idiv o) s opIdiv

/-- IREM: the remainder, a by zero (R147). -/
def execIrem (o : Ext) (s : State) : Out := alu (.irem o) s opIrem

/-- IABS: the absolute value (R146). -/
def execIabs (o : Ext) (s : State) : Out := alu (.iabs o) s opIabs

/-- INEG: −a (R146). -/
def execIneg (o : Ext) (s : State) : Out := alu (.ineg o) s opIneg

/-- ANDN: a AND NOT b (R148). -/
def execAndn (o : Ext) (s : State) : Out := alu (.andn o) s opAndn

/-- ROL: rotate left (R148). -/
def execRol (o : Ext) (s : State) : Out := alu (.rol o) s opRol

/-- POPC: number of one bits (R149). -/
def execPopc (o : Ext) (s : State) : Out := alu (.popc o) s opPopc

/-- CLZ: leading zeros (R149). -/
def execClz (o : Ext) (s : State) : Out := alu (.clz o) s opClz

/-- BREV: bits reversed (R149). -/
def execBrev (o : Ext) (s : State) : Out := alu (.brev o) s opBrev

/-- BFE: bit field extracted (R149). -/
def execBfe (o : Ext) (s : State) : Out := alu (.bfe o) s opBfe

/-- BFI: bit field inserted (R149). -/
def execBfi (o : Ext) (s : State) : Out := alu (.bfi o) s opBfi

/-- ICMP: the condition IMM8 of a and b (R151). -/
def execIcmp (o : Ext) (s : State) : Out := aluPred (.icmp o) s opIcmp

end Sys2Proof.Machine
end

