-- ==== Sys2Proof/Machine/Packing.lean ====
section
/-! DEFINITION. Packed, dot-product, conversion and packing instructions, and BFPENC (R158 to R164). -/

namespace Sys2Proof.Machine

/-- HADD2: two sums (R158). -/
def execHadd2 (o : Ext) (s : State) : Out := alu (.hadd2 o) s opHadd2

/-- HMUL2: two products (R158). -/
def execHmul2 (o : Ext) (s : State) : Out := alu (.hmul2 o) s opHmul2

/-- HFMA2: two fused products (R158). -/
def execHfma2 (o : Ext) (s : State) : Out := alu (.hfma2 o) s opHfma2

/-- IDP4: c plus the products of packed integers (R159). -/
def execIdp4 (o : Ext) (s : State) : Out := alu (.idp4 o) s opIdp4

/-- FDP2: c plus two products, rounded once (R159). -/
def execFdp2 (o : Ext) (s : State) : Out := alu (.fdp2 o) s opFdp2

/-- CVT: conversion (R160). -/
def execCvt (o : Ext) (s : State) : Out := alu (.cvt o) s opCvt

/-- PACK: one element inserted on top (R161). -/
def execPack (o : Ext) (s : State) : Out := alu (.pack o) s opPack

/-- UNPK: element IMM8 extended (R161). -/
def execUnpk (o : Ext) (s : State) : Out := alu (.unpk o) s opUnpk

/-- BFPENC: the wavefield block of each segment of 16 threads (R163, R164). -/
def execBfpenc (o : Ext) (s : State) : Out := aluLL (.bfpenc o) s opBfpenc

end Sys2Proof.Machine
end

