-- ==== Sys2Proof/Machine/Dispatch.lean ====
section
/-! DEFINITION. One arm per constructor: the meaning of every instruction. -/

namespace Sys2Proof.Machine

def exec (i : Instr) (s : State) : Host.Outcome State Fault Refusal :=
  match i with
  | .clauseHeader wait set0 set1 count => Sys2Proof.Machine.execClauseHeader wait set0 set1 count s
  | .iadd o => Sys2Proof.Machine.execIadd o s
  | .iaddLit o lit => Sys2Proof.Machine.execIaddLit o lit s
  | .iaddX o => Sys2Proof.Machine.execIaddX o s
  | .isub o => Sys2Proof.Machine.execIsub o s
  | .isubLit o lit => Sys2Proof.Machine.execIsubLit o lit s
  | .isubX o => Sys2Proof.Machine.execIsubX o s
  | .imul o => Sys2Proof.Machine.execImul o s
  | .imulLit o lit => Sys2Proof.Machine.execImulLit o lit s
  | .imulX o => Sys2Proof.Machine.execImulX o s
  | .andI o => Sys2Proof.Machine.execAndI o s
  | .andLit o lit => Sys2Proof.Machine.execAndLit o lit s
  | .andX o => Sys2Proof.Machine.execAndX o s
  | .orI o => Sys2Proof.Machine.execOrI o s
  | .orLit o lit => Sys2Proof.Machine.execOrLit o lit s
  | .orX o => Sys2Proof.Machine.execOrX o s
  | .xorI o => Sys2Proof.Machine.execXorI o s
  | .xorLit o lit => Sys2Proof.Machine.execXorLit o lit s
  | .xorX o => Sys2Proof.Machine.execXorX o s
  | .shl o => Sys2Proof.Machine.execShl o s
  | .shlLit o lit => Sys2Proof.Machine.execShlLit o lit s
  | .shlX o => Sys2Proof.Machine.execShlX o s
  | .shr o => Sys2Proof.Machine.execShr o s
  | .shrLit o lit => Sys2Proof.Machine.execShrLit o lit s
  | .shrX o => Sys2Proof.Machine.execShrX o s
  | .sar o => Sys2Proof.Machine.execSar o s
  | .sarLit o lit => Sys2Proof.Machine.execSarLit o lit s
  | .sarX o => Sys2Proof.Machine.execSarX o s
  | .imin o => Sys2Proof.Machine.execImin o s
  | .iminLit o lit => Sys2Proof.Machine.execIminLit o lit s
  | .iminX o => Sys2Proof.Machine.execIminX o s
  | .imax o => Sys2Proof.Machine.execImax o s
  | .imaxLit o lit => Sys2Proof.Machine.execImaxLit o lit s
  | .imaxX o => Sys2Proof.Machine.execImaxX o s
  | .mov o => Sys2Proof.Machine.execMov o s
  | .movLit o lit => Sys2Proof.Machine.execMovLit o lit s
  | .movX o => Sys2Proof.Machine.execMovX o s
  | .sel o => Sys2Proof.Machine.execSel o s
  | .selLit o lit => Sys2Proof.Machine.execSelLit o lit s
  | .selX o => Sys2Proof.Machine.execSelX o s
  | .fadd o => Sys2Proof.Machine.execFadd o s
  | .faddLit o lit => Sys2Proof.Machine.execFaddLit o lit s
  | .faddX o => Sys2Proof.Machine.execFaddX o s
  | .fsub o => Sys2Proof.Machine.execFsub o s
  | .fsubLit o lit => Sys2Proof.Machine.execFsubLit o lit s
  | .fsubX o => Sys2Proof.Machine.execFsubX o s
  | .fmul o => Sys2Proof.Machine.execFmul o s
  | .fmulLit o lit => Sys2Proof.Machine.execFmulLit o lit s
  | .fmulX o => Sys2Proof.Machine.execFmulX o s
  | .ffma o => Sys2Proof.Machine.execFfma o s
  | .ffmaLit o lit => Sys2Proof.Machine.execFfmaLit o lit s
  | .ffmaX o => Sys2Proof.Machine.execFfmaX o s
  | .fmin o => Sys2Proof.Machine.execFmin o s
  | .fminLit o lit => Sys2Proof.Machine.execFminLit o lit s
  | .fminX o => Sys2Proof.Machine.execFminX o s
  | .fmax o => Sys2Proof.Machine.execFmax o s
  | .fmaxLit o lit => Sys2Proof.Machine.execFmaxLit o lit s
  | .fmaxX o => Sys2Proof.Machine.execFmaxX o s
  | .ldw o => Sys2Proof.Machine.execLdw o s
  | .ldwLit o lit => Sys2Proof.Machine.execLdwLit o lit s
  | .stw o => Sys2Proof.Machine.execStw o s
  | .stwLit o lit => Sys2Proof.Machine.execStwLit o lit s
  | .ill len rest => Sys2Proof.Machine.execIll len rest s
  | .imulh o => Sys2Proof.Machine.execImulh o s
  | .imad o => Sys2Proof.Machine.execImad o s
  | .idiv o => Sys2Proof.Machine.execIdiv o s
  | .irem o => Sys2Proof.Machine.execIrem o s
  | .iabs o => Sys2Proof.Machine.execIabs o s
  | .ineg o => Sys2Proof.Machine.execIneg o s
  | .andn o => Sys2Proof.Machine.execAndn o s
  | .rol o => Sys2Proof.Machine.execRol o s
  | .popc o => Sys2Proof.Machine.execPopc o s
  | .clz o => Sys2Proof.Machine.execClz o s
  | .brev o => Sys2Proof.Machine.execBrev o s
  | .bfe o => Sys2Proof.Machine.execBfe o s
  | .bfi o => Sys2Proof.Machine.execBfi o s
  | .icmp o => Sys2Proof.Machine.execIcmp o s
  | .fcmp o => Sys2Proof.Machine.execFcmp o s
  | .fclass o => Sys2Proof.Machine.execFclass o s
  | .fround o => Sys2Proof.Machine.execFround o s
  | .ffract o => Sys2Proof.Machine.execFfract o s
  | .frcp o => Sys2Proof.Machine.execFrcp o s
  | .frsq o => Sys2Proof.Machine.execFrsq o s
  | .fsqrt o => Sys2Proof.Machine.execFsqrt o s
  | .fdiv o => Sys2Proof.Machine.execFdiv o s
  | .fexp2 o => Sys2Proof.Machine.execFexp2 o s
  | .flog2 o => Sys2Proof.Machine.execFlog2 o s
  | .fsin o => Sys2Proof.Machine.execFsin o s
  | .fcos o => Sys2Proof.Machine.execFcos o s
  | .hadd2 o => Sys2Proof.Machine.execHadd2 o s
  | .hmul2 o => Sys2Proof.Machine.execHmul2 o s
  | .hfma2 o => Sys2Proof.Machine.execHfma2 o s
  | .idp4 o => Sys2Proof.Machine.execIdp4 o s
  | .fdp2 o => Sys2Proof.Machine.execFdp2 o s
  | .cvt o => Sys2Proof.Machine.execCvt o s
  | .pack o => Sys2Proof.Machine.execPack o s
  | .unpk o => Sys2Proof.Machine.execUnpk o s
  | .bfpenc o => Sys2Proof.Machine.execBfpenc o s
  | .prev o => Sys2Proof.Machine.execPrev o s
  | .nextI o => Sys2Proof.Machine.execNextI o s
  | .scan o => Sys2Proof.Machine.execScan o s
  | .segscan o => Sys2Proof.Machine.execSegscan o s
  | .red o => Sys2Proof.Machine.execRed o s
  | .vote o => Sys2Proof.Machine.execVote o s
  | .rank o => Sys2Proof.Machine.execRank o s
  | .compact o => Sys2Proof.Machine.execCompact o s
  | .topk o => Sys2Proof.Machine.execTopk o s
  | .pset o => Sys2Proof.Machine.execPset o s
  | .psetLead o => Sys2Proof.Machine.execPsetLead o s
  | .pand o => Sys2Proof.Machine.execPand o s
  | .por o => Sys2Proof.Machine.execPor o s
  | .pxor o => Sys2Proof.Machine.execPxor o s
  | .pnot o => Sys2Proof.Machine.execPnot o s
  | .pmov o => Sys2Proof.Machine.execPmov o s
  | .bra o => Sys2Proof.Machine.execBra o s
  | .brc o => Sys2Proof.Machine.execBrc o s
  | .jmp o => Sys2Proof.Machine.execJmp o s
  | .call o => Sys2Proof.Machine.execCall o s
  | .callr o => Sys2Proof.Machine.execCallr o s
  | .ret o => Sys2Proof.Machine.execRet o s
  | .exit o => Sys2Proof.Machine.execExit o s
  | .yield o => Sys2Proof.Machine.execYield o s
  | .nop o => Sys2Proof.Machine.execNop o s
  | .bar o => Sys2Proof.Machine.execBar o s
  | .barc o => Sys2Proof.Machine.execBarc o s
  | .spawn o => Sys2Proof.Machine.execSpawn o s
  | .bincfg o => Sys2Proof.Machine.execBincfg o s
  | .time o => Sys2Proof.Machine.execTime o s
  | .atI o => Sys2Proof.Machine.execAtI o s
  | .sleep o => Sys2Proof.Machine.execSleep o s
  | .sys o => Sys2Proof.Machine.execSys o s
  | .trap o => Sys2Proof.Machine.execTrap o s
  | .eret o => Sys2Proof.Machine.execEret o s
  | .trapcfg o => Sys2Proof.Machine.execTrapcfg o s
  | .rget o => Sys2Proof.Machine.execRget o s
  | .rset o => Sys2Proof.Machine.execRset o s
  | .sregr o => Sys2Proof.Machine.execSregr o s
  | .sregw o => Sys2Proof.Machine.execSregw o s
  | .ld o => Sys2Proof.Machine.execLd o s
  | .lda o => Sys2Proof.Machine.execLda o s
  | .pref o => Sys2Proof.Machine.execPref o s
  | .st o => Sys2Proof.Machine.execSt o s
  | .stl o => Sys2Proof.Machine.execStl o s
  | .ldc o => Sys2Proof.Machine.execLdc o s
  | .stc o => Sys2Proof.Machine.execStc o s
  | .amoAdd o => Sys2Proof.Machine.execAmoAdd o s
  | .amoAnd o => Sys2Proof.Machine.execAmoAnd o s
  | .amoOr o => Sys2Proof.Machine.execAmoOr o s
  | .amoXor o => Sys2Proof.Machine.execAmoXor o s
  | .amoMin o => Sys2Proof.Machine.execAmoMin o s
  | .amoMax o => Sys2Proof.Machine.execAmoMax o s
  | .amoSwap o => Sys2Proof.Machine.execAmoSwap o s
  | .amoCas o => Sys2Proof.Machine.execAmoCas o s
  | .amocSwap o => Sys2Proof.Machine.execAmocSwap o s
  | .amocCas o => Sys2Proof.Machine.execAmocCas o s
  | .fence o => Sys2Proof.Machine.execFence o s
  | .tld o => Sys2Proof.Machine.execTld o s
  | .tst o => Sys2Proof.Machine.execTst o s
  | .refadr o => Sys2Proof.Machine.execRefadr o s
  | .refbase o => Sys2Proof.Machine.execRefbase o s
  | .reflen o => Sys2Proof.Machine.execReflen o s
  | .refperm o => Sys2Proof.Machine.execRefperm o s
  | .reftype o => Sys2Proof.Machine.execReftype o s
  | .refseta o => Sys2Proof.Machine.execRefseta o s
  | .refadd o => Sys2Proof.Machine.execRefadd o s
  | .refnar o => Sys2Proof.Machine.execRefnar o s
  | .refnarx o => Sys2Proof.Machine.execRefnarx o s
  | .refdrop o => Sys2Proof.Machine.execRefdrop o s
  | .refwrap o => Sys2Proof.Machine.execRefwrap o s
  | .refunwr o => Sys2Proof.Machine.execRefunwr o s
  | .refchk o => Sys2Proof.Machine.execRefchk o s
  | .refvoid o => Sys2Proof.Machine.execRefvoid o s
  | .refdiff o => Sys2Proof.Machine.execRefdiff o s
  | .refeq o => Sys2Proof.Machine.execRefeq o s
  | .refmint o => Sys2Proof.Machine.execRefmint o s
  | .refmov o => Sys2Proof.Machine.execRefmov o s
  | .cpy o => Sys2Proof.Machine.execCpy o s
  | .cpyc o => Sys2Proof.Machine.execCpyc o s
  | .cpyw o => Sys2Proof.Machine.execCpyw o s
  | .setfmt o => Sys2Proof.Machine.execSetfmt o s
  | .claim o => Sys2Proof.Machine.execClaim o s
  | .release o => Sys2Proof.Machine.execRelease o s
  | .mma o => Sys2Proof.Machine.execMma o s
  | .mmz o => Sys2Proof.Machine.execMmz o s
  | .accrd o => Sys2Proof.Machine.execAccrd o s
  | .accwr o => Sys2Proof.Machine.execAccwr o s
  | .fork o => Sys2Proof.Machine.execFork o s
  | .join o => Sys2Proof.Machine.execJoin o s
  | .hwait o => Sys2Proof.Machine.execHwait o s
  | .htest o => Sys2Proof.Machine.execHtest o s
  | .hcancel o => Sys2Proof.Machine.execHcancel o s
  | .sth o => Sys2Proof.Machine.execSth o s
  | .ldh o => Sys2Proof.Machine.execLdh o s
  | .launch o => Sys2Proof.Machine.execLaunch o s
  | .longLatencyComplete gk idx => Sys2Proof.Machine.execLongLatencyComplete gk idx s
  | .ldwReturn gk => Sys2Proof.Machine.execLdwReturn gk s
  | .rowFreed core part => Sys2Proof.Machine.execRowFreed core part s
  | .evict core part => Sys2Proof.Machine.execEvict core part s
  | .evictedReturn core => Sys2Proof.Machine.execEvictedReturn core s
  | .stopFaultDeliver gk => Sys2Proof.Machine.execStopFaultDeliver gk s
  | .sweepEndTrap gk => Sys2Proof.Machine.execSweepEndTrap gk s
  | .handlerEntry gk => Sys2Proof.Machine.execHandlerEntry gk s
  | .owedRefresh core => Sys2Proof.Machine.execOwedRefresh core s
  | .yieldExpiry gk => Sys2Proof.Machine.execYieldExpiry gk s
  | .overrideEnter gk => Sys2Proof.Machine.execOverrideEnter gk s
  | .overrideEnd gk => Sys2Proof.Machine.execOverrideEnd gk s
  | .barrierComplete cluster owner num => Sys2Proof.Machine.execBarrierComplete cluster owner num s
  | .atRelease gk => Sys2Proof.Machine.execAtRelease gk s
  | .sleepExpiry gk => Sys2Proof.Machine.execSleepExpiry gk s
  | .sysReply gk seq rep => Sys2Proof.Machine.execSysReply gk seq rep s
  | .sysAlloc gk seq bases perms => Sys2Proof.Machine.execSysAlloc gk seq bases perms s
  | .sysFree gk seq => Sys2Proof.Machine.execSysFree gk seq s
  | .vaultWindow gk seq => Sys2Proof.Machine.execVaultWindow gk seq s
  | .attest gk seq => Sys2Proof.Machine.execAttest gk seq s
  | .binTimerExpiry core bin => Sys2Proof.Machine.execBinTimerExpiry core bin s
  | .spawnGroupForm core bin => Sys2Proof.Machine.execSpawnGroupForm core bin s
  | .groupRetire gk => Sys2Proof.Machine.execGroupRetire gk s
  | .launchSubmit core pa asid world => Sys2Proof.Machine.execLaunchSubmit core pa asid world s
  | .launchRecordRead lid => Sys2Proof.Machine.execLaunchRecordRead lid s
  | .launchDepsDone lid => Sys2Proof.Machine.execLaunchDepsDone lid s
  | .launchStartTime lid => Sys2Proof.Machine.execLaunchStartTime lid s
  | .distributorConsider => Sys2Proof.Machine.execDistributorConsider s
  | .headAgingExpiry => Sys2Proof.Machine.execHeadAgingExpiry s
  | .genPassDone core dev => Sys2Proof.Machine.execGenPassDone core dev s
  | .l1Fill core => Sys2Proof.Machine.execL1Fill core s
  | .copyAccept core ch => Sys2Proof.Machine.execCopyAccept core ch s
  | .copyServeBegin core ch => Sys2Proof.Machine.execCopyServeBegin core ch s
  | .copyRowDeliver core ch => Sys2Proof.Machine.execCopyRowDeliver core ch s
  | .copyRowSkip core ch => Sys2Proof.Machine.execCopyRowSkip core ch s
  | .copyStop core ch => Sys2Proof.Machine.execCopyStop core ch s
  | .copyCancel core ch => Sys2Proof.Machine.execCopyCancel core ch s
  | .quarterArrive core => Sys2Proof.Machine.execQuarterArrive core s
  | .passWindowExpiry core => Sys2Proof.Machine.execPassWindowExpiry core s
  | .passStart core => Sys2Proof.Machine.execPassStart core s
  | .passWriteback core => Sys2Proof.Machine.execPassWriteback core s
  | .tileOpEffect core => Sys2Proof.Machine.execTileOpEffect core s
  | .claimGrant core => Sys2Proof.Machine.execClaimGrant core s
  | .releaseDone team => Sys2Proof.Machine.execReleaseDone team s
  | .programStart core sq => Sys2Proof.Machine.execProgramStart core sq s
  | .programEnd core sq => Sys2Proof.Machine.execProgramEnd core sq s
  | .parkComplete gk => Sys2Proof.Machine.execParkComplete gk s
  | .unitRestore unit => Sys2Proof.Machine.execUnitRestore unit s
  | .worldScrub world => Sys2Proof.Machine.execWorldScrub world s
  | .park core => Sys2Proof.Machine.execPark core s
  | .resume core => Sys2Proof.Machine.execResume core s
  | .reflect core => Sys2Proof.Machine.execReflect core s
  | .terminate core => Sys2Proof.Machine.execTerminate core s
  | .capload core => Sys2Proof.Machine.execCapload core s
  | .capstore core => Sys2Proof.Machine.execCapstore core s
  | .pwdataRead core => Sys2Proof.Machine.execPwdataRead core s
  | .pwdataWrite core val => Sys2Proof.Machine.execPwdataWrite core val s
  | .registerWrite reg val => Sys2Proof.Machine.execRegisterWrite reg val s
  | .rvStart => Sys2Proof.Machine.execRvStart s
  | .revokeWalkGroups => Sys2Proof.Machine.execRevokeWalkGroups s
  | .revokeWalkPages => Sys2Proof.Machine.execRevokeWalkPages s
  | .revokeSweepDone => Sys2Proof.Machine.execRevokeSweepDone s
  | .rsStep die val => Sys2Proof.Machine.execRsStep die val s
  | .residencyStepApply die => Sys2Proof.Machine.execResidencyStepApply die s
  | .rsEnable die world => Sys2Proof.Machine.execRsEnable die world s
  | .rsDisable die => Sys2Proof.Machine.execRsDisable die s
  | .rsClrovf die => Sys2Proof.Machine.execRsClrovf die s
  | .residencyLoadDone die => Sys2Proof.Machine.execResidencyLoadDone die s
  | .bump asid => Sys2Proof.Machine.execBump asid s
  | .invalidateRange asid => Sys2Proof.Machine.execInvalidateRange asid s
  | .invalidateRangeAll => Sys2Proof.Machine.execInvalidateRangeAll s
  | .dumpCounters asid => Sys2Proof.Machine.execDumpCounters asid s
  | .translationCmdDone => Sys2Proof.Machine.execTranslationCmdDone s
  | .rfctlAll => Sys2Proof.Machine.execRfctlAll s
  | .rfctlAsid => Sys2Proof.Machine.execRfctlAsid s
  | .rfctlRange => Sys2Proof.Machine.execRfctlRange s
  | .rfctlRangeAllAsids => Sys2Proof.Machine.execRfctlRangeAllAsids s
  | .rfctlIcache kind => Sys2Proof.Machine.execRfctlIcache kind s
  | .rfRequestDone => Sys2Proof.Machine.execRfRequestDone s
  | .leaseOffer idx => Sys2Proof.Machine.execLeaseOffer idx s
  | .leaseGrant idx => Sys2Proof.Machine.execLeaseGrant idx s
  | .leaseWithdraw idx => Sys2Proof.Machine.execLeaseWithdraw idx s
  | .lenderRenew idx => Sys2Proof.Machine.execLenderRenew idx s
  | .leaseRecall idx => Sys2Proof.Machine.execLeaseRecall idx s
  | .leaseClear idx => Sys2Proof.Machine.execLeaseClear idx s
  | .slotClaim idx => Sys2Proof.Machine.execSlotClaim idx s
  | .borrowerRenew idx => Sys2Proof.Machine.execBorrowerRenew idx s
  | .leaseReturn idx => Sys2Proof.Machine.execLeaseReturn idx s
  | .slotRelease idx => Sys2Proof.Machine.execSlotRelease idx s
  | .leaseCancel idx => Sys2Proof.Machine.execLeaseCancel idx s
  | .addCapacity lenderSide msg => Sys2Proof.Machine.execAddCapacity lenderSide msg s
  | .grantRefused idx => Sys2Proof.Machine.execGrantRefused idx s
  | .forcedRelease idx => Sys2Proof.Machine.execForcedRelease idx s
  | .lenderExpiry idx => Sys2Proof.Machine.execLenderExpiry idx s
  | .slotExpiry idx => Sys2Proof.Machine.execSlotExpiry idx s
  | .leaseFlushDone idx => Sys2Proof.Machine.execLeaseFlushDone idx s
  | .returnArrive idx => Sys2Proof.Machine.execReturnArrive idx s
  | .lenderLost idx => Sys2Proof.Machine.execLenderLost idx s
  | .slotLost idx => Sys2Proof.Machine.execSlotLost idx s
  | .backInvalidate slot off => Sys2Proof.Machine.execBackInvalidate slot off s
  | .forwardedAccess req => Sys2Proof.Machine.execForwardedAccess req s
  | .inboundWrite port va data => Sys2Proof.Machine.execInboundWrite port va data s
  | .ksCreate world prot => Sys2Proof.Machine.execKsCreate world prot s
  | .ksMeasure world => Sys2Proof.Machine.execKsMeasure world s
  | .ksFinal world => Sys2Proof.Machine.execKsFinal world s
  | .ksDestroy world => Sys2Proof.Machine.execKsDestroy world s
  | .beacon => Sys2Proof.Machine.execBeacon s
  | .beaconReceived serial role cand => Sys2Proof.Machine.execBeaconReceived serial role cand s
  | .managerTimeout => Sys2Proof.Machine.execManagerTimeout s
  | .managerStepDown serial => Sys2Proof.Machine.execManagerStepDown serial s
  | .syncGained ft => Sys2Proof.Machine.execSyncGained ft s
  | .syncLost => Sys2Proof.Machine.execSyncLost s
  | .linkUp port role width tags => Sys2Proof.Machine.execLinkUp port role width tags s
  | .linkDown port => Sys2Proof.Machine.execLinkDown port s
  | .upstreamHotReset port => Sys2Proof.Machine.execUpstreamHotReset port s
  | .sequenceWarning port => Sys2Proof.Machine.execSequenceWarning port s
  | .debugD0 world => Sys2Proof.Machine.execDebugD0 world s
  | .debugD1 => Sys2Proof.Machine.execDebugD1 s
  | .debugD2 => Sys2Proof.Machine.execDebugD2 s
  | .debugD3 => Sys2Proof.Machine.execDebugD3 s
  | .coldBoot => Sys2Proof.Machine.execColdBoot s
  | .coreClose core => Sys2Proof.Machine.execCoreClose core s
  | .coreReopen core => Sys2Proof.Machine.execCoreReopen core s
  | .clockStepDown => Sys2Proof.Machine.execClockStepDown s
  | .thermalShutdown => Sys2Proof.Machine.execThermalShutdown s
  | .firmwareUpdate image => Sys2Proof.Machine.execFirmwareUpdate image s
  | .contextSwitch unit => Sys2Proof.Machine.execContextSwitch unit s
  | .supervisorFence core => Sys2Proof.Machine.execSupervisorFence core s
  | .evtail ring val => Sys2Proof.Machine.execEvtail ring val s
  | .uncorrectableSoftError unit => Sys2Proof.Machine.execUncorrectableSoftError unit s
  | .clockStepUp => Sys2Proof.Machine.execClockStepUp s
  | .powerGate core retained => Sys2Proof.Machine.execPowerGate core retained s
  | .wakeWithZeroing core => Sys2Proof.Machine.execWakeWithZeroing core s
  | .pbrIdentifierAssign pbr => Sys2Proof.Machine.execPbrIdentifierAssign pbr s
  | .inboundRead port va len => Sys2Proof.Machine.execInboundRead port va len s

end Sys2Proof.Machine
end

