-- ==== Sys2Proof/Machine/Step.lean ====
section
/-! DEFINITION. One step of the machine, and the placing of an instruction where the next step fetches it (log 11). -/

namespace Sys2Proof.Machine

/-- One step: the schedule decides; a package that has stopped takes its next cold boot and nothing else (R458, R459). -/
def step (s : State) : Host.Outcome State Fault Refusal :=
  if stopped s then
    match s.agenda with
    | .ev .coldBoot :: l => exec .coldBoot { s with agenda := l }
    | _ => .fault .packageDown
  else schedule exec s

/-- The state with the instruction whose bits are w placed where the next step fetches it. -/
def State.withFetchWord (s : State) (nbits w : Nat) : State := placeWords s (tableWords nbits w)

end Sys2Proof.Machine
end

