-- ==== Sys2Proof/Safety.lean ====
section
/-! DEFINITION. What the statements about runs say: the invariant of every step, when an instruction executes normally,
what a group's registers hold, and what an executed sweep leaves alone. -/

namespace Sys2Proof.Machine

/-- The invariant of every step: memory keeps its canonical form. -/
def State.Inv (s : State) : Prop := s.mem.wf = true

/-! ### What a number stands for (R54 to R64) -/

/-- The pattern a stands, in format m, for the finite number q. -/
def Fmt.Reads (m : Fmt) (a : W64) (q : ℝ) : Prop :=
  ∃ n k e, fdecode m a = .fin n k e ∧ q = (if n then -1 else 1) * k * (2 : ℝ) ^ e

/-- v is the magnitude q rounded to a multiple of Q (R62, R63): the nearer one under the nearest modes, the even one or the one away
from zero at a tie; the one on the side that a directed mode names; under stochastic rounding the one that the draw chooses. -/
def Rounded (mode : RMode) (neg : Bool) (rho : BitVec 16) (Q q v : ℝ) : Prop :=
  ∃ k : ℕ, v = k * Q ∧
    (mode = .nearestEven → |v - q| ≤ Q / 2 ∧ (|v - q| = Q / 2 → k % 2 = 0)) ∧
    (mode = .nearestAway → |v - q| ≤ Q / 2 ∧ (|v - q| = Q / 2 → q < v)) ∧
    (mode = .towardZero ∨ (mode = .down ∧ neg = false) ∨ (mode = .up ∧ neg = true) → v ≤ q ∧ q < v + Q) ∧
    ((mode = .down ∧ neg = true) ∨ (mode = .up ∧ neg = false) → q ≤ v ∧ v < q + Q) ∧
    (mode = .stochastic → ∃ j : ℕ, j * Q ≤ q ∧ q < (j + 1) * Q ∧
      k = if (rho.toNat : ℤ) < ⌊2 ^ 16 * (q - j * Q) / Q⌋ then j + 1 else j)

/-- The digits of x are those of the number q, not zero, exactly or with what is cut off marked, far below the precision of m. -/
structure Exact.Stands (x : Exact) (m : Fmt) (q : ℝ) : Prop where
  some : x.m ≠ 0
  sign : x.neg = true ↔ q < 0
  least : x.m * (2 : ℝ) ^ x.e ≤ |q|
  most : |q| < (x.m + 1) * (2 : ℝ) ^ x.e
  cut : x.sticky = true ↔ |q| ≠ x.m * (2 : ℝ) ^ x.e
  digits : x.sticky = true → m.f + 17 ≤ Nat.log2 x.m

/-- y is the number q rounded once to the format under a context, with the flags of that rounding (R59). -/
def RoundsOnce (m : Fmt) (r : RCtx) (q : ℝ) (y : W64 × Flags) : Prop :=
  ∃ x : Exact, x.Stands m q ∧ y = roundTo m r.mode r.sat r.rho x

/-! ### When an instruction executes normally -/

/-- The rows that the first writes of a sweep need are there (R41, R43, R44). -/
def rowsReady (s : State) (w : Sw) : Bool :=
  match mapRegs { s with ctr := s.ctr + ctrStep } w.gk w.dests with
  | .ok _ => true
  | _ => false

/-- The completion flag of a long-latency instruction: its clause's, or the one its held sweep carries (R123, R361). -/
def Sw.flag (w : Sw) : Option Nat :=
  if w.replay then w.held.bind (fun h => h.flag)
  else if w.f.ll then w.g.clause.bind clauseFlag
  else none

/-- Instruction i executes at s as the sweep w, with nothing that stops it before its own effect: it is legal where it
stands (R134, R135, R120, R121, R133, R198), its words were fetched for every thread (R27), no register it names waits
for a copy or was abandoned (R243), its rows are there (R41 to R44), it is not drained behind an older stop (R24) and
comes to its end without a break (R21), it replays no deferral (R358), and a flag is bound only where it is a long-latency instruction (R123). -/
structure Ready (i : Instr) (s : State) (w : Sw) : Prop where
  now : sweepNow i s = some w
  subset : w.g.prog.isSome = true → engineOk w.f w.e = true
  legal : legal i = true
  place : placeOk w.g i w.e = true
  free : sbBlocked w = false
  fetched : w.lim = none
  whole : ∀ t ∈ w.all, abandonedAt w t = false
  rows : rowsReady s w = true
  settled : w.g.drain = none
  uncut : w.upTo = none
  fresh : w.defer0 = []
  unbound : w.f.ll = false → w.flag = none

/-- The threads that the sweep processes in turn with their predicate holding: one thread stands for all under U = 1
(R112, R113). -/
def Sw.doers (w : Sw) : List Nat := (if w.e.u then w.todo.take 1 else w.todo).filter w.on

/-- Thread u is processed by the sweep and its predicate holds. -/
def Sw.acts (w : Sw) (u : Nat) : Bool := w.doers.contains u

/-- No exception that fpctl enables is among the flags (R67). -/
def Quiet (w : Sw) (fl : Nat → Flags) : Prop := ∀ t ∈ w.doers, trapFlags w.g (fl t) = 0

/-! ### What the registers of a group hold -/

/-- The registers that a group's instructions name: by thread and number, or by number. -/
structure Regs where
  v : Nat → Nat → W32
  p : Nat → Nat → Bool
  c : Nat → Nat → Cap
  g : Nat → W64
  gc : Nat → Cap
  h : Nat → Option W64
  fpst : Nat → W32
  tpc : Nat → W64
  fmt : W32
  fpctl : W32

/-- The registers of a group as its fields name them: 120 to 127 name the trap window in trap mode (R30). -/
def Group.regs (g : Group) : Regs where
  v u r := (g.thread u).vreg (isWin g r) r
  p u n := (g.thread u).pred n
  c u r := (g.thread u).cap r
  g r := g.greg r
  gc r := g.gcap r
  h r := g.handle r
  fpst u := (g.thread u).fpst
  tpc u := (g.thread u).tpc
  fmt := g.r.fmt
  fpctl := g.r.fpctl

/-- Register r was marked last read by the instruction, and its row goes (R42). -/
def Sw.frees (w : Sw) (r : Nat) : Bool := w.lastRead.contains r && KeySet.has w.g.mapped r

/-- Registers after the rows of the marked registers have gone: those registers read zero (R41, R42). -/
def Regs.freed (w : Sw) (R : Regs) : Regs := { R with v := fun u r => if w.frees r then 0 else R.v u r }

/-- V[D][u] holds `val u`, 32 bits or a pair (R28), for every thread u that acts. -/
def Regs.results (w : Sw) (val : Nat → W64) (R : Regs) : Regs :=
  { R with v := fun u r =>
      if w.acts u then
        if r = w.e.d.toNat + 1 ∧ isWide w.f.wd w.e.ty w.e.imm = true then (val u).extractLsb' 32 32
        else if r = w.e.d.toNat then (val u).setWidth 32
        else R.v u r
      else R.v u r }

/-- G[D] holds x. -/
def Regs.groupResult (w : Sw) (x : W64) (R : Regs) : Regs :=
  { R with g := fun r => if r = w.e.d.toNat then x else R.g r }

/-- P[D] of every thread that acts holds its outcome; p7 reads true whatever is written (R31). -/
def Regs.outcomes (w : Sw) (val : Nat → Bool) (R : Regs) : Regs :=
  { R with p := fun u n => if w.acts u ∧ n = w.e.d.toNat ∧ n < 7 then val u else R.p u n }

/-- C[D] of every thread that acts, or GC[D − 32] with the last of them, holds its capability (R30, R200). -/
def Regs.caps (w : Sw) (val : Nat → Cap) (R : Regs) : Regs :=
  { R with
    c := fun u r => if w.acts u ∧ r = w.e.d.toNat ∧ r < 32 then val u else R.c u r
    gc := fun r => if r + 32 = w.e.d.toNat then
        (match w.doers.getLast? with | some u => val u | none => R.gc r) else R.gc r }

/-- C[31] of every thread that acts holds its return sentry (R94, R169). -/
def Regs.linked (w : Sw) (val : Nat → Cap) (R : Regs) : Regs :=
  { R with c := fun u r => if w.acts u ∧ r = 31 then val u else R.c u r }

/-- Every thread of a set has flags merged into its fpst (R66, R68). -/
def Regs.raise (ts : Nat → Bool) (fl : Nat → Flags) (R : Regs) : Regs :=
  { R with fpst := fun u => if ts u then R.fpst u ||| (fl u).setWidth 32 else R.fpst u }

/-- The flags of a sweep: each thread's own, or those of the one operation to every active thread under U = 1 (R68). -/
def Regs.flagged (w : Sw) (fl : Nat → Flags) (R : Regs) : Regs :=
  if w.e.u then (match w.doers.head? with | some t => Regs.raise w.all.contains (fun _ => fl t) R | none => R)
  else Regs.raise w.acts fl R

/-- The results of a sweep with destination V[D] or, under U = 1, G[D], and its flags (R143). -/
def Regs.computed (w : Sw) (val : Nat → W64) (fl : Nat → Flags) (R : Regs) : Regs :=
  Regs.flagged w fl
    (if w.e.u then (match w.doers.head? with | some t => Regs.groupResult w (val t) R | none => R)
     else Regs.results w val R)

/-! ### What an executed sweep leaves alone -/

/-- The state apart from groups, cores and the model's counter. -/
def State.elsewhere (s : State) : State := { s with groups := [], cores := [], ctr := 0 }

/-- A core apart from its issue counter and the rows of its partitions. -/
def Core.elsewhere (c : Core) : Core := { c with seq := 0, parts := [] }

/-- A group apart from its threads, registers, mapped rows, clause, held sweeps and pending results. -/
def Group.rest (g : Group) : Group :=
  { g with
    th := [], mapped := [], clause := none, held := [], aband := [], pend := []
    r := ⟨[], [], [], [], 0, 0⟩, ids := { g.ids with rows := 0 } }

/-- A thread apart from its registers. -/
def Thread.rest (x : Thread) : Thread := { x with v := [], w := [], c := [], p := 0, fpst := 0, code := Cap.null, tpc := 0 }

/-- Memory, other groups, and everything outside the issuing group, its core's issue counter and its rows are as they
were. -/
structure SweepFrame (w : Sw) (s t : State) : Prop where
  elsewhere : t.elsewhere = s.elsewhere
  cores : ∀ c, (t.core c).elsewhere = (s.core c).elsewhere
  groups : ∀ k, k ≠ w.gk → t.group k = s.group k

/-- The code capability of thread u after an instruction that does not transfer control: the threads that stood at it go
on past it (R84). -/
def Sw.codeAfter (w : Sw) (u : Nat) : Cap :=
  let x := w.g.thread u
  if KeySet.has w.all u && x.st != .exited && x.pc == w.iaddr then
    capSetAddr x.code ((w.iaddr + instrLen w.i : Nat) : Int)
  else x.code

/-- The sweep's own results wait for their flag or mark; whatever else waits after the sweep was waiting before it, or is
its own (R23, R34). -/
def PendFrame (g g' : Group) (own : List Pend) : Prop :=
  (∀ p ∈ own, p ∈ g'.pend) ∧
    ∀ p' ∈ g'.pend, ∃ p ∈ own ++ g.pend,
      p'.seq = p.seq ∧ p'.flag = p.flag ∧ p'.ldw = p.ldw ∧ p'.load = p.load ∧ ∀ x ∈ p'.writes, x ∈ p.writes

/-- The record of a sweep's own results still to come: what LONG_LATENCY_COMPLETE or LDW_RETURN completes. A sweep that no thread
takes part in leaves none (R34, R123). -/
def Sw.own (w : Sw) (ldw : Bool) (ws : List PWrite) : List Pend :=
  if ws = [] ∧ (w.flag = none ∨ w.idle = true) then [] else [⟨w.seq, w.flag, ldw, ldw || isLoad w.f, ws.map (windowed w.g)⟩]

/-- exec answers a next state in which the group's registers are R, `own` the results still to come, and all else is as
it was but for the program counters, the clause's count and the row bookkeeping. -/
structure Ran (i : Instr) (s : State) (w : Sw) (R : Regs) (own : List Pend) (t : State) (g' : Group) : Prop where
  next : exec i s = .next t
  frame : SweepFrame w s t
  group : t.group w.gk = some g'
  regs : g'.regs = R
  rest : g'.rest = w.g.rest
  threads : ∀ u, (g'.thread u).rest = (w.g.thread u).rest
  code : ∀ u, (g'.thread u).code = w.codeAfter u
  pend : PendFrame w.g g' own

/-- exec of i at s completes with the registers R, nothing pending of its own. -/
def Completes (i : Instr) (s : State) (w : Sw) (R : Regs) : Prop := ∃ t g', Ran i s w R [] t g'

/-- The pending writes of a long-latency result x of thread t: V[D], the pair (V[D], V[D + 1]), or G[D] (R28, R123). -/
def Sw.later (w : Sw) (t : Nat) (x : W64) : List PWrite :=
  if w.e.u then [.g w.e.d.toNat x]
  else if isWide w.f.wd w.e.ty w.e.imm then
    [.v t w.e.d.toNat (x.setWidth 32), .v t (w.e.d.toNat + 1) (x.extractLsb' 32 32)]
  else [.v t w.e.d.toNat (x.setWidth 32)]

/-! ### The shapes of the result statements -/

/-- Wherever i executes normally and raises no enabled exception, exec answers a next state in which V[D] (G[D] under
U = 1) holds the results `val` and the flags are merged into fpst. -/
def Computes (i : Instr) (val : Sw → Nat → W64 × Flags) : Prop :=
  ∀ s w, Ready i s w → Quiet w (fun t => (val w t).2) →
    Completes i s w (Regs.freed w (Regs.computed w (fun t => (val w t).1) (fun t => (val w t).2) w.g.regs))

/-- As Computes, with P[D] as the destination. -/
def Decides (i : Instr) (val : Sw → Nat → Bool × Flags) : Prop :=
  ∀ s w, Ready i s w → Quiet w (fun t => (val w t).2) →
    Completes i s w (Regs.freed w (Regs.raise w.acts (fun t => (val w t).2) (Regs.outcomes w (fun t => (val w t).1) w.g.regs)))

/-- As Computes, with C[D] or GC[D − 32] as the destination and no flags. -/
def Derives (i : Instr) (val : Sw → Nat → Cap) : Prop :=
  ∀ s w, Ready i s w → Completes i s w (Regs.freed w (Regs.caps w (val w) w.g.regs))

/-- As Computes, the results pending until the flag that the clause binds clears; the flags are merged at once (R157). -/
def Promises (i : Instr) (val : Sw → Nat → W64 × Flags) : Prop :=
  ∀ s w, Ready i s w → Quiet w (fun t => (val w t).2) →
    ∃ t g', Ran i s w (Regs.freed w (Regs.flagged w (fun t => (val w t).2) w.g.regs))
      (w.own false (w.doers.flatMap (fun t => w.later t (val w t).1))) t g'

/-- As Computes, of a sweep that is not a replay: it carries nothing from threads visited before (R183). -/
def ComputesFirst (i : Instr) (val : Sw → Nat → W64 × Flags) : Prop :=
  ∀ s w, Ready i s w → w.held = none → Quiet w (fun t => (val w t).2) →
    Completes i s w (Regs.freed w (Regs.computed w (fun t => (val w t).1) (fun t => (val w t).2) w.g.regs))

/-- As Decides, of a sweep that is not a replay. -/
def DecidesFirst (i : Instr) (val : Sw → Nat → Bool × Flags) : Prop :=
  ∀ s w, Ready i s w → w.held = none → Quiet w (fun t => (val w t).2) →
    Completes i s w (Regs.freed w (Regs.raise w.acts (fun t => (val w t).2) (Regs.outcomes w (fun t => (val w t).1) w.g.regs)))

/-- As Promises, of a sweep that is not a replay. -/
def PromisesFirst (i : Instr) (val : Sw → Nat → W64 × Flags) : Prop :=
  ∀ s w, Ready i s w → w.held = none → Quiet w (fun t => (val w t).2) →
    ∃ t g', Ran i s w (Regs.freed w (Regs.flagged w (fun t => (val w t).2) w.g.regs))
      (w.own false (w.doers.flatMap (fun t => w.later t (val w t).1))) t g'

/-- exec of i at s completes, and of the registers only the destination of the threads that act, those marked last read and
fpst, whose flags are sticky, may change; what is pending after it is its own, or was pending before (R20, R23, R42, R66). -/
structure Finished (i : Instr) (s : State) (w : Sw) (t : State) (g' : Group) : Prop where
  next : exec i s = .next t
  frame : SweepFrame w s t
  group : t.group w.gk = some g'
  rest : g'.rest = w.g.rest
  threads : ∀ u, (g'.thread u).rest = (w.g.thread u).rest
  code : ∀ u, (g'.thread u).code = w.codeAfter u
  keepV : ∀ u r, w.frees r = false → (w.acts u = false ∨ (r ≠ w.e.d.toNat ∧ r ≠ w.e.d.toNat + 1)) → g'.regs.v u r = w.g.regs.v u r
  keepP : ∀ u n, (w.acts u = false ∨ n ≠ w.e.d.toNat) → g'.regs.p u n = w.g.regs.p u n
  keepC : g'.regs.c = w.g.regs.c ∧ g'.regs.gc = w.g.regs.gc ∧ g'.regs.h = w.g.regs.h ∧ g'.regs.tpc = w.g.regs.tpc
  keepG : ∀ r, (w.e.u = false ∨ r ≠ w.e.d.toNat) → g'.regs.g r = w.g.regs.g r
  modes : g'.regs.fmt = w.g.regs.fmt ∧ g'.regs.fpctl = w.g.regs.fpctl
  sticky : ∀ u, w.g.regs.fpst u &&& g'.regs.fpst u = w.g.regs.fpst u
  pend : ∀ p' ∈ g'.pend, (p'.seq = w.seq ∧ p'.flag = w.flag) ∨ ∃ p ∈ w.g.pend,
    p'.seq = p.seq ∧ p'.flag = p.flag ∧ p'.ldw = p.ldw ∧ p'.load = p.load ∧ ∀ x ∈ p'.writes, x ∈ p.writes

/-! ### Instructions that act on threads, groups or the control flow -/

/-- exec answers a next state in which the group, apart from registers, clause and program counters, is `rest`, and each
thread, apart from its registers, is `thr`; the registers are R, and threads that have not exited go on past i. -/
structure Acted (i : Instr) (s : State) (w : Sw) (R : Regs) (rest : Group) (thr : Nat → Thread) (t : State) (g' : Group) :
    Prop where
  next : exec i s = .next t
  frame : SweepFrame w s t
  group : t.group w.gk = some g'
  regs : g'.regs = R
  rest : g'.rest = rest
  threads : ∀ u, (g'.thread u).rest = thr u
  code : ∀ u, (g'.thread u).st ≠ .exited → (g'.thread u).code = w.codeAfter u
  pend : PendFrame w.g g' []

/-- exec of i at s completes with the group as `rest` and its threads as `thr`; no register changes but those freed. -/
def Acts (i : Instr) (s : State) (w : Sw) (rest : Group) (thr : Nat → Thread) : Prop :=
  ∃ t g', Acted i s w (Regs.freed w w.g.regs) rest thr t g'

/-- A transfer of control completes: each thread still to be processed has the code capability that `code` gives, no
other thread's changes, and the registers are R. The override's count of clauses may change (R290). -/
def Turns (i : Instr) (s : State) (w : Sw) (R : Regs) (code : Nat → Cap) : Prop :=
  ∃ t g', exec i s = .next t ∧ SweepFrame w s t ∧ t.group w.gk = some g' ∧ g'.regs = R ∧
    g'.rest = { w.g.rest with sched := { w.g.sched with ovc := g'.sched.ovc } } ∧
    (∀ u, (g'.thread u).rest = (w.g.thread u).rest) ∧
    (∀ u, (g'.thread u).code = if w.todo.contains u then code u else (w.g.thread u).code) ∧
    PendFrame w.g g' [] ∧ g'.clause = none

/-- Scheduling once the threads ts wait: the override ends where its thread is among them (R290). -/
def Sw.calm (w : Sw) (ts : KeySet) : GSched :=
  if w.g.sched.ovOn = true ∧ KeySet.has ts w.g.sched.ovT = true then { w.g.sched with ovOn := false, ovc := 0, ovl := 0 }
  else w.g.sched

/-- Thread x waits at a barrier or for a time, a handle or a reply. -/
def Thread.waits (x : Thread) (k : WaitKind) (n : Nat) : Thread := { x.rest with st := .waiting, wait := k, barNum := n }

/-- A delivery names the stop of sweep w at thread t0 (R24, R355, R365). -/
def Delivery.names (d : Delivery) (w : Sw) (t0 : Nat) (st : Stop) : Prop :=
  d.tcause = st.cause ++ (0 : BitVec 8) ∧ d.tres = t0 ∧ d.tmask = [t0] ∧ d.tpc = BitVec.ofNat 64 w.iaddr ∧
    d.seq = w.seq ∧ d.faddr = st.faddr ∧ d.detail = st.detail

/-- A replay record holds sweep w from thread t0 on (R361). -/
def Held.holds (h : Held) (w : Sw) (t0 : Nat) : Prop :=
  h.seq = w.seq ∧ h.iaddr = BitVec.ofNat 64 w.iaddr ∧ h.instr = w.i ∧ h.res = t0 ∧ h.active = w.all

/-- Where a sweep stops that stops before it acts: at the first thread still to be processed (R43, R135). -/
def Sw.first (w : Sw) : Option Nat := w.todo.head?.or w.all.head?

/-- The group stands stopped at thread t0: its supervisor core holds the delivery, the delivery waits for its window or for
younger sweeps that are drained first, or the handler runs with t0 in it; the sweep is held for replay from t0 (R24, R346,
R359, R361, R365). -/
def Group.stoppedAt (g : Group) (w : Sw) (t0 : Nat) (st : Stop) : Prop :=
  ∃ h : Held, h.holds w t0 ∧
    ((∃ dr : Drain, g.drain = some dr ∧ dr.lim = t0 ∧ (∃ d, dr.d = some d ∧ d.names w t0 st) ∧ g.held.head? = some h) ∨
      (∃ d : Delivery, d.names w t0 st ∧ g.held.head? = some h ∧
        ((g.sup = some d ∧ (g.park = .delivered ∨ g.park = .requested)) ∨ g.deliv = some d)) ∨
      (∃ tr, g.trap = some tr ∧ tr.tcause = st.cause ++ (0 : BitVec 8) ∧ tr.tres = t0 ∧ tr.tmask = [t0] ∧
        tr.saved.head? = some h ∧ (g.thread t0).tpc = BitVec.ofNat 64 w.iaddr))

/-- exec of i at s stops at thread t0 with the stop st: a next state in which the group stands stopped there. -/
def Stops (i : Instr) (s : State) (w : Sw) (t0 : Nat) (st : Stop) : Prop :=
  ∃ t g', exec i s = .next t ∧ t.group w.gk = some g' ∧ g'.stoppedAt w t0 st

/-! ### Operands and results in the spec's terms -/

/-- The N bits of an operand of TYPE (R144). -/
def Sw.bits (w : Sw) (x : W64) : BitVec (tyWidth w.e.ty) := x.setWidth (tyWidth w.e.ty)

/-- An operand read as an integer of TYPE (R52). -/
def Sw.whole (w : Sw) (x : W64) : Int := if tySigned w.e.ty then (w.bits x).toInt else (w.bits x).toNat

/-- N bits as they fill a register: signed integer types extend by sign, all others by zeros (R50). -/
def Sw.fill (w : Sw) (x : BitVec (tyWidth w.e.ty)) : W64 := if tySigned w.e.ty then x.signExtend 64 else x.setWidth 64

/-- An exact integer narrowed to TYPE: wrapped, or clamped with the SAT flag where that changes it (R52). -/
def Sw.fit (w : Sw) (x : Int) : W64 × Flags :=
  let n := tyWidth w.e.ty
  let lo : Int := if tySigned w.e.ty then -(2 ^ (n - 1)) else 0
  let hi : Int := if tySigned w.e.ty then 2 ^ (n - 1) - 1 else 2 ^ n - 1
  if w.e.sat = true ∧ x < lo then (w.fill (BitVec.ofInt n lo), 0x20)
  else if w.e.sat = true ∧ hi < x then (w.fill (BitVec.ofInt n hi), 0x20)
  else (w.fill (BitVec.ofInt n x), 0)

/-- A shift count: b [7:0] (R148). -/
def shiftCount (b : W64) : Nat := (b.extractLsb' 0 8).toNat

/-- Some threads up to and including t. -/
def upToThread (l : List Nat) (t : Nat) : List Nat := l.takeWhile (· != t) ++ [t]

/-- The participants of an exchange up to t; in a segmented one, from the last of them on that heads a segment (R175,
R179). -/
def Sw.run (w : Sw) (seg : Bool) (t : Nat) : List Nat :=
  (upToThread w.parts t).foldl (fun l u => if seg && readP w.g w.base 7 u w.e.c.toNat then [u] else l ++ [u]) []

/-- The running combination of a list of threads, in order (R179); none of an empty list. -/
def Sw.combined (w : Sw) : List Nat → Option W64
  | [] => none
  | u :: l => some (l.foldl (fun y v => (scanOp w v y (w.fill (w.bits (w.srcA v)))).1) (w.fill (w.bits (w.srcA u))))

/-- The flags that thread t's own step of the combination raises: the first of a run has none. -/
def Sw.stepFlags (w : Sw) (before : List Nat) (t : Nat) : Flags :=
  match w.combined before with
  | none => 0
  | some y => (scanOp w t y (w.fill (w.bits (w.srcA t)))).2

/-! ### Observed operations -/

/-- exec of i at s completes, having observed the completion of the operations hs: of the registers R, the handle registers
that name a cancelled one of them are invalid; where one of them ran on another core, or is a launch, the core's CGD steps;
the group, apart from its registers, is `rest`, and its threads are `thr` (R33, R244, R339). -/
structure Observed (i : Instr) (s : State) (w : Sw) (hs : List W64) (R : Regs) (rest : Group) (thr : Nat → Thread) (t : State)
    (g' : Group) : Prop where
  next : exec i s = .next t
  elsewhere : t.elsewhere = s.elsewhere
  groups : ∀ k, k ≠ w.gk → t.group k = s.group k
  cores : ∀ c, c ≠ coreOf w.gk → t.core c = s.core c
  core : Core.elsewhere { (t.core (coreOf w.gk)) with l1 := (s.core (coreOf w.gk)).l1 } = (s.core (coreOf w.gk)).elsewhere
  acquired : (t.core (coreOf w.gk)).l1 =
    if hs.any (fun h => ranOn s h != coreOf w.gk || hKind h == 4) then ((stepGen s (coreOf w.gk) true).core (coreOf w.gk)).l1
    else (s.core (coreOf w.gk)).l1
  group : t.group w.gk = some g'
  regs : g'.regs = { R with h := fun r => (R.h r).filter (fun h => !(hs.contains h && s.status h == 0x80000003)) }
  rest : g'.rest = rest
  threads : ∀ u, (g'.thread u).rest = thr u
  code : ∀ u, (g'.thread u).code = w.codeAfter u
  pend : PendFrame w.g g' []

/-! ### Steps of engines, supervisor cores and the fabric -/

/-- exec of i at s answers a next state t, and P holds of it. -/
def After (i : Instr) (s : State) (P : State → Prop) : Prop := ∃ t, exec i s = .next t ∧ P t

/-- A future's operation has ended with a status (R231, R232): its handle reads it, unless the core's store must drop
a status first. -/
def Ended (s t : State) (core seq : Nat) (x : W32) : Prop :=
  (s.core core).store.order.length < storeCap → ∀ h, hCore h = core → hSeq h = seq → t.status h = x

/-- A reply to request r has arrived (R192): every thread of it that waited runs on with its result and capability, gc0 to
gc15 taking the last participant's, the request is gone, the core that the group stands on acquires at .dev (R303), and no
other thread or group changes. -/
structure Replied (s t : State) (r : SysReq) (res : Nat → W32) (cap : Nat → Option Cap) : Prop where
  mem : t.mem = s.mem
  request : t.sysq = s.sysq.filter (fun q => !(q.gk == r.gk && q.seq == r.seq))
  acquired : (t.core (reqCore s r)).l1.cgd = (s.core (reqCore s r)).l1.cgd + 1
  others : ∀ k g, s.group k = some g → ¬ (g.ids.team = r.team ∧ g.ids.grp = r.grp ∧ g.prog.isNone = true) → t.group k = some g
  threads : ∀ k g, s.group k = some g → g.ids.team = r.team → g.ids.grp = r.grp → g.prog.isNone = true →
    ∃ g', t.group k = some g' ∧
      (∀ u x, Tab.look g.th u = some x →
        if u ∈ r.parts ∧ x.wait = .sys then
          (g'.thread u).wait = .none ∧ (g'.thread u).st = (if x.st = .waiting then .runnable else x.st) ∧
          (∀ b, r.breg = some b → Tab.lookD (g'.thread u).v b 0 = res u) ∧
          (∀ c, cap u = some c → r.areg < 32 → (g'.thread u).cap r.areg = revCheck s g.ids.asid (derivedCap s (Tab.look r.caps u) c))
        else g'.thread u = x) ∧
      (∀ u x c, r.parts.getLast? = some u → Tab.look g.th u = some x → x.wait = .sys → cap u = some c → 32 ≤ r.areg →
        g'.gcap (r.areg - 32) = revCheck s g.ids.asid (derivedCap s (Tab.look r.caps u) c))

/-- A lease event (R430) has entered the ring, as the device writes memory, and raised its interrupt, or, the ring being full,
waits. -/
def LeaseNoted (s t : State) (kind tab idx : Nat) (lid : W32) : Prop :=
  let r := leBytes kind 1 ++ leBytes tab 1 ++ leBytes idx 2 ++ leBytes lid.toNat 4 ++ leBytes s.time.ftime 8
  (ringFull s.lease.evsize s.lease.evhead s.lease.evtail = true →
    t.lease.waiting = s.lease.waiting ++ [r] ∧ t.mem = s.mem) ∧
  (ringFull s.lease.evsize s.lease.evhead s.lease.evtail = false → s.lease.waiting = [] →
    t.mem = (devWrite { t with mem := s.mem } (s.lease.evbase.toNat + 16 * s.lease.evhead) r).mem ∧ t.lease.int17 = true ∧
      t.lease.evhead = ringNext s.lease.evsize s.lease.evhead ∧ t.lease.waiting = [])

/-- An event record of a core (R366) has entered its ring and raised its interrupt, or, the ring being full, waits. -/
def CoreNoted (s t : State) (core : Nat) (r : List Byte) : Prop :=
  let u := (s.core core).sup
  let u' := (t.core core).sup
  (ringFull u.evsize u.evhead u.evtail = true → u'.waiting = u.waiting ++ [r] ∧ t.mem = s.mem) ∧
  (ringFull u.evsize u.evhead u.evtail = false → u.waiting = [] →
    t.mem = (devWrite { t with mem := s.mem } (u.evbase.toNat + 96 * u.evhead) r).mem ∧ u'.int16 = true ∧ u'.evhead = ringNext u.evsize u.evhead ∧
      u'.waiting = [])

/-- A system event (R443) has entered the ring and raised its interrupt, or, the ring being full, waits. -/
def SystemNoted (s t : State) (kind who : Nat) : Prop :=
  let r := leBytes kind 1 ++ leBytes who 1 ++ leBytes 0 6 ++ leBytes s.time.ftime 8
  (ringFull s.sys.evsize s.sys.evhead s.sys.evtail = true → t.sys.waiting = s.sys.waiting ++ [r] ∧ t.mem = s.mem) ∧
  (ringFull s.sys.evsize s.sys.evhead s.sys.evtail = false → s.sys.waiting = [] →
    t.mem = (devWrite { t with mem := s.mem } (s.sys.evbase.toNat + 16 * s.sys.evhead) r).mem ∧ t.sys.int18 = true ∧
      t.sys.evhead = ringNext s.sys.evsize s.sys.evhead ∧ t.sys.waiting = [])

/-- A group after the pending instruction p has completed: its results stand in their registers, nothing else of its
registers has changed, each flag that a part of it binds has counted down, no part of it is pending any more, and of the
others only an LDW that came before it loses what it had for the same registers (R20, R23, R34, R208). -/
structure Group.Completed (g g' : Group) (p : Pend) : Prop where
  newV : ∀ u r y, PWrite.v u r y ∈ p.writes → r < 128 → (g.thread u).st ≠ .exited → (∀ z, PWrite.v u r z ∈ p.writes → z = y) →
    Tab.lookD (g'.thread u).v r 0 = y
  newG : ∀ r y, PWrite.g r y ∈ p.writes → (∀ z, PWrite.g r z ∈ p.writes → z = y) → g'.greg r = y
  newC : ∀ u r y, PWrite.c u r y ∈ p.writes → (g.thread u).st ≠ .exited → (∀ z, PWrite.c u r z ∈ p.writes → z = y) →
    (g'.thread u).cap r = y
  newGC : ∀ r y, PWrite.gc r y ∈ p.writes → (∀ z, PWrite.gc r z ∈ p.writes → z = y) → g'.gcap r = y
  newP : ∀ u n y, PWrite.p u n y ∈ p.writes → n < 7 → (g.thread u).st ≠ .exited → (∀ z, PWrite.p u n z ∈ p.writes → z = y) →
    (g'.thread u).pred n = y
  newH : ∀ r y, PWrite.h r y ∈ p.writes → (∀ z, PWrite.h r z ∈ p.writes → z = y) → g'.handle r = y
  keepV : ∀ u r, (∀ y, PWrite.v u r y ∉ p.writes) → Tab.lookD (g'.thread u).v r 0 = Tab.lookD (g.thread u).v r 0
  keepG : ∀ r, (∀ y, PWrite.g r y ∉ p.writes) → g'.greg r = g.greg r
  keepC : ∀ u r, (∀ y, PWrite.c u r y ∉ p.writes) → (g'.thread u).cap r = (g.thread u).cap r
  keepGC : ∀ r, (∀ y, PWrite.gc r y ∉ p.writes) → g'.gcap r = g.gcap r
  keepP : ∀ u n, (∀ y, PWrite.p u n y ∉ p.writes) → (g'.thread u).pred n = (g.thread u).pred n
  keepH : ∀ r, (∀ y, PWrite.h r y ∉ p.writes) → g'.handle r = g.handle r
  flags : ∀ n, g'.flagCount n = g.flagCount n - ((pendParts g.pend p).filter (fun x => x.flag == some n)).length
  pends : g'.pend = pendRest g.pend p

/-! ### Steps -/

/-- Group k stands at the address pc, a multiple of 4, with the threads t and ts to execute the words ws there, which t may
fetch and which decode to i: the first word alone, or with the words that its LEN field calls for (R27, R106, R107). -/
structure Stands (s : State) (k : Nat) (g : Group) (pc t : Nat) (ts : List Nat) (ws : List W32) (i : Instr) : Prop where
  group : s.group k = some g
  may : canIssue g = true
  next : nextOf g = (pc, t :: ts, none)
  aligned : pc % 4 = 0
  first : codeCheck (g.thread t).code pc 4 = none
  words : ∃ b, fetchBytes s (fetcher k g) pc 4 (BitVec.ofNat 64 pc) = .ok b ∧
    ((decodeBytes b = .ok (i, []) ∧ ws = wordsOf b) ∨
      (decodeBytes b = .error .truncated ∧ ∃ b',
        codeCheck (g.thread t).code pc (4 * lenWords ((wordsOf b).headD 0)) = none ∧
        fetchBytes s (fetcher k g) pc (4 * lenWords ((wordsOf b).headD 0)) (BitVec.ofNat 64 pc) = .ok b' ∧
        decodeBytes b' = .ok (i, []) ∧ ws = wordsOf b'))
  wf : i.wf = true

/-- What group k leaves by executing i, fetched as the words ws: exec of i, which stops at the first of the other threads that
may not fetch it (R27). -/
def runs (s : State) (k : Nat) (g : Group) (pc : Nat) (ts : List Nat) (ws : List W32) (i : Instr) :
    Host.Outcome State Fault Refusal :=
  match exec i { (withFetchStop (fetchFill { s with focus := k } (fetcher k g) pc (4 * ws.length)) g pc (instrLen i) ts) with
      fetched := ws } with
  | .next t => .next { t with fetchStop := none, fetched := [] }
  | .fault f => .fault f
  | .refused r => .refused r

/-- From s to t only what the picker keeps of each group, and of each core, has changed (R288, R289), and what `time` says. -/
structure Picked (s t : State) : Prop where
  mem : t.mem = s.mem
  none : ∀ j, s.group j = none → t.group j = none
  groups : ∀ j g, s.group j = some g → ∃ sc, t.group j = some { g with sched := sc }
  cores : ∀ c, Core.elsewhere (t.core c) = Core.elsewhere { (s.core c) with seq := (t.core c).seq }

/-! ### Memory accesses and commands to engines -/

/-- The state in which the first thread of an executing sweep acts: the rows of its first writes mapped, its sequence
number taken, its flag bound (R39, R41, R123). -/
def Sw.begun (w : Sw) (s : State) : State :=
  match mapRegs { s with ctr := s.ctr + ctrStep } w.gk w.dests with
  | .ok s' => (issue s' w).1
  | _ => s

/-- Threads act in turn, each on what the one before it left (R10, R213): the state after the last, with what each gave;
none where one stops. -/
def inTurn {α : Type} (f : State → Nat → Except Stop (State × α)) : List Nat → State → Option (State × List (Nat × α))
  | [], s => some (s, [])
  | t :: l, s =>
    match f s t with
    | .error _ => none
    | .ok (s1, x) =>
      match inTurn f l s1 with
      | none => none
      | some (s2, xs) => some (s2, (t, x) :: xs)

/-- The first thread that stops when threads act in turn, with its stop (R205). -/
def firstToStop {α : Type} (f : State → Nat → Except Stop (State × α)) : List Nat → State → Option (Nat × Stop)
  | [], _ => none
  | t :: l, s =>
    match f s t with
    | .error e => some (t, e)
    | .ok (s1, _) => firstToStop f l s1

/-- The issuing group after an instruction that completes: its registers are R, `own` the results still to come, `rest`
all else but program counters, the clause's count and the row bookkeeping; no other group changes. -/
structure Passed (i : Instr) (s : State) (w : Sw) (R : Regs) (own : List Pend) (rest : Group) (t : State) (g' : Group) :
    Prop where
  next : exec i s = .next t
  group : t.group w.gk = some g'
  others : ∀ k, k ≠ w.gk → t.group k = s.group k
  regs : g'.regs = R
  rest : g'.rest = rest
  threads : ∀ u, (g'.thread u).rest = (w.g.thread u).rest
  code : ∀ u, (g'.thread u).code = w.codeAfter u
  pend : PendFrame w.g g' own

/-- Outside the groups, accesses change nothing but memory and the keys it was written under, the lines of the issuing core's L1,
cached translations, held lease lines, the lender's directory, the owner records of lines, a residency page's registers, the
record of device accesses, and the writes to register pages that come next. -/
structure AccessFrame (w : Sw) (s t : State) : Prop where
  elsewhere : State.elsewhere { t with
      mem := s.mem, sealed := s.sealed, xlat := { t.xlat with tlb := s.xlat.tlb }, mmio := s.mmio, owners := s.owners
      resid := s.resid, agenda := s.agenda, lease := { t.lease with lines := s.lease.lines, far := s.lease.far } } = s.elsewhere
  core : Core.elsewhere { (t.core (coreOf w.gk)) with l1 := (s.core (coreOf w.gk)).l1 } = (s.core (coreOf w.gk)).elsewhere
  cores : ∀ c, c ≠ coreOf w.gk → t.core c = s.core c

/-- Does a store of n bytes to a target reach byte a of memory? Bytes of a leased line are held apart from memory until
they are written back (R431). -/
def Target.covers (x : Target) (n a : Nat) : Bool :=
  match x with
  | .vault h => decide (h ≤ a ∧ a < h + n)
  | .phys pa => !isLease pa && decide (pa ≤ a ∧ a < pa + n)
  | .dev pa => !isMmio pa && !isLease pa && decide (pa ≤ a ∧ a < pa + n)
  | .line _ => false

/-- No byte of memory changes outside the targets that the threads' stores landed on. -/
def Kept (landed : List (Nat × List (Target × Nat))) (s t : State) : Prop :=
  ∀ a, (∀ x ∈ landed, ∀ y ∈ x.2, y.1.covers y.2 a = false) → t.mem.read a = s.mem.read a

/-- No byte of memory of this package changes outside the targets that the threads' stores landed on; `far` says that a
release may also have brought modified lines to memory that other packages lend, which stands below the vaults and above
every package's own (R344, R436; a line's key is below 2^45). -/
def KeptNear (far : Bool) (landed : List (Nat × List (Target × Nat))) (s t : State) : Prop :=
  ∀ a, (∀ x ∈ landed, ∀ y ∈ x.2, y.1.covers y.2 a = false) → ¬ (far = true ∧ 2 ^ 56 ≤ a ∧ (a < 2 ^ 62 ∨ ∃ x ∈ t.lease.lines, 2 ^ 45 ≤ x.1)) →
    t.mem.read a = s.mem.read a

/-- One thread's load: the checks of R204, then its bytes (R207); what its register still waited for is superseded (R20). -/
def Sw.loadAt (w : Sw) (amo byp : Bool) (low align : Nat) (s : State) (t : Nat) : Except Stop (State × W64) :=
  match loadBytes w s t amo byp [pLD] low align w.width with
  | .error e => .error e
  | .ok (s, bs, _) => .ok (s.onGroup w.gk (fun g => w.supersede g t), w.fill (BitVec.ofNat _ (leNat bs)))

/-- One thread's store: the checks of R204, then the low bytes of V[D] (R207); a release at scope q keeps the owner record
(R336). -/
def Sw.storeAt (w : Sw) (amo byp : Bool) (q low align : Nat) (s : State) (t : Nat) : Except Stop (State × List (Target × Nat)) :=
  match checkAccess s w.who (kindStore amo false) (w.capA t) 0 [pST] low align (w.ea t) w.width with
  | .error e => .error e
  | .ok (s, ts) =>
    .ok (releaseTo (writePieces w.who byp ts (w.ea t).toNat (leBytes (w.srcD t).toNat w.width) s) w.who q ts, ts)

/-- One thread's atomic: the checks of R204, the old value at the point of coherence, the new one written back (R216), as a
release at its scope (R218, R336). -/
def Sw.amoAt (w : Sw) (new : W64 → W64 → W64 → W64) (s : State) (t : Nat) :
    Except Stop (State × W64 × List (Target × Nat)) :=
  match checkAccess s w.who (kindAmo false) (w.capA t) 0 [pLD, pST, pATOM] 0 w.width (w.ea t) w.width with
  | .error e => .error e
  | .ok (s, ts) =>
    match readPieces w.who true ts (w.ea t).toNat s with
    | .error e => .error e
    | .ok (s, bs) =>
      let wide := isWide w.f.wc w.e.ty w.e.imm
      let second := w.v 2 t t (w.e.c.toNat + (if wide then 2 else 1)) wide
      let x := new (BitVec.ofNat 64 (leNat bs)) (w.srcC t) second
      .ok ((releaseTo (writePieces w.who false ts (w.ea t).toNat (leBytes x.toNat w.width) s) w.who (qScope w.e.imm) ts).onGroup
          w.gk (fun g => w.supersede g t),
        w.fill (BitVec.ofNat _ (leNat bs)), ts)

/-- The pending write of a capability: C[D] or GC[D − 32] (R200, R214). -/
def Sw.laterCap (w : Sw) (t : Nat) (c : Cap) : PWrite :=
  if w.e.d.toNat < 32 then .c t w.e.d.toNat c else .gc (w.e.d.toNat - 32) c

/-- The tag that a loaded granule keeps: set in tagged memory, the authority holding LDC, and not revoked (R214). -/
def Sw.kept (w : Sw) (s : State) (t : Nat) (bs : List Byte) (tag : Bool) : Cap :=
  revCheck s w.g.ids.asid (capSane (capOfBytes bs (tag && capHas (w.capA t) pLDC)))

/-- One thread's capability load (R214). -/
def Sw.ldcAt (w : Sw) (s : State) (t : Nat) : Except Stop (State × Cap) :=
  match loadBytes w s t false (qCache w.e.imm == 1) [pLD] 0 16 16 with
  | .error e => .error e
  | .ok (s1, bs, ts) =>
    .ok (s1, w.kept s1 t bs (match ts with
      | (x, _) :: _ => readPieceTag s1 w.who (qCache w.e.imm == 1) x (w.ea t).toNat
      | [] => false))

/-- One thread's store of a capability value: ST, STC where it is tagged, VLT where it is tagged without ROAM (R204,
R215). -/
def Sw.stcAt (w : Sw) (v : State → Cap) (s : State) (t : Nat) : Except Stop (State × List (Target × Nat)) :=
  let c := v s
  let perms := pST :: (if c.tag then (if capHas c pROAM then [pSTC] else [pSTC, pVLT]) else [])
  match checkAccess s w.who (kindStore false c.tag) (w.capA t) 0 perms 0 16 (w.ea t) 16 with
  | .error e => .error e
  | .ok (s, ts) =>
    .ok (match ts with | (x, _) :: _ => writeCapTo s w.who (qCache w.e.imm == 1) x (w.ea t).toNat c | [] => s, ts)

/-- One thread's store of a handle: whatever the handle, it is checked as the store of a tagged capability with ROAM (R258). -/
def Sw.sthAt (w : Sw) (v : Cap) (s : State) (t : Nat) : Except Stop (State × List (Target × Nat)) :=
  match checkAccess s w.who (kindStore false true) (w.capA t) 0 [pST, pSTC] 0 16 (w.ea t) 16 with
  | .error e => .error e
  | .ok (s, ts) =>
    .ok (match ts with | (x, _) :: _ => writeCapTo s w.who (qCache w.e.imm == 1) x (w.ea t).toNat v | [] => s, ts)

/-- One thread's capability atomic: `new` is stored where `cmp` is absent or equals the granule, tag for tag (R217), and the
atomic is a release at its scope (R218); an access has at least one piece. -/
def Sw.amocAt (w : Sw) (new : Nat → Cap) (cmp : Nat → Option Cap) (s : State) (t : Nat) :
    Except Stop (State × Cap × List (Target × Nat)) :=
  let c := revCheck s w.g.ids.asid (new t)
  let perms := [pLD, pST, pATOM] ++ (if c.tag then (if capHas c pROAM then [pSTC] else [pSTC, pVLT]) else [])
  match checkAccess s w.who (kindAmo c.tag) (w.capA t) 0 perms 0 16 (w.ea t) 16 with
  | .error e => .error e
  | .ok (_, []) => .error (stopAt cCAP_BOUNDS 0)
  | .ok (s, (x, n) :: ts) =>
    match readPieces w.who true ((x, n) :: ts) (w.ea t).toNat s with
    | .error e => .error e
    | .ok (s, bs) =>
      let tag := readPieceTag s w.who true x (w.ea t).toNat
      let same := match cmp t with
        | none => true
        | some k => decide (k.bits = BitVec.ofNat 128 (leNat bs) ∧ k.tag = tag)
      let s1 := if same then writeCapTo s w.who false x (w.ea t).toNat c else s
      let s1 := releaseTo s1 w.who (qScope w.e.imm) ((x, n) :: ts)
      .ok (s1, w.kept s1 t bs tag, if same then (x, n) :: ts else [])

end Sys2Proof.Machine
end

