-- ==== Sys2Proof/Certificates/Slice0/Obligations.lean ====
section
/-! DEFINITION. The statements for the provers: what the rules of the spec say of each instruction and of each step of
engines, supervisor cores and the fabric, over every state; the encoding; the step; reset and the invariant. -/

open Sys2Proof Sys2Proof.Machine

/-! ### Encoding -/

/-- Decoding the words of any encodable legal instruction gives it back, with every operand, and leaves the words that
follow (R106 to R111, R119, R124 to R131). -/
def Obligations.DecodeOfEncode : Prop :=
  ∀ (i : Instr) (rest : List W32), i.wf = true → encode i ≠ [] → decode (encode i ++ rest) = .ok (i, rest)

/-- Whatever the decoder reads is, word for word, what the encoder writes: no bit of an encoding is dropped and no two
encodings share an instruction (R106 to R111, R119, R124 to R131). The LEN field of the first word fixes the length:
4, 12, 12 or 20 bytes (R106); ILL alone is one word whatever it holds (R124). -/
def Obligations.EncodeOfDecode : Prop :=
  (∀ (ws rest : List W32) (i : Instr), decode ws = .ok (i, rest) → encode i ++ rest = ws) ∧
  (∀ (w : W32) (ws rest : List W32) (i : Instr), decode (w :: ws) = .ok (i, rest) → (∀ len r, i ≠ .ill len r) →
    let len := w.extractLsb' 0 2
    instrLen i = (if len = 0 then 4 else if len = 3 then 20 else 12) ∧ 4 * ((w :: ws).length - rest.length) = instrLen i)

/-- Words written out in the spec's own examples decode to the instructions they stand for. -/
def Obligations.WrittenWords : Prop :=
  -- R147: imad.n16.sat v6, v2, v3, v4 with v4 last read
  decode [0x01820C81, 0x80478411, 0x00000000] = .ok (.imad
    { u := false, d := 6, a := 2, b := 3, la := false, lb := false, c := 4, lc := true, pr := 7, pn := false, hold := 0,
      ty := 0x01, rnd := 0, sat := true, modA := 0, modB := 0, imm := 0, lit := none }, []) ∧
  -- R160: cvt.e4m3.f32.sat v7, v5, rounding to nearest, with v5 as its source
  decode [0x00050E91, 0x85070001, 0x11000000] = .ok (.cvt
    { u := false, d := 7, a := 5, b := 0, la := false, lb := false, c := 0, lc := false, pr := 7, pn := false, hold := 0,
      ty := 0x14, rnd := 0, sat := true, modA := 0, modB := 0, imm := 0x11, lit := none }, []) ∧
  -- R163: bfpenc.bfp11 v12, v8 with v8 last read
  decode [0x40081891, 0x08470004, 0x00000000] = .ok (.bfpenc
    { u := false, d := 12, a := 8, b := 0, la := true, lb := false, c := 0, lc := false, pr := 7, pn := false, hold := 0,
      ty := 0x21, rnd := 0, sat := false, modA := 0, modB := 0, imm := 0, lit := none }, []) ∧
  -- R253: mma over tile 2, formats in fmt
  decode [0x038300C9, 0x00070204, 0x01000000] = .ok (.mma
    { u := false, d := 0, a := 3, b := 7, la := false, lb := false, c := 2, lc := false, pr := 7, pn := false, hold := 0,
      ty := 0, rnd := 0, sat := false, modA := 0, modB := 0, imm := 1, lit := none }, []) ∧
  -- a clause header and a base form
  decode [0x22100900, 0x41820804] = .ok (.clauseHeader 0x009 1 2 2, [0x41820804]) ∧
  decode [0x41820804] = .ok (.iadd { u := false, d := 4, a := 2, b := 3, la := true, lb := false }, [])

/-! ### The step, reset and the invariant -/

/-- When the group that is to issue stands at words that decode to a legal instruction, a step runs exec of that
instruction, and, where the group did not stall, takes its issue into account (R11, R106, R119, R286); a step that an
engine or the fabric takes runs exec of its row; a package that is down, or held in reset by a failed boot, takes none
but its next cold boot (R458, R459). Where nothing is named from outside, internal steps come first, then the first
group that may issue in this clock; a clock passes when none can (log 7). A group issues at most once in a clock and a
partition four times (R288). The account and the clock change no memory and of a group only what the picker keeps
(R288, R289). -/
def Obligations.StepRunsDecoded : Prop :=
  (∀ (s : State) (k : Nat) (rest : List Input) (g : Group) (pc t : Nat) (ts : List Nat) (ws : List W32) (i : Instr),
    let s0 := { s with agenda := rest }
    stopped s = false → s.agenda = .run k :: rest → mayPick s0 k g = true → Stands s0 k g pc t ts ws i →
    step s = match runs s0 k g pc ts ws i with
      | .next s' => .next (if s'.group k = some g then s' else issued s0 s' k)
      | .fault f => .fault f
      | .refused r => .refused r) ∧
  (∀ (s s' : State) (k : Nat) (l : List Nat) (g : Group) (pc t : Nat) (ts : List Nat) (ws : List W32) (i : Instr),
    stopped s = false → s.agenda = [] → firstEvent s (events s) = none → readyOrder s = k :: l → Stands s k g pc t ts ws i →
    runs s k g pc ts ws i = .next s' → s'.group k ≠ s.group k → step s = .next (issued s s' k)) ∧
  (∀ (s s' : State), stopped s = false → s.agenda = [] → firstEvent s (events s) = some s' → step s = .next s') ∧
  (∀ s : State, stopped s = false → s.agenda = [] → firstEvent s (events s) = none → readyOrder s = [] →
    step s = .next (tick exec s)) ∧
  (∀ (s : State) (rest : List Input) (i : Instr), stopped s = false → s.agenda = .ev i :: rest → isEvent i = true →
    step s = exec i { s with agenda := rest }) ∧
  (∀ s : State, stopped s = true → s.agenda.head? ≠ some (.ev .coldBoot) → step s = .fault .packageDown) ∧
  (∀ (s : State) (k : Nat), k ∈ readyOrder s → ∃ g, s.group k = some g ∧ canIssue g = true ∧
    g.sched.issuedAt ≠ s.time.clock + 1 ∧
    let p := (s.core (coreOf k)).part (partOf k)
    p.pickAt = s.time.clock + 1 → p.picked < 4) ∧
  (∀ (s0 s : State) (k : Nat), Picked s (issued s0 s k) ∧ (issued s0 s k).time = s.time) ∧
  (∀ s : State, Picked s (tick exec s) ∧ (tick exec s).time.clock = s.time.clock + 1)

/-- What the spec says of the machine after cold boot, with memory in its canonical form (that every other table and queue
is empty, and world 0 live, is the model's choice, log 2): in every core each partition has its 448 general and 64
reserve rows (R40), every bin's timer is 4,096 clocks (R189), wp of every channel is 0 (R312) and no operation is in
flight; RVDONE and RFDONE are 0 (R104, R446); fabric time starts at 0 without SYNC (R441); no debug tier is open or
was (R457) and no hot reset is counted (R442); every byte of a vault reads zero and no tag is set (R299); no group,
team, unit or launch exists (R458); world 0 is Mydal's own and live, and every other slot is empty (R448). -/
def Obligations.ResetState : Prop :=
  State.reset.Inv ∧
  (∀ c, let k := State.reset.core c
    (∀ p, (k.part p).gen = 448 ∧ (k.part p).rsv = 64) ∧ (∀ b, k.binTimer b = 4096) ∧ (∀ ch, k.wpOf ch = 0 ∧ k.chan ch = []) ∧
    k.store.live = [] ∧ k.mx.queue = [] ∧ k.l1.lines = []) ∧
  State.reset.rev.done = 0 ∧ (∀ n, (State.reset.sys.port n).host.rfdone = 0) ∧
  State.reset.time.ftime = 0 ∧ State.reset.time.sync = false ∧
  State.reset.sys.tier = 0 ∧ State.reset.sys.tiers = 0 ∧ (∀ n, (State.reset.sys.port n).resets = 0) ∧
  (∀ c off, State.reset.mem.read (vaultHome c off) = 0 ∧ State.reset.mem.tag (vaultHome c off) = false) ∧
  State.reset.groups = [] ∧ State.reset.teams = [] ∧ State.reset.units = [] ∧ State.reset.launches = [] ∧
  (∀ w, (State.reset.keys.world w).st = if w = 0 then 2 else 0)

/-- Whatever a step answers, memory keeps its canonical form: addresses rise and no entry equals what an unlisted one
reads as. -/
def Obligations.StepKeepsInv : Prop := ∀ s t : State, s.Inv → step s = .next t → t.Inv

/-! ### Operands and arithmetic -/

/-- What a source of role v reads, nothing being pending: a literal, a group register, or the register of perm(t), in
pairs where TYPE is 64 bits wide; then abs and negate (R28, R29, R53, R58, R111, R112, R117, R143). The thread from
which a modified source is read: itself, a rotation or an exclusive-or within its segment, or one index of its segment
(R116, R117). -/
def Obligations.OperandForms : Prop :=
  (∀ (w : Sw) (t : Nat), w.g.pend = [] → w.held = none →
      let wide := isWide w.f.wa w.e.ty w.e.imm
      let V := fun (u r : Nat) => (w.g.thread u).vreg (isWin w.g r) r
      let G := fun (r : Nat) => w.g.greg r
      let a := w.e.a.toNat
      (∀ l, w.e.lit = some l → w.srcB t = l) ∧
      (w.f.m = .a ∨ w.f.m = .p →
        (w.e.u = true → w.srcA t = absNeg w.e.ty w.e.modA (G a)) ∧
        (w.e.u = false → modG w.e.modA = true →
          w.srcA t = absNeg w.e.ty w.e.modA (if wide then G a else ((G a).setWidth 32).setWidth 64)) ∧
        (w.e.u = false → modG w.e.modA = false →
          let u := perm w.e.modA t
          w.srcA t = absNeg w.e.ty w.e.modA (if wide then V u (a + 1) ++ V u a else (V u a).setWidth 64))) ∧
      (w.f.m = .no → w.e.u = false → w.srcA t = if wide then V t (a + 1) ++ V t a else (V t a).setWidth 64) ∧
      (∀ x, modClass w.e.modA = 0 → tyFloat w.e.ty = false →
        w.fill (w.bits (absNeg w.e.ty w.e.modA x)) =
          (let y := if w.e.modA.getLsbD 0 then BitVec.ofInt (tyWidth w.e.ty) (w.whole x).natAbs else w.bits x
           w.fill (if w.e.modA.getLsbD 1 then -y else y))) ∧
      (∀ x : W64, modClass w.e.modA ≠ 0 → absNeg w.e.ty w.e.modA x = x)) ∧
  (∀ (m : BitVec 12) (t : Nat), t < 256 → modOk .a .v false m = true →
      let seg := 2 ^ ((m.extractLsb' 7 3).toNat + 1)
      let d := (m.extractLsb' 0 7).toNat
      let first := t - t % seg
      (m.extractLsb' 10 2 = 0 → perm m t = t) ∧
      (m.extractLsb' 10 2 = 1 → d < seg ∧ perm m t = first + (t - first + d) % seg) ∧
      (m.extractLsb' 10 2 = 2 → d < seg ∧ perm m t = t ^^^ d) ∧
      (m.extractLsb' 10 2 = 3 → d < seg ∧ perm m t = first + d) ∧
      first ≤ perm m t ∧ perm m t < first + seg)

/-- Integer arithmetic: the exact sum, difference, product, fused product, lesser, greater, absolute value and negation,
narrowed to TYPE; the high half of a product (R146). Division: the quotient truncated toward zero, all ones by zero;
the remainder with the sign of a, a by zero (R147). -/
def Obligations.IntegerArithmetic : Prop :=
  (∀ (o : Base) (l : W64) (e : Ext),
      let A := fun (w : Sw) (t : Nat) => w.whole (w.srcA t)
      let B := fun (w : Sw) (t : Nat) => w.whole (w.srcB t)
      let C := fun (w : Sw) (t : Nat) => w.whole (w.srcC t)
      let add := fun (w : Sw) t => w.fit (A w t + B w t)
      let sub := fun (w : Sw) t => w.fit (A w t - B w t)
      let mul := fun (w : Sw) t => w.fit (A w t * B w t)
      let lesser := fun (w : Sw) t => (w.fill (BitVec.ofInt _ (min (A w t) (B w t))), (0 : Flags))
      let greater := fun (w : Sw) t => (w.fill (BitVec.ofInt _ (max (A w t) (B w t))), (0 : Flags))
      (Computes (.iadd o) add ∧ Computes (.iaddLit o l) add ∧ Computes (.iaddX e) add) ∧
      (Computes (.isub o) sub ∧ Computes (.isubLit o l) sub ∧ Computes (.isubX e) sub) ∧
      (Computes (.imul o) mul ∧ Computes (.imulLit o l) mul ∧ Computes (.imulX e) mul) ∧
      (Computes (.imin o) lesser ∧ Computes (.iminLit o l) lesser ∧ Computes (.iminX e) lesser) ∧
      (Computes (.imax o) greater ∧ Computes (.imaxLit o l) greater ∧ Computes (.imaxX e) greater) ∧
      Computes (.imad e) (fun w t => w.fit (A w t * B w t + C w t)) ∧
      Computes (.imulh e) (fun w t => (w.fill (BitVec.ofInt _ ((A w t * B w t) / 2 ^ tyWidth w.e.ty)), 0)) ∧
      Computes (.iabs e) (fun w t => w.fit |A w t|) ∧
      Computes (.ineg e) (fun w t => w.fit (-(A w t)))) ∧
  (∀ (e : Ext),
      let A := fun (w : Sw) (t : Nat) => w.whole (w.srcA t)
      let B := fun (w : Sw) (t : Nat) => w.whole (w.srcB t)
      (legal (.idiv e) = true ∨ legal (.irem e) = true → e.ty.toNat < 8) ∧
      Computes (.idiv e) (fun w t =>
        if B w t = 0 then (w.fill (BitVec.allOnes _), 0) else w.fit ((A w t).tdiv (B w t))) ∧
      Computes (.irem e) (fun w t =>
        (w.fill (BitVec.ofInt _ (if B w t = 0 then A w t else A w t - B w t * (A w t).tdiv (B w t))), 0)))

/-- Logic, shifts and the rotate work on the N-bit pattern of TYPE and raise no flag (R148). Counting and bit fields:
POPC, CLZ, BREV, BFE and BFI, bit by bit (R149). MOV and SEL copy bits; SEL's base forms choose by p0 (R150). ICMP
writes its condition, signed or unsigned as TYPE says; PSET, PSET_LEAD and the predicate logic write theirs (R151,
R174). -/
def Obligations.LogicMovesAndPredicates : Prop :=
  (∀ (o : Base) (l : W64) (e : Ext),
      let A := fun (w : Sw) (t : Nat) => w.bits (w.srcA t)
      let B := fun (w : Sw) (t : Nat) => w.bits (w.srcB t)
      let n := fun (w : Sw) (t : Nat) => shiftCount (w.srcB t)
      let band := fun (w : Sw) t => (w.fill (A w t &&& B w t), (0 : Flags))
      let bor := fun (w : Sw) t => (w.fill (A w t ||| B w t), (0 : Flags))
      let bxor := fun (w : Sw) t => (w.fill (A w t ^^^ B w t), (0 : Flags))
      let left := fun (w : Sw) t => (w.fill (A w t <<< n w t), (0 : Flags))
      let right := fun (w : Sw) t => (w.fill (A w t >>> n w t), (0 : Flags))
      let arith := fun (w : Sw) t => (w.fill ((A w t).sshiftRight (n w t)), (0 : Flags))
      (Computes (.andI o) band ∧ Computes (.andLit o l) band ∧ Computes (.andX e) band) ∧
      (Computes (.orI o) bor ∧ Computes (.orLit o l) bor ∧ Computes (.orX e) bor) ∧
      (Computes (.xorI o) bxor ∧ Computes (.xorLit o l) bxor ∧ Computes (.xorX e) bxor) ∧
      (Computes (.shl o) left ∧ Computes (.shlLit o l) left ∧ Computes (.shlX e) left) ∧
      (Computes (.shr o) right ∧ Computes (.shrLit o l) right ∧ Computes (.shrX e) right) ∧
      (Computes (.sar o) arith ∧ Computes (.sarLit o l) arith ∧ Computes (.sarX e) arith) ∧
      Computes (.andn e) (fun w t => (w.fill (A w t &&& ~~~ (B w t)), 0)) ∧
      Computes (.rol e) (fun w t => (w.fill ((A w t).rotateLeft (n w t % tyWidth w.e.ty)), 0))) ∧
  (∀ (e : Ext),
      let N := fun (w : Sw) => tyWidth w.e.ty
      let o := fun (w : Sw) (t : Nat) => ((w.srcB t).extractLsb' 0 8).toNat
      let k := fun (w : Sw) (t : Nat) => min ((w.srcB t).extractLsb' 8 8).toNat (N w - o w t)
      Computes (.popc e) (fun w t =>
        (BitVec.ofNat 64 ((List.range (N w)).filter (fun i => (w.srcA t).getLsbD i)).length, 0)) ∧
      Computes (.clz e) (fun w t =>
        (BitVec.ofNat 64 ((List.range (N w)).reverse.takeWhile (fun i => !(w.srcA t).getLsbD i)).length, 0)) ∧
      Computes (.brev e) (fun w t => (w.fill (w.bits (w.srcA t)).reverse, 0)) ∧
      Computes (.bfe e) (fun w t =>
        let f := (w.srcA t).extractLsb' (o w t) (k w t)
        (if tySigned w.e.ty then f.signExtend 64 else f.setWidth 64, 0)) ∧
      (∃ field : Sw → Nat → W64, Computes (.bfi e) (fun w t => (w.fill (w.bits (field w t)), 0)) ∧
        ∀ w t i, i < N w → (field w t).getLsbD i =
          if o w t ≤ i ∧ i < o w t + k w t then (w.srcA t).getLsbD (i - o w t) else (w.srcC t).getLsbD i)) ∧
  (∀ (o : Base) (l : W64) (e : Ext),
      let mov := fun (w : Sw) t => (w.fill (w.bits (w.srcB t)), (0 : Flags))
      let sel := fun (p : Nat) (w : Sw) t =>
        (w.fill (w.bits (if readP w.g w.base 7 t p then w.srcA t else w.srcB t)), (0 : Flags))
      (Computes (.mov o) mov ∧ Computes (.movLit o l) mov ∧ Computes (.movX e) mov) ∧
      (Computes (.sel o) (sel 0) ∧ Computes (.selLit o l) (sel 0)) ∧ Computes (.selX e) (sel e.c.toNat)) ∧
  (∀ (e : Ext),
      let A := fun (w : Sw) (t : Nat) => w.whole (w.srcA t)
      let B := fun (w : Sw) (t : Nat) => w.whole (w.srcB t)
      let pa := fun (w : Sw) (t : Nat) => readP w.g w.base 5 t e.a.toNat
      let pb := fun (w : Sw) (t : Nat) => readP w.g w.base 6 t e.b.toNat
      Decides (.icmp e) (fun w t =>
        (if e.imm = 0 then decide (A w t = B w t)
         else if e.imm = 1 then decide (A w t ≠ B w t)
         else if e.imm = 2 then decide (A w t < B w t)
         else if e.imm = 3 then decide (A w t ≤ B w t)
         else if e.imm = 4 then decide (A w t > B w t)
         else decide (A w t ≥ B w t), 0)) ∧
      Decides (.pset e) (fun w t => (decide (w.bits (w.srcA t) ≠ 0), 0)) ∧
      DecidesFirst (.psetLead e) (fun w t => (decide (w.all.find? w.on = some t), 0)) ∧
      Decides (.pand e) (fun w t => (pa w t && pb w t, 0)) ∧
      Decides (.por e) (fun w t => (pa w t || pb w t, 0)) ∧
      Decides (.pxor e) (fun w t => (pa w t != pb w t, 0)) ∧
      Decides (.pnot e) (fun w t => (!pa w t, 0)) ∧
      Decides (.pmov e) (fun w t => (pa w t, 0)))

/-! ### Floating point -/

/-- Rounding once, in every format (R55, R59, R62, R63, R66): unless the result overflows, it is the exact number rounded
to a multiple of the unit of its last place, the even one or the one away from zero at a tie as the mode says; NX says
whether they differ, and UF whether they differ and the number is tiny after rounding with an unbounded exponent.
Overflow (R55, R62 to R64): a result overflows when its magnitude, rounded with an unbounded exponent, exceeds the
largest finite number, under stochastic rounding when it exceeds it before it is rounded; it raises OF and NX; it is
the largest finite number with its sign with SAT, in a format without infinity and NaN, and on the side that toward
zero, down or up names, otherwise the infinity with its sign, and in .e4m3 NaN. -/
def Obligations.CorrectRounding : Prop :=
  (∀ m ∈ [fmt64, fmt32, fmtOf 0x12, fmtOf 0x13, fmtOf 0x14, fmtOf 0x15, fmtOf 0x16, fmtOf 0x17, fmtOf 0x18],
    ∀ (mode : RMode) (sat : Bool) (rho : BitVec 16) (x : Exact) (q : ℝ), x.Stands m q →
      let r := roundTo m mode sat rho x
      r.2.getLsbD 2 = false →
      let place : ℤ := (Nat.log2 x.m : ℤ) + x.e - m.f
      ∃ (n : ℕ) (e : ℤ), fdecode m r.1 = .fin x.neg n e ∧
        let v : ℝ := n * (2 : ℝ) ^ e
        Rounded mode x.neg rho ((2 : ℝ) ^ max place m.qmin) |q| v ∧
        (r.2.getLsbD 4 = true ↔ v ≠ |q|) ∧
        (r.2.getLsbD 3 = true ↔ v ≠ |q| ∧
          ∀ u, Rounded mode x.neg rho ((2 : ℝ) ^ place) |q| u → u < (2 : ℝ) ^ (m.qmin + m.f))) ∧
  (∀ mb ∈ ([(fmt64, (2 - 2 ^ (-52 : ℤ)) * 2 ^ 1023), (fmt32, (2 - 2 ^ (-23 : ℤ)) * 2 ^ 127), (fmtOf 0x12, 65504),
        (fmtOf 0x13, (2 - 2 ^ (-7 : ℤ)) * 2 ^ 127), (fmtOf 0x14, 448), (fmtOf 0x15, 57344), (fmtOf 0x16, 28), (fmtOf 0x17, 7.5),
        (fmtOf 0x18, 6)] : List (Fmt × ℝ)),
    ∀ (mode : RMode) (sat : Bool) (rho : BitVec 16) (x : Exact) (q : ℝ),
      let m := mb.1
      let big := mb.2
      x.Stands m q →
      let r := roundTo m mode sat rho x
      let place : ℤ := (Nat.log2 x.m : ℤ) + x.e - m.f
      (r.2.getLsbD 2 = true ↔
        if mode = .stochastic then big < |q| else ∃ u, Rounded mode x.neg rho ((2 : ℝ) ^ place) |q| u ∧ big < u) ∧
      (r.2.getLsbD 2 = true → r.2 = 0x14 ∧
        if sat = true ∨ m = fmtOf 0x16 ∨ m = fmtOf 0x17 ∨ m = fmtOf 0x18 ∨ mode = .towardZero ∨ (mode = .down ∧ x.neg = false) ∨
          (mode = .up ∧ x.neg = true)
        then ∃ (k : ℕ) (e : ℤ), fdecode m r.1 = .fin x.neg k e ∧ k * (2 : ℝ) ^ e = big
        else if m = fmtOf 0x14 then r.1 = 0x7F
        else fdecode m r.1 = .inf x.neg))

/-- Floating-point arithmetic on finite operands (R59, R152, R156, R157): a sum, product, fused product, quotient,
reciprocal and square root is the exact number rounded once; an exact zero has the sign of R152; division by zero and
the root of a negative number give what R157 says; FROUND gives the nearest integer under the mode, FFRACT the exact
fraction; powers of two and their logarithms, and the sine and cosine of zero, are exact. Conversions, dot products
and packing (R52, R72 to R74, R159 to R161): an integer or a finite number becomes the number of the destination's
format that rounding it once gives; a finite number becomes the integer nearest under the mode, or the limit of the
type with NV; to a block scale its exponent; integers narrow; IDP4 sums exactly and narrows; FDP2 rounds its sum once
to .f32; PACK, its result extended by zeros (log 72), and UNPK move elements. -/
def Obligations.ArithmeticValues : Prop :=
  (∀ m ∈ [fmt64, fmt32, fmtOf 0x12, fmtOf 0x13], ∀ (r : RCtx) (a b c : W64) (p q z : ℝ),
      m.Reads a p → m.Reads b q → m.Reads c z →
      let na := a.getLsbD (m.e + m.f)
      let nb := b.getLsbD (m.e + m.f)
      let nc := c.getLsbD (m.e + m.f)
      let down := decide (r.mode = .down)
      m.Reads (fneg m b) (-q) ∧
      (p + q ≠ 0 → RoundsOnce m r (p + q) (fadd m r a b)) ∧
      (p + q = 0 → p ≠ 0 ∨ na ≠ nb → fadd m r a b = (fpack m down 0, 0)) ∧
      (p = 0 → q = 0 → na = nb → fadd m r a b = (fpack m na 0, 0)) ∧
      (p * q ≠ 0 → RoundsOnce m r (p * q) (fmul m r a b)) ∧
      (p * q = 0 → fmul m r a b = (fpack m (na != nb) 0, 0)) ∧
      (p * q + z ≠ 0 → RoundsOnce m r (p * q + z) (ffma m r a b c)) ∧
      (p * q + z = 0 → z ≠ 0 ∨ (na != nb) ≠ nc → ffma m r a b c = (fpack m down 0, 0)) ∧
      (p * q = 0 → z = 0 → (na != nb) = nc → ffma m r a b c = (fpack m nc 0, 0)) ∧
      (p ≠ 0 → q ≠ 0 → RoundsOnce m r (p / q) (fdiv m r a b)) ∧
      (p ≠ 0 → q = 0 → fdiv m r a b = (fpack m (na != nb) m.infBits, fDZ)) ∧
      (p = 0 → q ≠ 0 → fdiv m r a b = (fpack m (na != nb) 0, 0)) ∧
      (p = 0 → q = 0 → fdiv m r a b = (BitVec.ofNat 64 m.nanBits, fNV)) ∧
      (p ≠ 0 → RoundsOnce m r (1 / p) (frcp m r a)) ∧ (p = 0 → frcp m r a = (fpack m na m.infBits, fDZ)) ∧
      (0 < p → RoundsOnce m r (Real.sqrt p) (fsqrt m r a) ∧ RoundsOnce m r (1 / Real.sqrt p) (frsq m r a)) ∧
      (p < 0 → fsqrt m r a = (BitVec.ofNat 64 m.nanBits, fNV) ∧ frsq m r a = (BitVec.ofNat 64 m.nanBits, fNV)) ∧
      (p = 0 → fsqrt m r a = (fpack m na 0, 0) ∧ frsq m r a = (fpack m na m.infBits, fDZ)) ∧
      (∃ v, m.Reads (fround m r a).1 (if na then -v else v) ∧ Rounded r.mode na r.rho 1 |p| v ∧
        (fround m r a).1.getLsbD (m.e + m.f) = na ∧ (fround m r a).2 = if v = |p| then 0 else fNX) ∧
      (m.Reads (ffract m a).1 (if na then -(|p| - ⌊|p|⌋) else |p| - ⌊|p|⌋) ∧ (ffract m a).2 = 0 ∧
        (ffract m a).1.getLsbD (m.e + m.f) = na) ∧
      (∀ i : ℤ, p = i → |i| < 4096 → RoundsOnce m r ((2 : ℝ) ^ i) (fexp2 m r a)) ∧
      (∀ i : ℤ, p = (2 : ℝ) ^ i → i ≠ 0 → RoundsOnce m r i (flog2 m r a)) ∧ (p = 1 → flog2 m r a = (0, 0)) ∧
      (p = 0 → flog2 m r a = (fpack m true m.infBits, fDZ) ∧ fsin m r a = (fpack m na 0, 0) ∧
        m.Reads (fcos m r a).1 1 ∧ (fcos m r a).2 = 0) ∧
      (p < 0 → flog2 m r a = (BitVec.ofNat 64 m.nanBits, fNV))) ∧
  (∀ (src dst t : BitVec 6) (r : RCtx) (sat : Bool) (a b c : W64),
      let n := tyWidth dst
      let sg := tySigned dst
      (∀ i : ℤ, tyInt src = true → i = toInt (tyWidth src) (tySigned src) a →
        (tyInt dst = true → cvtOp src dst r a = narrow n sg r.sat i) ∧
        (tyFloat dst = true → (i ≠ 0 → RoundsOnce (fmtOf dst) r i (cvtOp src dst r a)) ∧ (i = 0 → cvtOp src dst r a = (0, 0)))) ∧
      (∀ p, tyFloat src = true → (fmtOf src).Reads a p →
        (tyFloat dst = true → (p ≠ 0 → RoundsOnce (fmtOf dst) r p (cvtOp src dst r a)) ∧
          (p = 0 → cvtOp src dst r a = (fpack (fmtOf dst) (a.getLsbD ((fmtOf src).e + (fmtOf src).f)) 0, 0))) ∧
        (tyInt dst = true → ∃ k : ℕ, Rounded r.mode (decide (p < 0)) r.rho 1 |p| k ∧
          let i : ℤ := if p < 0 then -k else k
          cvtOp src dst r a =
            if i < intMin n sg then (extend n sg (ofInt (intMin n sg)), fNV)
            else if intMax n sg < i then (extend n sg (ofInt (intMax n sg)), fNV)
            else (extend n sg (ofInt i), if (k : ℝ) = |p| then 0 else fNX)) ∧
        (dst = 0x19 → (p = 0 → cvtOp src dst r a = (0, fNX)) ∧
          ∀ l : ℤ, (2 : ℝ) ^ l ≤ |p| → |p| < (2 : ℝ) ^ (l + 1) → cvtOp src dst r a =
            if 128 ≤ l then (0xFE, fOF ||| fNX) else if l < -127 then (0, fNX)
            else (ofInt (l + 127), if |p| = (2 : ℝ) ^ l then 0 else fNX))) ∧
      (src = 0x19 → tyFloat dst = true → a.toNat % 256 ≠ 255 →
        RoundsOnce (fmtOf dst) r ((2 : ℝ) ^ ((a.toNat % 256 : ℕ) - 127 : ℤ)) (cvtOp src dst r a)) ∧
      (src = 0x19 → dst = 0x19 → cvtOp src dst r a = ((a.setWidth 8).setWidth 64, 0)) ∧
      (∀ i, n ≤ 64 → 0 < n → intMin n sg ≤ i → i ≤ intMax n sg → toInt n sg (narrow n sg sat i).1 = i ∧ (narrow n sg sat i).2 = 0) ∧
      (let w := tyWidth t
        let el := fun (x : W64) (i : ℕ) => toInt w (tySigned t) (x >>> (w * i))
        idp4Op t sat a b c = narrow 32 (tySigned t) sat (toInt 32 (tySigned t) c +
          ((List.range (32 / w)).map (fun i => el a i * el b i)).sum)) ∧
      (∀ p0 p1 q0 q1 z : ℝ, let m := fmtOf t
        t = 0x12 ∨ t = 0x13 → m.Reads (a.setWidth 16 |>.setWidth 64) p0 → m.Reads (a.extractLsb' 16 16 |>.setWidth 64) p1 →
        m.Reads (b.setWidth 16 |>.setWidth 64) q0 → m.Reads (b.extractLsb' 16 16 |>.setWidth 64) q1 → fmt32.Reads c z →
        p0 * q0 + p1 * q1 + z ≠ 0 → RoundsOnce fmt32 r (p0 * q0 + p1 * q1 + z) (fdp2Op t r a b c)) ∧
      (let w := tyWidth t
        let k := 32 / w * w
        0 < w → w ≤ 16 → packOp t a b = (BitVec.ofNat 64 (b.toNat % 2 ^ k) >>> w) ||| (BitVec.ofNat 64 (a.toNat % 2 ^ w) <<< (k - w)) ∧
          ∀ i, unpkOp t i a = if tySigned t then ((a.extractLsb' (w * i) w).signExtend 64) else (a.extractLsb' (w * i) w).setWidth 64))

/-- The transcendental functions (R157, log 9): the digits that are rounded lie within 2^-400 of 2^a, as a part of it, and
of log₂ a, sin a and cos a, for every finite operand of the formats that they accept. -/
def Obligations.TranscendentalValues : Prop :=
  ∀ m ∈ [fmt32, fmtOf 0x12, fmtOf 0x13], ∀ (r : RCtx) (a : W64) (p : ℝ), m.Reads a p →
    let near := fun (y : W64 × Flags) (q tol : ℝ) => ∃ x : Exact, y = roundTo m r.mode r.sat r.rho x ∧
      |(if x.neg then -1 else 1) * x.m * (2 : ℝ) ^ x.e - q| ≤ tol
    (|p| < 4096 → near (fexp2 m r a) ((2 : ℝ) ^ p) ((2 : ℝ) ^ (p - 400))) ∧
    (0 < p → near (flog2 m r a) (Real.logb 2 p) ((2 : ℝ) ^ (-400 : ℤ))) ∧
    (p ≠ 0 → near (fsin m r a) (Real.sin p) ((2 : ℝ) ^ (-400 : ℤ)) ∧ near (fcos m r a) (Real.cos p) ((2 : ℝ) ^ (-400 : ℤ)))

/-- The immediate floating-point instructions complete with the operations of R152, R153, R155 and R156 on their operands,
rounded as RND or fpctl.RM says, and merge the flags raised. Whatever their operands hold, with no floating-point
exception enabled (R66, R67), the floating-point, packed, conversion, special-function and exchange instructions
complete (R143, R157, R176): exec answers a next state in which memory, other groups, other threads' registers and
every register but the destination, the marked ones and fpst are as they were, and the threads go on past the
instruction. -/
def Obligations.FloatingPointResults : Prop :=
  (∀ (o : Base) (l : W64) (e : Ext),
      let m := fun (w : Sw) => fmtOf w.e.ty
      let r := fun (w : Sw) (t : Nat) =>
        (⟨rmodeOf w.e.rnd (w.g.regs.fpctl.extractLsb' 0 3), w.e.sat, Config.draw (w.base + t * 512)⟩ : RCtx)
      let A := fun (w : Sw) (t : Nat) => w.srcA t
      let B := fun (w : Sw) (t : Nat) => w.srcB t
      let C := fun (w : Sw) (t : Nat) => w.srcC t
      let add := fun w t => fadd (m w) (r w t) (A w t) (B w t)
      let sub := fun w t => fadd (m w) (r w t) (A w t) (fneg (m w) (B w t))
      let mul := fun w t => fmul (m w) (r w t) (A w t) (B w t)
      let fma := fun w t => ffma (m w) (r w t) (A w t) (B w t) (C w t)
      let least := fun w t => fminmax (m w) false (A w t) (B w t)
      let most := fun w t => fminmax (m w) true (A w t) (B w t)
      (Computes (.fadd o) add ∧ Computes (.faddLit o l) add ∧ Computes (.faddX e) add) ∧
      (Computes (.fsub o) sub ∧ Computes (.fsubLit o l) sub ∧ Computes (.fsubX e) sub) ∧
      (Computes (.fmul o) mul ∧ Computes (.fmulLit o l) mul ∧ Computes (.fmulX e) mul) ∧
      (Computes (.ffma o) fma ∧ Computes (.ffmaLit o l) fma ∧ Computes (.ffmaX e) fma) ∧
      (Computes (.fmin o) least ∧ Computes (.fminLit o l) least ∧ Computes (.fminX e) least) ∧
      (Computes (.fmax o) most ∧ Computes (.fmaxLit o l) most ∧ Computes (.fmaxX e) most) ∧
      Decides (.fcmp e) (fun w t => fcmp (m w) e.imm (A w t) (B w t)) ∧
      Computes (.fclass e) (fun w t => (fclass (m w) (A w t), 0)) ∧
      Computes (.fround e) (fun w t => fround (m w) (r w t) (A w t)) ∧
      Computes (.ffract e) (fun w t => ffract (m w) (A w t))) ∧
  (∀ (o : Base) (l : W64) (e : Ext) (i : Instr),
      i ∈ [.fadd o, .faddLit o l, .faddX e, .fsub o, .fsubLit o l, .fsubX e, .fmul o, .fmulLit o l, .fmulX e, .ffma o,
        .ffmaLit o l, .ffmaX e, .fmin o, .fminLit o l, .fminX e, .fmax o, .fmaxLit o l, .fmaxX e, .fcmp e, .fclass e, .fround e,
        .ffract e, .hadd2 e, .hmul2 e, .hfma2 e, .idp4 e, .fdp2 e, .cvt e, .pack e, .unpk e, .frcp e, .frsq e, .fsqrt e, .fdiv e,
        .fexp2 e, .flog2 e, .fsin e, .fcos e, .bfpenc e, .prev e, .scan e, .segscan e, .nextI e, .red e, .vote e, .rank e,
        .compact e, .topk e] →
      ∀ s w, Ready i s w → fpEnabled w.g = 0 → ∃ t g', Finished i s w t g')

/-- NaN operands: the canonical NaN of the format whatever payloads and signs they carry, with NV where one signals; an
infinity less itself and zero times an infinity raise NV (R57, R69). The relations of a comparison (R154): equal and
ordered by value, −0 equal to +0, unordered with a NaN. The lesser and the greater of two operands, and the class of
one, in the types of R152 (R153, R155): by value, an infinity beyond every number and −0 below +0; the other operand
where one alone is a NaN; NV where one signals, and no other flag; of FCLASS the one bit that the table names. -/
def Obligations.NanAndOrderRules : Prop :=
  (∀ (m : Fmt) (r : RCtx) (a b : W64),
      let x := fdecode m a
      let y := fdecode m b
      let quiet := BitVec.ofNat 64 m.nanBits
      let sig : Flags := if isSig x || isSig y then 1 else 0
      (isNan x = true ∨ isNan y = true →
        fadd m r a b = (quiet, sig) ∧ fmul m r a b = (quiet, sig) ∧ fdiv m r a b = (quiet, sig)) ∧
      (∀ n, x = .inf n → y = .inf (!n) → fadd m r a b = (quiet, 1)) ∧
      (∀ n n' e, x = .inf n → y = .fin n' 0 e → fmul m r a b = (quiet, 1)) ∧
      (isNan x = true → isNan y = true → (fminmax m false a b).1 = quiet ∧ (fminmax m true a b).1 = quiet) ∧
      (isNan x = true → isNan y = false →
        (fminmax m false a b).1 = BitVec.ofNat 64 (b.toNat % 2 ^ m.width) ∧
        (fminmax m true a b).1 = BitVec.ofNat 64 (b.toNat % 2 ^ m.width))) ∧
  (∀ (m : Fmt) (c : BitVec 8) (a b : W64), m = fmt64 ∨ m = fmt32 ∨ m = fmtOf 0x12 ∨ m = fmtOf 0x13 → c.toNat < 16 →
      let x := fdecode m a
      let y := fdecode m b
      (isNan x = true ∨ isNan y = true →
        (fcmp m c a b).1 = decide (c.toNat % 8 = 1 ∨ c.toNat % 8 = 6) ∧
        (fcmp m c a b).2 = if isSig x ∨ isSig y ∨ 8 ≤ c.toNat then 1 else 0) ∧
      (∀ n p e n' p' e', x = .fin n p e → y = .fin n' p' e' →
        let va : ℚ := (if n then -1 else 1) * p * (2 : ℚ) ^ e
        let vb : ℚ := (if n' then -1 else 1) * p' * (2 : ℚ) ^ e'
        fcmp m c a b = (match c.toNat % 8 with
          | 0 => decide (va = vb) | 1 => decide (va ≠ vb) | 2 => decide (va < vb) | 3 => decide (va ≤ vb)
          | 4 => decide (vb < va) | 5 => decide (vb ≤ va) | 6 => false | _ => true, 0))) ∧
  (∀ (m : Fmt) (a b : W64), m = fmt64 ∨ m = fmt32 ∨ m = fmtOf 0x12 ∨ m = fmtOf 0x13 →
      let x := fdecode m a
      let y := fdecode m b
      let A := BitVec.ofNat 64 (a.toNat % 2 ^ m.width)
      let B := BitVec.ofNat 64 (b.toNat % 2 ^ m.width)
      let least := (fminmax m false a b).1
      let most := (fminmax m true a b).1
      (∀ k, (fminmax m k a b).2 = if isSig x ∨ isSig y then 1 else 0) ∧
      (isNan x = true → isNan y = true → least = BitVec.ofNat 64 m.nanBits ∧ most = BitVec.ofNat 64 m.nanBits) ∧
      (isNan x = true → isNan y = false → least = B ∧ most = B) ∧
      (isNan x = false → isNan y = true → least = A ∧ most = A) ∧
      (isNan x = false → isNan y = false →
        (x = .inf true ∨ y = .inf false → least = A ∧ most = B) ∧
        (x = .inf false ∨ y = .inf true → least = B ∧ most = A) ∧
        (∀ n k e n' k' e', x = .fin n k e → y = .fin n' k' e' →
          let va : ℚ := (if n then -1 else 1) * k * (2 : ℚ) ^ e
          let vb : ℚ := (if n' then -1 else 1) * k' * (2 : ℚ) ^ e'
          (va < vb → least = A ∧ most = B) ∧ (vb < va → least = B ∧ most = A) ∧
          (va = vb → (k ≠ 0 ∨ n = n' → A = B ∧ least = A ∧ most = A) ∧
            (k = 0 → n ≠ n' → least = fpack m true 0 ∧ most = 0)))) ∧
      (∀ n s, x = .nan n s → fclass m a = if s then 0x100 else 0x200) ∧
      (∀ n, x = .inf n → fclass m a = if n then 0x001 else 0x080) ∧
      (∀ n k e, x = .fin n k e → fclass m a =
        if k = 0 then (if n then 0x008 else 0x010)
        else if k * (2 : ℚ) ^ e < (2 : ℚ) ^ (m.qmin + m.f) then (if n then 0x004 else 0x020)
        else (if n then 0x002 else 0x040)))

/-- Packed, dot-product, conversion and packing instructions complete with the operations of R158 to R161; the two halves
of a packed operation draw and raise their flags separately. -/
def Obligations.PackedAndConversions : Prop :=
  ∀ (e : Ext),
    let m := fun (w : Sw) => fmtOf w.e.ty
    let r := fun (w : Sw) (t j : Nat) =>
      (⟨rmodeOf w.e.rnd (w.g.regs.fpctl.extractLsb' 0 3), w.e.sat, Config.draw (w.base + t * 512 + j)⟩ : RCtx)
    let half := fun (k : Nat) (x : W64) => (x.extractLsb' (16 * k) 16).setWidth 64
    let both := fun (f : Sw → Nat → RCtx → W64 × Flags) (w : Sw) (t : Nat) =>
      let lo := f w 0 (r w t 0)
      let hi := f w 1 (r w t 1)
      (((hi.1.setWidth 16 ++ lo.1.setWidth 16 : BitVec 32).setWidth 64, lo.2 ||| hi.2) : W64 × Flags)
    Computes (.hadd2 e) (fun w t => both (fun w k c => fadd (m w) c (half k (w.srcA t)) (half k (w.srcB t))) w t) ∧
    Computes (.hmul2 e) (fun w t => both (fun w k c => fmul (m w) c (half k (w.srcA t)) (half k (w.srcB t))) w t) ∧
    Computes (.hfma2 e) (fun w t =>
      both (fun w k c => ffma (m w) c (half k (w.srcA t)) (half k (w.srcB t)) (half k (w.srcC t))) w t) ∧
    Computes (.idp4 e) (fun w t => idp4Op w.e.ty w.e.sat (w.srcA t) (w.srcB t) (w.srcC t)) ∧
    Computes (.fdp2 e) (fun w t => fdp2Op w.e.ty (r w t 0) (w.srcA t) (w.srcB t) (w.srcC t)) ∧
    Computes (.cvt e) (fun w t => cvtOp (e.imm.extractLsb' 0 6) w.e.ty (r w t 0) (w.srcA t)) ∧
    Computes (.pack e) (fun w t => (packOp w.e.ty (w.srcA t) (w.srcB t), 0)) ∧
    Computes (.unpk e) (fun w t => (unpkOp w.e.ty e.imm.toNat (w.srcA t), 0))

/-- The special functions and BFPENC raise their flags when they issue and promise their results, which
LONG_LATENCY_COMPLETE writes (R157, R163, R164). A BFPENC that goes on after a stop keeps the inputs of its completed
threads, under 136 of what its record holds of them (log 71). -/
def Obligations.SpecialFunctionsPend : Prop :=
  ∀ (e : Ext),
    let m := fun (w : Sw) => fmtOf w.e.ty
    let r := fun (w : Sw) (t : Nat) =>
      (⟨rmodeOf w.e.rnd (w.g.regs.fpctl.extractLsb' 0 3), w.e.sat, Config.draw (w.base + t * 512)⟩ : RCtx)
    Promises (.frcp e) (fun w t => frcp (m w) (r w t) (w.srcA t)) ∧
    Promises (.frsq e) (fun w t => frsq (m w) (r w t) (w.srcA t)) ∧
    Promises (.fsqrt e) (fun w t => fsqrt (m w) (r w t) (w.srcA t)) ∧
    Promises (.fdiv e) (fun w t => fdiv (m w) (r w t) (w.srcA t) (w.srcB t)) ∧
    Promises (.fexp2 e) (fun w t => fexp2 (m w) (r w t) (w.srcA t)) ∧
    Promises (.flog2 e) (fun w t => flog2 (m w) (r w t) (w.srcA t)) ∧
    Promises (.fsin e) (fun w t => fsin (m w) (r w t) (w.srcA t)) ∧
    Promises (.fcos e) (fun w t => fcos (m w) (r w t) (w.srcA t)) ∧
    Promises (.bfpenc e) (fun w t =>
      let first := t - t % 16
      let bits := bfpBits w.e.ty
      let input := fun (u : Nat) => match w.held.bind (fun h => Tab.look h.snap u) with
        | some v => (Tab.lookD v 136 0).setWidth 64
        | none => if w.all.contains u && w.on u then w.srcA u else 0
      let block := bfpEncode bits ((List.range 16).map (fun j => input (first + j)))
      let words := if t % 16 < bfpWords w.e.ty then bfpBlockNat bits block / 2 ^ (32 * (t % 16)) % 2 ^ 32 else 0
      (BitVec.ofNat 64 words, bfpFlags bits block (t % 16) (input t)))

/-! ### Exchange through time -/

/-- PREV, SCAN and SEGSCAN give each participant the value of the nearest one below, or the running combination up to
itself or before itself, from what the registers held before the sweep (R175, R177, R179). A sweep that goes on after
a replay starts from the value its record carries in place of none (R183). The exchanges that wait promise each
participant: the value of the nearest one above; the combination of all, whose flags every one of them receives; a
vote; its rank; the selected values packed to the front; the greatest keys with their companions, whole under every
TYPE (log 56) (R176, R177, R180 to R182). -/
def Obligations.Exchanges : Prop :=
  (∀ (e : Ext),
      let value := fun (w : Sw) (u : Nat) => w.fill (w.bits (w.srcA u))
      let scan := fun (seg : Bool) (w : Sw) (t : Nat) =>
        let run := w.run seg t
        let before := run.dropLast
        let result := if e.imm.getLsbD 4 then w.combined before else w.combined run
        ((result.getD (scanId w), w.stepFlags before t) : W64 × Flags)
      ComputesFirst (.prev e) (fun w t =>
        (match (w.parts.filter (· < t)).getLast? with | some u => value w u | none => w.fill (w.bits (w.srcB t)), 0)) ∧
      Computes (.prev e) (fun w t =>
        (match (w.doers.filter (· < t)).getLast? with
         | some u => value w u
         | none => w.fill (w.bits ((Tab.look w.data0 0).getD (w.srcB t))), 0)) ∧
      ComputesFirst (.scan e) (scan false) ∧
      ComputesFirst (.segscan e) (scan true)) ∧
  (∀ (e : Ext),
      let value := fun (w : Sw) (u : Nat) => w.fill (w.bits (w.srcA u))
      let yes := fun (w : Sw) => w.parts.filter (fun u => readP w.g w.base 7 u e.c.toNat)
      let key := fun (w : Sw) (u : Nat) => if tyFloat w.e.ty then fkey (fmtOf w.e.ty) (w.srcA u) else w.whole (w.srcA u)
      let place := fun (w : Sw) (t : Nat) => (w.parts.filter (· < t)).length
      let flag := fun (b : Prop) [Decidable b] => if b then (1 : W64) else 0
      PromisesFirst (.nextI e) (fun w t =>
        (match (w.parts.filter (t < ·)).head? with | some u => value w u | none => w.fill (w.bits (w.srcB t)), 0)) ∧
      PromisesFirst (.red e) (fun w _ =>
        match w.parts.getLast? with
        | none => (0, 0)
        | some last =>
          let l := upToThread w.parts last
          ((w.combined l).getD 0,
            ((List.range l.length).map (fun k => w.stepFlags (l.take k) (l.getD k 0))).foldl (· ||| ·) 0)) ∧
      PromisesFirst (.vote e) (fun w t =>
        (match e.imm.toNat with
         | 0 => flag (yes w = w.parts)
         | 1 => flag (yes w ≠ [])
         | 2 => flag (yes w = w.parts ∨ yes w = [])
         | 3 => BitVec.ofNat 64 (yes w).length
         | _ => BitVec.ofNat 64 (((yes w).map (2 ^ ·)).sum / 2 ^ (32 * (t % 8)) % 2 ^ 32), 0)) ∧
      PromisesFirst (.rank e) (fun w t =>
        (BitVec.ofNat 64 (w.parts.filter (fun u => key w u < key w t ∨ (key w u = key w t ∧ u < t))).length, 0)) ∧
      PromisesFirst (.compact e) (fun w t =>
        (match (yes w)[place w t]? with | some u => value w u | none => 0, 0)) ∧
      (∀ s w, Ready (.topk e) s w → w.held = none → ∃ t g', Ran (.topk e) s w (Regs.freed w w.g.regs)
        (w.own false (w.doers.flatMap (fun t =>
          let ahead := fun (u : Nat) =>
            (w.parts.filter (fun v => key w u < key w v ∨ (key w v = key w u ∧ v < u))).length
          let chosen := if place w t ≤ e.imm.toNat then w.parts.find? (fun u => ahead u == place w t) else none
          match chosen with
          | some u => [.v t e.d.toNat ((value w u).setWidth 32), .v t (e.d.toNat + 1) ((w.srcB u).setWidth 32)]
          | none => [.v t e.d.toNat 0, .v t (e.d.toNat + 1) 0xFFFFFFFF]))) t g'))

/-! ### Capabilities -/

/-- Bounds of a capability: the address less its distance and the length, in units of 2^E; the unbounded root form; none
where malformed (R80, R83). -/
def Obligations.CapabilityBounds : Prop :=
  ∀ (addr : W64) (lm dm e : Nat) (lease : Bool) (otype : Nat) (perms : BitVec 16) (tag : Bool),
    lm < 2 ^ 15 → dm < 2 ^ 15 → e < 64 → otype < 256 →
    let c := capMk addr lm dm e lease otype perms tag
    let base := (addr.toNat / 2 ^ e - dm) * 2 ^ e
    capAddr c = addr ∧ capOtype c = otype ∧ capPerms c = perms ∧ capLease c = lease ∧ c.tag = tag ∧
    (e = 63 → capDecode c = if dm = 0 ∧ lm = 0 then some (0, 2 ^ 64) else none) ∧
    (e < 43 → capDecode c =
      if dm ≤ addr.toNat / 2 ^ e ∧ base + lm * 2 ^ e ≤ 2 ^ 64 then some (base, base + lm * 2 ^ e) else none) ∧
    (43 ≤ e → e < 63 → capDecode c = none)

/-- No derivation widens authority: a tagged result has a tagged, well-formed authority whose permissions and bounds
contain its own, and is well formed; only the sealing instructions change the object type (R81, R84, R85, R87, R92). -/
def Obligations.DerivationsAreMonotonic : Prop :=
  ∀ (c auth r : Cap) (a : Int) (n : Nat) (exact : Bool) (b : BitVec 16) (y : Nat) (pattern : BitVec 128),
    (c.tag = true → capWell c = true) →
    r = capSetAddr c a ∨ r = (capSetBounds c n exact).1 ∨ r = capDrop c b ∨ r = capMint c pattern ∨
      r = capWrap c auth y ∨ r = capUnwrap c auth ∨ r = capUntag c →
    r.tag = true →
      c.tag = true ∧ capWell r = true ∧ capPerms r &&& ~~~ capPerms c = 0 ∧ capBase c ≤ capBase r ∧ capTop r ≤ capTop c ∧
      (capOtype r = capOtype c ∨ (r = capWrap c auth y ∧ capOtype r = y ∧ auth.tag = true) ∨
        (r = capUnwrap c auth ∧ capOtype r = 0 ∧ auth.tag = true))

/-- The inspecting instructions write the fields of the capability, whatever it is; REFCHK and REFEQ write predicates;
TIME writes the fabric time of its issue, for every participant the same: what is left of a sweep that has stopped
goes on with it (R190, R225, R226). -/
def Obligations.InspectionResults : Prop :=
  ∀ (e : Ext),
    let c := fun (w : Sw) (t : Nat) => w.capA t
    Computes (.refadr e) (fun w t => (capAddr (c w t), 0)) ∧
    Computes (.refbase e) (fun w t =>
      (match capDecode (c w t) with | some (base, _) => BitVec.ofNat 64 base | none => 0, 0)) ∧
    Computes (.reflen e) (fun w t =>
      (match capDecode (c w t) with
       | some (base, top) => if top - base = 2 ^ 64 then BitVec.allOnes 64 else BitVec.ofNat 64 (top - base)
       | none => 0, 0)) ∧
    Computes (.refperm e) (fun w t => ((capPerms (c w t)).setWidth 64, 0)) ∧
    Computes (.reftype e) (fun w t =>
      (BitVec.ofNat 64 (capOtype (c w t) + 2 ^ 8 * ((c w t).bits.extractLsb' 100 4).toNat +
        (if (c w t).tag then 2 ^ 31 else 0)), 0)) ∧
    Computes (.refdiff e) (fun w t => (capAddr (c w t) - capAddr (w.capB t), 0)) ∧
    Decides (.refchk e) (fun w t => ((c w t).tag, 0)) ∧
    Decides (.refeq e) (fun w t => (decide ((c w t).bits = (w.capB t).bits ∧ (c w t).tag = (w.capB t).tag), 0)) ∧
    (∀ s w, Ready (.time e) s w → Completes (.time e) s w (Regs.freed w
      (Regs.computed w (fun _ => (w.held.bind (fun h => Tab.look h.data sampleKey)).getD (BitVec.ofNat 64 s.time.ftime)) (fun _ => 0)
        w.g.regs)))

/-- The deriving instructions write what R84, R85, R92, R227 and R228 give, tag and all; none of them stops, but for
REFNARX where it would round. REFNARX as REFNAR where the bounds are exact for every participant; where they are not,
the sweep stops at the first such thread with CAP_INEXACT, and that thread is the one its replay resumes at (R24, R85,
R227). -/
def Obligations.DerivationResults : Prop :=
  (∀ (e : Ext),
      let c := fun (w : Sw) (t : Nat) => w.capA t
      let plain := fun (f : Cap) => f.tag && capOtype f == 0
      Derives (.refseta e) (fun w t => capSetAddr (c w t) ((w.srcB t).toNat : Int)) ∧
      Derives (.refadd e) (fun w t => capSetAddr (c w t) (((capAddr (c w t)).toNat : Int) + w.offset t)) ∧
      Derives (.refnar e) (fun w t => (capSetBounds (c w t) (w.srcB t).toNat false).1) ∧
      Derives (.refdrop e) (fun w t =>
        let p := capPerms (c w t) &&& ~~~ ((w.srcB t).setWidth 16)
        ⟨p ++ (c w t).bits.extractLsb' 0 112, plain (c w t)⟩) ∧
      Derives (.refwrap e) (fun w t =>
        let s := w.capB t
        let y := e.imm.toNat
        ⟨(c w t).bits.extractLsb' 112 16 ++ e.imm ++ (c w t).bits.extractLsb' 0 104,
          plain (c w t) && plain s && capHas s pWRAP && decide (capBase s ≤ y ∧ y < capTop s) &&
            ([2, 3, 4, 6, 7].contains y || decide (16 ≤ y))⟩) ∧
      Derives (.refunwr e) (fun w t =>
        let s := w.capB t
        let y := capOtype (c w t)
        ⟨(c w t).bits.extractLsb' 112 16 ++ (0 : BitVec 8) ++ (c w t).bits.extractLsb' 0 104,
          (c w t).tag && plain s && capHas s pUNWRAP && decide (capBase s ≤ y ∧ y < capTop s) &&
            ([2, 3, 4, 6, 7].contains y || decide (16 ≤ y))⟩) ∧
      Derives (.refvoid e) (fun w t => ⟨(c w t).bits, false⟩) ∧
      Derives (.refmint e) (fun w t =>
        let r : Cap := ⟨mintPattern w t, true⟩
        ⟨r.bits, plain (c w t) && capOtype r == 0 && capWell r && (capPerms r &&& ~~~ capPerms (c w t)) == 0 &&
          decide (capBase (c w t) ≤ capBase r ∧ capTop r ≤ capTop (c w t))⟩) ∧
      Derives (.refmov e) c) ∧
  (∀ (e : Ext) (s : State) (w : Sw), Ready (.refnarx e) s w →
      let r := fun t => capSetBounds (w.capA t) (w.srcB t).toNat true
      ((∀ t ∈ w.doers, (r t).2 = false) → Completes (.refnarx e) s w (Regs.freed w (Regs.caps w (fun t => (r t).1) w.g.regs))) ∧
      (∀ t0, w.doers.find? (fun t => (r t).2) = some t0 → w.g.prog = none → Stops (.refnarx e) s w t0 ⟨cCAP_INEXACT, 0, 0, none⟩))

/-! ### Control flow -/

/-- A branch takes every thread whose predicate holds (and, for BRC, whose group register is not zero) to word 0 plus 4 ×
OFF and the others past the instruction; CALL leaves the return sentry in c31 (R110, R167, R169). -/
def Obligations.Branches : Prop :=
  ∀ (e : Ext) (s : State) (w : Sw),
    let there : Int := (w.iaddr : Int) + 4 * (e.modB ++ e.modA : BitVec 24).toInt
    let past : Int := ((w.iaddr + 12 : Nat) : Int)
    let code := fun (t : Nat) => (w.g.thread t).code
    let link := fun (t : Nat) => capWithOtype (capSetAddr (code t) past) 1
    let go := fun (take : Bool) (t : Nat) => capSetAddr (code t) (if w.on t && take then there else past)
    (Ready (.bra e) s w → Turns (.bra e) s w (Regs.freed w w.g.regs) (go true)) ∧
    (Ready (.brc e) s w → Turns (.brc e) s w (Regs.freed w w.g.regs) (go (w.gA != 0))) ∧
    (Ready (.call e) s w → Turns (.call e) s w (Regs.freed w (Regs.linked w link w.g.regs)) (go true))

/-- JMP and CALLR go to the address of a tagged capability with X that is unsealed or a call sentry and word-aligned,
which becomes the code capability unsealed; any other target stops at its thread. RET goes where a return sentry in
c31 says, and stops with RETURN_UNTAGGED or CAP_SEAL on anything else (R94, R167 to R170). -/
def Obligations.CapabilityJumps : Prop :=
  ∀ (e : Ext) (s : State) (w : Sw),
    let past : Int := ((w.iaddr + 12 : Nat) : Int)
    let code := fun (t : Nat) => (w.g.thread t).code
    let target := fun (t : Nat) => w.capA t
    let good := fun (c : Cap) => c.tag = true ∧ (capOtype c = 0 ∨ capOtype c = 2) ∧ capHas c pX = true ∧
      (capAddr c).toNat % 4 = 0
    let cause := fun (c : Cap) => if c.tag = false then cCAP_TAG
      else if capOtype c ≠ 0 ∧ capOtype c ≠ 2 then cCAP_SEAL else if capHas c pX = false then cCAP_PERM else cCAP_ALIGN
    let go := fun (dest : Nat → Cap) (t : Nat) => if w.on t then capWithOtype (dest t) 0 else capSetAddr (code t) past
    let link := fun (t : Nat) => readC w.g w.base 0 t 31
    (Ready (.jmp e) s w →
      ((∀ t ∈ w.doers, good (target t)) → Turns (.jmp e) s w (Regs.freed w w.g.regs) (go target)) ∧
      (∀ t0, w.doers.find? (fun t => !decide (good (target t))) = some t0 → w.g.prog = none →
        Stops (.jmp e) s w t0 ⟨cause (target t0), capAddr (target t0), 0, none⟩)) ∧
    (Ready (.callr e) s w →
      ((∀ t ∈ w.doers, good (target t)) → Turns (.callr e) s w
        (Regs.freed w (Regs.linked w (fun t => capWithOtype (capSetAddr (code t) past) 1) w.g.regs)) (go target)) ∧
      (∀ t0, w.doers.find? (fun t => !decide (good (target t))) = some t0 → w.g.prog = none →
        Stops (.callr e) s w t0 ⟨cause (target t0), capAddr (target t0), 0, none⟩)) ∧
    (Ready (.ret e) s w →
      ((∀ t ∈ w.doers, (link t).tag = true ∧ capOtype (link t) = 1) →
        Turns (.ret e) s w (Regs.freed w w.g.regs) (go link)) ∧
      (∀ t0, w.doers.find? (fun t => !((link t).tag && capOtype (link t) == 1)) = some t0 → w.g.prog = none →
        Stops (.ret e) s w t0 ⟨if (link t0).tag then cCAP_SEAL else cRETURN_UNTAGGED, 0, 0, none⟩))

/-- EXIT, YIELD, NOP and PREF: the participants exit, unless another thread waits at a barrier, at which EXIT stops with
BARRIER_ORPHANED at its first active thread (R186), or the engine program ends with success; the group stands back in
the picker's third step until rr has passed the other positions, or for 64 clocks; nothing happens; a line may come to
the vector L1, but with .byp, and no register, memory or other group changes (R172, R173, R224, R289). -/
def Obligations.ExitYieldNop : Prop :=
  ∀ (e : Ext) (s : State) (w : Sw),
    let old := fun u => (w.g.thread u).rest
    (Ready (.exit e) s w → w.g.prog = none → barWaits w.g w.parts = false →
      Acts (.exit e) s w w.g.rest (fun u => if w.parts.contains u then { old u with st := .exited, wait := .none } else old u)) ∧
    (Ready (.exit e) s w → w.g.prog = none → w.parts ≠ [] → barWaits w.g w.parts = true →
      Stops (.exit e) s w (w.all.headD 0) ⟨cBARRIER_ORPHANED, 0, 0, none⟩) ∧
    (∀ p, Ready (.exit e) s w → w.parts ≠ [] → w.g.prog = some p →
      Acts (.exit e) s w
        { w.g.rest with prog := some { p with outcome := some (p.outcome.getD 0x80000000) }, hold := .none }
        (fun u => { old u with st := .exited })) ∧
    (Ready (.yield e) s w →
      Acts (.yield e) s w { w.g.rest with sched := { w.g.sched with yieldUntil := s.time.clock + 64, yieldLeft := 16 } } old) ∧
    (Ready (.nop e) s w → Completes (.nop e) s w (Regs.freed w w.g.regs)) ∧
    (Ready (.pref e) s w → ∃ t g', Passed (.pref e) s w (Regs.freed w w.g.regs) [] w.g.rest t g' ∧ AccessFrame w s t ∧
      t.mem = s.mem ∧ (qCache e.imm = 1 → (t.core (coreOf w.gk)).l1 = (s.core (coreOf w.gk)).l1))

/-- BAR and BARC: every active thread waits at the barrier that IMM8 names, unless the group's waiting threads would then
stand at different barriers with none left to run: then the sweep stops with BARRIER_ORPHANED (R184, R186). AT holds
the group until fabric time G[A], SLEEP for G[A] [31:0] clocks; a time already past or a count of zero does not hold.
BINCFG sets the timer of a spawn bin, clamped to 64 to 65,536 clocks (R189, R191). -/
def Obligations.BarriersAndHolds : Prop :=
  (∀ (e : Ext) (s : State) (w : Sw),
      let wait := fun (k : WaitKind) (u : Nat) =>
        if w.all.contains u then (w.g.thread u).waits k e.imm.toNat else (w.g.thread u).rest
      let orphan := fun (k : WaitKind) => orphans (waitThreads w.g w.all k e.imm.toNat)
      let rest := { w.g.rest with sched := w.calm w.all }
      (Ready (.bar e) s w →
        (orphan .bar = false → Acts (.bar e) s w rest (wait .bar)) ∧
        (orphan .bar = true → w.g.prog = none → Stops (.bar e) s w (w.all.headD 0) ⟨cBARRIER_ORPHANED, 0, 0, none⟩)) ∧
      (Ready (.barc e) s w →
        (orphan .barc = false → Acts (.barc e) s w rest (wait .barc)) ∧
        (orphan .barc = true → w.g.prog = none → Stops (.barc e) s w (w.all.headD 0) ⟨cBARRIER_ORPHANED, 0, 0, none⟩))) ∧
  (∀ (e : Ext) (s : State) (w : Sw),
      let old := fun u => (w.g.thread u).rest
      let wait := fun (k : WaitKind) (u : Nat) => if w.all.contains u then (w.g.thread u).waits k 0 else old u
      let n := (w.gA.setWidth 32 : W32).toNat
      (Ready (.atI e) s w →
        Acts (.atI e) s w (if w.gA.toNat ≤ s.time.ftime then w.g.rest else { w.g.rest with hold := .at w.gA, sched := w.calm w.all })
          (if w.gA.toNat ≤ s.time.ftime then old else wait .atTime)) ∧
      (Ready (.sleep e) s w →
        Acts (.sleep e) s w (if n = 0 then w.g.rest else { w.g.rest with hold := .sleep (s.time.clock + n), sched := w.calm w.all })
          (if n = 0 then old else wait .sleep)) ∧
      (Ready (.bincfg e) s w → w.parts ≠ [] →
        ∃ t, exec (.bincfg e) s = .next t ∧ t.mem = s.mem ∧ (∀ k, k ≠ w.gk → t.group k = s.group k) ∧
          (∀ g', t.group w.gk = some g' → g'.regs = Regs.freed w w.g.regs ∧ g'.rest = w.g.rest) ∧
          ∀ c b, (t.core c).binTimer b =
            if c = coreOf w.gk ∧ b = e.imm.toNat then max 64 (min 65536 w.gA.toNat) else (s.core c).binTimer b))

/-- SYS sends one request with the participants' capabilities and values, which wait for its reply; TRAPCFG installs the
last participant's capability as the handler, or removes it with the null capability, and stops where it is no code
entry (R192, R194). -/
def Obligations.SystemRequests : Prop :=
  ∀ (e : Ext) (s : State) (w : Sw),
    let old := fun u => (w.g.thread u).rest
    (Ready (.sys e) s w → w.parts ≠ [] →
      ∃ t g' q, exec (.sys e) s = .next t ∧ t.elsewhere = State.elsewhere { s with sysq := s.sysq ++ [q] } ∧
        t.group w.gk = some g' ∧ g'.regs = Regs.freed w w.g.regs ∧ g'.rest = { w.g.rest with sched := w.calm w.parts } ∧
        (∀ k, k ≠ w.gk → t.group k = s.group k) ∧
        (∀ u, (g'.thread u).rest = if w.parts.contains u then (w.g.thread u).waits .sys 0 else old u) ∧
        q.gk = w.gk ∧ q.seq = w.seq ∧ q.service = e.imm.toNat ∧ q.parts = w.parts ∧ q.caps.map Prod.fst = w.parts ∧
        q.vals = w.parts.map (fun t => (t, (w.srcB t).setWidth 32)) ∧
        ∀ t c, (t, c) ∈ q.caps → t ∈ w.parts ∧ c.bits = (w.capA t).bits ∧
          (c.tag = true → (w.capA t).tag = true ∧ capHas (w.capA t) pSYS = true)) ∧
    (Ready (.sys e) s w → w.parts = [] → Acts (.sys e) s w w.g.rest old) ∧
    (Ready (.trapcfg e) s w → w.parts = [] → Acts (.trapcfg e) s w w.g.rest old) ∧
    (∀ u, Ready (.trapcfg e) s w → w.parts.getLast? = some u →
      let c := w.capA u
      (c = Cap.null → Acts (.trapcfg e) s w { w.g.rest with handler := Cap.null } old) ∧
      (c ≠ Cap.null → targetCheck c = none → 
        Acts (.trapcfg e) s w { w.g.rest with handler := revCheck s w.g.ids.asid c } old) ∧
      (∀ st, c ≠ Cap.null → targetCheck c = some st → w.g.prog = none → Stops (.trapcfg e) s w (w.all.headD 0) st))

/-- A clause header opens its clause: COUNT + 1 instructions from the next word on, with its two flags, and the threads
that stood at it go past it; while a flag of WAIT is set it waits and nothing changes, in trap mode but for what the
interrupted sweeps keep set (log 33); inside a clause, or with a reserved flag number, it is an illegal instruction
(R119, R120, R122, R123, R134). -/
def Obligations.ClauseHeaders : Prop :=
  ∀ (wait : BitVec 12) (set0 set1 n : BitVec 4) (s : State) (g : Group) (t0 : Nat),
    let i := Instr.clauseHeader wait set0 set1 n
    let w := sweepOf s s.focus g i bareForm bareExt
    s.group s.focus = some g → g.held = [] → g.drain = none → w.all.head? = some t0 → s.fetchStop = none →
    let ok := (set0.toNat < 12 ∨ set0 = 15) ∧ (set1.toNat < 12 ∨ set1 = 15) ∧ (set0 = 15 → set1 = 15)
    let saved := match g.trap with | some tr => tr.saved | none => []
    let set := fun f => wait.getLsbD f = true ∧ (saved.filter (fun h => h.flag == some f)).length < g.flagCount f
    (ok → g.clause = none → (∀ f, f < 12 → ¬ set f) →
      ∃ t g', exec i s = .next t ∧ t.elsewhere = s.elsewhere ∧ t.cores = s.cores ∧ t.group s.focus = some g' ∧
        (∀ k, k ≠ s.focus → t.group k = s.group k) ∧
        g'.clause = some ⟨w.iaddr + 4, n.toNat + 1, set0.toNat, set1.toNat, false, w.all⟩ ∧ g'.regs = g.regs ∧
        (∀ u, (g'.thread u).rest = (g.thread u).rest) ∧
        (∀ u, (g'.thread u).code =
          if u ∈ w.all then capSetAddr (g.thread u).code ((w.iaddr + 4 : Nat) : Int) else (g.thread u).code)) ∧
    (ok → g.clause = none → (∃ f, f < 12 ∧ set f) → exec i s = .next s) ∧
    (¬ ok ∨ g.clause.isSome = true → g.prog = none → Stops i s w t0 ⟨cILLEGAL, 0, 0, none⟩)

/-- Whatever encoded instruction is illegal by its fields, by its place in the clause or by trap mode stops at its first
active thread, in a replay the first not yet done, with ILLEGAL_INSTRUCTION and does nothing else: no vector register,
predicate, capability, group register, handle, FMT, FPCTL or fpst changes, no row is taken and nothing pending goes;
only where the handler is entered has the stopped thread a new tpc and an empty trap window; no other group and no
other core changes; and no byte of memory changes but in the event ring of the group's core, where its record enters
if the supervisor core takes the stop, behind records that waited for room (R24, R120, R121, R134, R135, R198, R360,
R365, R366). ILL stops at the first active thread with ILLEGAL_INSTRUCTION, and ends an engine program with status
0x0A (R124, R133, R135). -/
def Obligations.IllegalInstructionsStop : Prop :=
  (∀ (i : Instr) (s : State) (w : Sw) (t0 : Nat), sweepNow i s = some w → w.first = some t0 → w.g.prog = none → w.g.drain = none →
      (legal i && placeOk w.g i w.e) = false →
      Stops i s w t0 ⟨cILLEGAL, 0, 0, none⟩ ∧
        ∀ t, exec i s = .next t →
          let u := (s.core (coreOf w.gk)).sup
          let x := w.g.thread
          (∀ k, k ≠ w.gk → t.group k = s.group k) ∧ (∀ c, c ≠ coreOf w.gk → t.core c = s.core c) ∧
          (w.g.trap = none → w.g.handler.tag = true → t.mem = s.mem) ∧
          ((∀ r ∈ u.waiting, r.length ≤ 96) →
            ∀ a, a < u.evbase.toNat ∨ u.evbase.toNat + 96 * max (2 ^ u.evsize.toNat) (u.evhead + 1) ≤ a → t.mem.read a = s.mem.read a) ∧
          ∀ g', t.group w.gk = some g' →
            g'.regs = { w.g.regs with v := g'.regs.v, tpc := g'.regs.tpc } ∧ g'.mapped = w.g.mapped ∧ g'.pend = w.g.pend ∧
            g'.aband = w.g.aband ∧
            ∀ y, (g'.thread y).v = (x y).v ∧ (y ≠ t0 → (g'.thread y).w = (x y).w ∧ (g'.thread y).tpc = (x y).tpc)) ∧
  (∀ (len : BitVec 2) (rest : BitVec 24) (s : State) (g : Group) (t0 : Nat),
      let i := Instr.ill len rest
      let w := sweepOf s s.focus g i bareForm bareExt
      s.group s.focus = some g → g.drain = none → w.all.head? = some t0 →
      (g.prog = none → Stops i s w t0 ⟨cILLEGAL, 0, 0, none⟩) ∧
      (∀ p, g.prog = some p → ∃ t g', exec i s = .next t ∧ t.mem = s.mem ∧ t.group s.focus = some g' ∧
        g'.prog = some { p with outcome := some (p.outcome.getD 0x8000000A) } ∧ ∀ u, (g'.thread u).st = .exited))

/-! ### Exceptions and registers by number -/

/-- Taking an exception in a group with a handler: the trap registers hold the cause, the instruction, the threads and the
resume index; the clause and the held sweeps are kept; each thread named enters the handler with its own tpc and an
empty window, the others are held; eight rows are taken (R36, R346, R354). An exception that its cause sends to the
supervisor core, one in trap mode, and one without a handler park the group and reach the core's event ring as a
record; the group's threads and registers stand as they were; a PARK that is under way goes on (R354, R360, R365,
R370). A page that no agent may write keeps its bytes (R344, R453). -/
def Obligations.ExceptionEntry : Prop :=
  (∀ (s s2 : State) (k : Nat) (g : Group) (d : Delivery),
      s.group k = some g → g.trap = none → g.handler.tag = true → causeSup (d.tcause.extractLsb' 8 8) = false →
      takeWindow s k = some s2 →
      ∃ g', (takeException s k d).group k = some g' ∧ (takeException s k d).mem = s.mem ∧
        g'.trap = some ⟨d.tcause, d.tinst, d.tmask, d.tres, d.tpc, g.clause, g.held, []⟩ ∧ g'.clause = none ∧ g'.held = [] ∧
        g'.sup = g.sup ∧ g'.park = g.park ∧
        ∀ t x, Tab.look g.th t = some x →
          g'.thread t =
            if x.st = .exited then x
            else if t ∈ d.tmask then
              { x with kept := x.code, code := capWithOtype g.handler 0, tpc := d.tpc, w := [], st := .runnable }
            else { x with st := .held }) ∧
  (∀ (s : State) (k : Nat) (g : Group) (d : Delivery), s.group k = some g →
      (causeSup (d.tcause.extractLsb' 8 8) = true ∨ g.trap.isSome = true ∨ g.handler.tag = false) →
      let t := takeException s k d
      let u := ((s.core (coreOf k)).sup)
      ∃ g', t.group k = some g' ∧ g'.sup = some { d with inHandler := g.trap.isSome } ∧
        g'.park = (if g.park = .requested then .requested else .delivered) ∧
        g'.th = g.th ∧ g'.r = g.r ∧ g'.trap = g.trap ∧ g'.clause = g.clause ∧ g'.held = g.held ∧
        (∀ j, j ≠ k → t.group j = s.group j) ∧
        (u.waiting = [] → ringFull u.evsize u.evhead u.evtail = false →
          (t.core (coreOf k)).sup.int16 = true ∧
          (t.core (coreOf k)).sup.evhead = (u.evhead + 1) % 2 ^ u.evsize.toNat ∧
          (∀ a, a < u.evbase.toNat + 96 * u.evhead ∨ u.evbase.toNat + 96 * u.evhead + 96 ≤ a → t.mem.read a = s.mem.read a) ∧
          ((∀ a, a < 96 → pageKept s (u.evbase.toNat + 96 * u.evhead + a) = false) →
          t.mem.bytes (u.evbase.toNat + 96 * u.evhead) 18 =
            leBytes d.seq 8 ++ leBytes d.tcause.toNat 2 ++ leBytes d.tres 2 ++
              leBytes ((if g.trap.isSome then 1 else 0) + (if g.trap.isNone && g.handler.tag then 4 else 0)) 4 ++
              (leBytes (teamNum s g) 4).take 2)))

/-- TRAP completes the sweep and takes SOFTWARE_TRAP with its immediate for every participant: in the handler they resume
after it, tres says that no sweep is held (R25, R193, R346). -/
def Obligations.SoftwareTraps : Prop :=
  ∀ (e : Ext) (s : State) (w : Sw), Ready (.trap e) s w → w.g.prog = none →
    (w.parts = [] → Completes (.trap e) s w (Regs.freed w w.g.regs)) ∧
    (w.parts ≠ [] →
      ∃ t g', exec (.trap e) s = .next t ∧ t.group w.gk = some g' ∧ (∀ k, k ≠ w.gk → t.group k = s.group k) ∧
        let cause : BitVec 16 := (0x15 : BitVec 8) ++ e.imm
        let after := BitVec.ofNat 64 (w.iaddr + instrLen (.trap e))
        (w.g.handler.tag = true →
          (∃ d, g'.deliv = some d ∧ g'.trap = none ∧ d.tcause = cause ∧ d.tmask = w.parts ∧ d.tpc = after ∧ d.tres = 256) ∨
          (∃ tr, g'.trap = some tr ∧ t.mem = s.mem ∧ tr.tcause = cause ∧ tr.tmask = w.parts ∧ tr.tres = 256 ∧
            tr.saved = w.g.held.drop (if w.replay then 1 else 0) ∧
            ∀ u ∈ w.parts, (g'.thread u).tpc = after ∧ (g'.thread u).code = capWithOtype w.g.handler 0 ∧
              (g'.thread u).kept = w.codeAfter u ∧ (g'.thread u).st = .runnable)) ∧
        (w.g.handler.tag = false →
          ∃ d, g'.sup = some d ∧ g'.park = (if w.g.park = .requested then .requested else .delivered) ∧ d.tcause = cause ∧ d.tmask = w.parts ∧ d.tpc = after ∧ d.tres = 256))

/-- A sweep that raises an exception enabled in fpctl completes for every thread, results and flags written, and then
takes a trap for the threads that raised one, under U = 1 for every active thread, with the cause of highest priority:
tpc is past the instruction and tres says that no sweep is held. The group's handler takes it, or, where rows for its
window are short, it waits; without a handler, and in trap mode, it goes to the supervisor core. FADD stands for the
immediate operations (R25, R68, R70, R346, R359, R365). -/
def Obligations.SweepEndTraps : Prop :=
  ∀ (e : Ext) (s : State) (w : Sw), Ready (.faddX e) s w → w.dfl0 = 0 → (∀ p ∈ w.g.pend, p.seq ≠ w.seq) → w.g.prog = none →
    let r := fun t => fadd (fmtOf e.ty) (w.rctx t 0) (w.srcA t) (w.srcB t)
    let en := fun t => trapFlags w.g (r t).2
    let raised := w.doers.filter (fun t => en t != 0)
    let who := if e.u then w.all else raised
    let all := (w.doers.map en).foldl (· ||| ·) 0
    let cause : BitVec 8 := if all.getLsbD 0 then 0x10 else if all.getLsbD 1 then 0x11 else if all.getLsbD 2 then 0x12
      else if all.getLsbD 3 then 0x13 else 0x14
    let R := Regs.freed w (Regs.computed w (fun t => (r t).1) (fun t => (r t).2) w.g.regs)
    let after := BitVec.ofNat 64 (w.iaddr + instrLen (.faddX e))
    let named := fun d : Delivery => d.tcause = cause ++ (0 : BitVec 8) ∧ d.tmask = who ∧ d.tres = 256 ∧ d.tpc = after
    raised ≠ [] →
      ∃ t g', exec (.faddX e) s = .next t ∧ t.group w.gk = some g' ∧ (∀ k, k ≠ w.gk → t.group k = s.group k) ∧
        (w.g.trap.isSome = true ∨ w.g.handler.tag = false → g'.regs = R ∧ g'.trap = w.g.trap ∧
          g'.park = (if w.g.park = .requested then .requested else .delivered) ∧ ∃ d, g'.sup = some d ∧ named d) ∧
        (w.g.trap = none → w.g.handler.tag = true →
          (g'.regs = R ∧ g'.trap = none ∧ ∃ d, g'.deliv = some d ∧ named d) ∨
          (∃ tr, g'.trap = some tr ∧ t.mem = s.mem ∧ tr.tcause = cause ++ (0 : BitVec 8) ∧ tr.tmask = who ∧ tr.tres = 256 ∧
            tr.dtpc = after ∧ tr.saved = w.g.held.drop (if w.replay then 1 else 0) ∧
            g'.regs = { R with v := g'.regs.v, tpc := g'.regs.tpc } ∧ (∀ u r, Tab.lookD (g'.thread u).v r 0 = R.v u r) ∧
            ∀ u ∈ who, (g'.thread u).tpc = after ∧ (g'.thread u).code = capWithOtype w.g.handler 0 ∧
              (g'.thread u).kept = w.codeAfter u ∧ (g'.thread u).st = .runnable))

/-- ERET: the participants leave; while others of the handler's threads remain, they stay in trap mode; with the last the
group returns: each of its threads to its tpc under its own code capability, the others as they were, the clause and
the held sweeps as they stood, less those handler threads whose tpc is not the one delivered (R195, R346, R362). A
thread that waited before the trap waits again (log 22). -/
def Obligations.ExceptionReturn : Prop :=
  ∀ (e : Ext) (s : State) (w : Sw) (tr : Trap), Ready (.eret e) s w → w.g.trap = some tr →
    let moved := fun u => (w.g.thread u).tpc ≠ tr.dtpc
    let gone := fun u => u ∈ tr.left ∨ u ∈ w.parts ∨ (w.g.thread u).st = .exited
    ((∃ u ∈ tr.tmask, ¬ gone u) →
      ∃ left, (∀ u, u ∈ left ↔ u ∈ tr.left ∨ u ∈ w.parts) ∧
        Acts (.eret e) s w { w.g.rest with trap := some { tr with left := left } }
          (fun u => if u ∈ w.parts then { (w.g.thread u).rest with st := .held } else (w.g.thread u).rest)) ∧
    ((∀ u ∈ tr.tmask, gone u) →
      ∃ t g', exec (.eret e) s = .next t ∧ t.mem = s.mem ∧ t.group w.gk = some g' ∧
        (∀ k, k ≠ w.gk → t.group k = s.group k) ∧ g'.trap = none ∧ g'.ids.rsv = 0 ∧ g'.r.g = w.g.r.g ∧ g'.r.gc = w.g.r.gc ∧
        (∀ u, let x := w.g.thread u
          (u ∈ tr.tmask → x.st ≠ .exited →
            g'.thread u = { x with code := capSetAddr x.kept (x.tpc.toNat : Int), kept := Cap.null, w := [], st := .runnable, tpc := 0 }) ∧
          (u ∉ tr.tmask → u ∉ w.all → g'.thread u = if x.st = .exited then x else x.unhold)) ∧
        ((∀ h ∈ tr.saved, h.active ≠ []) → (∀ u ∈ tr.tmask, ¬ moved u) →
          g'.held = tr.saved ∧ (tr.saved ≠ [] → g'.clause = tr.clause)) ∧
        ∀ h' ∈ g'.held, ∃ h ∈ tr.saved, h'.seq = h.seq ∧ h'.res = h.res ∧
          ∀ u, u ∈ h'.active ↔ u ∈ h.active ∧ ¬ (u ∈ tr.tmask ∧ moved u))

/-- SREGR reads the special register that IMM8 names: the numbers of the thread, its group, its team and its cluster unit;
FMT, FPST, FPCTL, TPC; the trap registers, the 256 bits of TMASK in four of them; fabric time; the sweep's sequence
number; the launch's numbers of teams and of groups. What is not a thread's own is read once for every participant:
what is left of a sweep that has stopped goes on with it. SREGW writes FMT, FPST, FPCTL or TPC with their reserved
bits as R65 to R67 say; a per-group register ends with the last participant's value; a number that is reserved, read-
only, or a trap register outside trap mode is an illegal instruction (R37, R38, R197). RGET reads, and RSET writes,
the register of the handler's own thread that the index names: a vector register of the interrupted context, a
predicate, a word of a capability, or a tag, which can only be cleared; a first write of a vector register maps it
(R41, R196). -/
def Obligations.SpecialRegisters : Prop :=
  (∀ (e : Ext) (s : State) (w : Sw),
      let n := e.imm.toNat
      let low := fun t => (w.srcA t).setWidth 32
      let R := w.g.regs
      let last := fun (x : W32) => match w.doers.getLast? with | some t => low t | none => x
      let ctl := fun (x : W32) => match w.doers.getLast? with
        | some t => (low t &&& 0x1F0) ||| (if (low t).extractLsb' 0 3 = 6 ∨ (low t).extractLsb' 0 3 = 7 then 0 else low t &&& 7)
        | none => x
      let bad := fun (write : Bool) => n ≥ 0x13 ∨ (7 ≤ n ∧ n ≤ 0xE ∧ w.g.trap = none) ∨
        (write = true ∧ n ∉ [4, 5, 6, 7]) ∨ (e.u = true ∧ n ∈ [0, 5, 7])
      (Ready (.sregr e) s w → ¬ bad false →
        Completes (.sregr e) s w (Regs.freed w (Regs.computed w (fun t => if n ∈ [0, 5, 7] then sregRead s w t
          else (w.held.bind (fun h => Tab.look h.data sampleKey)).getD (sregRead s w 0)) (fun _ => 0) R))) ∧
      (n = 0 → sregRead s w 5 = 5) ∧ (n = 1 → sregRead s w 0 = BitVec.ofNat 64 w.g.ids.grp) ∧
      (∀ tm, Tab.look s.teams w.g.ids.team = some tm → (n = 2 → sregRead s w 0 = BitVec.ofNat 64 tm.num) ∧
        (∀ u, Tab.look s.units tm.unit = some u → n = 3 → sregRead s w 0 = BitVec.ofNat 64 (u.index % 256)) ∧
        (∀ l, Tab.look s.launches tm.launch = some l → (n = 17 → sregRead s w 0 = BitVec.ofNat 64 l.nteam) ∧
          (n = 18 → sregRead s w 0 = BitVec.ofNat 64 l.ngrp))) ∧
      (n = 4 → sregRead s w 0 = R.fmt.setWidth 64) ∧ (n = 5 → ∀ t, sregRead s w t = (R.fpst t).setWidth 64) ∧
      (n = 6 → sregRead s w 0 = R.fpctl.setWidth 64) ∧ (n = 7 → ∀ t, sregRead s w t = R.tpc t) ∧
      (∀ tr, w.g.trap = some tr → (n = 8 → sregRead s w 0 = tr.tcause.setWidth 64) ∧ (n = 9 → sregRead s w 0 = tr.tinst.setWidth 64) ∧
        (∀ k j, k < 4 → j < 64 → n = 10 + k → tr.tmask.Nodup → (sregRead s w 0).getLsbD j = decide (64 * k + j ∈ tr.tmask)) ∧
        (n = 14 → sregRead s w 0 = BitVec.ofNat 64 tr.tres)) ∧
      (n = 15 → sregRead s w 0 = BitVec.ofNat 64 s.time.ftime) ∧ (n = 16 → sregRead s w 0 = BitVec.ofNat 64 w.seq) ∧
      (Ready (.sregw e) s w → ¬ bad true →
        Completes (.sregw e) s w (Regs.freed w
          { R with
            fmt := if n = 4 then last R.fmt else R.fmt
            fpst := fun u => if n = 5 ∧ w.acts u = true then low u &&& 0x3F else R.fpst u
            fpctl := if n = 6 then ctl R.fpctl else R.fpctl
            tpc := fun u => if n = 7 ∧ w.acts u = true then w.srcA u else R.tpc u })) ∧
      (∀ t0, Ready (.sregr e) s w → bad false → w.first = some t0 → w.g.prog = none →
        Stops (.sregr e) s w t0 ⟨cILLEGAL, 0, 0, none⟩) ∧
      (∀ t0, Ready (.sregw e) s w → bad true → w.first = some t0 → w.g.prog = none →
        Stops (.sregw e) s w t0 ⟨cILLEGAL, 0, 0, none⟩)) ∧
  (∀ (e : Ext) (s : State) (w : Sw), w.g.pend = [] → rBlocked w = false →
      let ix := fun t => (w.srcA t).toNat % 512
      let y := fun t => (w.srcB t).setWidth 32
      let read := fun t =>
        let x := w.g.thread t
        if ix t < 0x80 then Tab.lookD x.v (ix t) 0
        else if ix t < 0x88 then (if ix t = 0x87 ∨ x.p.getLsbD (ix t - 0x80) = true then 1 else 0)
        else if 0x100 ≤ ix t ∧ ix t < 0x180 then (x.cap ((ix t - 0x100) / 4)).bits.extractLsb' (32 * (ix t % 4)) 32
        else if 0x180 ≤ ix t ∧ ix t < 0x1A0 then (if (x.cap (ix t - 0x180)).tag then 1 else 0)
        else (0 : W32)
      (Ready (.rget e) s w → (∀ t ∈ w.doers, ix t < 0x80 → KeySet.has w.g.aband (ix t * 256 + t) = false) →
        Completes (.rget e) s w (Regs.freed w (Regs.computed w (fun t => (read t).setWidth 64) (fun _ => 0) w.g.regs))) ∧
      (∀ s2, Ready (.rset e) s w → mapNumbers { s with ctr := s.ctr + ctrStep } w.gk (rsetRegs w) = .ok s2 → w.lastRead = [] →
        ∃ t g', exec (.rset e) s = .next t ∧ SweepFrame w s t ∧ t.group w.gk = some g' ∧
          (∀ r, KeySet.has g'.mapped r = true ↔ KeySet.has w.g.mapped r = true ∨ ∃ u, w.acts u = true ∧ ix u = r ∧ r < 0x80) ∧
          ∀ u, let x := w.g.thread u
            let x' := g'.thread u
            (∀ r, Tab.lookD x'.v r 0 = if w.acts u = true ∧ ix u < 0x80 ∧ r = ix u then y u else Tab.lookD x.v r 0) ∧
            (∀ n, x'.pred n = if w.acts u = true ∧ ix u = 0x80 + n ∧ n < 7 then (y u).getLsbD 0 else x.pred n) ∧
            (∀ r, (x'.cap r).tag =
              ((x.cap r).tag && !(w.acts u && ((decide (0x100 ≤ ix u ∧ ix u < 0x180) && decide ((ix u - 0x100) / 4 = r)) ||
                (decide (ix u = 0x180 + r ∧ r < 32) && !(y u).getLsbD 0))))) ∧
            (∀ r k, k < 4 → (x'.cap r).bits.extractLsb' (32 * k) 32 =
              if w.acts u = true ∧ r < 32 ∧ ix u = 0x100 + 4 * r + k then y u else (x.cap r).bits.extractLsb' (32 * k) 32)))

/-- SPAWN of one entry by every participant: the records join the bin that the entry's address names, in ascending thread,
each with its four values and its entry, checked while a revocation sweep runs (R103), and the timer runs from the
first of them. A bin that holds records of another team or entry forms its group first, and the bin that the 256th
record fills forms it then. Where that group cannot form, SPAWN_FULL stops the sweep at its thread; where another bin
of the core forms in this clock, the record waits for the next. A bad entry stops at its thread, those before it
having spawned (R168, R187 to R189, R285). -/
def Obligations.SpawnRecords : Prop :=
  ∀ (e : Ext) (s : State) (w : Sw), Ready (.spawn e) s w →
    let entry := fun t => w.capA t
    let core := coreOf w.gk
    let bin := fun n => (s.core core).bin n
    let recs := fun (ts : List Nat) => ts.map (fun t => (⟨revCheck s (asidOf s w.g.ids.team) (entry t),
      (List.range 4).map (fun j => w.vBefore 1 t t (e.b.toNat + j))⟩ : SpawnRec))
    let same := fun (n : Nat) (a : W64) => (bin n).recs = [] ∨ ((bin n).team = w.g.ids.team ∧ (bin n).entry = a)
    let spawned := fun (t : State) => t.mem = s.mem ∧
      ∀ g', t.group w.gk = some g' → g'.regs = Regs.freed w w.g.regs ∧ g'.rest = w.g.rest
    let clear := fun (n : Nat) => (s.core core).formed ≠ s.time.clock + 1 ∧
      ∀ m, m < n → (bin m).due = true ∨ 256 ≤ (bin m).recs.length → formBin s core m = none
    let forms := fun (team p pos : Nat) => ∃ tm l, Tab.look s.teams team = some tm ∧ tm.placed = true ∧
      Tab.look s.launches tm.launch = some l ∧ choosePart s core = some p ∧ (freePositions s core p).head? = some pos ∧
      positionFree s core = true ∧ (teamGroups s team).length < 64 ∧ 4 ≤ l.rows ∧ 4 ≤ ((s.core core).part p).gen
    (∀ a : W64, (∀ t ∈ w.doers, targetCheck (entry t) = none ∧ capAddr (entry t) = a) →
      let n := a.toNat / 4 % 16
      let b := bin n
      let start := s.time.clock + (s.core core).binTimer n
      w.doers ≠ [] →
      (same n a → b.recs.length + w.doers.length < 256 →
        ∃ t, exec (.spawn e) s = .next t ∧ spawned t ∧ (∀ k, k ≠ w.gk → t.group k = s.group k) ∧
          ((t.core core).bin n).recs = b.recs ++ recs w.doers ∧ ((t.core core).bin n).team = w.g.ids.team ∧
          ((t.core core).bin n).entry = a ∧ ((t.core core).bin n).deadline = (if b.recs = [] then start else b.deadline) ∧
          ∀ m, m ≠ n → (t.core core).bin m = bin m) ∧
      (∀ p pos, same n a → b.recs.length + w.doers.length = 256 → clear n → forms w.g.ids.team p pos →
        ∃ t g, exec (.spawn e) s = .next t ∧ spawned t ∧ ((t.core core).bin n).recs = [] ∧
          t.group (core * 256 + pos) = some g ∧ g.ids.team = w.g.ids.team ∧
          ∀ i x, (b.recs ++ recs w.doers)[i]? = some x → g.thread i = newThread x.entry x.args) ∧
      (∀ p pos, ¬ same n a → w.doers.length < 256 → clear n → forms b.team p pos →
        ∃ t g, exec (.spawn e) s = .next t ∧ spawned t ∧ t.group (core * 256 + pos) = some g ∧ g.ids.team = b.team ∧
          (∀ i x, b.recs[i]? = some x → g.thread i = newThread x.entry x.args) ∧
          ((t.core core).bin n).recs = recs w.doers ∧ ((t.core core).bin n).team = w.g.ids.team ∧
          ((t.core core).bin n).entry = a ∧ ((t.core core).bin n).deadline = start) ∧
      (¬ same n a ∨ 256 ≤ b.recs.length →
        (∀ t0, formBin s core n = none → w.doers.head? = some t0 → w.g.prog = none →
          Stops (.spawn e) s w t0 ⟨cSPAWN_FULL, 0, 0, none⟩) ∧
        (formBin s core n ≠ none → (s.core core).formed = s.time.clock + 1 → w.doers.head? = w.todo.head? →
          ∃ t, exec (.spawn e) s = .next t ∧ t.groups = s.groups ∧ t.mem = s.mem ∧ (t.core core).bin n = { b with due := true }))) ∧
    (∀ t0 st, w.doers.head? = some t0 → targetCheck (entry t0) = some st → w.g.prog = none → Stops (.spawn e) s w t0 st) ∧
    (∀ (a : W64) t0 st, t0 ∈ w.doers → targetCheck (entry t0) = some st → w.g.prog = none →
      let ts := w.doers.takeWhile (· != t0)
      let n := a.toNat / 4 % 16
      (∀ t ∈ ts, targetCheck (entry t) = none ∧ capAddr (entry t) = a) → same n a → (bin n).recs.length + ts.length < 256 →
        Stops (.spawn e) s w t0 st ∧ ∀ t, exec (.spawn e) s = .next t → ((t.core core).bin n).recs = (bin n).recs ++ recs ts)

/-! ### Memory -/

/-- Bytes written are read back and no other byte changes; the tags of the granules touched clear, and only theirs; a unit
written whole is no longer marked; a capability write sets or clears its granule's tag (R96, R97, R305). What accesses
find and leave at their targets: a vault's bytes; package memory at its point of coherence, where no borrower of ours
has modified it, as the world's key opens it; and after a store the bytes stored, which from then on the storing
world's key opens and no other does (R207, R209, R213, R378, R451). -/
def Obligations.MemoryWrites : Prop :=
  (∀ (m : Memory) (a : Nat) (bs : List Byte), m.wf = true →
      (∀ x, (m.write a bs).read x = if a ≤ x ∧ x < a + bs.length then bs.getD (x - a) 0 else m.read x) ∧
      (∀ x, (m.write a bs).tag x =
        (m.tag x && !decide (bs ≠ [] ∧ a / 16 ≤ x / 16 ∧ x / 16 ≤ (a + bs.length - 1) / 16))) ∧
      (∀ u, KeySet.has (m.write a bs).errs u =
        (KeySet.has m.errs u && !decide (bs ≠ [] ∧ a ≤ 64 * u ∧ 64 * u + 64 ≤ a + bs.length))) ∧
      (∀ (b : Bool), a % 16 = 0 → bs.length = 16 →
        (∀ x, (m.writeCap a bs b).read x = (m.write a bs).read x) ∧
        ∀ x, (m.writeCap a bs b).tag x = if x / 16 = a / 16 then b else m.tag x) ∧
      (m.write a bs).wf = true ∧ ∀ b, (m.writeCap a bs b).wf = true) ∧
  (∀ (s : State) (who : Who) (byp : Bool) (va : Nat) (bs : List Byte) (a : Nat),
      (∀ h n, s.mem.err h n = none → readPiece s who byp (.vault h) va n = .ok (s, s.mem.bytes h n)) ∧
      (∀ pa n, 0 < n → (∀ i, i < n → isLease (pa + i) = false ∧ farData s (pa + i) = none) → s.mem.err pa n = none →
        readPiece s who true (.phys pa) va n =
          .ok (snoopFor s pa n false, openBytes (snoopFor s pa n false) (keyOf s who.asid) pa (s.mem.bytes pa n))) ∧
      (∀ key pa, opens s key pa bs.length = true → openBytes s key pa bs = bs) ∧
      (∀ pa key, a < 2 ^ 53 → pa ≤ a → a < pa + bs.length →
        (opensByte (writePiece s who byp (.phys pa) va bs) key a = true ↔ keyOf s who.asid = 0 ∨ keyOf s who.asid = key)) ∧
      (∀ h n u, s.mem.err h n = some u →
        ∃ st, readPiece s who byp (.vault h) va n = .error st ∧ st.cause = cMEMORY_ERROR) ∧
      (∀ n i, i < n → (s.mem.bytes a n).getD i 0 = s.mem.read (a + i)) ∧
      (∀ h, (writePiece s who byp (.vault h) va bs).mem = s.mem.write h bs) ∧
      (∀ pa, isLease pa = false → (writePiece s who byp (.phys pa) va bs).mem = s.mem.write pa bs) ∧
      (∀ h, (writePiece s who byp (.vault h) va bs).mem.read a =
        if h ≤ a ∧ a < h + bs.length then bs.getD (a - h) 0 else s.mem.read a) ∧
      (∀ n, n ≤ 8 → ∀ x : W64, BitVec.ofNat (8 * n) (leNat (leBytes x.toNat n)) = x.setWidth (8 * n)))

/-- The checks of one access, in their order: the first that fails gives the cause (R204, rows 1 to 5; rows 6 to 10 for an
access that lies in one line, R210, R411, R412, R435). One that passes may still wait for another package (log 42),
and the CAP_ALIGN of a device comes after rows 6 to 8 (log 73). Where some participant's access fails a check, the
sweep stops at the first such thread with that check's cause; the threads below it have made their accesses (R24,
R204, R205). A panel's own checks come before those of its elements, an AON load checks every element before it reads
one, and an AON store every element before it stores one (R220 to R222). Accesses to vault SRAM complete on conditions
on the state alone: for every thread that acts, an unsealed tagged authority with VLT and the permissions of the
access, bounds that hold it, its alignment, a window of its unit that holds it, and no unit there with an
uncorrectable error. A load promises the bytes there, a store writes its low bytes there (R204, R207, R214 to R217,
R220, R298). -/
def Obligations.AccessChecks : Prop :=
  (∀ (s : State) (who : Who) (k : Kind) (c : Cap) (perms : List Nat) (align n : Nat) (ea : Int), 0 < n →
      let fails := fun (x : Except Stop (State × List (Target × Nat))) (cause : Cause) =>
        ∃ st : Stop, x = .error st ∧ st.cause = cause ∧ st.faddr = BitVec.ofInt 64 ea
      let r := checkAccess s who k c 0 perms 0 align ea n
      let inside := ∃ b t : Nat, capDecode c = some (b, t) ∧ (b : Int) ≤ ea ∧ ea + n ≤ t
      (c.tag = false → fails r cCAP_TAG) ∧
      (c.tag = true → capOtype c ≠ 0 → fails r cCAP_SEAL) ∧
      (c.tag = true → capOtype c = 0 → (∃ p ∈ perms, capHas c p = false) → fails r cCAP_PERM) ∧
      (c.tag = true → capOtype c = 0 → (∀ p ∈ perms, capHas c p = true) →
        (¬ inside → fails r cCAP_BOUNDS) ∧
        (inside → ea.toNat % align ≠ 0 → fails r cCAP_ALIGN) ∧
        (inside → ea.toNat % align = 0 →
          (capHas c pVLT = true →
            (vaultUnit s who.team ea.toNat n = none → fails r cVAULT_RANGE) ∧
            (∀ h, vaultUnit s who.team ea.toNat n = some h → r = .ok (s, [(.vault h, n)]))) ∧
          (capHas c pVLT = false → k.direct = true → ea.toNat % 128 + n ≤ 128 →
            (∀ cause, translate s who ea.toNat k.need = .error cause → fails r cause) ∧
            (∀ s1 x, translate s who ea.toNat k.need = .ok (s1, x) →
              let bar := k.need.w && writeBarred s1 x.pa
              (bar = true → fails r cPAGE_PERM) ∧
              (bar = false → x.io = true → (capHas c pMMIO = false ∨ k.amo = true) → fails r cCAP_PERM) ∧
              (bar = false → x.io = true → capHas c pMMIO = true → k.amo = false → ea.toNat % n ≠ 0 → fails r cCAP_ALIGN) ∧
              (bar = false → (x.io = false ∨ (capHas c pMMIO = true ∧ k.amo = false ∧ ea.toNat % n = 0)) →
                (∀ cause, leaseCheck s1 x.pa = some cause → fails r cause) ∧
                (leaseCheck s1 x.pa = none →
                  (k.tagStore = true → (x.io = true ∨ paTagged s1 x.pa = false) → fails r cCAP_UNTAGGED) ∧
                  (k.tagStore = false ∨ (x.io = false ∧ paTagged s1 x.pa = true) →
                    (awaitOf s1 who.core who.asid x.pa k.need.w ≠ none → fails r cWAIT) ∧
                    (awaitOf s1 who.core who.asid x.pa k.need.w = none →
                      r = .ok (s1, [(if x.io = true ∨ isMmio x.pa = true then .dev x.pa else .phys x.pa, n)])))))))))) ∧
  (∀ (o : Base) (l : W64) (e : Ext) (s : State) (w : Sw) (t0 : Nat) (st : Stop), w.g.prog = none →
      let stops := fun {α : Type} (i : Instr) (f : State → Nat → Except Stop (State × α)) =>
        Ready i s w → firstToStop f w.doers (w.begun s) = some (t0, st) → st.cause ≠ cWAIT → Stops i s w t0 st
      let byp := qCache e.imm == 1
      let panel := fun {α : Type} (i : Instr) (store : Bool) (f : State → Nat → Except Stop (State × α)) =>
        Ready i s w → w.parts ≠ [] → st.cause ≠ cWAIT →
          (w.todo.length = w.all.length → w.all.head? = some t0 → panelCheck w (w.begun s) store t0 = .error st → Stops i s w t0 st) ∧
          ∀ s1 t1, w.all.head? = some t1 →
            (if w.todo.length = w.all.length then panelCheck w (w.begun s) store t1 = .ok s1 else s1 = w.begun s) →
            firstToStop f w.doers s1 = some (t0, st) → Stops i s w t0 st
      let amo := fun (i : Instr) (new : W64 → W64 → W64 → W64) => stops i (w.amoAt new)
      stops (.ldw o) (w.loadAt false false 0 1) ∧ stops (.ldwLit o l) (w.loadAt false false 0 1) ∧
      stops (.ld e) (w.loadAt false byp 0 1) ∧
      stops (.lda e) (w.loadAt false (decide (2 ≤ qScope e.imm) || qRem e.imm) 0 w.width) ∧
      stops (.stw o) (w.storeAt false false 0 0 1) ∧ stops (.stwLit o l) (w.storeAt false false 0 0 1) ∧
      stops (.st e) (w.storeAt false byp 0 0 1) ∧ stops (.stl e) (w.storeAt false false (qScope e.imm) 0 w.width) ∧
      stops (.ldc e) w.ldcAt ∧
      stops (.stc e) (fun s t => w.stcAt (fun s => revCheck s w.g.ids.asid (w.capD t)) s t) ∧
      amo (.amoAdd e) (fun old v _ => if tyFloat w.e.ty then (fadd (fmtOf w.e.ty) ⟨.nearestEven, false, 0⟩ old v).1 else old + v) ∧
      amo (.amoAnd e) (fun old v _ => old &&& v) ∧ amo (.amoOr e) (fun old v _ => old ||| v) ∧
      amo (.amoXor e) (fun old v _ => old ^^^ v) ∧
      amo (.amoMin e) (fun old v _ => if tyFloat w.e.ty then (fminmax (fmtOf w.e.ty) false old v).1
        else if w.whole old ≤ w.whole v then old else v) ∧
      amo (.amoMax e) (fun old v _ => if tyFloat w.e.ty then (fminmax (fmtOf w.e.ty) true old v).1
        else if w.whole v < w.whole old then old else v) ∧
      amo (.amoSwap e) (fun _ v _ => v) ∧ amo (.amoCas e) (fun old v second => if w.bits old = w.bits v then second else old) ∧
      stops (.amocSwap e) (w.amocAt w.capC (fun _ => none)) ∧ stops (.amocCas e) (w.amocAt w.capC1 (fun t => some (w.capC t))) ∧
      stops (.sth e) (w.sthAt (match readH w.g w.base e.c.toNat with | some x => capMk x 0 0 0 false 5 0x0040 true | none => Cap.null)) ∧
      stops (.ldh e) w.ldcAt ∧
      panel (.tld e) false (fun s t => if qAon e.imm
        then (match loadBytes w s t true byp [pLD] 16 w.width w.width with | .error e => .error e | .ok _ => .ok (s, (0 : W64)))
        else w.loadAt true byp 16 w.width s t) ∧
      panel (.tst e) true (fun s t => if qAon e.imm then storeTargets w s t true 16 w.width w.width
        else w.storeAt true byp 0 16 w.width s t)) ∧
  (∀ (o : Base) (l : W64) (e : Ext) (s : State) (w : Sw) (home : Nat → Nat),
      let open_ := fun (perms : Nat → List Nat) (low align n : Nat) => ∀ t ∈ w.doers,
        (w.capA t).tag = true ∧ capOtype (w.capA t) = 0 ∧ capHas (w.capA t) pVLT = true ∧
        (∀ p ∈ perms t, capHas (w.capA t) p = true) ∧
        (∃ b top : Nat, capDecode (w.capA t) = some (b, top) ∧ (b : Int) + low ≤ w.ea t ∧ w.ea t + n ≤ top) ∧
        (w.ea t).toNat % align = 0 ∧ vaultUnit s w.who.team (w.ea t).toNat n = some (home t) ∧ s.mem.err (home t) n = none
      let stored := fun (c : Cap) => if c.tag then (if capHas c pROAM then [pSTC] else [pSTC, pVLT]) else []
      let n := w.width
      let loads := fun (i : Instr) (ldw : Bool) (align : Nat) =>
        Ready i s w → open_ (fun _ => [pLD]) 0 align n →
          ∃ t g', Passed i s w (Regs.freed w w.g.regs)
              (w.own ldw (w.doers.flatMap (fun u => w.later u (w.fill (BitVec.ofNat _ (leNat (s.mem.bytes (home u) n)))))))
              w.g.rest t g' ∧ AccessFrame w s t ∧ t.mem = s.mem
      let stores := fun (i : Instr) (align q : Nat) =>
        Ready i s w → open_ (fun _ => [pST]) 0 align n →
          let mem := w.doers.foldl (fun m u => m.write (home u) (leBytes (w.srcD u).toNat n)) s.mem
          ∃ t g', Passed i s w (Regs.freed w w.g.regs) [] w.g.rest t g' ∧ AccessFrame w s t ∧
            t.mem = (if w.doers = [] then mem else (releaseFar { s with mem := mem } q).mem)
      let passes := fun (i : Instr) => ∃ t g' own, Passed i s w (Regs.freed w w.g.regs) own w.g.rest t g' ∧ AccessFrame w s t
      loads (.ldw o) true 1 ∧ loads (.ldwLit o l) true 1 ∧ loads (.ld e) false 1 ∧ loads (.lda e) false n ∧
      stores (.stw o) 1 0 ∧ stores (.stwLit o l) 1 0 ∧ stores (.st e) 1 0 ∧ stores (.stl e) n (qScope e.imm) ∧
      (Ready (.ldc e) s w → open_ (fun _ => [pLD]) 0 16 16 → passes (.ldc e)) ∧
      (Ready (.stc e) s w → open_ (fun u => pST :: stored (revCheck s w.g.ids.asid (w.capD u))) 0 16 16 → passes (.stc e)) ∧
      (∀ i ∈ [.amoAdd e, .amoAnd e, .amoOr e, .amoXor e, .amoMin e, .amoMax e, .amoSwap e, .amoCas e],
        Ready i s w → open_ (fun _ => [pLD, pST, pATOM]) 0 n n → passes i) ∧
      (Ready (.amocSwap e) s w →
        open_ (fun u => [pLD, pST, pATOM] ++ stored (revCheck s w.g.ids.asid (w.capC u))) 0 16 16 → passes (.amocSwap e)) ∧
      (Ready (.amocCas e) s w →
        open_ (fun u => [pLD, pST, pATOM] ++ stored (revCheck s w.g.ids.asid (w.capC1 u))) 0 16 16 → passes (.amocCas e)) ∧
      (∀ t0 : Nat, w.all.head? = some t0 → w.parts ≠ [] → w.held = none →
        (w.capA t0).tag = true → capOtype (w.capA t0) = 0 → capHas (w.capA t0) pVLT = true →
        capBase (w.capA t0) % 64 = 0 → (capTop (w.capA t0) - capBase (w.capA t0)) % 16 = 0 →
        32 ≤ capTop (w.capA t0) - capBase (w.capA t0) → capTop (w.capA t0) - capBase (w.capA t0) ≤ 65536 →
        (vaultUnit s w.who.team (capBase (w.capA t0)) 16).isSome = true →
        (Ready (.tld e) s w → capHas (w.capA t0) pLD = true → open_ (fun _ => [pLD]) 16 n n → passes (.tld e)) ∧
        (Ready (.tst e) s w → capHas (w.capA t0) pST = true → open_ (fun _ => [pST]) 16 n n → passes (.tst e))))

/-- LD, LDW and LDA: where every participant's access passes its checks, each loads its bytes, extended by TYPE; LDW's
results are its own marks, the others wait for their flag. No byte of memory changes, and an acquire of scope .clu or
wider steps the L1's generation (R207, R208, R209, R211, R303). -/
def Obligations.Loads : Prop :=
  ∀ (o : Base) (l : W64) (e : Ext),
    let done := fun (i : Instr) (ldw byp : Bool) (align : Sw → Nat) (acq : Sw → State → State) =>
      ∀ s w s' xs, Ready i s w → inTurn (w.loadAt false byp 0 (align w)) w.doers (w.begun s) = some (s', xs) →
        ∃ t g', Passed i s w (Regs.freed w w.g.regs) (w.own ldw (xs.flatMap (fun x => w.later x.1 x.2))) w.g.rest t g' ∧
          AccessFrame w s t ∧ t.mem = s.mem ∧
          (w.doers ≠ [] → (t.core (coreOf w.gk)).l1 = ((acq w s').core (coreOf w.gk)).l1) ∧
          (w.parts = [] → (t.core (coreOf w.gk)).l1 = (s.core (coreOf w.gk)).l1)
    let plain := fun (_ : Sw) (s : State) => s
    done (.ldw o) true false (fun _ => 1) plain ∧
    done (.ldwLit o l) true false (fun _ => 1) plain ∧
    done (.ld e) false (qCache e.imm == 1) (fun _ => 1) plain ∧
    done (.lda e) false (decide (2 ≤ qScope e.imm) || qRem e.imm) Sw.width
      (fun w s => if 3 ≤ qScope e.imm ∨ qRem e.imm = true then stepGen s (coreOf w.gk) true
        else if qScope e.imm = 2 then stepGen s (coreOf w.gk) false else s)

/-- ST, STW and STL: where every participant's access passes its checks, each stores the low bytes of its register, in
ascending thread; memory is what those stores make of it, and no byte outside their targets changes. A release at .dev
or .sys also brings the modified lines held of leases, whose homes lie in other packages, to their lenders (R205,
R207, R211, R213, R344, R436). -/
def Obligations.Stores : Prop :=
  ∀ (o : Base) (l : W64) (e : Ext),
    let done := fun (i : Instr) (byp : Bool) (q : Nat) (align : Sw → Nat) =>
      ∀ s w s' landed, Ready i s w → inTurn (w.storeAt false byp q 0 (align w)) w.doers (w.begun s) = some (s', landed) →
        let far := if w.doers = [] then s' else releaseFar s' q
        ∃ t g', Passed i s w (Regs.freed w w.g.regs) [] w.g.rest t g' ∧ AccessFrame w s t ∧ t.mem = far.mem ∧
          t.lease = far.lease ∧ t.mmio = s'.mmio ∧ KeptNear (decide (3 ≤ q)) landed s t
    done (.stw o) false 0 (fun _ => 1) ∧
    done (.stwLit o l) false 0 (fun _ => 1) ∧
    done (.st e) (qCache e.imm == 1) 0 (fun _ => 1) ∧
    done (.stl e) false (qScope e.imm) Sw.width

/-- LDC and STC move 16 bytes and a tag: the tag loaded is kept only through LDC and where it is not revoked; a store sets
or clears the granule's tag and changes no other byte (R214, R215). -/
def Obligations.CapabilityMoves : Prop :=
  ∀ (e : Ext),
    (∀ s w s' xs, Ready (.ldc e) s w → inTurn w.ldcAt w.doers (w.begun s) = some (s', xs) →
      ∃ t g', Passed (.ldc e) s w (Regs.freed w w.g.regs) (w.own false (xs.map (fun x => w.laterCap x.1 x.2))) w.g.rest t g' ∧
        AccessFrame w s t ∧ t.mem = s.mem) ∧
    (∀ s w s' landed, Ready (.stc e) s w →
      inTurn (fun s t => w.stcAt (fun s => revCheck s w.g.ids.asid (w.capD t)) s t) w.doers (w.begun s) = some (s', landed) →
      ∃ t g', Passed (.stc e) s w (Regs.freed w w.g.regs) [] w.g.rest t g' ∧ AccessFrame w s t ∧ t.mem = s'.mem ∧
        t.lease = s'.lease ∧ Kept landed s t) ∧
    (∀ (w : Sw) s t bs tag, (w.kept s t bs tag).bits = BitVec.ofNat 128 (leNat bs) ∧
      ((w.kept s t bs tag).tag = true → tag = true ∧ capHas (w.capA t) pLDC = true ∧ capWell (w.kept s t bs tag) = true ∧
        (s.rev.busy = true → revoked s w.g.ids.asid (w.kept s t bs tag) = false)))

/-- The atomics read the old value at the point of coherence, write the new one back and return the old; each acquires and
releases at its scope (R216, R217, R218, R344). -/
def Obligations.Atomics : Prop :=
  ∀ (e : Ext),
    let acq := fun (w : Sw) (s : State) => if 3 ≤ qScope e.imm ∨ qRem e.imm = true then stepGen s (coreOf w.gk) true
      else if qScope e.imm = 2 then stepGen s (coreOf w.gk) false else s
    let far := fun (w : Sw) (s : State) => if w.doers = [] then s else releaseFar s (qScope e.imm)
    let done := fun (i : Instr) (new : Sw → W64 → W64 → W64 → W64) =>
      ∀ s w s' xs, Ready i s w → inTurn (w.amoAt (new w)) w.doers (w.begun s) = some (s', xs) →
        ∃ t g', Passed i s w (Regs.freed w w.g.regs) (w.own false (xs.flatMap (fun x => w.later x.1 x.2.1))) w.g.rest t g' ∧
          AccessFrame w s t ∧ t.mem = (far w s').mem ∧ KeptNear (decide (3 ≤ qScope e.imm)) (xs.map (fun x => (x.1, x.2.2))) s t ∧
          (w.doers ≠ [] → (t.core (coreOf w.gk)).l1 = ((acq w s').core (coreOf w.gk)).l1)
    let cap := fun (i : Instr) (new : Sw → Nat → Cap) (cmp : Sw → Nat → Option Cap) =>
      ∀ s w s' xs, Ready i s w → inTurn (w.amocAt (new w) (cmp w)) w.doers (w.begun s) = some (s', xs) →
        ∃ t g', Passed i s w (Regs.freed w w.g.regs) (w.own false (xs.map (fun x => w.laterCap x.1 x.2.1))) w.g.rest t g' ∧
          AccessFrame w s t ∧ t.mem = (far w s').mem ∧ KeptNear (decide (3 ≤ qScope e.imm)) (xs.map (fun x => (x.1, x.2.2))) s t ∧
          (w.doers ≠ [] → (t.core (coreOf w.gk)).l1 = ((acq w s').core (coreOf w.gk)).l1)
    done (.amoAdd e) (fun w old v _ => if tyFloat w.e.ty then (fadd (fmtOf w.e.ty) ⟨.nearestEven, false, 0⟩ old v).1 else old + v) ∧
    done (.amoAnd e) (fun _ old v _ => old &&& v) ∧
    done (.amoOr e) (fun _ old v _ => old ||| v) ∧
    done (.amoXor e) (fun _ old v _ => old ^^^ v) ∧
    done (.amoMin e) (fun w old v _ => if tyFloat w.e.ty then (fminmax (fmtOf w.e.ty) false old v).1
      else if w.whole old ≤ w.whole v then old else v) ∧
    done (.amoMax e) (fun w old v _ => if tyFloat w.e.ty then (fminmax (fmtOf w.e.ty) true old v).1
      else if w.whole v < w.whole old then old else v) ∧
    done (.amoSwap e) (fun _ _ v _ => v) ∧
    done (.amoCas e) (fun w old v second => if w.bits old = w.bits v then second else old) ∧
    cap (.amocSwap e) Sw.capC (fun _ _ => none) ∧
    cap (.amocCas e) Sw.capC1 (fun w t => some (w.capC t))

/-- FENCE touches no memory of this package; at .clu and wider it steps the generation of the core's L1, and at .dev and
.sys brings the modified lines held of leases to their lenders (R219, R303, R344). TLD and TST: a panel's elements are
loaded and stored as by LD and ST from 16 bytes past its base on. With AON a TST stages every element, then performs
the stores in ascending thread between making VERSION odd and even again; a TLD checks every element before it reads
any, and the reads follow the acquire of VERSION, which steps the generation of the core's L1 at .clu and wider (R220
to R222, R303). -/
def Obligations.FencesAndPanels : Prop :=
  (∀ (e : Ext) (s : State) (w : Sw), Ready (.fence e) s w →
      ∃ t g', Passed (.fence e) s w (Regs.freed w w.g.regs) [] w.g.rest t g' ∧ AccessFrame w s t ∧
        t.mem = (if w.parts = [] then s else releaseFar s (qScope e.imm)).mem ∧ KeptNear (decide (3 ≤ qScope e.imm)) [] s t ∧
        let now := (t.core (coreOf w.gk)).l1
        let was := (s.core (coreOf w.gk)).l1
        ((w.parts = [] ∨ (qScope e.imm < 2 ∧ qRem e.imm = false)) → now = was) ∧
        (w.parts ≠ [] → 3 ≤ qScope e.imm → now.cgd = was.cgd + 1 ∧ now.passD = true ∧ now.cgc = was.cgc) ∧
        (w.parts ≠ [] → qScope e.imm = 2 → qRem e.imm = false → now.cgc = was.cgc + 1 ∧ now.passC = true ∧ now.cgd = was.cgd)) ∧
  (∀ (e : Ext) (s : State) (w : Sw) (t0 : Nat), w.all.head? = some t0 → w.parts ≠ [] →
      let base := capBase (w.capA t0)
      let size := capTop (w.capA t0) - base
      let perm := fun (p : Nat) => (w.capA t0).tag = true ∧ capOtype (w.capA t0) = 0 ∧ capHas (w.capA t0) p = true ∧
        base % 64 = 0 ∧ size % 16 = 0 ∧ 32 ≤ size ∧ size ≤ 65536
      let byp := qCache e.imm == 1
      (qAon e.imm = false →
        (∀ s' xs, Ready (.tld e) s w → perm pLD → inTurn (w.loadAt true byp 16 w.width) w.doers (w.begun s) = some (s', xs) →
          ∃ t g', Passed (.tld e) s w (Regs.freed w w.g.regs) (w.own false (xs.flatMap (fun x => w.later x.1 x.2))) w.g.rest t g' ∧
            AccessFrame w s t ∧ t.mem = s.mem) ∧
        (∀ s' landed, Ready (.tst e) s w → perm pST →
          inTurn (w.storeAt true byp 0 16 w.width) w.doers (w.begun s) = some (s', landed) →
          ∃ t g', Passed (.tst e) s w (Regs.freed w w.g.regs) [] w.g.rest t g' ∧ AccessFrame w s t ∧ t.mem = s'.mem ∧
            Kept landed s t)) ∧
      (qAon e.imm = true → w.held = none →
        (∀ s1 s' xs, Ready (.tld e) s w → panelCheck w (w.begun s) false t0 = .ok s1 →
          (∀ t ∈ w.doers, ∃ r, loadBytes w s1 t true byp [pLD] 16 w.width w.width = .ok r) →
          (∀ u, w.parts.head? = some u →
            inTurn (w.loadAt true byp 16 w.width) w.doers (versionAcquire w s1 u) = some (s', xs)) →
          ∃ t g', Passed (.tld e) s w (Regs.freed w w.g.regs) (w.own false (xs.flatMap (fun x => w.later x.1 x.2))) w.g.rest t g' ∧
            AccessFrame w s t ∧ t.mem = s.mem ∧
            let now := (t.core (coreOf w.gk)).l1
            let was := (s.core (coreOf w.gk)).l1
            let wide := 3 ≤ qScope e.imm ∨ qRem e.imm = true
            (wide → now.cgd = was.cgd + 1 ∧ now.cgc = was.cgc) ∧
            (¬ wide → qScope e.imm = 2 → now.cgc = was.cgc + 1 ∧ now.cgd = was.cgd) ∧
            (¬ wide → qScope e.imm < 2 → now.cgc = was.cgc ∧ now.cgd = was.cgd)) ∧
        (∀ s1 s2 s3 s4 s5 staged landed x v, Ready (.tst e) s w → panelCheck w (w.begun s) true t0 = .ok s1 →
          inTurn (fun s t => (storeTargets w s t true 16 w.width w.width)) w.doers s1 = some (s2, staged) →
          inTurn (w.storeAt true byp 0 16 w.width) w.doers s2 = some (s3, landed) →
          (∀ u, w.parts.head? = some u → w.capA u = w.capA t0 ∧ versionTarget w s3 u = some (s4, x)) →
          readPiece s4 w.who true x base 8 = .ok (s5, v) →
          ∃ t g', Passed (.tst e) s w (Regs.freed w w.g.regs) [] w.g.rest t g' ∧ AccessFrame w s t ∧
            t.mem = (releaseFar (writePiece s4 w.who false x base (leBytes ((leNat v ||| 1) + 1) 8)) (qScope e.imm)).mem)))

/-! ### Engines -/

/-- JOIN and HWAIT hold the group until the operations named have completed, and not at all where they have; HTEST reads a
status. What has completed is observed: a register that names a cancelled operation becomes invalid, whoever cancelled
it (log 25), and an operation of another core, or a launch, makes the core acquire (R33, R231, R244, R256, R257,
R339). HCANCEL of a handle that is invalid, or whose operation has completed, changes nothing, nor does it of a matrix
operation or of a launch with placed units; of a launch none of whose units is placed, it ends the launch with
CANCELLED. A copy being served is to stop at its next row boundary; a queued one leaves its queue with CANCELLED and
the write pointer stays. An engine program that runs stops with CANCELLED before its next instruction; one that waits
for its sequencer, with nothing of its own under way, leaves the queue with CANCELLED (R257, R261, R276, R312). STH
stores a handle as a sealed capability of type 5, or null where it is invalid, either under the checks of a tagged
STC, and a marked handle is spent; LDH makes a handle of a tagged granule of type 5 and an invalid one of anything
else (R258, R259). -/
def Obligations.FuturesAndHandles : Prop :=
  (∀ (e : Ext) (s : State) (w : Sw),
      let handle := fun (r : Nat) => readH w.g w.base r
      let hold := fun (i : Instr) (hs : List W64) =>
        let open' := hs.filter (fun h => !(s.status h).getLsbD 31)
        let seen := hs.filter (fun h => (s.status h).getLsbD 31)
        let R := Regs.freed w w.g.regs
        (open' = [] → ∃ t g', Observed i s w seen R w.g.rest (fun u => (w.g.thread u).rest) t g') ∧
        (open' ≠ [] → ∃ t g', Observed i s w seen R { w.g.rest with hold := .handles open', sched := w.calm w.parts }
          (fun u => if u ∈ w.parts then (w.g.thread u).waits .join 0 else (w.g.thread u).rest) t g')
      let x : W32 := match handle w.e.a.toNat with | some h => s.status h | none => 0x800000FF
      let y : W64 := (Tab.look w.data0 0).getD (x.setWidth 64)
      (Ready (.hwait e) s w → w.parts ≠ [] → hold (.hwait e) (handle w.e.a.toNat).toList) ∧
      (Ready (.join e) s w → w.parts ≠ [] →
        hold (.join e) ((List.range 16).filterMap (fun i => if w.gB.getLsbD i then handle i else none))) ∧
      (Ready (.hwait e) s w → w.parts = [] → Completes (.hwait e) s w (Regs.freed w w.g.regs)) ∧
      (Ready (.join e) s w → w.parts = [] → Completes (.join e) s w (Regs.freed w w.g.regs)) ∧
      (Ready (.htest e) s w →
        let seen := if w.doers ≠ [] ∧ x.getLsbD 31 = true then (handle w.e.a.toNat).toList else []
        ∃ t g', Observed (.htest e) s w seen (Regs.freed w (Regs.computed w (fun _ => y) (fun _ => 0) w.g.regs)) w.g.rest
          (fun u => (w.g.thread u).rest) t g')) ∧
  (∀ (e : Ext) (s : State) (w : Sw), Ready (.hcancel e) s w →
      let h := readH w.g w.base w.e.a.toNat
      let is := fun (x : W64) (y : Copy) => y.seq = hSeq x ∧ y.hcore = hCore x
      let prog := fun (x : W64) (g : Group) => isProg (hCore x) (hSeq x) g
      let unsaved := fun (x : W64) => ∀ u ∈ s.units, ∀ v, u.2.saved = some v →
        (∀ y ∈ v.copies, ¬ is x y.2.2) ∧ ∀ y ∈ v.progs, prog x y.2.2 = false
      let done := fun (P : State → Prop) => ∃ t g', exec (.hcancel e) s = .next t ∧ t.mem = s.mem ∧ t.group w.gk = some g' ∧
        g'.regs = Regs.freed w w.g.regs ∧ P t
      ((w.parts = [] ∨ ∀ x, h = some x → (s.status x).getLsbD 31 = true ∨ hKind x = 2 ∨
          (hKind x = 4 ∧ ∀ y ∈ s.launches, y.2.core = hCore x → y.2.seq = hSeq x → y.2.st = .running)) →
        Completes (.hcancel e) s w (Regs.freed w w.g.regs)) ∧
      (∀ x core ch y l, w.parts ≠ [] → h = some x → (s.status x).getLsbD 31 = false → hKind x = 1 → unsaved x → ch < 4 →
        (∀ c n z, z ∈ (s.core c).chan n → is x z → c = core ∧ n = ch) →
        ((s.core core).chan ch = y :: l → is x y → (s.core core).isServing ch = true →
          done (fun t => (t.core core).chan ch = { y with cancel := true } :: l ∧ t.status x = s.status x)) ∧
        ((s.core core).chan ch = y :: l → ¬ is x y ∨ (s.core core).isServing ch = false → (∃ z ∈ y :: l, is x z) →
          done (fun t => (t.core core).chan ch = (y :: l).filter (fun z => !decide (is x z)) ∧
            (t.core core).wpOf ch = (s.core core).wpOf ch ∧ Ended s t (hCore x) (hSeq x) 0x80000003))) ∧
      (∀ x, w.parts ≠ [] → h = some x → (s.status x).getLsbD 31 = false → hKind x = 3 → unsaved x →
        (∀ k g p, (∀ c ∈ s.cores, ∀ q ∈ c.2.pq0 ++ c.2.pq1, prog x q = false) →
          s.groups.find? (fun y => prog x y.2) = some (k, g) → s.group k = some g → g.prog = some p → k ≠ w.gk →
          done (fun t => t.status x = s.status x ∧ ∃ g', t.group k = some g' ∧
            g'.prog = some { p with outcome := some (p.outcome.getD 0x80000003) } ∧ ∀ u, (g'.thread u).st = .exited)) ∧
        ((∃ c ∈ s.cores, ∃ q ∈ c.2.pq0 ++ c.2.pq1, prog x q = true) →
          (∀ c ∈ s.cores, ∀ q ∈ c.2.pq0 ++ c.2.pq1, prog x q = true → progQuiet s q = true) →
          done (fun t => (∀ c ∈ t.cores, ∀ q ∈ c.2.pq0 ++ c.2.pq1, prog x q = false) ∧
            Ended s t (hCore x) (hSeq x) 0x80000003))) ∧
      (∀ x lid la, w.parts ≠ [] → h = some x → (s.status x).getLsbD 31 = false → hKind x = 4 →
        s.launches.find? (fun y => y.2.core == hCore x && y.2.seq == hSeq x) = some (lid, la) → Tab.look s.launches lid = some la →
        (la.st = .queued ∨ la.st = .dependent ∨ la.st = .timed) → w.g.hold = .none → (s.core la.core).store.order.length < 65536 →
        ∃ t, exec (.hcancel e) s = .next t ∧ t.mem = s.mem ∧
          (∃ g', t.group w.gk = some g' ∧ g'.regs = Regs.freed w w.g.regs) ∧
          (∃ la', Tab.look t.launches lid = some la' ∧ la'.st = .final) ∧
          KeySet.has (t.core la.core).store.live la.seq = false ∧ Tab.look (t.core la.core).store.stat la.seq = some 0x80000003)) ∧
  (∀ (e : Ext) (s : State) (w : Sw),
      let h := readH w.g w.base w.e.c.toNat
      let v := match h with | some x => capMk x 0 0 0 false 5 0x0040 true | none => Cap.null
      (∀ s' landed, Ready (.sth e) s w → inTurn (w.sthAt v) w.doers (w.begun s) = some (s', landed) →
        ∃ t g', Passed (.sth e) s w
            (Regs.freed w { w.g.regs with h := fun r => if w.e.lc = true ∧ r = w.e.c.toNat then none else w.g.regs.h r })
            [] w.g.rest t g' ∧
          AccessFrame w s t ∧ t.mem = s'.mem ∧ Kept landed s t) ∧
      (∀ s' xs, Ready (.ldh e) s w → inTurn w.ldcAt w.doers (w.begun s) = some (s', xs) →
        ∃ t g', Passed (.ldh e) s w (Regs.freed w w.g.regs)
            (w.own false (xs.map (fun x => .h w.e.d.toNat (if x.2.tag && capOtype x.2 == 5 then some (capAddr x.2) else none))))
            w.g.rest t g' ∧
          AccessFrame w s t ∧ t.mem = s.mem))

/-- FORK queues a program on the sequencer that IMM8 names and returns its handle, its operation live: one thread at the
entry, with the group's lower registers; an entry that is no target stops (R168, R230, R260). LAUNCH reads the record
of its first participant, submits it and returns its handle; a record capability that fails its checks stops (R230,
R263). -/
def Obligations.ForksAndLaunches : Prop :=
  (∀ (e : Ext) (s : State) (w : Sw) (t0 : Nat) (ts : List Nat), Ready (.fork e) s w →
      let core := coreOf w.gk
      let sq := w.e.imm.toNat % 2
      let entry := w.capA t0
      (w.parts = [] → ∃ t g', Passed (.fork e) s w (Regs.freed w w.g.regs) (w.own false []) w.g.rest t g') ∧
      (w.parts = t0 :: ts → ((s.core core).pq sq).length < 8 →
        (targetCheck entry = none →
          ∃ t g' q p, Passed (.fork e) s w
              (Regs.freed w { w.g.regs with h := fun r => if r = w.e.d.toNat then some (mkHandle q core 3) else w.g.regs.h r })
              (w.own false []) (noteOp w.g.rest (mkHandle q core 3)) t g' ∧
            t.elsewhere = s.elsewhere ∧ (∀ c, c ≠ core → t.core c = s.core c) ∧
            ((t.core core).pq sq) = (s.core core).pq sq ++ [p] ∧ ((t.core core).pq (1 - sq)) = (s.core core).pq (1 - sq) ∧
            KeySet.has (t.core core).store.live q = true ∧ p.ids = w.g.ids ∧
            (∃ x, p.prog = some x ∧ x.seq = q ∧ x.sq = sq ∧ x.outcome = none ∧
              x.start = if w.e.imm.getLsbD 1 then w.gB else 0) ∧
            p.th.map Prod.fst = [0] ∧ (p.thread 0).st = .runnable ∧
            (p.thread 0).code = capWithOtype (revCheck (w.begun s) w.g.ids.asid entry) 0 ∧
            (∀ r, r < 16 → p.greg r = w.g.greg r) ∧ p.r.fmt = w.g.r.fmt) ∧
        (∀ st, targetCheck entry = some st → w.g.prog = none → Stops (.fork e) s w t0 st))) ∧
  (∀ (e : Ext) (s : State) (w : Sw) (t0 : Nat) (ts : List Nat), Ready (.launch e) s w →
      let core := coreOf w.gk
      let rec' := w.capA t0
      (w.parts = [] → ∃ t g', Passed (.launch e) s w (Regs.freed w w.g.regs) (w.own false []) w.g.rest t g') ∧
      (w.parts = t0 :: ts →
        (∀ s1 gs, recordCheck rec' 6 256 = none → readGranules w rec' 16 (capAddr rec').toNat (w.begun s) = .ok (s1, gs) →
          ∃ t g' q, Passed (.launch e) s w
              (Regs.freed w { w.g.regs with h := fun r => if r = w.e.d.toNat then some (mkHandle q core 4) else w.g.regs.h r })
              [] (noteOp w.g.rest (mkHandle q core 4)) t g' ∧
            t.mem = s.mem ∧ KeySet.has (t.core core).store.live q = true ∧ t.dist.nextLaunch = s.dist.nextLaunch + 1 ∧
            ∃ l, Tab.look t.launches s.dist.nextLaunch = some l ∧ l.st = .reading ∧ l.core = core ∧ l.seq = q ∧
              l.gk = some w.gk ∧ l.flag = w.flag ∧ l.recBytes = gs.map (fun x => (x.bits, x.tag)) ∧ l.world = w.g.ids.world ∧
              l.asid = w.g.ids.asid) ∧
        (∀ st, recordCheck rec' 6 256 = some st → w.g.prog = none → Stops (.launch e) s w t0 st)))

/-- CPY and CPYC queue one copy on the channel that IMM8 names, for their first participant: its layout record and operand
block as read now, its handle in H[D], its operation live, its flag kept until the channel accepts it. A record,
source shape, destination or source box that fails its check stops the sweep, in this order, before any row is mapped;
an engine program's copy to memory whose field C names no gc register ends it with ILLEGAL_INSTRUCTION (R133, R261);
CPYW reads the channel's write pointer once, for every participant: what is left of a sweep that has stopped goes on
with it (R235, R237 to R240, R245). -/
def Obligations.Copies : Prop :=
  ∀ (e : Ext) (s : State) (w : Sw),
    let core := coreOf w.gk
    let ch := w.e.imm.toNat % 4
    let one := fun (i : Instr) (cpyc : Bool) => Ready i s w →
      (w.parts = [] → ∃ t g', Passed i s w (Regs.freed w w.g.regs) (w.own false []) w.g.rest t g') ∧
      (∀ t0 ts, w.parts = t0 :: ts → ((s.core core).chan ch).length - (if (s.core core).isServing ch then 1 else 0) < 16 →
        let rec' := w.capA t0
        (∀ p, w.g.prog = some p → e.c = 0 → descKind (opDesc (copyOps w t0)) = 0 →
          ∃ t g', exec i s = .next t ∧ t.mem = s.mem ∧ t.group w.gk = some g' ∧
            g'.prog = some { p with outcome := some (p.outcome.getD 0x8000000A) }) ∧
        (∀ st, recordCheck rec' 4 128 = some st → w.g.prog = none → Stops i s w t0 st) ∧
        (∀ s1 gs, recordCheck rec' 4 128 = none → readGranules w rec' 8 (capAddr rec').toNat (w.begun s) = .ok (s1, gs) →
          let l := parseLayout gs
          let ops := copyOps w t0
          let d := opDesc ops
          let dest := if descKind d = 0 then w.capC t0 else Cap.null
          let count := if cpyc then ((readG w.g w.base 3 (w.e.imm.toNat / 4)).setWidth 32 : W32).toNat else 2 ^ 32
          let stopped := (copySrc l ops).or ((copyDest w s1 l ops dest).or (copySrcBox w s1 l ops))
          let issued := fun (s2 : State) =>
            ∃ t c, exec i s = .next t ∧ t.mem = s.mem ∧ (∀ k, k ≠ core → t.core k = s.core k) ∧
              (t.core core).chan ch = (s.core core).chan ch ++ [c] ∧ KeySet.has (t.core core).store.live c.seq = true ∧
              c.hcore = core ∧ c.gk = w.gk ∧ c.flag = w.flag ∧ c.team = w.g.ids.team ∧ c.asid = w.g.ids.asid ∧
              c.world = w.g.ids.world ∧ c.count = count ∧ c.next = 0 ∧ c.ops = ops ∧ c.lay = l ∧
              c.dest = revCheck s2 w.g.ids.asid dest ∧ c.accepted = false ∧ c.cancel = false ∧
              (∃ g', t.group w.gk = some g' ∧ g'.handle w.e.d.toNat = some (mkHandle c.seq core 1)) ∧
              (descKind d ≠ 3 → ∃ g', Passed i s w
                (Regs.freed w { w.g.regs with h := fun r => if r = w.e.d.toNat then some (mkHandle c.seq core 1) else w.g.regs.h r })
                [] (noteOp w.g.rest (mkHandle c.seq core 1)) t g') ∧
              (∀ k, descKind d = 3 → descGroup s1 core w.g.ids.team d = some k → ∃ gd, t.group k = some gd ∧
                ∀ r u, r < min count l.rows → u ∈ descThreads d → KeySet.has gd.sb ((r + descVbase d) * 256 + u) = true)
          (∀ st, stopped = some st → w.g.prog = none → Stops i s w t0 st) ∧
          (stopped = none → (w.g.prog.isSome = true → descKind d = 0 → e.c ≠ 0) →
            (∀ st, copyRows s1 core w.g.ids.team l ops count = .stop st → w.g.prog = none → Stops i s w t0 st) ∧
            (∀ s2, copyRows s1 core w.g.ids.team l ops count = .ok s2 → issued s2))))
    one (.cpy e) false ∧ one (.cpyc e) true ∧
    (Ready (.cpyw e) s w → Completes (.cpyw e) s w (Regs.freed w
      (Regs.computed w (fun _ => (w.held.bind (fun h => Tab.look h.data sampleKey)).getD ((s.core core).wpOf ch)) (fun _ => 0)
        w.g.regs)))

/-- SETFMT writes the last participant's formats; CLAIM answers by its team's ceilings and what is free, and waits where a
claim must; RELEASE returns what it names, or waits until nothing uses it, the group that issued it held meanwhile
(log 23) (R249 to R252). -/
def Obligations.ClaimsAndFormats : Prop :=
  ∀ (e : Ext) (s : State) (w : Sw),
    let k := w.g.ids.team
    let core := coreOf w.gk
    let ns := w.gA.toNat % 256
    let nt := w.gA.toNat / 256 % 256
    let outcome := fun (b : Bool) => w.own false (w.parts.map (fun t => .p t w.e.d.toNat b))
    let same := fun (t : State) => t.elsewhere = s.elsewhere
    let team := fun (f : Team) (t : State) => t.elsewhere = State.elsewhere { s with teams := Tab.put s.teams k f }
    (legal (.setfmt e) = true → e.ty = 0) ∧
    (Ready (.setfmt e) s w →
      Completes (.setfmt e) s w (Regs.freed w
        { w.g.regs with fmt := match w.parts.getLast? with | some t => (w.srcA t).setWidth 32 | none => w.g.regs.fmt })) ∧
    (∀ tm, Ready (.claim e) s w → w.parts ≠ [] → Tab.look s.teams k = some tm →
      let answers := fun (b : Bool) (now : State → Prop) =>
        ∃ t g', Passed (.claim e) s w (Regs.freed w w.g.regs) (outcome b) w.g.rest t g' ∧ now t
      (ns = 0 ∧ nt = 0 → answers true same) ∧
      (¬ (ns = 0 ∧ nt = 0) → tm.slotCeil < ns ∨ tm.tileCeil < nt ∨ tm.slots ≠ 0 ∨ tm.tiles ≠ 0 ∨ tm.claim.isSome = true →
        answers false same) ∧
      (¬ (ns = 0 ∧ nt = 0) → ns ≤ tm.slotCeil → nt ≤ tm.tileCeil → tm.slots = 0 → tm.tiles = 0 → tm.claim = none →
        let free := lowerBlocked s core k tm.num s.time.clock w.seq = false ∧ ns ≤ freeSlots s core ∧ nt ≤ freeTiles s core
        (free → answers true (team { tm with slots := ns, tiles := nt, sdat := [], sscale := [], tdat := [] })) ∧
        (¬ free → answers true (team
          { tm with claim := some ⟨ns, nt, w.gk, w.flag, w.e.d.toNat, w.parts, w.seq, s.time.clock⟩ })))) ∧
    (∀ tm, Ready (.release e) s w → w.parts ≠ [] → Tab.look s.teams k = some tm →
      let rs := w.gA.getLsbD 0
      let rt := w.gA.getLsbD 1
      (releaseBusy s k tm rs rt = false →
        ∃ t g', Passed (.release e) s w (Regs.freed w w.g.regs) [] w.g.rest t g' ∧
          team { tm with
            slots := if rs then 0 else tm.slots, sdat := if rs then [] else tm.sdat, sscale := if rs then [] else tm.sscale
            tiles := if rt then 0 else tm.tiles, tdat := if rt then [] else tm.tdat } t) ∧
      (releaseBusy s k tm rs rt = true →
        ∃ t g', Passed (.release e) s w (Regs.freed w w.g.regs) [] { w.g.rest with hold := .release } t g' ∧
          team { tm with relSlots := tm.relSlots || rs, relTiles := tm.relTiles || rt } t)) ∧
    (Ready (.release e) s w → w.parts = [] → Completes (.release e) s w (Regs.freed w w.g.regs)) ∧
    (Ready (.claim e) s w → w.parts = [] →
      ∃ t g', Passed (.claim e) s w (Regs.freed w w.g.regs) (w.own false []) w.g.rest t g')

/-- MMA, MMZ, ACCRD and ACCWR join the engine's queue, while fewer than 64 records stand in it, in passes that have not
taken the array and among tile operations that wait, with the next issue sequence number, their flags set until they
take effect; slots and tiles that the team does not hold stop them with MATRIX_UNCLAIMED, a format the table does not
list stops MMA with MATRIX_FORMAT, and a row that is odd or above 126 stops ACCRD and ACCWR, whose tile is held, with
COPY_TARGET (R247, R253 to R255, R39, R394). -/
def Obligations.MatrixOperations : Prop :=
  ∀ (e : Ext) (s : State) (w : Sw) (tm : Team), Tab.look s.teams w.g.ids.team = some tm →
    (s.core (coreOf w.gk)).mx.queued < 64 →
    let core := coreOf w.gk
    let a := w.e.a.toNat
    let b := w.e.b.toNat
    let c := w.e.c.toNat
    let n := w.e.imm.toNat
    let queued := fun (i : Instr) (own : List Pend) (r : MRec) =>
      ∃ t g', Passed i s w (Regs.freed w w.g.regs) own w.g.rest t g' ∧ t.elsewhere = s.elsewhere ∧
        (∀ k, k ≠ core → t.core k = s.core k) ∧
        (t.core core).mx = { (s.core core).mx with queue := (s.core core).mx.queue ++
          [{ r with seq := ((w.begun s).core core).seq, sweep := w.seq }] }
    let record := fun (op a b row : Nat) (fmt : W32) (d : Nat) (parts : List Nat) (data : List (Nat × W32)) =>
      (⟨0, 0, s.time.clock, op, a, b, c, row, fmt, w.g.ids.team, w.g.ids.world, w.gk, w.flag, d, parts, data⟩ : MRec)
    (Ready (.mma e) s w →
      (mmaSel w ≠ [] → a < tm.slots → b < tm.slots → c < tm.tiles → (mmaFormat w.g.r.fmt).isSome = true →
        queued (.mma e) [] (record 4 a b (n % 4) w.g.r.fmt 0 [] [])) ∧
      (∀ l, (mmaSel w).head? = some l → w.g.prog = none →
        (¬ (a < tm.slots ∧ b < tm.slots ∧ c < tm.tiles) → Stops (.mma e) s w l ⟨cMATRIX_UNCLAIMED, 0, 0, none⟩) ∧
        (a < tm.slots → b < tm.slots → c < tm.tiles → mmaFormat w.g.r.fmt = none →
          Stops (.mma e) s w l ⟨cMATRIX_FORMAT, 0, 0, none⟩))) ∧
    (Ready (.mmz e) s w →
      (mmzSel w ≠ [] → c < tm.tiles → queued (.mmz e) [] (record 5 0 0 0 0 0 [] [])) ∧
      (∀ l, (mmzSel w).head? = some l → w.g.prog = none → ¬ c < tm.tiles →
        Stops (.mmz e) s w l ⟨cMATRIX_UNCLAIMED, 0, 0, none⟩)) ∧
    (Ready (.accrd e) s w → w.parts ≠ [] → c < tm.tiles → n % 2 = 0 → n ≤ 126 →
      queued (.accrd e) (w.own false (w.parts.map (fun t => .acc t w.e.d.toNat)))
        (record 6 0 0 n 0 w.e.d.toNat w.parts [])) ∧
    (Ready (.accwr e) s w → w.parts ≠ [] → c < tm.tiles → n % 2 = 0 → n ≤ 126 →
      queued (.accwr e) [] (record 7 0 0 n 0 0 w.parts (w.parts.map (fun t => (t, (w.srcA t).setWidth 32))))) ∧
    (∀ i ∈ [.accrd e, .accwr e], Ready i s w → ∀ l, w.parts.head? = some l → w.g.prog = none →
      (¬ c < tm.tiles → Stops i s w l ⟨cMATRIX_UNCLAIMED, 0, 0, none⟩) ∧
      (c < tm.tiles → n % 2 = 1 ∨ 126 < n → Stops i s w l ⟨cCOPY_TARGET, 0, 0, none⟩)) ∧
    (Ready (.mma e) s w → mmaSel w = [] →
      ∃ t g', Passed (.mma e) s w (Regs.freed w w.g.regs) (w.own false []) w.g.rest t g') ∧
    (Ready (.mmz e) s w → mmzSel w = [] →
      ∃ t g', Passed (.mmz e) s w (Regs.freed w w.g.regs) (w.own false []) w.g.rest t g') ∧
    (Ready (.accrd e) s w → w.parts = [] →
      ∃ t g', Passed (.accrd e) s w (Regs.freed w w.g.regs) (w.own false []) w.g.rest t g') ∧
    (Ready (.accwr e) s w → w.parts = [] →
      ∃ t g', Passed (.accwr e) s w (Regs.freed w w.g.regs) (w.own false []) w.g.rest t g')

/-! ### Steps of engines, supervisor cores and the fabric -/

/-- The internal steps of a group: results are written when they complete, freed rows are handed on, deliveries take their
window, holds, yields and overrides end, barriers release, and the cores of a cluster unit's teams that wait at one
step CGC as it releases (R23, R34, R44, R45, R185, R191, R208, R289, R290, R303, R359). A favoured group is owed a
slot once in each 64th clock. EVICT, where a favoured group stalls for rows, takes the group of highest identifier
that is not favoured (the ranks of groups whose threads have all exited, and of groups of one identifier, are log 54):
it is asked to stop; one that stands stopped already is saved at once, and one that a command is parking is waited
for. A group so asked is saved, once it has stopped, with a release at .dev, and leaves its position for the return
list, its rows freed; where no save area is named it waits for one (log 45), and a group that has become favoured
stays. EVICTED_RETURN seats the first of the list that its core has room for, and the core acquires (R45, R294, R295,
R324, R375). -/
def Obligations.GroupSteps : Prop :=
  (∀ (s : State) (k : Nat) (g : Group), s.group k = some g →
      let now := fun (i : Instr) (g' : Group) => exec i s = .next (s.setGroup k g')
      (∀ idx p, g.pend[idx]? = some p → p.ldw = false → pendHeld s (coreOf k) p = false →
        (∀ q ∈ g.pend, q.seq = p.seq → q = p) → ∃ g', now (.longLatencyComplete k idx) g' ∧ g.Completed g' p) ∧
      (∀ p, (g.pend.filter (fun p => p.ldw)).getLast? = some p → (∀ q ∈ g.pend, q.seq = p.seq → q = p) →
        ∃ g', now (.ldwReturn k) g' ∧ g.Completed g' p) ∧
      (∀ ft, g.hold = .at ft → ft.toNat ≤ s.time.ftime →
        now (.atRelease k) { g with
          hold := .none
          th := Tab.mapv (fun _ x => if x.wait = .atTime then
            { x with st := if x.st = .waiting then .runnable else x.st, wait := .none } else x) g.th }) ∧
      (∀ c, g.hold = .sleep c → c ≤ s.time.clock →
        now (.sleepExpiry k) { g with
          hold := .none
          th := Tab.mapv (fun _ x => if x.wait = .sleep then
            { x with st := if x.st = .waiting then .runnable else x.st, wait := .none } else x) g.th }) ∧
      (g.sched.yieldUntil ≠ 0 → g.sched.yieldUntil ≤ s.time.clock →
        now (.yieldExpiry k) { g with sched := { g.sched with yieldUntil := 0 } }) ∧
      (g.clause = none → g.sched.ovOn = false → 64 ≤ g.sched.ovc → g.runnable ≠ [] →
        now (.overrideEnter k) { g with sched := { g.sched with ovOn := true, ovl := 0, ovT := g.lowestRunnable.getD 0 } }) ∧
      (g.clause = none → g.sched.ovOn = true →
        (64 ≤ g.sched.ovl ∨ (g.thread g.sched.ovT).st = .waiting ∨ (g.thread g.sched.ovT).st = .exited) →
        now (.overrideEnd k) { g with sched := { g.sched with ovOn := false, ovc := 0, ovl := 0 } }) ∧
      (∀ d s2 i, g.deliv = some d → g.park = .running → takeWindow s k = some s2 →
        (i = .handlerEntry k ∨ (i = .stopFaultDeliver k ∧ d.tres < 256) ∨ (i = .sweepEndTrap k ∧ d.tres = 256)) →
        After i s (fun t => t.mem = s.mem ∧ (∀ j, j ≠ k → t.group j = s.group j) ∧
          ∃ g', t.group k = some g' ∧ g'.deliv = none ∧ g'.clause = none ∧ g'.held = [] ∧
            g'.trap = some ⟨d.tcause, d.tinst, d.tmask, d.tres, d.tpc, g.clause, g.held, []⟩ ∧
            ∀ u x, Tab.look g.th u = some x → u ∈ d.tmask → x.st ≠ .exited →
              (g'.thread u).st = .runnable ∧ (g'.thread u).tpc = d.tpc ∧ (g'.thread u).kept = x.code ∧
                (g'.thread u).code = capWithOtype g.handler 0 ∧ (g'.thread u).w = [])) ∧
      (∀ core part, let p := (s.core core).part part
        After (.rowFreed core part) s (fun t => t.mem = s.mem ∧ t.groups = s.groups ∧ (∀ c, c ≠ core → t.core c = s.core c) ∧
          (t.core core).part part = if p.freeing = 0 then p
            else if p.rsv < 64 then { p with rsv := p.rsv + 1, freeing := p.freeing - 1 }
            else { p with gen := p.gen + 1, freeing := p.freeing - 1 })) ∧
      (∀ core, After (.owedRefresh core) s (fun t =>
        let done := (s.core core).owedAt = s.time.clock + 1
        (s.time.clock % 64 ≠ 0 ∨ done → t = s) ∧
        (s.time.clock % 64 = 0 → ¬ done → (t.core core).owedAt = s.time.clock + 1 ∧ ∀ j, t.group j = (s.group j).map (fun x =>
          if coreOf j = core ∧ x.prog = none ∧ favoured s j = true then { x with sched := { x.sched with owed := true } } else x)))) ∧
      (∀ num, allArrived (teamGroups s g.ids.team) .bar num = true →
        After (.barrierComplete false g.ids.team num) s (fun t => t.mem = s.mem ∧
          ∀ j, t.group j = (s.group j).map (fun x => if x.ids.team = g.ids.team ∧ x.prog = none then
            { x with th := Tab.mapv (fun _ y => if y.wait = .bar ∧ y.barNum = num then
              { y with st := if y.st = .waiting then .runnable else y.st, wait := .none } else y) x.th } else x))) ∧
      (∀ uk u num, Tab.look s.units uk = some u →
        let there := u.teams.filterMap (fun tk => (Tab.look s.teams tk).bind (fun tm =>
          if tm.placed && s.groups.any (fun x => x.2.ids.team == tk && x.2.prog.isNone) then some tm.core else none))
        (allArrived (u.teams.flatMap (teamGroups s)) .barc num = false → exec (.barrierComplete true uk num) s = .next s) ∧
        (allArrived (u.teams.flatMap (teamGroups s)) .barc num = true →
          After (.barrierComplete true uk num) s (fun t => t.mem = s.mem ∧
            (∀ j, t.group j = (s.group j).map (fun x => if x.ids.team ∈ u.teams ∧ x.prog = none then
              { x with th := Tab.mapv (fun _ y => if y.wait = .barc ∧ y.barNum = num then
                { y with st := if y.st = .waiting then .runnable else y.st, wait := .none } else y) x.th } else x)) ∧
            (there.Nodup → ∀ c, (t.core c).l1.cgc = (s.core c).l1.cgc + (if c ∈ there then 1 else 0) ∧
              (t.core c).l1.cgd = (s.core c).l1.cgd))))) ∧
  (∀ (s : State) (core part : Nat),
      let asked := s.groups.find? (fun x => coreOf x.1 == core && partOf x.1 == part &&
        (x.2.park == .evicting || x.2.park == .missingEvict))
      let on := evictionOn s core part = true ∨ evictWanted s core part = true
      let leaves := fun (k : Nat) (g : Group) =>
        (groupSave s k g = 0 →
          After (.evict core part) s (fun t => t.group k = some { g with park := .missingEvict } ∧
            (∀ j, j ≠ k → t.group j = s.group j))) ∧
        (groupSave s k g ≠ 0 →
          After (.evict core part) s (fun t => t.group k = none ∧ (∀ j, j ≠ k → t.group j = s.group j) ∧
            (t.core core).ret = (s.core core).ret ++
              [{ (walkGroup s g) with park := if g.sup.isSome = true ∨ g.park = .parked then .parked else .running }] ∧
            ((t.core core).part part).freeing = ((s.core core).part part).freeing + groupRows g))
      (¬ on → exec (.evict core part) s = .next s) ∧
      (∀ k g, on → asked = none → evictVictim s core part = some (k, g) →
        (g.park = .requested ∨ (afterMissing g.park).isSome = true → exec (.evict core part) s = .next s) ∧
        (g.park ≠ .requested → afterMissing g.park = none →
          (g.sup = none → g.park ≠ .parked → exec (.evict core part) s = .next (s.setGroup k { g with park := .evicting })) ∧
          (g.sup.isSome = true ∨ g.park = .parked →
            (parkReady s k g = false → exec (.evict core part) s = .next s) ∧ (parkReady s k g = true → leaves k g)))) ∧
      (∀ k g, on → asked = some (k, g) → g.park = .missingEvict → exec (.evict core part) s = .next s) ∧
      (∀ k g, on → asked = some (k, g) → g.park = .evicting →
        (favoured s k = true → exec (.evict core part) s = .next (s.setGroup k { g with park := .running })) ∧
        (favoured s k = false → parkReady s k g = false → exec (.evict core part) s = .next s) ∧
        (favoured s k = false → parkReady s k g = true → leaves k g)) ∧
      (∀ c, (s.core c).ret = [] → exec (.evictedReturn c) s = .next s) ∧
      (∀ c g s', firstReturn s (s.core c).ret = some g →
        seatGroup (s.setCore c { (s.core c) with ret := (s.core c).ret.erase g }) c g = some s' →
        exec (.evictedReturn c) s = .next s' ∧ (s'.core c).ret = (s.core c).ret.erase g ∧
          (∀ asid va x, l1Hit s' c asid va = some x → x.lgd ≠ (s.core c).l1.cgd) ∧
          ∃ k g', coreOf k = c ∧ posOf k < 128 ∧ s.group k = none ∧ s'.group k = some g' ∧
            { g'.regs with h := g.regs.h } = g.regs ∧ g'.mapped = g.mapped))

/-- Answers to SYS (R192, R447), once a row for the results is there (a reply without one waits, log 18): services from
0x40 on take the result given; ALLOC gives each participant a block with result 0, or 1 where it has none that its
bounds hold exactly (log 46); FREE marks the blocks and gives 0; VAULT_WINDOW gives the window, or 1 and a null
capability; ATTEST gives what each report came to, and waits while one of its accesses waits for another package (log
42); a number below 0x40 with no service gives all ones. What a reply gives as a capability is one that system
software was sent or derives from its roots (R87, R90). -/
def Obligations.ServiceReplies : Prop :=
  ∀ (s s1 : State) (gk seq : Nat) (r : SysReq), findReq s gk seq = some r →
    (∀ rep, 0x40 ≤ r.service → replyRows s r = none → exec (.sysReply gk seq rep) s = .next s) ∧
    (∀ rep, 0x40 ≤ r.service → replyRows s r = some s1 →
      After (.sysReply gk seq rep) s (fun t => Replied s1 t r
        (fun u => BitVec.ofNat 32 (Tab.lookD rep.results u 0).toNat) (Tab.look rep.caps))) ∧
    (∀ rep, r.service < 0x40 → r.service ∉ ([0x01, 0x02, 0x21, 0x30] : List Nat) → replyRows s r = some s1 →
      After (.sysReply gk seq rep) s (fun t => Replied s1 t r (fun _ => 0xFFFFFFFF) (fun _ => none))) ∧
    (∀ bases perms, r.service = 0x01 → replyRows s r = some s1 →
      let block := fun (u : Nat) => (Tab.look bases u).bind (fun b => heapCap s b (Tab.lookD r.vals u 0).toNat perms)
      After (.sysAlloc gk seq bases perms) s (fun t => Replied s1 t r (fun u => if (block u).isSome then 0 else 1) block)) ∧
    (∀ s', s' = r.parts.foldl (fun s u => match Tab.look r.caps u with
        | some c => if c.tag then freeGranules s (reqIds s r).1 c else s
        | none => s) s →
      r.service = 0x02 → replyRows s' r = some s1 →
        After (.sysFree gk seq) s (fun t => Replied s1 t r (fun _ => 0) (fun _ => none))) ∧
    (∀ tm, r.service = 0x21 → Tab.look s.teams r.team = some tm → replyRows s r = some s1 →
      After (.vaultWindow gk seq) s (fun t => Replied s1 t r (fun _ => if tm.vlen = 0 then 1 else 0)
        (fun _ => some (if tm.vlen = 0 then Cap.null else windowCap s tm)))) ∧
    (∀ s' res, r.service = 0x30 → (∀ u ∈ r.parts, attestWait s r (reqCore s r) (reqIds s r).1 u = none) →
      attestAll r (reqCore s r) (reqIds s r).1 (reqIds s r).2 r.parts s [] = (s', res) →
      replyRows s' r = some s1 →
        After (.attest gk seq) s (fun t => Replied s1 t r (fun u => Tab.lookD res u 0) (fun _ => none))) ∧
    (r.service = 0x30 → (∃ u ∈ r.parts, attestWait s r (reqCore s r) (reqIds s r).1 u ≠ none) →
      After (.attest gk seq) s (fun t => t.sysq = s.sysq ∧ t.groups = s.groups ∧ t.mem = s.mem))

/-- Spawn bins and retirement (R12, R15, R16, R48, R172, R188, R189, R252, R285): a bin whose timer has run out is due; a
due bin forms one group, a thread for each record, unless one of lower number can, or a group has formed on the core
in this clock; a group all of whose threads have exited and whose own operations have ended leaves its position, its
rows freed, and the last group of a team (evicted and saved groups count, log 52) retires the team, whose entry, while
its unit stands, holds no slots and no tiles, and with its last team the launch ends. A PARK of a group that so ends
is done with RESULT 1 (log 75), and the records of a team that a switch has taken wait in their bin (log 76). Each of
the three completes for every operand, with no effect where its condition does not hold. -/
def Obligations.SpawnAndRetire : Prop :=
  (∀ (s : State) (core bin : Nat), let b := (s.core core).bin bin
    ((b.recs = [] ∨ s.time.clock < b.deadline) → exec (.binTimerExpiry core bin) s = .next s) ∧
    (b.recs ≠ [] → b.deadline ≤ s.time.clock →
      ∃ t, exec (.binTimerExpiry core bin) s = .next t ∧ (t.core core).bin bin = { b with due := true } ∧
        (∀ j, j ≠ bin → (t.core core).bin j = (s.core core).bin j) ∧ (∀ c, c ≠ core → t.core c = s.core c) ∧
        t.groups = s.groups ∧ t.mem = s.mem)) ∧
  (∀ (s : State) (core bin : Nat),
    ((s.core core).formed = s.time.clock + 1 ∨ (((s.core core).bin bin).due = false ∧ ((s.core core).bin bin).recs.length < 256) ∨
      (∃ n, n < bin ∧ ((s.core core).bin n).due = true ∧ (formBin s core n).isSome = true)) →
      exec (.spawnGroupForm core bin) s = .next s) ∧
  (∀ (s : State) (core bin p pos : Nat) (tm : Team) (l : Launch), let b := (s.core core).bin bin
    let due := fun (n : Nat) => ((s.core core).bin n).due = true ∨ 256 ≤ ((s.core core).bin n).recs.length
    due bin → (∀ n, n < bin → due n → formBin s core n = none) → (s.core core).formed ≠ s.time.clock + 1 →
    b.recs ≠ [] → Tab.look s.teams b.team = some tm → tm.placed = true →
    Tab.look s.launches tm.launch = some l → choosePart s core = some p → (freePositions s core p).head? = some pos →
    positionFree s core = true → (teamGroups s b.team).length < 64 → 4 ≤ l.rows → 4 ≤ ((s.core core).part p).gen →
      ∃ t, exec (.spawnGroupForm core bin) s = .next t ∧
        (∃ g, t.group (core * 256 + pos) = some g ∧ g.ids.team = b.team ∧ g.ids.asid = l.asid ∧ g.ids.world = l.world ∧
          g.ids.budget = l.rows ∧ g.mapped = [0, 1, 2, 3] ∧ g.clause = none ∧
          (∀ i rec, b.recs[i]? = some rec → g.thread i = newThread rec.entry rec.args) ∧
          g.ids.grp = nextGrp ((teamGroups s b.team).map (fun x => x.ids.grp)) 65536 tm.nextGrp) ∧
        (∀ k, k ≠ core * 256 + pos → t.group k = s.group k) ∧ ((t.core core).bin bin).recs = [] ∧
        ((t.core core).part p).gen = ((s.core core).part p).gen - 4 ∧ (t.core core).formed = s.time.clock + 1 ∧ t.mem = s.mem) ∧
  (∀ (s : State) (k : Nat) (g : Group), s.group k = some g → groupDone s g = false → exec (.groupRetire k) s = .next s) ∧
  (∀ (s t : State) (k : Nat) (g : Group), s.group k = some g → groupDone s g = true → g.park = .requested →
    exec (.groupRetire k) s = .next t →
      (t.core (coreOf k)).sup.busy = false ∧ (t.core (coreOf k)).sup.result = 1) ∧
  (∀ (s : State) (k : Nat) (g : Group) (tm : Team), s.group k = some g → groupDone s g = true →
    Tab.look s.teams g.ids.team = some tm →
    (1 < (teamGroups s g.ids.team).length ∨ binsHold s g.ids.team = true →
      ∃ t, exec (.groupRetire k) s = .next t ∧ t.group k = none ∧ (∀ j, j ≠ k → t.group j = s.group j) ∧ t.teams = s.teams ∧
        t.sysq = s.sysq.filter (fun r => !(r.team == g.ids.team && r.grp == g.ids.grp)) ∧
        ((t.core (coreOf k)).part (partOf k)).freeing =
          ((s.core (coreOf k)).part (partOf k)).freeing + g.mapped.length + (if g.trap.isSome then 8 else 0)) ∧
    ((teamGroups s g.ids.team).length ≤ 1 → binsHold s g.ids.team = false →
      ∃ t, exec (.groupRetire k) s = .next t ∧ t.group k = none ∧
        (∀ tm', Tab.look t.teams g.ids.team = some tm' → tm'.unit = tm.unit → tm'.retired = true ∧ tm'.slots = 0 ∧ tm'.tiles = 0 ∧
          tm'.slotCeil = 0 ∧ tm'.tileCeil = 0 ∧ tm'.sdat = [] ∧ tm'.sscale = [] ∧ tm'.tdat = [] ∧ tm'.claim = none) ∧
        ((∃ x ∈ s.teams, x.1 ≠ g.ids.team ∧ x.2.unit = tm.unit ∧ x.2.retired = false) →
          (Tab.look t.teams g.ids.team).isSome = true) ∧
        (∀ l, Tab.look s.launches tm.launch = some l → ∃ l', Tab.look t.launches tm.launch = some l' ∧
          l'.teamsLeft = l.teamsLeft - 1 ∧ (l.teamsLeft ≤ 1 → l.st = .running →
            l'.st = .final ∧ Ended s t l.core l.seq stSUCCESS))))

/-- The life of a launch before it runs (R262 to R264, R276, R278): submission, the reading and judging of its record, its
dependences, its start time. The distributor (R278 to R284, R296, R378): every 16 clocks it considers the first unit
of each launch in order of priority and queue, only the head's once it has waited for 1 ms, and places the first that
fits on the fitting rectangle of highest score: a fresh unit's teams form with their windows zero, a pre-empted one's
are reserved; each core then serves the world. -/
def Obligations.LaunchesAndDistribution : Prop :=
  ((∀ (s : State) (core pa asid world : Nat), let q := (s.core core).seq
      (placeCap ≤ placesTaken s ∨ 65536 ≤ asid → exec (.launchSubmit core pa asid world) s = .next s) ∧
      (placesTaken s < placeCap → asid < 65536 → After (.launchSubmit core pa asid world) s (fun t =>
        Tab.look t.launches s.dist.nextLaunch = some { Launch.blank with
          core := core, seq := q, recBytes := granulesAt s asid pa 16, world := world, asid := asid, bySup := true } ∧
        t.dist.nextLaunch = s.dist.nextLaunch + 1 ∧ (t.core core).seq = (q + 1) % 2 ^ 48 ∧
        (∀ j, j ≠ s.dist.nextLaunch → Tab.look t.launches j = Tab.look s.launches j) ∧
        t.groups = s.groups ∧ t.mem = s.mem))) ∧
    (∀ (s : State) (lid : Nat) (l : Launch), Tab.look s.launches lid = some l → l.st = .reading → placesTaken s < placeCap →
      After (.launchRecordRead lid) s (fun t => t.mem = s.mem ∧
        (∀ line, recordFault s l = some line →
          Tab.look t.launches lid = some { l with st := .final } ∧ Ended s t l.core l.seq (statusWord 0x000C line)) ∧
        (recordFault s l = none → Tab.look t.launches lid = some (fillLaunch s l)) ∧
        (∀ k g n, l.gk = some k → s.group k = some g → l.flag = some n →
          ∃ g', t.group k = some g' ∧ g'.flagCount n = g.flagCount n - 1))) ∧
    (∀ (s : State) (lid : Nat) (l : Launch), Tab.look s.launches lid = some l → l.st = .dependent →
      let queued := fun (t : State) => Tab.look t.launches lid = some { l with st := .queued } ∧
        Tab.lookD t.dist.queues l.prio [] = Tab.lookD s.dist.queues l.prio [] ++ [⟨lid, 0, l.units, false⟩] ∧
        (∀ p, p ≠ l.prio → Tab.lookD t.dist.queues p [] = Tab.lookD s.dist.queues p []) ∧ t.groups = s.groups ∧ t.mem = s.mem
      ((∃ h ∈ l.deps, s.handleDone h = false) → exec (.launchDepsDone lid) s = .next s) ∧
      ((∀ h ∈ l.deps, s.handleDone h = true) →
        ((∃ h ∈ l.deps, depGood (s.status h) = false) → After (.launchDepsDone lid) s (fun t =>
          Tab.look t.launches lid = some { l with st := .final } ∧ Ended s t l.core l.seq (statusWord 0x000D 0))) ∧
        ((∀ h ∈ l.deps, depGood (s.status h) = true) →
          (l.timed = true → s.time.ftime < l.start.toNat →
            exec (.launchDepsDone lid) s = .next { s with launches := Tab.put s.launches lid { l with st := .timed } }) ∧
          (l.timed = false ∨ l.start.toNat ≤ s.time.ftime → After (.launchDepsDone lid) s queued)))) ∧
    (∀ (s : State) (lid : Nat) (l : Launch), Tab.look s.launches lid = some l → l.st = .timed →
      (s.time.ftime < l.start.toNat → exec (.launchStartTime lid) s = .next s) ∧
      (l.start.toNat ≤ s.time.ftime → After (.launchStartTime lid) s (fun t =>
        Tab.look t.launches lid = some { l with st := .queued } ∧
        Tab.lookD t.dist.queues l.prio [] = Tab.lookD s.dist.queues l.prio [] ++ [⟨lid, 0, l.units, false⟩] ∧
        t.groups = s.groups ∧ t.mem = s.mem)))) ∧
  (∀ (s : State), let s1 := watchHead s
      (s.time.clock < s1.dist.lastConsider + 16 → exec .distributorConsider s = .next s1) ∧
      (s1.dist.lastConsider + 16 ≤ s.time.clock →
        let s2 : State := { s1 with dist := { s1.dist with lastConsider := s.time.clock } }
        let cs := if s1.dist.head.isSome = true ∧ s1.dist.headSince + 16000000 ≤ s.time.ftime then
          (candidates s1.dist).filter (fun x => s1.dist.head == some (x.2.launch, x.2.lo)) else candidates s1.dist
        let fits := fun (x : Nat × QEnt) => (Tab.look s1.launches x.2.launch).bind (fun l => (bestRect s2 l).map (fun r => (l, r)))
        ((∀ x ∈ cs, fits x = none) → exec .distributorConsider s = .next s2) ∧
        (∀ before x after l r, cs = before ++ x :: after → (∀ y ∈ before, fits y = none) → fits x = some (l, r) →
          let key := fun (i : Nat) => x.2.launch * 2 ^ 24 + (x.2.lo * l.w * l.h + i)
          (x.2.back = false → After .distributorConsider s (fun t =>
            (∃ u, Tab.look t.units (unitKey x.2.launch x.2.lo) = some u ∧ u.launch = x.2.launch ∧ u.index = x.2.lo ∧
              u.saved = none) ∧
            (∃ l', Tab.look t.launches x.2.launch = some l' ∧ l'.st = .running ∧ l'.placedUnits = l.placedUnits + 1) ∧
            (∀ i core, r[i]? = some core → (t.core core).pw.lastWorld = some l.world ∧ ∃ tm, Tab.look t.teams (key i) = some tm ∧
              tm.core = core ∧ tm.placed = true ∧ tm.pos = i ∧ tm.vlen = l.vault ∧ tm.num = x.2.lo * l.w * l.h + i ∧
              ∀ a, vaultHome core tm.vbase ≤ a → a < vaultHome core tm.vbase + tm.vlen → t.mem.read a = 0))) ∧
          (x.2.back = true → After .distributorConsider s (fun t => t.groups = s.groups ∧ t.mem = s.mem ∧
            ∀ i core tm, r[i]? = some core → Tab.look s.teams (x.2.launch * 2 ^ 24 + x.2.lo * l.w * l.h + i) = some tm →
              (t.core core).pw.lastWorld = some l.world ∧
              (∃ tm', Tab.look t.teams (x.2.launch * 2 ^ 24 + x.2.lo * l.w * l.h + i) = some tm' ∧
                tm'.core = core ∧ tm'.placed = true ∧ tm'.num = tm.num))))) ∧
      (exec .headAgingExpiry s = .next
        (if s1.dist.head.isSome = true ∧ s1.dist.headSince + msTicks ≤ s1.time.ftime then { s1 with dist := { s1.dist with aged := true } }
         else s1)))

/-- The steps of a copy channel (R237, R241, R242, R257, R265, R312, R363): acceptance clears the flag; serving sets the
write pointer to the row to come; a delivered or skipped row moves it past itself, the last ends the copy; a row that
cannot be moved stops it with the status of its cause; a cancelled copy ends CANCELLED at a row boundary, the write
pointer at the start of the row to come; a copy that ends leaves its channel. The vector L1 (R302 to R304): a
supervisor core's fence brings what the package has modified of leases to their lenders (R344, R436) and steps the
device generation, after which no line of an older one hits; the pass that follows a step clears the lines of the
generation to come, so that none can hit again; a fill that arrives makes its line hit. -/
def Obligations.CopiesUnderWay : Prop :=
  (∀ (s : State) (core ch : Nat),
      let k := s.core core
      let left := fun (c : Copy) => (k.chan ch).filter (fun x => !decide (x.seq = c.seq ∧ x.hcore = c.hcore))
      (∀ c, (k.chan ch).find? (fun c => !c.accepted) = some c → c.gk < 2 ^ 41 → After (.copyAccept core ch) s (fun t =>
        (t.core core).chan ch = (k.chan ch).map (fun x => if x.seq = c.seq ∧ x.hcore = c.hcore then { x with accepted := true } else x) ∧
        (∀ g n, s.group c.gk = some g → c.flag = some n → ∃ g', t.group c.gk = some g' ∧ g'.flagCount n = g.flagCount n - 1) ∧
        (∀ j, j ≠ c.gk → t.group j = s.group j) ∧ t.mem = s.mem)) ∧
      (∀ c, headCopy s core ch false = some c → c.accepted = true → c.cancel = false →
        After (.copyServeBegin core ch) s (fun t => (t.core core).isServing ch = true ∧
          (t.core core).wpOf ch = BitVec.ofInt 64 (if c.next = 0 then dstBase c.ops c.dest else dstRow c.lay c.ops c.dest c.next) ∧
          (∀ n, n ≠ ch → (t.core core).wpOf n = k.wpOf n) ∧ (t.core core).ch = k.ch ∧ t.groups = s.groups ∧ t.mem = s.mem)) ∧
      (∀ c, headCopy s core ch true = some c → c.cancel = false → rowSkipped s core c = true →
        After (.copyRowSkip core ch) s (fun t => (t.core core).wpOf ch = wpAfter c c.next ∧ t.mem = s.mem ∧
          (c.next + 1 < c.lay.rows → (t.core core).chan ch = { c with next := c.next + 1 } :: (k.chan ch).drop 1) ∧
          (c.lay.rows ≤ c.next + 1 → (t.core core).chan ch = left c ∧ (t.core core).isServing ch = false ∧
            Ended s t c.hcore c.seq (copyStatus c)))) ∧
      (∀ c s1 c1, headCopy s core ch true = some c → c.cancel = false → rowSkipped s core c = false →
        tryRow s core c = .ok (s1, c1) →
        After (.copyRowDeliver core ch) s (fun t => (t.core core).wpOf ch = wpAfter c c.next ∧ t.mem = s1.mem ∧
          (c.next + 1 < c.lay.rows → (t.core core).chan ch = { c1 with next := c.next + 1 } :: (k.chan ch).drop 1 ∧
            t.groups = s1.groups ∧ t.teams = s1.teams) ∧
          (c.lay.rows ≤ c.next + 1 → (t.core core).chan ch = left c ∧ (t.core core).isServing ch = false ∧
            Ended s t c.hcore c.seq (copyStatus c1)))) ∧
      (∀ c e, headCopy s core ch true = some c → c.cancel = false → rowSkipped s core c = false → tryRow s core c = .error e → e.cause ≠ cWAIT →
        After (.copyStop core ch) s (fun t => (t.core core).chan ch = left c ∧ (t.core core).isServing ch = false ∧
          (t.core core).wpOf ch = BitVec.ofInt 64 (dstRow c.lay c.ops c.dest c.next) ∧ t.mem = s.mem ∧
          Ended s t c.hcore c.seq (statusWord (copyCode e.cause) 0))) ∧
      (∀ c, (k.chan ch).find? (fun c => c.cancel) = some c → After (.copyCancel core ch) s (fun t => t.mem = s.mem ∧
        Ended s t c.hcore c.seq stCANCELLED ∧
        (t.core core).chan ch = left c ∧
        (t.core core).wpOf ch = (if headCopy s core ch true = some c then BitVec.ofInt 64 (dstRow c.lay c.ops c.dest c.next) else k.wpOf ch) ∧
        (∀ x, (k.chan ch).head? = some x → x.seq = c.seq → x.hcore = c.hcore → (t.core core).isServing ch = false)))) ∧
  (∀ (s : State) (core : Nat), let l := (s.core core).l1
      (After (.supervisorFence core) s (fun t => (t.core core).l1.cgd = l.cgd + 1 ∧ (t.core core).l1.passD = true ∧
        (∀ asid va x, l1Hit t core asid va = some x → x.lgd ≠ l.cgd) ∧
        (∀ c, c ≠ core → t.core c = s.core c) ∧ t.groups = s.groups ∧ t.mem = (releaseFar s 3).mem ∧
        ((∀ x ∈ s.lease.lines, x.2.dirty = false) → t.mem = s.mem))) ∧
      (l.passC = true → After (.genPassDone core false) s (fun t => (t.core core).l1.passC = false ∧
        (∀ key x, Tab.look (t.core core).l1.lines key = some x → x.lgc ≠ l.cgc + 1) ∧
        (t.core core).l1.cgc = l.cgc ∧ (t.core core).l1.cgd = l.cgd ∧ t.groups = s.groups ∧ t.mem = s.mem)) ∧
      (l.passD = true → After (.genPassDone core true) s (fun t => (t.core core).l1.passD = false ∧
        (∀ key x, Tab.look (t.core core).l1.lines key = some x → x.lgd ≠ l.cgd + 1) ∧
        (t.core core).l1.cgc = l.cgc ∧ (t.core core).l1.cgd = l.cgd ∧ t.groups = s.groups ∧ t.mem = s.mem)) ∧
      (∀ key x, l.fills.head? = some (key, x) → After (.l1Fill core) s (fun t =>
        Tab.look (t.core core).l1.lines key = some { x with valid := 0xF } ∧ Tab.look (t.core core).l1.fills key = none ∧
        t.groups = s.groups ∧ t.mem = s.mem)))

/-- The steps of the matrix engine (R253 to R255, R391 to R394): a quarter joins the open pass or opens one and clears its
flag; a pass closes when it holds four quarters or after 16 clocks; it takes the array when that is free, for 128
clocks, and reads its slots then, its tiles as the passes before it leave them; 32 clocks after its 128 its rows hold
the new values; MMZ, ACCRD and ACCWR arrive, close the open pass, and take effect once no earlier pass or operation
that waits names their tile, and a pass does not take the array before one that waits for a tile of it. That slots and
tiles are read as the array is taken, and that it is free again before the write-back ends, is log 24. Waiting claims
and releases (R251, R252, R391, R397), and engine programs (R260, R261): a claim that can be served gives its team
zero slots and tiles; a waiting release returns what it names once nothing uses it and its group runs on (log 23); a
program starts on a free sequencer at its time, one cancelled meanwhile at once, and its handle completes with its
outcome once its operations have. -/
def Obligations.EngineSteps : Prop :=
  (∀ (s : State) (core : Nat),
      let m := (s.core core).mx
      (∀ r q, m.queue = r :: q → r.op = 4 → After (.quarterArrive core) s (fun t =>
        (t.core core).mx.queue = q ∧ (t.core core).mx.run = m.run ∧ t.mem = s.mem ∧ t.teams = s.teams ∧
        (∀ g n, r.gk < 2 ^ 41 → s.group r.gk = some g → r.flag = some n → ∃ g', t.group r.gk = some g' ∧ g'.flagCount n = g.flagCount n - 1) ∧
        (m.opn = none → (t.core core).mx.opn = some ⟨[r], s.time.clock, [], 0⟩ ∧ (t.core core).mx.closed = m.closed) ∧
        (∀ p, m.opn = some p → joins p r s.time.clock = true →
          if p.recs.length = 3 then (t.core core).mx.opn = none ∧ (t.core core).mx.closed = m.closed ++ [{ p with recs := p.recs ++ [r] }]
          else (t.core core).mx.opn = some { p with recs := p.recs ++ [r] } ∧ (t.core core).mx.closed = m.closed) ∧
        (∀ p, m.opn = some p → joins p r s.time.clock = false →
          (t.core core).mx.opn = some ⟨[r], s.time.clock, [], 0⟩ ∧ (t.core core).mx.closed = m.closed ++ [p]))) ∧
      (∀ p, m.opn = some p → p.opened + 16 ≤ s.time.clock →
        exec (.passWindowExpiry core) s = .next (s.onMx core (fun _ => { m with opn := none, closed := m.closed ++ [p] }))) ∧
      let m' := freeArray m s.time.clock
      (∀ p, m.run = some p → (p.ends ≤ s.time.clock → m'.run = none ∧ m'.ended = m.ended ++ [p]) ∧
        (s.time.clock < p.ends → exec (.passStart core) s = .next s)) ∧
      (∀ p l, m'.run = none → m.closed = p :: l →
        m.waits.any (fun r => p.recs.any (fun x => x.team == r.team && x.tile == r.tile && seqOlder r.seq x.seq)) = true →
        exec (.passStart core) s = .next s) ∧
      (∀ p l, m'.run = none → m.closed = p :: l →
        m.waits.any (fun r => p.recs.any (fun x => x.team == r.team && x.tile == r.tile && seqOlder r.seq x.seq)) = false →
        After (.passStart core) s (fun t =>
        (t.core core).mx.closed = l ∧ (t.core core).mx.ended = m'.ended ∧
        (∃ p', (t.core core).mx.run = some p' ∧ p'.recs = p.recs ∧ p'.ends = s.time.clock + 128 ∧
          ∀ r ∈ p.recs, ∀ tm f, Tab.look (m'.ended.foldl writeRows s).teams r.team = some tm → mmaFormat r.fmt = some f →
            ∃ d, (r.team, r.tile, d) ∈ p'.rows ∧ ∀ i j, 32 * r.row ≤ i → i < 32 * r.row + 32 → j < 128 → i < 128 →
              Tab.lookD d (tileKey r.tile i j) 0 = mmaElem tm f r.slotA r.slotB i j (tileAt tm r.tile i j)) ∧
        t.groups = s.groups ∧ t.teams = s.teams ∧ t.mem = s.mem)) ∧
      (∀ p l, m'.ended = p :: l → s.time.clock < p.ends + 32 → exec (.passWriteback core) s = .next s) ∧
      (∀ p l, m'.ended = p :: l → p.ends + 32 ≤ s.time.clock → After (.passWriteback core) s (fun t =>
        (t.core core).mx = { m' with ended := l } ∧
        t.groups = s.groups ∧ t.mem = s.mem ∧ ∀ k tm, Tab.look s.teams k = some tm → ∃ tm', Tab.look t.teams k = some tm' ∧
          tm' = { tm with tdat := tm'.tdat } ∧
          (∀ x ∈ p.rows, x.1 = k → ∀ e ∈ x.2.2, (∀ z ∈ p.rows, z.1 = k → ∀ y ∈ z.2.2, y.1 = e.1 → y.2 = e.2) →
            Tab.lookD tm'.tdat e.1 0 = e.2) ∧
          (∀ key, (∀ x ∈ p.rows, x.1 = k → ∀ e ∈ x.2.2, e.1 ≠ key) → Tab.lookD tm'.tdat key 0 = Tab.lookD tm.tdat key 0))) ∧
      let m1 : Chamois := match m.queue with
        | r :: q => if r.op = 4 then m else { closePass m with queue := q, waits := m.waits ++ [r] }
        | [] => m
      let older := fun (r x : MRec) => x.team == r.team && x.tile == r.tile && seqOlder x.seq r.seq
      let ready := m1.waits.find? (fun r => !(m1.passes.any (fun p => p.recs.any (older r))) && !(m1.waits.any (older r)))
      (ready = none → exec (.tileOpEffect core) s = .next (s.onMx core (fun _ => m1))) ∧
      (∀ r tm, ready = some r → Tab.look s.teams r.team = some tm →
        After (.tileOpEffect core) s (fun t =>
          (t.core core).mx = { m1 with waits := m1.waits.filter (fun x => x.seq != r.seq) } ∧ t.mem = s.mem ∧ (∀ j, j ≠ r.gk → t.group j = s.group j) ∧
          (r.op ≠ 6 → ∀ g n, r.gk < 2 ^ 41 → s.group r.gk = some g → r.flag = some n →
            ∃ g', t.group r.gk = some g' ∧ g'.flagCount n = g.flagCount n - 1) ∧
          (r.op = 5 → ∃ tm', Tab.look t.teams r.team = some tm' ∧ tm' = { tm with tdat := tm'.tdat } ∧
            ∀ tile i j, i < 128 → j < 128 → tileAt tm' tile i j = if tile = r.tile then 0 else tileAt tm tile i j) ∧
          (r.op = 6 → t.teams = s.teams ∧ ∀ g, r.gk < 2 ^ 41 → s.group r.gk = some g → t.group r.gk = some { g with
            pend := g.pend.map (fun p => if p.seq = r.sweep then { p with writes := p.writes.map (fillAcc tm r) } else p) }) ∧
          (r.op = 7 → ∃ tm', Tab.look t.teams r.team = some tm' ∧ tm' = { tm with tdat := tm'.tdat } ∧
            (∀ u y, (u, y) ∈ r.data → (∀ z, (u, z) ∈ r.data → z = y) → tileAt tm' r.tile (r.row + u / 128) (u % 128) = y) ∧
            (∀ i j, j < 128 → (∀ e ∈ r.data, accElem r e.1 ≠ (i, j)) → tileAt tm' r.tile i j = tileAt tm r.tile i j))))) ∧
  ((∀ (s : State) (core k : Nat) (c : ClaimReq) (tm : Team), claimNext s core = some (k, c) → Tab.look s.teams k = some tm →
      After (.claimGrant core) s (fun t => t.groups = s.groups ∧ t.mem = s.mem ∧ (∀ j, j ≠ k → Tab.look t.teams j = Tab.look s.teams j) ∧
        ∃ tm', Tab.look t.teams k = some tm' ∧ tm'.slots = c.slots ∧ tm'.tiles = c.tiles ∧ tm'.claim = none ∧
          (∀ slot off, slotByte tm' slot off = 0 ∧ scaleByte tm' slot off = 0) ∧ ∀ tile i j, tileAt tm' tile i j = 0)) ∧
    (∀ (s : State) (k : Nat) (tm : Team), Tab.look s.teams k = some tm → tm.relSlots = true ∨ tm.relTiles = true →
      (releaseBusy s k tm tm.relSlots tm.relTiles = true → exec (.releaseDone k) s = .next s) ∧
      (releaseBusy s k tm tm.relSlots tm.relTiles = false → After (.releaseDone k) s (fun t => t.mem = s.mem ∧
        (∃ tm', Tab.look t.teams k = some tm' ∧ tm'.relSlots = false ∧ tm'.relTiles = false ∧
          tm'.slots = (if tm.relSlots then 0 else tm.slots) ∧ tm'.tiles = (if tm.relTiles then 0 else tm.tiles)) ∧
        ∀ j, t.group j = (s.group j).map (fun g => if g.ids.team = k ∧ g.hold = .release then { g with hold := .none } else g)))) ∧
    (∀ (s : State) (core sq : Nat) (p : Group) (l : List Group) (x : Prog), sq < 2 → s.group (progKey core sq) = none →
      (s.core core).pq sq = p :: l → p.prog = some x →
      (x.outcome = none → s.time.ftime < x.start.toNat → exec (.programStart core sq) s = .next s) ∧
      (x.outcome.isSome = true ∨ x.start.toNat ≤ s.time.ftime → After (.programStart core sq) s (fun t => t.group (progKey core sq) = some p ∧
        (t.core core).pq sq = l ∧ (t.core core).pq (1 - sq) = (s.core core).pq (1 - sq) ∧
        (∀ j, j ≠ progKey core sq → t.group j = s.group j) ∧ t.mem = s.mem))) ∧
    (∀ (s : State) (core sq : Nat) (g : Group) (p : Prog) (x : W32), s.group (progKey core sq) = some g → g.prog = some p →
      p.outcome = some x →
      (programIdle s core sq g p = false → exec (.programEnd core sq) s = .next s) ∧
      (programIdle s core sq g p = true → After (.programEnd core sq) s (fun t => t.group (progKey core sq) = none ∧
        Ended s t p.hcore p.seq x ∧ t.mem = s.mem))))

/-- The commands of PWCTL (R366, R368, R370, R375, R276): while BUSY every one is ignored, with no group selected it
answers 4; PARK asks a running group to stop and is busy until it stands parked; RESUME lets a parked group run;
REFLECT answers 1 for a group that is not parked, 2 for one in trap mode or without a handler, and hands a delivery
with its new cause to the group's handler, or, with none, to the supervisor core once more; TERMINATE ends the group's
launch; CAPLOAD and CAPSTORE move a capability with its tag, malformed and revoked ones losing theirs (R81, R103), and
in memory one without ROAM (R89, log 67), where Mydal's key opens the granule and its page may be written (R451,
R453). A park that wants a save area waits for one as log 45 reads R375, done with RESULT 1 (log 75), and RESUME asks
again. PWDATA (R367): it reads and writes the registers of a parked group by index, and answers 4 with no group
selected, 1 for a group that is not parked, 3 for an index that is none; a thread whose pc it changes leaves the held
sweeps (R369). -/
def Obligations.ParkAccess : Prop :=
  (∀ (s : State) (core : Nat), let k := selKey s core; let u := (s.core core).sup
      let answers := fun (t : State) (r : BitVec 3) => (t.core core).sup.busy = false ∧ (t.core core).sup.result = r
      (∀ i ∈ ([.park core, .resume core, .reflect core, .terminate core, .capload core, .capstore core] : List Instr),
        (u.busy = true → exec i s = .next s) ∧
        (u.busy = false → s.group k = none → exec i s = .next (s.onSup core (fun u => u.done 4)))) ∧
      (∀ g, s.group k = some g → posOf k < 128 → u.busy = false →
        (g.park = .running ∨ g.park = .stopping ∨ g.park = .evicting ∨ g.park = .delivered → After (.park core) s (fun t => t.group k = some { g with park := .requested } ∧
          (∀ j, j ≠ k → t.group j = s.group j) ∧ (t.core core).sup = { u with busy := true } ∧ t.mem = s.mem)) ∧
        (g.park = .parked → exec (.park core) s = .next (s.onSup core (fun u => u.done 0))) ∧
        (g.park = .delivered ∨ g.park = .parked → After (.resume core) s (fun t => answers t 0 ∧ t.mem = s.mem ∧
          (g.park = .parked → ∀ asid va x, l1Hit t core asid va = some x → x.lgd ≠ (s.core core).l1.cgd) ∧
          ∃ g', t.group k = some g' ∧ g'.park = .running ∧ g'.sup = none ∧ { g'.regs with h := g.regs.h } = g.regs ∧
            g'.held = g.held)) ∧
        (g.park = .running → exec (.resume core) s = .next (s.onSup core (fun u => u.done 1))) ∧
        (pwOpen g = false → exec (.reflect core) s = .next (s.onSup core (fun u => u.done 1))) ∧
        (pwOpen g = true → g.trap.isSome = true ∨ (g.hasHandler = false ∧ g.sup = none) →
          exec (.reflect core) s = .next (s.onSup core (fun u => u.done 2))) ∧
        (pwOpen g = true → g.trap = none → g.hasHandler = true → g.sup = none →
          exec (.reflect core) s = .next (s.onSup core (fun u => u.done 1))) ∧
        (∀ d, g.sup = some d → g.hasHandler = false → g.trap = none →
          let d' : Delivery := { d with tcause := u.pwdata.setWidth 16 }
          After (.reflect core) s (fun t => answers t 2 ∧ t.group k = some { g with sup := some d' } ∧
            CoreNoted s t core (eventRecord s k g d' (eventFlags g + 1)))) ∧
        (∀ d s2, g.sup = some d → g.hasHandler = true → g.trap = none →
          takeWindow (s.setGroup k { g with sup := none, park := .running }) k = some s2 →
          After (.reflect core) s (fun t => answers t 0 ∧ t.mem = s.mem ∧
            (g.park = .parked → ∀ asid va x, l1Hit t core asid va = some x → x.lgd ≠ (s.core core).l1.cgd) ∧ ∃ g' tr, t.group k = some g' ∧ g'.sup = none ∧
            g'.park = .running ∧ g'.trap = some tr ∧ tr.tcause = u.pwdata.setWidth 16 ∧ tr.tmask = d.tmask ∧ tr.tres = d.tres)) ∧
        (∀ tm l, Tab.look s.teams g.ids.team = some tm → Tab.look s.launches tm.launch = some l →
          After (.terminate core) s (fun t => answers t 0 ∧ t.mem = s.mem ∧
            ∃ l', Tab.look t.launches tm.launch = some l' ∧ (l'.st = .ending ∨ l'.st = .final))) ∧
        (pwOpen g = false → ∀ i ∈ ([.capload core, .capstore core] : List Instr), exec i s = .next (s.onSup core (fun u => u.done 1))) ∧
        (∀ r, pwOpen g = true → pwCapReg u.pwidx.toNat = some r → u.pwdata.toNat % 16 = 0 → paLocal s u.pwdata.toNat = true →
          (After (.capload core) s (fun t => answers t 0 ∧ t.mem = s.mem ∧ ∃ g', t.group k = some g' ∧
            (r < 32 → (g'.thread u.pwtid.toNat).cap r = revCheck s g.ids.asid (devCap s u.pwdata.toNat)) ∧
            (32 ≤ r → g'.gcap (r - 32) = revCheck s g.ids.asid (devCap s u.pwdata.toNat)))) ∧
          (opens s (s.keys.world 0).key u.pwdata.toNat 16 = true → devCap s u.pwdata.toNat = capSane (s.readCapAt u.pwdata.toNat)) ∧
          (opens s (s.keys.world 0).key u.pwdata.toNat 16 = false → (devCap s u.pwdata.toNat).tag = false) ∧
          (After (.capstore core) s (fun t => answers t 0 ∧ t.groups = s.groups ∧
            let c := revCheck s g.ids.asid (g.capField u.pwtid.toNat r)
            (pageKept s u.pwdata.toNat = true → t.mem = s.mem) ∧
            (pageKept s u.pwdata.toNat = false → t.mem = s.mem.writeCap u.pwdata.toNat (capBytes c) (c.tag && capHas c pROAM)))))) ∧
      (∀ j g, s.group j = some g → g.park = .requested → parkReady s j g = true →
        let area := match Tab.look s.teams g.ids.team with | some t => saveArea s (coreOf j) t | none => 0
        (area = 0 → After (.parkComplete j) s (fun t => t.group j = some { g with park := .missing } ∧
          (t.core (coreOf j)).sup.busy = false ∧ (t.core (coreOf j)).sup.result = 1)) ∧
        (area ≠ 0 → After (.parkComplete j) s (fun t => t.group j = some { (walkGroup s g) with park := .parked } ∧
          (t.core (coreOf j)).sup.busy = false ∧ (t.core (coreOf j)).sup.result = 0 ∧
          t.mem = (releaseFar (saveGroup s area (walkGroup s g)) 3).mem))) ∧
      (∀ g, s.group k = some g → posOf k < 128 → u.busy = false →
        (g.park = .missing → exec (.resume core) s =
          .next ((s.setGroup k { g with park := .requested }).onSup core (fun u => { u with busy := true }))) ∧
        (g.park = .missingEvict → exec (.resume core) s = .next ((s.setGroup k { g with park := .evicting }).onSup core (fun u => u.done 0))) ∧
        (g.park = .missingStop → exec (.resume core) s = .next ((s.setGroup k { g with park := .stopping }).onSup core (fun u => u.done 0))))) ∧
  (∀ (s : State) (core : Nat), let k := selKey s core; let u := (s.core core).sup
      (s.group k = none →
        exec (.pwdataRead core) s = .next (s.onSup core (fun u => { u with pwdata := 0, result := 4 })) ∧
        ∀ x, exec (.pwdataWrite core x) s = .next (s.onSup core (fun u => { u with pwdata := x, result := 4 }))) ∧
      (∀ g, s.group k = some g →
        (pwOpen g = false →
          exec (.pwdataRead core) s = .next (s.onSup core (fun u => { u with pwdata := 0, result := 1 })) ∧
          ∀ x, exec (.pwdataWrite core x) s = .next (s.onSup core (fun u => { u with pwdata := x, result := 1 }))) ∧
        (pwOpen g = true →
          (∀ y, pwRead s k g u.pwtid.toNat u.pwidx.toNat = some y →
            exec (.pwdataRead core) s = .next (s.onSup core (fun u => { u with pwdata := y, result := 0 }))) ∧
          (pwRead s k g u.pwtid.toNat u.pwidx.toNat = none →
            exec (.pwdataRead core) s = .next (s.onSup core (fun u => { u with pwdata := 0, result := 3 }))) ∧
          ∀ x, After (.pwdataWrite core x) s (fun t => (t.core core).sup.pwdata = x ∧ t.mem = s.mem ∧
            (∀ j, j ≠ k → t.group j = s.group j) ∧ ∃ g', t.group k = some g' ∧
            (u.pwidx.toNat < 128 → KeySet.has g.mapped u.pwidx.toNat = true →
              Tab.lookD (g'.thread u.pwtid.toNat).v u.pwidx.toNat 0 = x.setWidth 32 ∧ (t.core core).sup.result = 0) ∧
            (128 ≤ u.pwidx.toNat → u.pwidx.toNat < 135 → (g'.thread u.pwtid.toNat).pred (u.pwidx.toNat - 128) = x.getLsbD 0) ∧
            (0x200 ≤ u.pwidx.toNat → u.pwidx.toNat < 0x240 → g'.greg (u.pwidx.toNat - 0x200) = x ∧ (t.core core).sup.result = 0) ∧
            (0x260 ≤ u.pwidx.toNat → u.pwidx.toNat < 0x270 → x.getLsbD 0 = false → (g'.gcap (u.pwidx.toNat - 0x260)).tag = false) ∧
            (0x280 ≤ u.pwidx.toNat → u.pwidx.toNat < 0x290 →
              g'.handle (u.pwidx.toNat - 0x280) = some (x &&& 0x0FFFFFFFFFFFFFFF) ∧ (t.core core).sup.result = 0) ∧
            (u.pwidx.toNat = 0x307 → g.trap = none → BitVec.ofNat 64 (g.thread u.pwtid.toNat).pc ≠ x →
              ∀ y, Tab.look g.th u.pwtid.toNat = some y →
                (g'.thread u.pwtid.toNat).pc = x.toNat ∧ ∀ h ∈ g'.held, u.pwtid.toNat ∉ h.active) ∧
            (u.pwidx.toNat = 0x304 → g'.r.fmt = x.setWidth 32) ∧ (u.pwidx.toNat = 0x306 → g'.r.fpctl = fpctlStored (x.setWidth 32)) ∧
            (0x400 ≤ u.pwidx.toNat → g' = g ∧ (t.core core).sup.result = 3)))))

/-- Registers of control pages that only store (R9, R105, R308, R366, R418, R420, R428, R442, R450), reserved bits kept
zero; the command registers of R105, R308, R370, R418, R420, R428 and R450, each value the command it names and the
others refused or ignored; and the tails of the event rings: a tail written is kept modulo the ring's size, and events
held back then enter the ring in order until it is full (R366, R430, R443). That a write of a lender entry that is not
free, and a lease command under BUSY, is ignored are logs 36 and 37, that a refused ENABLE keeps OVF and that KSCMD
judges BUSY first log 61, that the host on each link has registers of its own for its fences log 63, and that a base
keeps its low bits log 80. Context switches (R296, R374 to R376): a unit some part of which is not at a boundary is
asked to stop there; one of whose teams no save area is named waits for it; otherwise its groups leave their
positions, it re-enters the head of its queue as pre-empted, behind units of lower index of its launch (log 59), and
what it held is kept until every team of it is placed again. The wait for a save area is log 45, and what is kept of
the unit is the record that log 27 names. -/
def Obligations.ControlRegisters : Prop :=
  ((∀ (s : State) (x : W64),
      let kept := fun (r : Reg) (P : State → Prop) => After (.registerWrite r x) s (fun t => t.groups = s.groups ∧ t.mem = s.mem ∧ P t)
      (∀ c, kept (.pwsel c) (fun t => (t.core c).sup.pwsel = x.setWidth 7) ∧ kept (.pwtid c) (fun t => (t.core c).sup.pwtid = x.setWidth 8) ∧
        kept (.pwidx c) (fun t => (t.core c).sup.pwidx = x.setWidth 12) ∧
        kept (.savebase c) (fun t => (t.core c).sup.savebase = x &&& 0xFFFFFFFFFFFFFF) ∧
        kept (.evbase c) (fun t => (t.core c).sup.evbase = x &&& 0xFFFFFFFFFFFFFF) ∧
        kept (.evsize c) (fun t => (t.core c).sup.evsize = ringSize (x.setWidth 4))) ∧
      kept .rvtab (fun t => t.rev.tab = x &&& 0xFFFFFFFFFFFFFF) ∧ kept .rvnum (fun t => t.rev.num = x &&& 0x1FF) ∧
      kept .tva (fun t => t.xlat.tva = x) ∧ kept .tlen (fun t => t.xlat.tlen = x) ∧
      kept .tgensel (fun t => t.xlat.gensel = x.setWidth 16) ∧ kept .tbase (fun t => t.xlat.tbase = x &&& 0xFFFFFFFFFFFFFF) ∧
      kept .tdump (fun t => t.xlat.tdump = x &&& 0xFFFFFFFFFFFFFF) ∧ kept .tdlen (fun t => t.xlat.tdlen = x) ∧
      kept .tthr (fun t => t.xlat.tthr = x.setWidth 16) ∧ (∀ n, let h := fun (t : State) => (t.sys.port n).host
        kept (.rfasid n) (fun t => (h t).rfasid = x.setWidth 16) ∧ kept (.rfva n) (fun t => (h t).rfva = x) ∧
        kept (.rflen n) (fun t => (h t).rflen = x)) ∧ kept .larg (fun t => t.lease.larg = x) ∧
      kept .levbase (fun t => t.lease.evbase = x &&& 0xFFFFFFFFFFFFFF) ∧
      kept .levsize (fun t => t.lease.evsize = ringSize (x.setWidth 4)) ∧
      (∀ i off, i < lenderCount → (s.lease.lender i).st = 0 → kept (.lender i off) (fun t =>
        t.lease.lender i = (if off = 0 then { (s.lease.lender i) with ebase := (x &&& 0x3FFF).setWidth 32, elen := x.extractLsb' 32 32 }
          else if off = 8 then { (s.lease.lender i) with
            lid := x.setWidth 32, borrower := (x >>> 32 &&& 0xFFF).setWidth 16, mode := x.extractLsb' 48 8 }
          else if off = 16 then { (s.lease.lender i) with expiry := x } else s.lease.lender i))) ∧
      (∀ i off, (s.lease.lender i).st ≠ 0 → exec (.registerWrite (.lender i off) x) s = .next s) ∧
      (∀ i off, i < slotCount → kept (.slot i off) (fun t => (t.lease.slot i).st = (s.lease.slot i).st ∧
        (t.lease.slot i).salvn = (s.lease.slot i).salvn ∧ (t.lease.slot i).dropped = (s.lease.slot i).dropped ∧
        (off = 0 → (t.lease.slot i).lender = (x &&& 0xFFF).setWidth 16 ∧ (t.lease.slot i).lid = x.extractLsb' 32 32) ∧
        (off = 24 → (t.lease.slot i).salv = x &&& 0xFFFFFFFFFFFFFF) ∧ (off = 32 → (t.lease.slot i).salvlen = x.setWidth 32))) ∧
      (∀ d, kept (.rsbase d) (fun t => (t.die d).base = x &&& 0xFFFFFFFFFFFFFF) ∧ kept (.rslen d) (fun t => (t.die d).len = x.setWidth 13)) ∧
      kept .ksva (fun t => t.keys.va = x) ∧ kept .kspa (fun t => t.keys.pa = x &&& 0xFFFFFFFFFFFFFF) ∧
      kept .kssel (fun t => t.keys.sel = x.setWidth 12) ∧ kept .sevbase (fun t => t.sys.evbase = x &&& 0xFFFFFFFFFFFFFF) ∧
      kept .sevsize (fun t => t.sys.evsize = ringSize (x.setWidth 4))) ∧
    (∀ (s : State) (x : W64) (c : Nat), let u := (s.core c).sup
      let cmd := x.toNat % 16
      (cmd = 1 → exec (.registerWrite (.pwctl c) x) s = exec (.park c) s) ∧
      (cmd = 2 → exec (.registerWrite (.pwctl c) x) s = exec (.resume c) s) ∧
      (cmd = 3 → exec (.registerWrite (.pwctl c) x) s = exec (.reflect c) s) ∧
      (cmd = 4 → exec (.registerWrite (.pwctl c) x) s = exec (.terminate c) s) ∧
      (cmd = 5 → exec (.registerWrite (.pwctl c) x) s = exec (.capload c) s) ∧
      (cmd = 6 → exec (.registerWrite (.pwctl c) x) s = exec (.capstore c) s) ∧
      (cmd = 0 ∨ 7 ≤ cmd → exec (.registerWrite (.pwctl c) x) s =
        .next (if u.busy then s else s.onSup c (fun u => { u with busy := false, result := 3 }))) ∧
      (cmd = 1 → exec (.registerWrite .rvcmd x) s = exec .rvStart s) ∧
      (cmd ≠ 1 → exec (.registerWrite .rvcmd x) s = .next { s with rev := { s.rev with refused := true } }) ∧
      (cmd = 1 → exec (.registerWrite .kscmd x) s = exec (.ksCreate (x.toNat / 16 % 4096) (x.getLsbD 16)) s) ∧
      (cmd = 2 → exec (.registerWrite .kscmd x) s = exec (.ksMeasure (x.toNat / 16 % 4096)) s) ∧
      (cmd = 3 → exec (.registerWrite .kscmd x) s = exec (.ksFinal (x.toNat / 16 % 4096)) s) ∧
      (cmd = 4 → exec (.registerWrite .kscmd x) s = exec (.ksDestroy (x.toNat / 16 % 4096)) s) ∧
      (cmd = 0 ∨ 5 ≤ cmd → After (.registerWrite .kscmd x) s (fun t =>
        ksStat t = (if s.keys.busy then 9 else 6) ∧ t.keys.worlds = s.keys.worlds ∧ t.mem = s.mem))) ∧
    (∀ (s : State) (x : W64), let op := x.toNat / 65536 % 16
      let asid := x.toNat % 65536
      (op = 1 → exec (.registerWrite .tcmd x) s = exec (.bump asid) s) ∧
      (op = 2 → exec (.registerWrite .tcmd x) s = exec (.invalidateRange asid) s) ∧
      (op = 3 → exec (.registerWrite .tcmd x) s = exec .invalidateRangeAll s) ∧
      (op = 4 → exec (.registerWrite .tcmd x) s = exec (.dumpCounters asid) s) ∧
      (op = 0 ∨ 5 ≤ op → After (.registerWrite .tcmd x) s (fun t => tStat t = (if s.xlat.busy then 3 else 2) ∧
        t.xlat.tlb = s.xlat.tlb ∧ t.mem = s.mem)) ∧
      ∀ n, let h := (s.sys.port n).host
        After (.registerWrite (.rfctl n) x) s (fun t => (t.sys.port n).host =
          { h with rfreqs := h.rfreqs ++ [⟨x.toNat % 4, x.getLsbD 2, h.rfasid.toNat, h.rfva, h.rflen⟩] } ∧
          (∀ m, m ≠ n → t.sys.port m = s.sys.port m) ∧ t.mem = s.mem)) ∧
    (∀ (s : State) (x : W64), let op := x.toNat % 256
      let i := x.toNat / 256 % 16384
      let does := fun (i : Instr) => exec (.registerWrite .lcmd x) s = exec i s
      (op = 0x01 → does (.leaseOffer i)) ∧ (op = 0x02 → does (.leaseGrant i)) ∧ (op = 0x03 → does (.leaseWithdraw i)) ∧
      (op = 0x04 → does (.lenderRenew i)) ∧ (op = 0x05 → does (.leaseRecall i)) ∧ (op = 0x06 → does (.leaseClear i)) ∧
      (op = 0x11 → does (.slotClaim i)) ∧ (op = 0x12 → does (.borrowerRenew i)) ∧ (op = 0x13 → does (.leaseReturn i)) ∧
      (op = 0x14 → does (.slotRelease i)) ∧ (op = 0x15 → does (.leaseCancel i)) ∧
      (s.lease.busy = true → exec (.registerWrite .lcmd x) s = .next s) ∧
      (s.lease.busy = false → op ∉ ([1, 2, 3, 4, 5, 6, 0x11, 0x12, 0x13, 0x14, 0x15] : List Nat) → After (.registerWrite .lcmd x) s (fun t =>
        lStat t = 2 ∧ t.lease.lenders = s.lease.lenders ∧ t.lease.slots = s.lease.slots))) ∧
    (∀ (s : State) (x : W64) (d : Nat), let w := x.toNat / 65536 % 4096
      (x.getLsbD 0 = true → x.getLsbD 1 = false → exec (.registerWrite (.rsctl d) x) s = exec (.rsEnable d w) s) ∧
      (x.getLsbD 0 = false → x.getLsbD 1 = false → exec (.registerWrite (.rsctl d) x) s = exec (.rsDisable d) s) ∧
      (x.getLsbD 1 = true → After (.registerWrite (.rsctl d) x) s (fun t =>
        ((t.die d).ovf = false ∨ (x.getLsbD 0 = true ∧ t.die d = { (s.die d) with refused := true })) ∧
        (x.getLsbD 0 = false → (t.die d).active = false ∧ (t.die d).loading = false)))) ∧
    (∀ (s : State) (x : W64) (c : Nat), let u := (s.core c).sup
      After (.evtail (.core c) x) s (fun t => let u' := (t.core c).sup
        u'.evtail = x.toNat % 2 ^ u.evsize.toNat ∧ t.groups = s.groups ∧
        ∃ n, u'.waiting = u.waiting.drop n ∧ (u'.waiting = [] ∨ ringFull u'.evsize u'.evhead u'.evtail = true) ∧
          (n = 0 → t.mem = s.mem) ∧ (0 < n → u'.int16 = true))) ∧
    (∀ (s : State) (x : W64), After (.evtail .lease x) s (fun t => t.lease.evtail = x.toNat % 2 ^ s.lease.evsize.toNat ∧
      t.groups = s.groups ∧ ∃ n, t.lease.waiting = s.lease.waiting.drop n ∧
        (t.lease.waiting = [] ∨ ringFull t.lease.evsize t.lease.evhead t.lease.evtail = true) ∧ (n = 0 → t.mem = s.mem) ∧
        (0 < n → t.lease.int17 = true))) ∧
    (∀ (s : State) (x : W64), After (.evtail .system x) s (fun t => t.sys.evtail = x.toNat % 2 ^ s.sys.evsize.toNat ∧
      t.groups = s.groups ∧ ∃ n, t.sys.waiting = s.sys.waiting.drop n ∧
        (t.sys.waiting = [] ∨ ringFull t.sys.evsize t.sys.evhead t.sys.evtail = true) ∧ (n = 0 → t.mem = s.mem) ∧
        (0 < n → t.sys.int18 = true)))) ∧
  (∀ (s : State) (uk : Nat) (u : CUnit), Tab.look s.units uk = some u →
      (u.saved = none → unitReady s u = false → After (.contextSwitch uk) s (fun t => t.mem = s.mem ∧ t.units = s.units ∧
        ∀ j, t.group j = (s.group j).map (fun g =>
          if inUnit u g.ids.team ∧ g.park = .running ∧ g.prog.isNone then { g with park := .stopping } else g))) ∧
      (∀ k g, u.saved = none → unitReady s u = true → unitMissing s u = some (k, g) →
        After (.contextSwitch uk) s (fun t => t.group k = some { g with park := .missingStop } ∧ t.units = s.units ∧
          ∀ j, j ≠ k → t.group j = s.group j)) ∧
      (∀ l, u.saved = none → unitReady s u = true → unitMissing s u = none → Tab.look s.launches u.launch = some l →
        After (.contextSwitch uk) s (fun t =>
          Tab.look t.units uk = some { u with saved := some (saveUnit s u) } ∧
          (∀ j g, s.group j = some g → inUnit u g.ids.team = true → t.group j = none) ∧
          (∀ j, (∀ x ∈ s.groups, x.1 = j → inUnit u x.2.ids.team = false) → t.group j = s.group j) ∧
          ((∀ y ∈ Tab.lookD s.dist.queues l.prio [], y.launch = u.launch → u.index ≤ y.lo) →
            (Tab.lookD t.dist.queues l.prio []).head? = some ⟨u.launch, u.index, u.index + 1, true⟩))) ∧
      (∀ v, u.saved = some v → (unitTeams s u).all (fun t => t.2.placed) = false → exec (.unitRestore uk) s = .next s) ∧
      (∀ v, u.saved = some v → (unitTeams s u).all (fun t => t.2.placed) = true → s.rev.regions = [] →
        After (.unitRestore uk) s (fun t =>
          Tab.look t.units uk = some { u with saved := none } ∧
          (∀ j g, s.group j = some g → ∃ g', t.group j = some g' ∧ { g'.regs with h := g.regs.h } = g.regs) ∧
          ∀ g ∈ v.groups, ∀ tm, Tab.look s.teams g.ids.team = some tm →
            (∃ j g', coreOf j = tm.core ∧ t.group j = some g' ∧ { g'.regs with h := g.regs.h } = g.regs ∧ g'.mapped = g.mapped) ∨
            (∃ g' ∈ (t.core tm.core).ret, g'.regs = g.regs ∧ g'.mapped = g.mapped))))

/-- Revocation (R102 to R105, R295, R324): START arms the regions it finds well-formed, or refuses; once older engine work
has ended (log 29), each group of a named address space is asked to stop at a boundary, saved and walked there, which
untags what is revoked in its registers, and released, its core acquiring, and with the last of them the phase ends;
one whose save area is not named waits for it (log 45); then the walk over memory, save areas, leased homes and held
lines of leases clears the tags of revoked capabilities (log 29), no line of an L1 that held one staying; then RVDONE
rises. Residency schedules (R306 to R308): a written step is queued; one beyond sixteen is a store that waits, its
value the last step only once room frees; entries keep or drop pages, in table order, a page kept twice counting once,
and OVF marks a keep that met some slice's cap, which is open where the kept pages exceed what one slice holds (log
35); ENABLE is refused for a table or a world that will not do, else loads. -/
def Obligations.RevocationAndResidency : Prop :=
  (∀ (s : State),
      (let n := s.rev.num.toNat % 512
       (s.rev.busy = true ∨ n = 0 ∨ 256 < n → exec .rvStart s = .next { s with rev := { s.rev with refused := true } }) ∧
       (s.rev.busy = false → 1 ≤ n → n ≤ 256 →
         (∀ i, i < n → (∀ j, j < i → regionOk (regionAt s j) = true) → regionOk (regionAt s i) = false →
           exec .rvStart s = .next { s with rev := { s.rev with refused := true, badIdx := i } }) ∧
         ((∀ i, i < n → regionOk (regionAt s i) = true) → After .rvStart s (fun t => t.rev.busy = true ∧ t.rev.refused = false ∧
           t.rev.phase = 2 ∧ t.rev.regions = (List.range n).map (fun i => (regionAt s i).1) ∧ t.groups = s.groups ∧ t.mem = s.mem ∧
           ∀ asid c, revCheck t asid c = if revoked t asid c then capUntag c else c)))) ∧
      (s.rev.busy = true → s.rev.phase = 2 → revDrained s = true → (∀ x ∈ s.groups, ∀ hs, x.2.hold ≠ .handles hs) →
        (s.groups.map Prod.fst).Nodup →
        (∀ x ∈ s.groups, ∀ y ∈ s.groups, toWalk s x.2 = true → toWalk s y.2 = true → walkName x.2 = walkName y.2 → x.1 = y.1) →
        ((∃ x ∈ s.groups, toWalk s x.2 = true ∧ parkReady s x.1 x.2 = false) → After .revokeWalkGroups s (fun t =>
          t.rev.phase = 2 ∧
          ∀ k g, s.group k = some g → toWalk s g = true → parkReady s k g = false →
            t.group k = some (if g.park = .running then { g with park := .stopping } else g))) ∧
        ((∀ x ∈ s.groups, toWalk s x.2 = false) → After .revokeWalkGroups s (fun t =>
          t.rev = { s.rev with phase := 4, walked := [] } ∧ t.groups = s.groups ∧ t.mem = s.mem)) ∧
        (∀ k g, s.group k = some g → toWalk s g = true → parkReady s k g = true → afterMissing g.park = none →
          (∀ x ∈ s.groups, toWalk s x.2 = true → x.1 = k) →
          (groupSave s k g = 0 → After .revokeWalkGroups s (fun t => t.rev = s.rev ∧
            t.group k = some { g with park := .missingStop } ∧ ∀ j, j ≠ k → t.group j = s.group j)) ∧
          (groupSave s k g ≠ 0 → After .revokeWalkGroups s (fun t =>
            t.rev = { s.rev with phase := 4, walked := [] } ∧
            t.mem = (releaseFar (saveGroup s (groupSave s k g) (walkGroup s g)) 3).mem ∧
            (∀ j, j ≠ k → t.group j = s.group j) ∧
            ∃ g', t.group k = some g' ∧
              (∀ u r, (g'.thread u).cap r = walkCap s g.ids.asid ((g.thread u).cap r)) ∧
              (∀ r, g'.gcap r = walkCap s g.ids.asid (g.gcap r)) ∧
              (∀ u, (g'.thread u).code = walkCap s g.ids.asid (g.thread u).code) ∧
              (revoked s g.ids.asid g.handler = true → g'.handler = Cap.null) ∧
              (∀ u r, Tab.lookD (g'.thread u).v r 0 = Tab.lookD (g.thread u).v r 0) ∧
              (g.park = .running ∨ g.park = .stopping → g'.park = .running ∧
                ∀ asid va x, l1Hit t (coreOf k) asid va = some x → x.lgd ≠ (s.core (coreOf k)).l1.cgd))))) ∧
      (s.rev.busy = true → s.rev.phase = 4 → After .revokeWalkPages s (fun t => t.rev = { s.rev with phase := 5 } ∧
        t.groups = s.groups ∧ (s.lease.far = [] → t.mem.cells = s.mem.cells ∧
          let pages := ((s.rev.regions.map (fun r => r.asid)).eraseDups).map (fun a => (a, asidPages s a)) ++ areaPages s
          (∀ n, KeySet.has t.mem.tags n = (KeySet.has s.mem.tags n && !badTag s pages (16 * n))) ∧
          (∀ h, h < 2 ^ 56 → badTag s pages h = granuleRevoked s pages h) ∧
          (∀ k l, Tab.look s.lease.lines k = some l → ∃ l', Tab.look t.lease.lines k = some l' ∧ l'.data = l.data ∧
            l'.tags = keptTags s pages k l ∧ (l'.tags ≠ l.tags → l'.dirty = true)) ∧
          (∀ c key x n, Tab.look (t.core c).l1.lines key = some x → KeySet.has s.mem.tags n = true →
            badTag s pages (16 * n) = true → ¬ (x.home ≤ 16 * n ∧ 16 * n < x.home + 128))))) ∧
      (s.rev.busy = true → s.rev.phase = 5 → After .revokeSweepDone s (fun t => t.rev.busy = false ∧ t.rev.done = s.rev.done + 1 ∧
        t.rev.regions = [] ∧ t.rev.phase = 0 ∧ t.groups = s.groups))) ∧
  (∀ (s : State) (d : Nat), let r := s.die d
      let set := fun (i : Instr) (x : Resid) => After i s (fun t => t.die d = x ∧ (∀ e, e ≠ d → t.die e = s.die e) ∧
        t.groups = s.groups ∧ t.mem = s.mem)
      let last := fun (q : List (BitVec 16)) => (q[15]?).getD r.stp
      (∀ v, (r.active = false → set (.rsStep d v) { r with stp := v }) ∧
        (r.active = true → 16 ≤ r.queue.length → set (.rsStep d v) { r with queue := r.queue ++ [v] }) ∧
        (r.active = true → r.queue.length < 16 → set (.rsStep d v) { r with stp := v, queue := r.queue ++ [v] })) ∧
      (r.queue = [] → exec (.residencyStepApply d) s = .next s) ∧
      (∀ v q, r.queue = v :: q →
        (r.table.filter (fun e => e.stp == v) = [] → set (.residencyStepApply d) { r with queue := q, stp := last q }) ∧
        (∀ e, r.table.filter (fun e => e.stp == v) = [e] →
          (e.action = 0 → let kept := unkeep r.kept e.pbase.toNat e.npage ++ [(e.pbase.toNat, e.npage)]
            (keptPages kept ≤ 3072 → set (.residencyStepApply d) { r with queue := q, stp := last q, kept := kept }) ∧
            (3072 < keptPages kept → ∃ full : Bool,
              set (.residencyStepApply d) { r with queue := q, stp := last q, kept := kept, ovf := r.ovf || full })) ∧
          (e.action = 1 → set (.residencyStepApply d)
            { r with queue := q, stp := last q, kept := unkeep r.kept e.pbase.toNat e.npage }))) ∧
      (∀ world, let bad := r.len = 0 ∨ 4096 < r.len.toNat ∨ r.base.toNat % 16 ≠ 0 ∨ (s.keys.world world).st ≠ 2 ∨
          (r.active = true ∧ r.world ≠ world)
        (bad → set (.rsEnable d world) { r with refused := true }) ∧
        (¬ bad → set (.rsEnable d world) { r with
          refused := false, world := world, loading := true, stp := 0, queue := [], kept := []
          table := (List.range r.len.toNat).map (rsEntry s r.base.toNat) })) ∧
      (r.loading = true → set (.residencyLoadDone d) { r with loading := false, active := true }) ∧
      set (.rsDisable d) { r with active := false, loading := false, queue := [], kept := [], table := [] } ∧
      set (.rsClrovf d) { r with ovf := false })

/-- Translation commands (R416 to R420, R423): a command while BUSY is refused and does nothing else; BUMP steps an
address space's generation, after which no translation cached before it hits, and drops its lines; an invalidation
drops the translations whose pages meet the range, and lines of those pages; remote fences are done in order, each
raising RFDONE, and vector 0 where its function and its entry of the MSI-X table leave it enabled. A dump writes a
record for each of the chip's counters of the space that reaches the threshold, and zeroes those alone. -/
def Obligations.TranslationCommands : Prop :=
  ∀ (s : State),
    (∀ i, (i = .invalidateRangeAll ∨ ∃ a, a < 65536 ∧ (i = .bump a ∨ i = .invalidateRange a ∨ i = .dumpCounters a)) → s.xlat.busy = true →
      exec i s = .next (s.onXlat (fun x => { x with refused := true }))) ∧
    (∀ a, a < 65536 → s.xlat.busy = false → After (.bump a) s (fun t => t.xlat.busy = true ∧ t.xlat.refused = false ∧
      t.xlat.gen a = s.xlat.gen a + 1 ∧ (∀ b, b ≠ a → t.xlat.gen b = s.xlat.gen b) ∧
      (∀ e, e ∈ t.xlat.tlb → e ∈ s.xlat.tlb) ∧
      (s.xlat.gen a = 4095 → ∀ e ∈ t.xlat.tlb, e.asid ≠ a) ∧
      (∀ va e, tlbFind t a va = some e → e.gen ≠ (s.xlat.gen a).toNat) ∧
      (∀ c va, va / 128 < 2 ^ 57 → l1Hit t c a va = none ∧ codeHit t c a va = none) ∧ t.groups = s.groups ∧ t.mem = s.mem)) ∧
    (∀ i f, ((∃ a, a < 65536 ∧ i = .invalidateRange a ∧ f = fun b => b == a) ∨ (i = .invalidateRangeAll ∧ f = fun _ => true)) →
      s.xlat.busy = false → After i s (fun t => t.xlat.busy = true ∧ t.xlat.refused = false ∧
        (∀ e, e ∈ t.xlat.tlb ↔ e ∈ s.xlat.tlb ∧ ¬ (f e.asid = true ∧ tlbMeets s.xlat.tva s.xlat.tlen e = true)) ∧
        (∀ c asid va, f asid = true → va / 128 < 2 ^ 57 →
          meets s.xlat.tva s.xlat.tlen (va / 4096 * 4096) 4096 = true →
            l1Hit t c asid va = none ∧ codeHit t c asid va = none) ∧
        t.groups = s.groups ∧ t.mem = s.mem)) ∧
    (∀ a, a < 65536 → s.xlat.busy = false → After (.dumpCounters a) s (fun t => t.xlat.busy = true ∧ t.xlat.refused = false ∧
      t.groups = s.groups ∧
      let es := (s.xlat.tlb.filter (fun e => decide (e.place = .chip) && e.asid == a && counted e &&
        decide (s.xlat.tthr.toNat ≤ e.count.toNat))).take s.xlat.tdlen.toNat
      t.xlat.tlb = s.xlat.tlb.map (fun e => if e ∈ es then { e with count := 0 } else e) ∧
      (es = [] → t.mem = s.mem) ∧
      (∀ e, es = [e] → pageKept s s.xlat.tdump.toNat = true → s.xlat.tdump.toNat % 4096 ≤ 4080 → t.mem = s.mem) ∧
      (∀ e, es = [e] → pageKept s s.xlat.tdump.toNat = false → s.xlat.tdump.toNat % 4096 ≤ 4080 →
        t.mem = s.mem.write s.xlat.tdump.toNat
          (leBytes (e.vpn * 2 ^ (12 + 9 * e.level)) 8 ++ leBytes a 2 ++ leBytes e.count.toNat 2 ++ leBytes 0 4)))) ∧
    (s.xlat.busy = true → exec .translationCmdDone s = .next (s.onXlat (fun x => { x with busy := false, cmds := x.cmds.drop 1 }))) ∧
    (∀ i kind ic, ((i = .rfctlAll ∧ kind = 0 ∧ ic = false) ∨ (i = .rfctlAsid ∧ kind = 1 ∧ ic = false) ∨
        (i = .rfctlRange ∧ kind = 2 ∧ ic = false) ∨ (i = .rfctlRangeAllAsids ∧ kind = 3 ∧ ic = false) ∨
        (∃ b : BitVec 2, i = .rfctlIcache b ∧ kind = b.toNat ∧ ic = true)) →
      exec i s = .next (s.onHost s.sys.hostLink (fun x => { x with rfreqs := x.rfreqs ++ [⟨kind, ic, x.rfasid.toNat, x.rfva, x.rflen⟩] }))) ∧
    let link := s.sys.hostLink
    let h := (s.sys.port link).host
    let every := fun (a : Nat) => ∃ x ∈ s.xlat.bound, x.1 = a ∧ x.2 % 64 = link
    let one := fun (r : RFReq) (a : Nat) => ∃ x ∈ s.xlat.bound, x.1 = a ∧ x.2 = r.asid * 64 + link
    (∀ r l, h.rfreqs = r :: l → After .rfRequestDone s (fun t => let h' := (t.sys.port link).host
      h'.rfreqs = l ∧ h'.rfdone = h.rfdone + 1 ∧
      h'.msix = h.msix + (if h.msixOn = true ∧ (Tab.lookD h.table 3 1).getLsbD 0 = false then 1 else 0) ∧
      (∀ m, m ≠ link → t.sys.port m = s.sys.port m) ∧ t.groups = s.groups ∧ t.mem = s.mem ∧
      (r.icache = true → t.xlat.tlb = s.xlat.tlb ∧ ∀ c, (t.core c).l1 = (s.core c).l1) ∧
      (∀ c asid va, va / 128 < 2 ^ 57 →
        (if r.kind = 0 ∨ 3 ≤ r.kind then every asid else one r asid) →
        (r.kind = 0 ∨ r.kind = 1 ∨ meets r.va r.len (va / 4096 * 4096) 4096 = true) →
        codeHit t c asid va = none ∧ (r.icache = false → l1Hit t c asid va = none)) ∧
      (r.icache = false → ∀ e, e ∈ t.xlat.tlb ↔ e ∈ s.xlat.tlb ∧
        ¬ ((if r.kind = 0 ∨ 3 ≤ r.kind then every e.asid else one r e.asid) ∧
          (r.kind = 0 ∨ r.kind = 1 ∨ tlbMeets r.va r.len e = true)))))

/-- Commands of the lease engine (R425, R427 to R429, R439): while BUSY is set each is ignored (log 37); otherwise an
index outside the table answers 2; a command in a state it does not start from, or an OFFER or a CLAIM that may not
be, answers 1; any other moves its entry to the next state and answers 0, but that a RELEASE of a slot whose flush
goes on sets BUSY and ends with the flush (R429). A release asked of a package that answers no more is outstanding
from then on (R433, log 42). Arrivals, expiries and losses of leases (R427, R429 to R431, R433, R434, R436): each
moves its entry to the state that the lease's life gives it, drops the lines of a slot that leaves active, and, the
loss of a slot apart, queues its event; one that finds its entry in another state changes nothing. A lease becomes
lost while no fabric link to its package is up, or once that package has not answered a request, a snoop or a release
for 1 ms; a flush waits for what is outstanding and ends a RELEASE that waited for it; what a borrower gave up to a
snoop before the loss has come back; a grant is pending while its message stands in the queue of what is sent (log
37); writes that arrive for an extent bring their tags over a route that carries them (logs 34, 61), those of a locked
page or of an extent lent read-only are discarded. -/
def Obligations.LeaseLife : Prop :=
  (∀ (s : State) (n : Nat), let l := s.lease.lender n; let x := s.lease.slot n
      let recalled := if l.silent then { l with st := 3, wait := some (l.wait.getD s.time.ftime) } else { l with st := 3 }
      let answers := fun (i : Instr) (r : BitVec 3) =>
        exec i s = .next { s with lease := { s.lease with busy := false, result := r } }
      let lends := fun (i : Instr) (l' : Lender) => After i s (fun t => t.lease.lender n = l' ∧ t.lease.busy = false ∧
        t.lease.result = 0 ∧ (∀ j, j ≠ n → t.lease.lender j = s.lease.lender j) ∧ t.lease.slots = s.lease.slots ∧
        t.groups = s.groups ∧ t.mem = s.mem)
      let borrows := fun (i : Instr) (x' : Slot) => After i s (fun t => t.lease.slot n = x' ∧ t.lease.busy = false ∧
        t.lease.result = 0 ∧ (∀ j, j ≠ n → t.lease.slot j = s.lease.slot j) ∧ t.lease.lenders = s.lease.lenders ∧
        t.groups = s.groups ∧ t.mem = s.mem)
      (s.lease.busy = true → ∀ i ∈ ([.leaseOffer n, .leaseGrant n, .leaseWithdraw n, .lenderRenew n, .leaseRecall n, .leaseClear n,
        .slotClaim n, .borrowerRenew n, .leaseReturn n, .slotRelease n, .leaseCancel n] : List Instr), exec i s = .next s) ∧
      (s.lease.busy = false →
      (∀ i ∈ ([.leaseOffer n, .leaseGrant n, .leaseWithdraw n, .lenderRenew n, .leaseRecall n, .leaseClear n] : List Instr),
        16384 ≤ n → answers i 2) ∧
      (∀ i ∈ ([.slotClaim n, .borrowerRenew n, .leaseReturn n, .slotRelease n, .leaseCancel n] : List Instr),
        4096 ≤ n → answers i 2) ∧
      (n < 16384 →
        (l.st ≠ 0 → answers (.leaseOffer n) 1) ∧ (l.st = 0 → offerOk s n l = false → answers (.leaseOffer n) 1) ∧
        (l.st = 0 → offerOk s n l = true → lends (.leaseOffer n) { l with st := 1 }) ∧
        (l.st ≠ 1 → answers (.leaseGrant n) 1 ∧ answers (.leaseWithdraw n) 1) ∧
        (l.st = 1 → lends (.leaseWithdraw n) { l with st := 0 } ∧
          exec (.leaseGrant n) s = .next { s with
            lease := { s.lease with busy := false, result := 0 }
            out := s.out ++ [.addCapacity n (l.borrower.setWidth 12) l.lid l.mode l.ebase l.elen l.expiry] }) ∧
        (l.st ≠ 2 → answers (.lenderRenew n) 1 ∧ answers (.leaseRecall n) 1) ∧
        (l.st = 2 → lends (.lenderRenew n) { l with expiry := if l.expiry.toNat < s.lease.larg.toNat then s.lease.larg else l.expiry } ∧
          lends (.leaseRecall n) recalled ∧
          After (.leaseRecall n) s (fun t => t.out = s.out ++ [.forcedRelease n (l.borrower.setWidth 12) l.lid])) ∧
        (l.st ≠ 4 → l.st ≠ 5 → answers (.leaseClear n) 1) ∧ (l.st = 4 ∨ l.st = 5 → lends (.leaseClear n) { l with st := 0, silent := false, wait := none })) ∧
      (n < 4096 →
        (x.st ≠ 0 ∨ s.sys.pbrValid = false → answers (.slotClaim n) 1) ∧
        (x.st = 0 → s.sys.pbrValid = true → borrows (.slotClaim n) { x with st := 1, flushed := false, releasing := false, silent := false, wait := none }) ∧
        (x.st ≠ 1 → answers (.leaseCancel n) 1) ∧ (x.st = 1 → borrows (.leaseCancel n) { x with st := 0 }) ∧
        (x.st ≠ 2 → answers (.borrowerRenew n) 1 ∧ answers (.leaseReturn n) 1) ∧
        (x.st = 2 → borrows (.borrowerRenew n) { x with expiry := if x.expiry.toNat < s.lease.larg.toNat then s.lease.larg else x.expiry } ∧
          borrows (.leaseReturn n) { x with st := 3, flushed := false } ∧
          After (.leaseReturn n) s (fun t => ∀ c key y, (Tab.look (t.core c).l1.lines key = some y ∨ Tab.look (t.core c).ic key = some y) → y.slot ≠ some n)) ∧
        (x.st ≠ 3 → x.st ≠ 4 → x.st ≠ 5 → answers (.slotRelease n) 1) ∧
        (x.st = 5 ∨ ((x.st = 3 ∨ x.st = 4) ∧ x.flushed = true) → borrows (.slotRelease n) { x with st := 0 }) ∧
        (x.st = 3 ∨ x.st = 4 → x.flushed = false → After (.slotRelease n) s (fun t =>
          t.lease.slot n = { x with releasing := true } ∧ t.lease.busy = true ∧ t.lease.result = s.lease.result ∧
          (∀ j, j ≠ n → t.lease.slot j = s.lease.slot j) ∧ t.lease.lenders = s.lease.lenders ∧ t.groups = s.groups ∧ t.mem = s.mem))))) ∧
  (∀ (s : State) (n : Nat), let l := s.lease.lender n; let x := s.lease.slot n
      let late := fun (w : Option Nat) => ∃ at0, w = some at0 ∧ at0 + 16000000 ≤ s.time.ftime
      let linked := fun (p : BitVec 12) => ∃ y ∈ s.sys.ports, y.2.up = true ∧ y.2.role = .fabric ∧ p ∈ y.2.peers
      let lends := fun (i : Instr) (l' : Lender) (kind : Nat) (lid : W32) => After i s (fun t =>
        t.lease.lender n = l' ∧ LeaseNoted s t kind 0 n lid ∧
        (∀ j, j ≠ n → t.lease.lender j = s.lease.lender j) ∧ t.lease.slots = s.lease.slots ∧ t.groups = s.groups)
      let leaves := fun (i : Instr) (st : Byte) (kind : Nat) => After i s (fun t =>
        t.lease.slot n = { x with st := st, flushed := false } ∧ LeaseNoted s t kind 1 n x.lid ∧
        (∀ j, j ≠ n → t.lease.slot j = s.lease.slot j) ∧ t.lease.lenders = s.lease.lenders ∧ t.groups = s.groups ∧
        ∀ c key y, (Tab.look (t.core c).l1.lines key = some y ∨ Tab.look (t.core c).ic key = some y) → y.slot ≠ some n)
      (∀ m : AddCapMsg, m.idx = n → l.st = 1 → s.out.any (isGrant n m.lid) = true → lends (.addCapacity true m) { l with st := 2 } 1 m.lid) ∧
      (∀ (m : AddCapMsg) (y : Slot),
        s.lease.slots.find? (fun x => x.2.st == 1 && x.2.lender.setWidth 12 == m.peer && x.2.lid == m.lid) = some (n, y) →
        After (.addCapacity false m) s (fun t => t.lease.slot n = { x with
            st := 2, mode := m.mode, ebase := m.ebase, elen := m.elen, expiry := m.expiry, flushed := false } ∧
          (∀ j, j ≠ n → t.lease.slot j = s.lease.slot j) ∧ t.out = s.out ++ [.accepted m.peer m.lid] ∧
          LeaseNoted s t 1 1 n m.lid ∧ t.groups = s.groups)) ∧
      (l.st = 1 → s.out.any (isGrant n l.lid) = true → lends (.grantRefused n) { l with st := 1 } 2 l.lid) ∧
      (l.st ≠ 1 → exec (.grantRefused n) s = .next s) ∧
      (x.st = 2 → leaves (.forcedRelease n) 3 3) ∧ (x.st ≠ 2 → exec (.forcedRelease n) s = .next s) ∧
      (l.st = 2 → l.expiry.toNat ≤ s.time.ftime → lends (.lenderExpiry n)
        (if l.silent then { l with st := 3, wait := some (l.wait.getD s.time.ftime) } else { l with st := 3 }) 4 l.lid) ∧
      (l.st ≠ 2 ∨ s.time.ftime < l.expiry.toNat → exec (.lenderExpiry n) s = .next s) ∧
      (x.st = 2 → x.expiry.toNat ≤ s.time.ftime + 16000 → leaves (.slotExpiry n) 4 4) ∧
      (x.st ≠ 2 ∨ s.time.ftime + 16000 < x.expiry.toNat → exec (.slotExpiry n) s = .next s) ∧
      (l.st = 2 ∨ l.st = 3 → After (.returnArrive n) s (fun t => t.lease.lender n = { l with st := 4, silent := false, wait := none } ∧
        (let s1 := farTake (s.onLender n (fun _ => { l with st := 4, silent := false, wait := none })) (fun _ y => y.entry == n);
          LeaseNoted { s with mem := s1.mem } t 6 0 n l.lid) ∧
        ((∀ y ∈ s.lease.far, y.2.entry = n → y.2.mod = none) → LeaseNoted s t 6 0 n l.lid) ∧
        (∀ y ∈ t.lease.far, y.2.entry ≠ n) ∧
        (∀ j, j ≠ n → t.lease.lender j = s.lease.lender j) ∧ t.lease.slots = s.lease.slots ∧ t.groups = s.groups)) ∧
      (l.st = 2 ∨ l.st = 3 → ¬ linked (l.borrower.setWidth 12) ∨ late l.wait → After (.lenderLost n) s (fun t =>
        t.lease.lender n = { l with st := 5, silent := false, wait := none } ∧
        (let s1 := farTake s (fun _ y => y.entry == n && y.snoop);
          LeaseNoted { s with mem := s1.mem } t 5 0 n l.lid) ∧
        ((∀ y ∈ s.lease.far, y.2.entry = n → y.2.snoop = false ∨ y.2.mod = none) → LeaseNoted s t 5 0 n l.lid) ∧
        (∀ y ∈ t.lease.far, y.2.entry ≠ n) ∧
        (∀ j, j ≠ n → t.lease.lender j = s.lease.lender j) ∧ t.lease.slots = s.lease.slots ∧ t.groups = s.groups)) ∧
      (linked (l.borrower.setWidth 12) → ¬ late l.wait → exec (.lenderLost n) s = .next s) ∧
      (linked (x.lender.setWidth 12) → ¬ late x.wait → exec (.slotLost n) s = .next s) ∧
      (l.st ≠ 2 → l.st ≠ 3 → exec (.returnArrive n) s = .next s ∧ exec (.lenderLost n) s = .next s) ∧
      (x.st = 3 ∨ x.st = 4 → x.flushed = false →
        (x.wait ≠ none → exec (.leaseFlushDone n) s = .next s) ∧
        (x.wait = none → x.silent = true → (∃ y ∈ slotLines s n, y.2.dirty = true) →
          exec (.leaseFlushDone n) s = .next (s.onSlot n (fun _ => { x with wait := some s.time.ftime })))) ∧
      (x.st = 3 ∨ x.st = 4 → x.flushed = false → x.wait = none → x.silent = false ∨ (∀ y ∈ slotLines s n, y.2.dirty = false) →
        After (.leaseFlushDone n) s (fun t => t.lease.slot n = { x with
          flushed := true, releasing := false, st := if x.releasing then 0 else x.st } ∧
        (x.releasing = true → t.lease.busy = false ∧ t.lease.result = 0) ∧ t.out = s.out ++ [.returned n (x.lender.setWidth 12) x.lid] ∧ slotLines t n = [] ∧
        (slotLines s n = [] → t.mem = s.mem) ∧ t.groups = s.groups)) ∧
      (x.st = 2 ∨ x.st = 3 ∨ x.st = 4 → ¬ linked (x.lender.setWidth 12) ∨ late x.wait →
        let dirty := (slotLines s n).filter (fun y => y.2.dirty)
        let room := if x.salv = 0 then 0 else x.salvlen.toNat * 4096 / 144
        After (.slotLost n) s (fun t => t.lease.slot n = { x with
            st := if x.releasing then 0 else 5, flushed := true, releasing := false, silent := false, wait := none, salvn := BitVec.ofNat 32 (min room dirty.length)
            dropped := BitVec.ofNat 32 (dirty.length - room) } ∧ slotLines t n = [] ∧ t.groups = s.groups ∧
          ∀ c key y, (Tab.look (t.core c).l1.lines key = some y ∨ Tab.look (t.core c).ic key = some y) → y.slot ≠ some n)) ∧
      (∀ off y, x.mode = 2 → Tab.look s.lease.lines (n * 2 ^ 33 + off / 128) = some y →
        After (.backInvalidate n off) s (fun t => Tab.look t.lease.lines (n * 2 ^ 33 + off / 128) = none ∧
          (y.dirty = false → t.mem = s.mem) ∧
          (y.dirty = true → t.mem = putGranules s (homeOf s (lineAddr (n * 2 ^ 33 + off / 128)))
            (paTagged s (lineAddr (n * 2 ^ 33 + off / 128))) y 8 s.mem) ∧ t.groups = s.groups)) ∧
      let waits := fun (r : FwdReq) (a : Nat) => ∃ i, farAwaited s a r.write = some i ∧ (s.lease.lender i).borrower.setWidth 12 ≠ r.peer
      let held := fun (r : FwdReq) => waits r r.pa ∨ waits r (r.pa + max r.len r.data.length - 1)
      (∀ r : FwdReq, paLocal s r.pa = true → peerStalled s r.peer = false → held r → After (.forwardedAccess r) s (fun t =>
        t.groups = s.groups ∧ t.mem = s.mem ∧ t.out = s.out)) ∧
      (∀ r : FwdReq, paLocal s r.pa = true → peerStalled s r.peer = false → ¬ held r → let tagged := peerTagged s r.peer = true ∧ r.pa % 16 = 0
        (r.write = false → After (.forwardedAccess r) s (fun t => t.groups = s.groups ∧ t.mem = s.mem ∧ ∃ tags : BitVec 8,
          t.out = s.out ++ [.peerReply r.peer (s.readBytes r.pa r.len) tags] ∧ (¬tagged → tags = 0) ∧
          (tagged → ∀ i < 8, tags.getLsbD i = (decide (16 * i + 16 ≤ r.len) && s.readTag (r.pa + 16 * i))))) ∧
        (r.write = true → r.pa % 4096 + r.data.length ≤ 4096 → writeBarred s r.pa = true →
          After (.forwardedAccess r) s (fun t => t.groups = s.groups ∧ t.mem = s.mem)) ∧
        (r.write = true → r.pa % 4096 + r.data.length ≤ 4096 → writeBarred s r.pa = false → ¬tagged ∨ r.tags = 0 →
          After (.forwardedAccess r) s (fun t => t.groups = s.groups ∧ t.mem = s.mem.write r.pa r.data)) ∧
        (r.write = true → ¬tagged ∨ r.tags = 0 → After (.forwardedAccess r) s (fun t => t.groups = s.groups ∧
          ∀ i y, r.data[i]? = some y → paLocal s (r.pa + i) = true → t.mem.read (r.pa + i) =
            (if writeBarred s (r.pa + i) = true then s.mem.read (r.pa + i) else y))) ∧
        (r.write = true → r.pa % 4096 + 128 ≤ 4096 → writeBarred s r.pa = false → tagged → s.mem.wf = true → r.data.length = 128 →
          (∀ y ∈ s.lease.far, ∀ d, y.2.mod = some d → d.1.length = 128) →
          After (.forwardedAccess r) s (fun t => t.groups = s.groups ∧ ∀ i < 8,
            let c := capOfBytes ((r.data.drop (16 * i)).take 16) true
            t.readCapAt (r.pa + 16 * i) = (if r.tags.getLsbD i && capWell c && capOtype c != 5 then c else capUntag c)))) ∧
      (∀ r : FwdReq, paLocal s r.pa = false ∨ peerStalled s r.peer = true → exec (.forwardedAccess r) s = .next s))

/-- The key store (R448, R449, R457) and the scrub of a world (R377): each command answers 2 for a number out of range, 1
in a state it does not start from, and moves its world from empty to building to live to retired; the scrub, once no
team of the world stands, drops its statuses, write pointers and lines, and a retired world's slot, key and pages.
KSCMD judges BUSY before the world's number and state (log 61); CREATE draws a key that no world has had (R448, R451). -/
def Obligations.WorldLife : Prop :=
  ∀ (s : State) (n : Nat), let w := s.keys.world n
    let answers := fun (i : Instr) (r : BitVec 3) => exec i s = .next { s with keys := { s.keys with busy := false, result := r, handle := 0 } }
    let cmds : List (Instr × Nat) := [(.ksCreate n true, 0), (.ksCreate n false, 0), (.ksMeasure n, 1), (.ksFinal n, 1), (.ksDestroy n, 2)]
    (s.keys.busy = true → ∀ c ∈ cmds, exec c.1 s = .next { s with keys := { s.keys with result := 4 } }) ∧
    (s.keys.busy = false →
      (n = 0 ∨ 4096 ≤ n → ∀ c ∈ cmds, answers c.1 2) ∧
      (1 ≤ n → n < 4096 →
        (∀ c ∈ cmds, w.st ≠ c.2 → answers c.1 1) ∧
        (∀ b, w.st = 0 → w.scrubbed = false ∨ s.keys.refuse = true → answers (.ksCreate n b) 1) ∧
        (∀ b, w.st = 0 → w.scrubbed = true → s.keys.refuse = false → After (.ksCreate n b) s (fun t =>
          t.keys.world n = ⟨1, b, false, Config.keyToken s.ctr, List.replicate 48 0, s.ctr + 2, false⟩ ∧ t.keys.result = 0 ∧
          (∀ m, m ≠ n → t.keys.world m = s.keys.world m) ∧ t.groups = s.groups ∧ t.mem = s.mem)) ∧
        (w.st = 1 → s.keys.va.toNat % 4096 ≠ 0 ∨ s.keys.pa.toNat % 4096 ≠ 0 → answers (.ksMeasure n) 3) ∧
        (∀ v, w.st = 1 → s.keys.va.toNat % 4096 = 0 → s.keys.pa.toNat % 4096 = 0 →
          Tab.look s.keys.locked (s.keys.pa.toNat / 4096) = some v → v ≠ n → answers (.ksMeasure n) 1) ∧
        (w.st = 1 → s.keys.va.toNat % 4096 = 0 → s.keys.pa.toNat % 4096 = 0 →
          (∀ v, Tab.look s.keys.locked (s.keys.pa.toNat / 4096) = some v → v = n) → After (.ksMeasure n) s (fun t =>
            t.keys.world n = { w with digest := sha384 (w.digest ++ leBytes s.keys.va.toNat 8 ++ s.readBytes s.keys.pa.toNat 4096) } ∧
            Tab.look t.keys.locked (s.keys.pa.toNat / 4096) = some n ∧ t.keys.result = 0 ∧ t.groups = s.groups ∧ t.mem = s.mem)) ∧
        (w.st = 1 → After (.ksFinal n) s (fun t => t.keys.world n = { w with st := 2 } ∧ t.keys.result = 0 ∧
          t.keys.handle = BitVec.ofNat 64 (n + w.token.toNat * 2 ^ 12) ∧ t.groups = s.groups ∧ t.mem = s.mem)) ∧
        (w.st = 2 → worldBusy s n = true → answers (.ksDestroy n) 1) ∧
        (w.st = 2 → worldBusy s n = false → After (.ksDestroy n) s (fun t => t.keys.busy = true ∧
          t.keys.world n = { w with retired := true } ∧ t.groups = s.groups ∧ t.mem = s.mem)))) ∧
    (worldBusy s n = true → exec (.worldScrub n) s = .next s) ∧
    (worldBusy s n = false → After (.worldScrub n) s (fun t =>
      (∀ c q, Tab.look (s.core c).store.worlds q = some n → q ∉ (t.core c).store.live ∧ Tab.look (t.core c).store.stat q = none) ∧
      (∀ c ch, Tab.look (s.core c).wpWorld ch = some n → (t.core c).wpOf ch = 0) ∧
      (∀ c key x, x.world = n → Tab.look (t.core c).l1.lines key ≠ some x ∧ Tab.look (t.core c).ic key ≠ some x) ∧
      (∀ d, (s.die d).world = n → (t.die d).active = false) ∧
      (∀ a, a < vaultBase → t.mem.read a = s.mem.read a) ∧
      (∀ a, vaultBase ≤ a → inWindow s a = false → t.mem.read a = 0) ∧
      (w.retired = true → t.keys.world n = World.reset ∧ t.keys.busy = false ∧ ∀ p, Tab.look t.keys.locked p ≠ some n)))

/-- Roles and fabric time (R438 to R441): a beacon leaves every millisecond; what is heard decides standby; a candidate
that has heard no lower one for 4 ms, or a standby its manager, becomes manager; a manager that meets a lower serial
steps down, at the beacon that it hears too; the manager is the root of time and no other package is (log 41); an
exchange sets the count at once where it is behind, at half rate where it is ahead, and while SYNC is set leaves the
difference for the rate to make up. Links and the traffic of hosts (R437, R443, R445, R446, R451): a port is one link
of 16 lanes, two of 8 or four of 4, by the width code of log 61, and a link that does not fit beside those of its port
that are up does not train; one that does takes its role, tags on fabric ports only; one that fails loses the leases
with each package that no other link reaches; a hot reset counts, takes that host's configuration space, interrupts
and remote fences back to reset and leaves every other host its own, and detaches the address spaces bound through the
port, which is cut off: a load from its window gives all ones, a store is discarded; a host's access is translated
whole under the port's address space before any byte is moved, and one that cannot be is answered as unsupported; one
that needs a line which another package does not answer for waits (log 42); over a flow that has come to its end
nothing comes. Bytes are read and written under the key of the port's address space's world. -/
def Obligations.FabricAndHosts : Prop :=
  (∀ (s : State),
      let becomes := fun (t : State) (r : FabricRole) => t.sys.role = r ∧ (s.sys.role ≠ r → t.time.root = (r == .manager))
      (beaconDue s = true → exec .beacon s = .next { s with
        sys := { s.sys with lastBeacon := s.time.ftime }, out := s.out ++ [.beacon Config.serial s.sys.role s.sys.candidate] }) ∧
      (beaconDue s = false → exec .beacon s = .next s) ∧
      (∀ serial role cand, After (.beaconReceived serial role cand) s (fun t =>
        (cand = true → Tab.look t.sys.heard serial.toNat = some s.time.ftime) ∧ (cand = false → t.sys.heard = s.sys.heard) ∧
        t.sys.mgrAt = (if role = .manager then s.time.ftime else s.sys.mgrAt) ∧
        (s.sys.candidate = false → s.sys.role ≠ .manager → t.sys.role = s.sys.role) ∧
        (s.sys.role = .manager → role ≠ .manager ∨ Config.serial.toNat ≤ serial.toNat → t.sys.role = .manager) ∧
        (s.sys.role = .manager → role = .manager → serial.toNat < Config.serial.toNat →
          becomes t (if s.sys.candidate = true ∧ lowerHeard t = 1 then .standby else .member)) ∧
        (s.sys.candidate = true → s.sys.role ≠ .manager → becomes t (if lowerHeard t = 1 then .standby else .member)) ∧
        t.groups = s.groups)) ∧
      (managerDue s = true → After .managerTimeout s (fun t => becomes t .manager ∧ SystemNoted s t 4 0 ∧ t.groups = s.groups)) ∧
      (managerDue s = false → exec .managerTimeout s = .next s) ∧
      (∀ serial : W64, (s.sys.role = .manager → serial.toNat < Config.serial.toNat →
          After (.managerStepDown serial) s (fun t => becomes t .member ∧ SystemNoted s t 4 0 ∧ t.groups = s.groups)) ∧
        (s.sys.role ≠ .manager ∨ Config.serial.toNat ≤ serial.toNat → exec (.managerStepDown serial) s = .next s)) ∧
      (∀ p, exec (.pbrIdentifierAssign p) s = .next { s with sys := { s.sys with pbr := p, pbrValid := true } }) ∧
      (∀ ft : W64,
        (s.time.sync = true → After (.syncGained ft) s (fun t => t.time.ftime = s.time.ftime ∧ t.time.sync = true ∧
          t.time.syncAt = s.time.ftime ∧ t.time.owe = ((ft.toNat : Int) - s.time.ftime) * tickUnit - s.time.frac ∧ t.mem = s.mem)) ∧
        (s.time.sync = false → s.time.ftime ≤ ft.toNat → After (.syncGained ft) s (fun t => t.time.ftime = ft.toNat ∧
          t.time.sync = true ∧ t.time.half = false ∧ t.sys.role = s.sys.role ∧ t.groups = s.groups)) ∧
        (s.time.sync = false → ft.toNat < s.time.ftime → After (.syncGained ft) s (fun t => t.time.ftime = s.time.ftime ∧
          t.time.sync = false ∧ t.time.half = true ∧ t.time.target = some ft.toNat ∧ t.mem = s.mem))) ∧
      (s.time.sync = true → s.time.syncAt + 100 * msTicks ≤ s.time.ftime →
        After .syncLost s (fun t => t.time = { s.time with sync := false } ∧ SystemNoted s t 5 0 ∧ t.groups = s.groups)) ∧
      (s.time.sync = false ∨ s.time.ftime < s.time.syncAt + 100 * msTicks → exec .syncLost s = .next s)) ∧
  (∀ (s : State) (n : Nat), let p := s.sys.port n
      let fits := fun (width : BitVec 4) => (width = 4 ∧ n < 16 ∨ width = 3 ∧ n < 32 ∨ width = 2 ∧ n < 64) ∧
        ∀ x ∈ s.sys.ports, x.1 ≠ n → x.1 % 16 = n % 16 → x.2.up = true → x.2.width = width
      (∀ role width tags, fits width → After (.linkUp n role width tags) s (fun t => t.sys.port n =
          { p with role := role, up := true, hot := false, width := width, tagExt := tags && role == .fabric } ∧
        (∀ m, m ≠ n → t.sys.port m = s.sys.port m) ∧ SystemNoted s t 3 (n % 16) ∧ t.groups = s.groups)) ∧
      (p.up = false → exec (.linkDown n) s = .next s) ∧
      (p.up = true → After (.linkDown n) s (fun t => t.sys.port n = { p with up := false } ∧ t.groups = s.groups ∧
        (p.role ≠ .fabric → SystemNoted s t 2 (n % 16) ∧ t.lease.slots = s.lease.slots ∧ t.lease.lenders = s.lease.lenders) ∧
        (p.role = .fabric → ∀ q ∈ p.peers, peerUp (s.onPort n (fun p => { p with up := false })) q = false →
          ∀ i, (∃ y ∈ s.lease.slots, y.1 = i ∧ y.2.lender.setWidth 12 = q) →
          (s.lease.slot i).st = 2 ∨ (s.lease.slot i).st = 3 ∨ (s.lease.slot i).st = 4 →
            (t.lease.slot i).st = (if (s.lease.slot i).releasing then 0 else 5)))) ∧
      (p.role ≠ .upstream → exec (.upstreamHotReset n) s = .next s) ∧
      (p.role = .upstream → After (.upstreamHotReset n) s (fun t => (t.sys.port n).up = false ∧ (t.sys.port n).hot = true ∧ (t.sys.port n).cut = true ∧
        (t.sys.port n).resets = (if p.resets = 255 then 255 else p.resets + 1) ∧ (t.sys.port n).host = HostSide.reset ∧
        (∀ m, m ≠ n → (t.sys.port m).host = (s.sys.port m).host) ∧
        (∀ b ∈ s.xlat.bound, b.2 % 64 = n → KeySet.has t.xlat.detached b.1 = true ∧ Tab.look t.xlat.bound b.1 = none) ∧
        t.groups = s.groups)) ∧
      (∀ role width tags, ¬ fits width → exec (.linkUp n role width tags) s = .next s) ∧
      (16 ≤ n → exec (.sequenceWarning n) s = .next s) ∧
      (n < 16 → After (.sequenceWarning n) s (fun t => SystemNoted s t 7 n ∧ t.groups = s.groups ∧
        t.lease.slots = s.lease.slots ∧ t.lease.lenders = s.lease.lenders)) ∧
      (flowStalled s n = true → (∀ va data, exec (.inboundWrite n va data) s = .next s) ∧
        ∀ va len, exec (.inboundRead n va len) s = .next s) ∧
      (flowStalled s n = decide (2 ^ 48 - 1 ≤ p.flow)) ∧
      (∀ va : W64, ∀ data s1, flowStalled s n = false →
        (inboundXlat s n needStore (data.length / 4096 + 2) va.toNat data.length = .bad s1 →
          exec (.inboundWrite n va data) s = .next { s1 with out := s1.out ++ [.inboundReply n false []] }) ∧
        (inboundXlat s n needStore (data.length / 4096 + 2) va.toNat data.length = .wait s1 → exec (.inboundWrite n va data) s = .next s1)) ∧
      (∀ va : W64, ∀ data s1 pa k, flowStalled s n = false → inboundXlat s n needStore (data.length / 4096 + 2) va.toNat data.length = .ok s1 [(pa, k, false)] →
        data.length ≤ k → pa % 4096 + data.length ≤ 4096 → isLease pa = false → isMmio pa = false → After (.inboundWrite n va data) s (fun t =>
          t.mem = (if writeBarred s1 pa = true then s.mem else s.mem.write pa data) ∧ t.groups = s.groups)) ∧
      (∀ va : W64, ∀ len s1, flowStalled s n = false →
        (inboundXlat s n needLoad (len / 4096 + 2) va.toNat len = .bad s1 →
          exec (.inboundRead n va len) s = .next { s1 with out := s1.out ++ [.inboundReply n false []] }) ∧
        (inboundXlat s n needLoad (len / 4096 + 2) va.toNat len = .wait s1 → exec (.inboundRead n va len) s = .next s1)) ∧
      (∀ va : W64, ∀ len s1 l, flowStalled s n = false → inboundXlat s n needLoad (len / 4096 + 2) va.toNat len = .ok s1 l →
        (∀ x ∈ l, s1.mem.err (homeOf s1 x.1) x.2.1 = none ∧ x.2.2 = false ∧ isMmio x.1 = false) →
          After (.inboundRead n va len) s (fun t => t.mem = s.mem ∧ t.groups = s.groups ∧
            t.out = s.out ++ [.inboundReply n true (l.flatMap (fun x => openBytes s1 (keyOf s1 (s1.sys.port n).asid) x.1 (s1.readBytes x.1 x.2.1)))])) ∧
      (∀ key pa, isMmio pa = true → cutOff s pa = true →
        (∀ k, deviceLoad s key pa k = (s, List.replicate k 0xFF)) ∧ ∀ bs, deviceStore s key pa bs = s))

/-- Events of the whole package (R282, R305, R364, R378, R457 to R460). Tier D0 opens for a world that has a key, which
alone is then inspected, and for no other; D1 opens unless a protected world is live; D2 opens and every world, group,
team, unit and launch is gone; D3 does that too, empties memory and what a lease holds here before it notes its event,
and leaves no attestation key and a key store that refuses CREATE until the next cold boot. A soft error of memory or
of a vault marks its 64-byte unit and changes no byte. One of a tile's quarter makes its words 0 or NaN by the format
that log 19 names, in the team's tile and in the rows that a pass has still to write back, and changes no other word.
A core closes at 95 °C and reopens below 88 °C, each with its event. A core that holds no team may be power-gated and
one with a team stays on (log 40); it wakes with its caches, write pointers and vault empty. Above the power limit the
clock steps down, to 50 MHz at the last (log 49); under it the clock steps up. Any core, vault or I/O die at 110 °C
shuts the package down, which reports the hottest. An image is staged for the next cold boot. A cold boot takes its
five steps in order, the first of which puts the staged image in place, the second finds the pool and trains the
links, the third takes the fabric's time or runs freely after 100 ms (log 74), and the fourth hands over the roots;
where a step fails the package is held in reset and reports it (log 39). The values to which the key store and the
system page come back are those of reset (log 2). -/
def Obligations.PackageEvents : Prop :=
  ∀ (s : State),
    let opens := fun (t : State) (n : Nat) => t.sys.tier = BitVec.ofNat 2 n ∧ t.sys.tiers = s.sys.tiers ||| BitVec.ofNat 4 (2 ^ n)
    let wiped := fun (t : State) => t.groups = [] ∧ t.teams = [] ∧ t.units = [] ∧ t.launches = [] ∧
      (∀ w, w ≠ 0 → t.keys.world w = World.reset) ∧ t.keys.locked = []
    (∀ w, ((s.keys.world w).key ≠ 0 → After (.debugD0 w) s (fun t => opens t 0 ∧ t.sys.inspect = some w ∧ SystemNoted s t 8 0 ∧ t.groups = s.groups)) ∧
      ((s.keys.world w).key = 0 → exec (.debugD0 w) s = .next s)) ∧
    ((∃ x ∈ s.keys.worlds, x.2.st = 2 ∧ x.2.prot = true) → exec .debugD1 s = .next s) ∧
    ((∀ x ∈ s.keys.worlds, ¬ (x.2.st = 2 ∧ x.2.prot = true)) →
      After .debugD1 s (fun t => opens t 1 ∧ t.sys.inspect = none ∧ SystemNoted s t 8 0 ∧ t.groups = s.groups)) ∧
    After .debugD2 s (fun t => opens t 2 ∧ wiped t ∧ t.keys.attest = s.keys.attest ∧ t.keys.refuse = s.keys.refuse) ∧
    (let note := s.sys.evbase.toNat + 16 * s.sys.evhead
      let full := ringFull s.sys.evsize s.sys.evhead s.sys.evtail
      After .debugD3 s (fun t => opens t 3 ∧ wiped t ∧ SystemNoted { s with mem := State.reset.mem } t 8 0 ∧ t.lease.far = [] ∧
        (full = true → t.lease.lines = []) ∧
        (s.sys.waiting = [] → isLease note = false → isLease (note + 15) = false → t.lease.lines = []) ∧
        t.keys.attest = false ∧ t.keys.refuse = true)) ∧
    (∀ pa, After (.uncorrectableSoftError (.memory pa)) s (fun t => t.mem.err (homeOf s pa) 1 = some (homeOf s pa / 64 * 64) ∧
      t.mem.cells = s.mem.cells ∧ t.groups = s.groups)) ∧
    (∀ core off, After (.uncorrectableSoftError (.vault core off)) s (fun t =>
      t.mem.err (vaultHome core (off % 2 ^ 22)) 1 = some (vaultHome core (off % 2 ^ 22) / 64 * 64) ∧
      t.mem.cells = s.mem.cells ∧ t.groups = s.groups)) ∧
    (∀ k tile q tm, Tab.look s.teams k = some tm → tile < 16 → q < 4 →
      After (.uncorrectableSoftError (.quarter k tile q)) s (fun t => t.groups = s.groups ∧
        (let spoil := spoilPass k tile q (tileInt s k tm tile);
          (t.core tm.core).mx.run = (s.core tm.core).mx.run.map spoil ∧ (t.core tm.core).mx.ended = (s.core tm.core).mx.ended.map spoil) ∧
        ∃ tm', Tab.look t.teams k = some tm' ∧
        ∀ tl i j, j < 128 → i < 128 → tileAt tm' tl i j =
          if tl = tile ∧ 32 * q ≤ i ∧ i < 32 * q + 32 then (if tileInt s k tm tile then 0 else 0x7FC00000) else tileAt tm tl i j)) ∧
    (∀ c, let w := (s.core c).pw
      (w.closed = false → 95 ≤ w.temp → After (.coreClose c) s (fun t => (t.core c).pw = { w with closed := true } ∧
        SystemNoted s t 9 c ∧ t.groups = s.groups)) ∧
      (w.closed = true ∨ w.temp < 95 → exec (.coreClose c) s = .next s) ∧
      (w.closed = true → w.temp < 88 → After (.coreReopen c) s (fun t => (t.core c).pw = { w with closed := false } ∧
        SystemNoted s t 10 c ∧ t.groups = s.groups)) ∧
      (w.closed = false ∨ 88 ≤ w.temp → exec (.coreReopen c) s = .next s) ∧
      (∀ ret, (teamsOn s c = [] → After (.powerGate c ret) s (fun t => (t.core c).pw = { w with gated := true, lostRet := !ret } ∧
          t.groups = s.groups ∧ t.mem = s.mem)) ∧
        (teamsOn s c ≠ [] → exec (.powerGate c ret) s = .next s)) ∧
      (w.gated = false → exec (.wakeWithZeroing c) s = .next s) ∧
      (w.gated = true → After (.wakeWithZeroing c) s (fun t => (t.core c).pw = { w with gated := false, lostRet := false, lastWorld := none } ∧
        (t.core c).l1.lines = [] ∧ (t.core c).ic = [] ∧ (t.core c).wp = [] ∧ t.groups = s.groups ∧
        (teamsOn s c = [] → ∀ o, o < 2 ^ 22 → t.mem.read (vaultHome c o) = 0)))) ∧
    (s.power.overLimit = true → s.power.stepsDown < 39 → After .clockStepDown s (fun t => t.power.stepsDown = s.power.stepsDown + 1 ∧
      clockTicks s ≤ clockTicks t ∧ t.mem = s.mem ∧ t.groups = s.groups)) ∧
    (s.power.overLimit = false → After .clockStepUp s (fun t => t.power.stepsDown = s.power.stepsDown - 1 ∧ t.mem = s.mem ∧ t.groups = s.groups)) ∧
    ((∃ x ∈ s.cores, 110 ≤ x.2.pw.temp) ∨ (∃ x ∈ s.power.dieTemp, 110 ≤ x.2) → After .thermalShutdown s (fun t => t.power.down = true ∧ t.out = s.out ++ [.overheated (hottest s)] ∧ stopped t = true)) ∧
    (∀ image, exec (.firmwareUpdate image) s = .next { s with power := { s.power with staged := some image } }) ∧
    After .coldBoot s (fun t => t.power.held = s.power.failing ∧ t.power.down = false ∧ stopped t = s.power.failing.isSome ∧
      t.mem = State.reset.mem ∧ t.groups = [] ∧ t.cores = [] ∧ t.keys = State.reset.keys ∧ (let done := fun (k : Nat) => s.power.failing = none ∨ ∃ n, s.power.failing = some n ∧ k < n
        (∀ m, (∀ x ∈ s.power.ends, x.1 ≠ m) → t.sys.port m = State.reset.sys.port m) ∧
        (s.power.ends = [] ∨ ¬ done 2 → t.sys = State.reset.sys) ∧
        (∀ m role width tags, s.power.ends = [(m, role, width, tags)] → done 2 → m / 16 < widthLinks width → t.sys.port m =
          { State.reset.sys.port m with role := role, up := true, hot := false, width := width, tagExt := tags && role == .fabric }) ∧
        (¬ done 3 ∨ fabricUp t = false → t.time = State.reset.time) ∧
        (done 3 → fabricUp t = true →
          (∀ f, s.power.fabricTime = some f → t.time.ftime = f ∧ t.time.sync = true) ∧
          (s.power.fabricTime = none → t.time.ftime = 100 * msTicks ∧ t.time.sync = false))) ∧
      (s.power.failing = none → t.power.installed = s.power.staged.getD s.power.installed ∧ t.power.staged = none ∧
        t.power.poolExtents = s.power.poolExtents ∧ t.roots = rootCaps ∧ t.out = []) ∧
      (∀ n, s.power.failing = some n → t.out = [.bootFailed n] ∧
        t.power.installed = (if 2 ≤ n then s.power.staged.getD s.power.installed else s.power.installed) ∧
        t.power.poolExtents = (if 3 ≤ n then s.power.poolExtents else 0) ∧ t.roots = (if 5 ≤ n then rootCaps else [])))
end

