-- ==== Sys2Proof/Laws/Tables.lean ====
section
/-! SUPPORT. What the operations of tables and key sets do: reads after writes, and the sorted form. -/

namespace Sys2Proof

namespace Tab

variable {α β : Type}

@[simp] theorem look_put (l : Tab α) (k : Nat) (v : α) : look (put l k v) k = some v := by
  induction l with
  | nil => simp [put, look]
  | cons p l ih =>
    obtain ⟨j, w⟩ := p
    simp only [put]
    split
    · simp [look]
    · split
      · simp [look]
      · simp only [look]; rw [if_neg (by omega)]; exact ih

theorem look_put_ne (l : Tab α) {k j : Nat} (v : α) (h : j ≠ k) : look (put l k v) j = look l j := by
  induction l with
  | nil => simp [put, look, Ne.symm h]
  | cons p l ih =>
    obtain ⟨i, w⟩ := p
    simp only [put]
    split
    · simp only [look]; rw [if_neg (Ne.symm h)]
    · split
      · subst_vars; simp only [look]; rw [if_neg (Ne.symm h), if_neg (Ne.symm h)]
      · simp only [look]; rw [ih]

theorem look_put_if (l : Tab α) (k j : Nat) (v : α) :
    look (put l k v) j = if j = k then some v else look l j := by
  split
  · subst_vars; simp
  · exact look_put_ne l v ‹_›

@[simp] theorem look_rem (l : Tab α) (k : Nat) : look (rem l k) k = none := by
  induction l with
  | nil => rfl
  | cons p l ih =>
    obtain ⟨i, w⟩ := p
    simp only [rem]
    split
    · exact ih
    · simp only [look]; rw [if_neg ‹_›]; exact ih

theorem look_rem_ne (l : Tab α) {k j : Nat} (h : j ≠ k) : look (rem l k) j = look l j := by
  induction l with
  | nil => rfl
  | cons p l ih =>
    obtain ⟨i, w⟩ := p
    simp only [rem]
    split
    · subst_vars; simp only [look]; rw [if_neg (Ne.symm h)]; exact ih
    · simp only [look]; rw [ih]

theorem lookD_put (l : Tab α) (k j : Nat) (v d : α) :
    lookD (put l k v) j d = if j = k then v else lookD l j d := by
  simp only [lookD, look_put_if]; split <;> simp

theorem lookD_cput [DecidableEq α] (d : α) (l : Tab α) (k j : Nat) (v : α) :
    lookD (cput d l k v) j d = if j = k then v else lookD l j d := by
  unfold cput
  split
  · subst_vars
    split
    · subst_vars; simp [lookD]
    · simp [lookD, look_rem_ne _ ‹_›]
  · exact lookD_put _ _ _ _ _

theorem lookD_rem (l : Tab α) (k j : Nat) (d : α) : lookD (rem l k) j d = if j = k then d else lookD l j d := by
  split
  · subst_vars; simp [lookD]
  · simp [lookD, look_rem_ne _ ‹_›]

theorem look_mapv (f : Nat → α → β) (l : Tab α) (k : Nat) : look (mapv f l) k = (look l k).map (f k) := by
  induction l with
  | nil => rfl
  | cons p l ih =>
    obtain ⟨i, w⟩ := p
    simp only [mapv, look]
    split
    · subst_vars; rfl
    · exact ih

@[simp] theorem lookD_nil (k : Nat) (d : α) : lookD ([] : Tab α) k d = d := rfl

/-! ### The sorted form -/

theorem above_put {l : Tab α} {m k : Nat} {v : α} (h : above l m = true) (hk : m < k) : above (put l k v) m = true := by
  induction l with
  | nil => simp [put, above, hk]
  | cons p l ih =>
    obtain ⟨i, w⟩ := p
    simp only [above, Bool.and_eq_true, decide_eq_true_eq] at h
    simp only [put]
    split
    · simp [above, hk, h.1, h.2]
    · split
      · simp [above, hk, h.2]
      · simp [above, h.1, ih h.2]

theorem above_trans {l : Tab α} {a b : Nat} (h : above l b = true) (hab : a < b) : above l a = true := by
  induction l with
  | nil => rfl
  | cons p l ih =>
    simp only [above, Bool.and_eq_true, decide_eq_true_eq] at h ⊢
    exact ⟨by omega, ih h.2⟩

theorem wf_put {l : Tab α} {k : Nat} {v : α} (h : wf l = true) : wf (put l k v) = true := by
  induction l with
  | nil => simp [put, wf, above]
  | cons p l ih =>
    obtain ⟨i, w⟩ := p
    simp only [wf, Bool.and_eq_true] at h
    simp only [put]
    split
    · simp [wf, above, h.1, h.2, above_trans h.1 ‹k < i›, ‹k < i›]
    · split
      · subst_vars; simp [wf, h.1, h.2]
      · simp only [wf, Bool.and_eq_true]
        exact ⟨above_put h.1 (by omega), ih h.2⟩

theorem above_rem {l : Tab α} {m k : Nat} (h : above l m = true) : above (rem l k) m = true := by
  induction l with
  | nil => rfl
  | cons p l ih =>
    obtain ⟨i, w⟩ := p
    simp only [above, Bool.and_eq_true] at h
    simp only [rem]
    split
    · exact ih h.2
    · simp [above, h.1, ih h.2]

theorem wf_rem {l : Tab α} {k : Nat} (h : wf l = true) : wf (rem l k) = true := by
  induction l with
  | nil => rfl
  | cons p l ih =>
    obtain ⟨i, w⟩ := p
    simp only [wf, Bool.and_eq_true] at h
    simp only [rem]
    split
    · exact ih h.2
    · simp [wf, above_rem h.1, ih h.2]

theorem above_filter {l : Tab α} {m : Nat} (p : Nat × α → Bool) (h : above l m = true) : above (l.filter p) m = true := by
  induction l with
  | nil => rfl
  | cons q l ih =>
    obtain ⟨i, w⟩ := q
    simp only [above, Bool.and_eq_true] at h
    rw [List.filter_cons]
    split
    · simp [above, h.1, ih h.2]
    · exact ih h.2

theorem wf_filter {l : Tab α} (p : Nat × α → Bool) (h : wf l = true) : wf (l.filter p) = true := by
  induction l with
  | nil => rfl
  | cons q l ih =>
    obtain ⟨i, w⟩ := q
    simp only [wf, Bool.and_eq_true] at h
    rw [List.filter_cons]
    split
    · simp [wf, above_filter p h.1, ih h.2]
    · exact ih h.2

theorem wf_cput [DecidableEq α] {d : α} {l : Tab α} {k : Nat} {v : α} (h : wf l = true) :
    wf (cput d l k v) = true := by
  unfold cput
  split
  · exact wf_rem h
  · exact wf_put h

end Tab

namespace KeySet

theorem has_iff_mem (l : KeySet) (k : Nat) : has l k = true ↔ k ∈ l := by
  induction l with
  | nil => simp [has]
  | cons i l ih =>
    simp only [has, Bool.or_eq_true, decide_eq_true_eq, ih, List.mem_cons]
    exact or_congr_left eq_comm

theorem mem_ins (l : KeySet) (k j : Nat) : j ∈ ins l k ↔ j = k ∨ j ∈ l := by
  induction l with
  | nil => simp [ins]
  | cons i l ih =>
    simp only [ins]
    split
    · simp
    · split
      · subst_vars; simp
      · simp only [List.mem_cons, ih]; tauto

theorem mem_del (l : KeySet) (k j : Nat) : j ∈ del l k ↔ j ≠ k ∧ j ∈ l := by
  induction l with
  | nil => simp [del]
  | cons i l ih =>
    simp only [del]
    split
    · subst_vars; simp only [ih, List.mem_cons]; tauto
    · simp only [List.mem_cons, ih]
      constructor
      · rintro (rfl | h)
        · exact ⟨‹_›, .inl rfl⟩
        · exact ⟨h.1, .inr h.2⟩
      · rintro ⟨h, rfl | h'⟩
        · exact .inl rfl
        · exact .inr ⟨h, h'⟩

theorem has_ins (l : KeySet) (k j : Nat) : has (ins l k) j = (decide (j = k) || has l j) := by
  rw [Bool.eq_iff_iff, Bool.or_eq_true, decide_eq_true_eq, has_iff_mem, has_iff_mem, mem_ins]

theorem has_del (l : KeySet) (k j : Nat) : has (del l k) j = (!decide (j = k) && has l j) := by
  rw [Bool.eq_iff_iff, Bool.and_eq_true, has_iff_mem, has_iff_mem, mem_del]; simp

end KeySet

end Sys2Proof
end

