-- ==== Sys2Proof/Laws/State.lean ====
section
/-! SUPPORT. What each named update of the state leaves alone, field by field. -/

namespace Sys2Proof.Machine

variable (s : State)

@[simp] theorem State.setGroup_mem (k : Nat) (g : Group) : (s.setGroup k g).mem = s.mem := rfl
@[simp] theorem State.setGroup_cores (k : Nat) (g : Group) : (s.setGroup k g).cores = s.cores := rfl
@[simp] theorem State.setGroup_teams (k : Nat) (g : Group) : (s.setGroup k g).teams = s.teams := rfl
@[simp] theorem State.setGroup_units (k : Nat) (g : Group) : (s.setGroup k g).units = s.units := rfl
@[simp] theorem State.setGroup_launches (k : Nat) (g : Group) : (s.setGroup k g).launches = s.launches := rfl
@[simp] theorem State.setGroup_dist (k : Nat) (g : Group) : (s.setGroup k g).dist = s.dist := rfl
@[simp] theorem State.setGroup_time (k : Nat) (g : Group) : (s.setGroup k g).time = s.time := rfl
@[simp] theorem State.setGroup_sysq (k : Nat) (g : Group) : (s.setGroup k g).sysq = s.sysq := rfl
@[simp] theorem State.setGroup_xlat (k : Nat) (g : Group) : (s.setGroup k g).xlat = s.xlat := rfl
@[simp] theorem State.setGroup_lease (k : Nat) (g : Group) : (s.setGroup k g).lease = s.lease := rfl
@[simp] theorem State.setGroup_rev (k : Nat) (g : Group) : (s.setGroup k g).rev = s.rev := rfl
@[simp] theorem State.setGroup_resid (k : Nat) (g : Group) : (s.setGroup k g).resid = s.resid := rfl
@[simp] theorem State.setGroup_keys (k : Nat) (g : Group) : (s.setGroup k g).keys = s.keys := rfl
@[simp] theorem State.setGroup_sys (k : Nat) (g : Group) : (s.setGroup k g).sys = s.sys := rfl
@[simp] theorem State.setGroup_power (k : Nat) (g : Group) : (s.setGroup k g).power = s.power := rfl
@[simp] theorem State.setGroup_roots (k : Nat) (g : Group) : (s.setGroup k g).roots = s.roots := rfl
@[simp] theorem State.setGroup_owners (k : Nat) (g : Group) : (s.setGroup k g).owners = s.owners := rfl
@[simp] theorem State.setGroup_sealed (k : Nat) (g : Group) : (s.setGroup k g).sealed = s.sealed := rfl
@[simp] theorem State.setGroup_ctl (k : Nat) (g : Group) : (s.setGroup k g).ctl = s.ctl := rfl
@[simp] theorem State.setGroup_mmio (k : Nat) (g : Group) : (s.setGroup k g).mmio = s.mmio := rfl
@[simp] theorem State.setGroup_out (k : Nat) (g : Group) : (s.setGroup k g).out = s.out := rfl
@[simp] theorem State.setGroup_agenda (k : Nat) (g : Group) : (s.setGroup k g).agenda = s.agenda := rfl
@[simp] theorem State.setGroup_focus (k : Nat) (g : Group) : (s.setGroup k g).focus = s.focus := rfl
@[simp] theorem State.setGroup_ctr (k : Nat) (g : Group) : (s.setGroup k g).ctr = s.ctr := rfl
@[simp] theorem State.setGroup_cut (k : Nat) (g : Group) : (s.setGroup k g).cut = s.cut := rfl
@[simp] theorem State.setGroup_fetchStop (k : Nat) (g : Group) : (s.setGroup k g).fetchStop = s.fetchStop := rfl
@[simp] theorem State.setGroup_fetched (k : Nat) (g : Group) : (s.setGroup k g).fetched = s.fetched := rfl

@[simp] theorem State.setCore_mem (i : Nat) (c : Core) : (s.setCore i c).mem = s.mem := rfl
@[simp] theorem State.setCore_groups (i : Nat) (c : Core) : (s.setCore i c).groups = s.groups := rfl
@[simp] theorem State.setCore_teams (i : Nat) (c : Core) : (s.setCore i c).teams = s.teams := rfl
@[simp] theorem State.setCore_units (i : Nat) (c : Core) : (s.setCore i c).units = s.units := rfl
@[simp] theorem State.setCore_launches (i : Nat) (c : Core) : (s.setCore i c).launches = s.launches := rfl
@[simp] theorem State.setCore_dist (i : Nat) (c : Core) : (s.setCore i c).dist = s.dist := rfl
@[simp] theorem State.setCore_time (i : Nat) (c : Core) : (s.setCore i c).time = s.time := rfl
@[simp] theorem State.setCore_sysq (i : Nat) (c : Core) : (s.setCore i c).sysq = s.sysq := rfl
@[simp] theorem State.setCore_xlat (i : Nat) (c : Core) : (s.setCore i c).xlat = s.xlat := rfl
@[simp] theorem State.setCore_lease (i : Nat) (c : Core) : (s.setCore i c).lease = s.lease := rfl
@[simp] theorem State.setCore_rev (i : Nat) (c : Core) : (s.setCore i c).rev = s.rev := rfl
@[simp] theorem State.setCore_resid (i : Nat) (c : Core) : (s.setCore i c).resid = s.resid := rfl
@[simp] theorem State.setCore_keys (i : Nat) (c : Core) : (s.setCore i c).keys = s.keys := rfl
@[simp] theorem State.setCore_sys (i : Nat) (c : Core) : (s.setCore i c).sys = s.sys := rfl
@[simp] theorem State.setCore_power (i : Nat) (c : Core) : (s.setCore i c).power = s.power := rfl
@[simp] theorem State.setCore_roots (i : Nat) (c : Core) : (s.setCore i c).roots = s.roots := rfl
@[simp] theorem State.setCore_owners (i : Nat) (c : Core) : (s.setCore i c).owners = s.owners := rfl
@[simp] theorem State.setCore_sealed (i : Nat) (c : Core) : (s.setCore i c).sealed = s.sealed := rfl
@[simp] theorem State.setCore_ctl (i : Nat) (c : Core) : (s.setCore i c).ctl = s.ctl := rfl
@[simp] theorem State.setCore_mmio (i : Nat) (c : Core) : (s.setCore i c).mmio = s.mmio := rfl
@[simp] theorem State.setCore_out (i : Nat) (c : Core) : (s.setCore i c).out = s.out := rfl
@[simp] theorem State.setCore_agenda (i : Nat) (c : Core) : (s.setCore i c).agenda = s.agenda := rfl
@[simp] theorem State.setCore_focus (i : Nat) (c : Core) : (s.setCore i c).focus = s.focus := rfl
@[simp] theorem State.setCore_ctr (i : Nat) (c : Core) : (s.setCore i c).ctr = s.ctr := rfl
@[simp] theorem State.setCore_cut (i : Nat) (c : Core) : (s.setCore i c).cut = s.cut := rfl
@[simp] theorem State.setCore_fetchStop (i : Nat) (c : Core) : (s.setCore i c).fetchStop = s.fetchStop := rfl
@[simp] theorem State.setCore_fetched (i : Nat) (c : Core) : (s.setCore i c).fetched = s.fetched := rfl

@[simp] theorem State.onCore_mem (i : Nat) (f : Core → Core) : (s.onCore i f).mem = s.mem := rfl
@[simp] theorem State.onCore_groups (i : Nat) (f : Core → Core) : (s.onCore i f).groups = s.groups := rfl
@[simp] theorem State.onCore_teams (i : Nat) (f : Core → Core) : (s.onCore i f).teams = s.teams := rfl
@[simp] theorem State.onCore_units (i : Nat) (f : Core → Core) : (s.onCore i f).units = s.units := rfl
@[simp] theorem State.onCore_launches (i : Nat) (f : Core → Core) : (s.onCore i f).launches = s.launches := rfl
@[simp] theorem State.onCore_dist (i : Nat) (f : Core → Core) : (s.onCore i f).dist = s.dist := rfl
@[simp] theorem State.onCore_time (i : Nat) (f : Core → Core) : (s.onCore i f).time = s.time := rfl
@[simp] theorem State.onCore_sysq (i : Nat) (f : Core → Core) : (s.onCore i f).sysq = s.sysq := rfl
@[simp] theorem State.onCore_xlat (i : Nat) (f : Core → Core) : (s.onCore i f).xlat = s.xlat := rfl
@[simp] theorem State.onCore_lease (i : Nat) (f : Core → Core) : (s.onCore i f).lease = s.lease := rfl
@[simp] theorem State.onCore_rev (i : Nat) (f : Core → Core) : (s.onCore i f).rev = s.rev := rfl
@[simp] theorem State.onCore_resid (i : Nat) (f : Core → Core) : (s.onCore i f).resid = s.resid := rfl
@[simp] theorem State.onCore_keys (i : Nat) (f : Core → Core) : (s.onCore i f).keys = s.keys := rfl
@[simp] theorem State.onCore_sys (i : Nat) (f : Core → Core) : (s.onCore i f).sys = s.sys := rfl
@[simp] theorem State.onCore_power (i : Nat) (f : Core → Core) : (s.onCore i f).power = s.power := rfl
@[simp] theorem State.onCore_roots (i : Nat) (f : Core → Core) : (s.onCore i f).roots = s.roots := rfl
@[simp] theorem State.onCore_owners (i : Nat) (f : Core → Core) : (s.onCore i f).owners = s.owners := rfl
@[simp] theorem State.onCore_sealed (i : Nat) (f : Core → Core) : (s.onCore i f).sealed = s.sealed := rfl
@[simp] theorem State.onCore_ctl (i : Nat) (f : Core → Core) : (s.onCore i f).ctl = s.ctl := rfl
@[simp] theorem State.onCore_mmio (i : Nat) (f : Core → Core) : (s.onCore i f).mmio = s.mmio := rfl
@[simp] theorem State.onCore_out (i : Nat) (f : Core → Core) : (s.onCore i f).out = s.out := rfl
@[simp] theorem State.onCore_agenda (i : Nat) (f : Core → Core) : (s.onCore i f).agenda = s.agenda := rfl
@[simp] theorem State.onCore_focus (i : Nat) (f : Core → Core) : (s.onCore i f).focus = s.focus := rfl
@[simp] theorem State.onCore_ctr (i : Nat) (f : Core → Core) : (s.onCore i f).ctr = s.ctr := rfl
@[simp] theorem State.onCore_cut (i : Nat) (f : Core → Core) : (s.onCore i f).cut = s.cut := rfl
@[simp] theorem State.onCore_fetchStop (i : Nat) (f : Core → Core) : (s.onCore i f).fetchStop = s.fetchStop := rfl
@[simp] theorem State.onCore_fetched (i : Nat) (f : Core → Core) : (s.onCore i f).fetched = s.fetched := rfl

@[simp] theorem State.l1Map_mem (i : Nat) (f : L1 → L1) : (s.l1Map i f).mem = s.mem := rfl
@[simp] theorem State.l1Map_groups (i : Nat) (f : L1 → L1) : (s.l1Map i f).groups = s.groups := rfl
@[simp] theorem State.l1Map_teams (i : Nat) (f : L1 → L1) : (s.l1Map i f).teams = s.teams := rfl
@[simp] theorem State.l1Map_units (i : Nat) (f : L1 → L1) : (s.l1Map i f).units = s.units := rfl
@[simp] theorem State.l1Map_launches (i : Nat) (f : L1 → L1) : (s.l1Map i f).launches = s.launches := rfl
@[simp] theorem State.l1Map_dist (i : Nat) (f : L1 → L1) : (s.l1Map i f).dist = s.dist := rfl
@[simp] theorem State.l1Map_time (i : Nat) (f : L1 → L1) : (s.l1Map i f).time = s.time := rfl
@[simp] theorem State.l1Map_sysq (i : Nat) (f : L1 → L1) : (s.l1Map i f).sysq = s.sysq := rfl
@[simp] theorem State.l1Map_xlat (i : Nat) (f : L1 → L1) : (s.l1Map i f).xlat = s.xlat := rfl
@[simp] theorem State.l1Map_lease (i : Nat) (f : L1 → L1) : (s.l1Map i f).lease = s.lease := rfl
@[simp] theorem State.l1Map_rev (i : Nat) (f : L1 → L1) : (s.l1Map i f).rev = s.rev := rfl
@[simp] theorem State.l1Map_resid (i : Nat) (f : L1 → L1) : (s.l1Map i f).resid = s.resid := rfl
@[simp] theorem State.l1Map_keys (i : Nat) (f : L1 → L1) : (s.l1Map i f).keys = s.keys := rfl
@[simp] theorem State.l1Map_sys (i : Nat) (f : L1 → L1) : (s.l1Map i f).sys = s.sys := rfl
@[simp] theorem State.l1Map_power (i : Nat) (f : L1 → L1) : (s.l1Map i f).power = s.power := rfl
@[simp] theorem State.l1Map_roots (i : Nat) (f : L1 → L1) : (s.l1Map i f).roots = s.roots := rfl
@[simp] theorem State.l1Map_owners (i : Nat) (f : L1 → L1) : (s.l1Map i f).owners = s.owners := rfl
@[simp] theorem State.l1Map_sealed (i : Nat) (f : L1 → L1) : (s.l1Map i f).sealed = s.sealed := rfl
@[simp] theorem State.l1Map_ctl (i : Nat) (f : L1 → L1) : (s.l1Map i f).ctl = s.ctl := rfl
@[simp] theorem State.l1Map_mmio (i : Nat) (f : L1 → L1) : (s.l1Map i f).mmio = s.mmio := rfl
@[simp] theorem State.l1Map_out (i : Nat) (f : L1 → L1) : (s.l1Map i f).out = s.out := rfl
@[simp] theorem State.l1Map_agenda (i : Nat) (f : L1 → L1) : (s.l1Map i f).agenda = s.agenda := rfl
@[simp] theorem State.l1Map_focus (i : Nat) (f : L1 → L1) : (s.l1Map i f).focus = s.focus := rfl
@[simp] theorem State.l1Map_ctr (i : Nat) (f : L1 → L1) : (s.l1Map i f).ctr = s.ctr := rfl
@[simp] theorem State.l1Map_cut (i : Nat) (f : L1 → L1) : (s.l1Map i f).cut = s.cut := rfl
@[simp] theorem State.l1Map_fetchStop (i : Nat) (f : L1 → L1) : (s.l1Map i f).fetchStop = s.fetchStop := rfl
@[simp] theorem State.l1Map_fetched (i : Nat) (f : L1 → L1) : (s.l1Map i f).fetched = s.fetched := rfl

@[simp] theorem State.discardLines_mem (f : Nat → Line → Bool) : (s.discardLines f).mem = s.mem := rfl
@[simp] theorem State.discardLines_groups (f : Nat → Line → Bool) : (s.discardLines f).groups = s.groups := rfl
@[simp] theorem State.discardLines_teams (f : Nat → Line → Bool) : (s.discardLines f).teams = s.teams := rfl
@[simp] theorem State.discardLines_units (f : Nat → Line → Bool) : (s.discardLines f).units = s.units := rfl
@[simp] theorem State.discardLines_launches (f : Nat → Line → Bool) : (s.discardLines f).launches = s.launches := rfl
@[simp] theorem State.discardLines_dist (f : Nat → Line → Bool) : (s.discardLines f).dist = s.dist := rfl
@[simp] theorem State.discardLines_time (f : Nat → Line → Bool) : (s.discardLines f).time = s.time := rfl
@[simp] theorem State.discardLines_sysq (f : Nat → Line → Bool) : (s.discardLines f).sysq = s.sysq := rfl
@[simp] theorem State.discardLines_xlat (f : Nat → Line → Bool) : (s.discardLines f).xlat = s.xlat := rfl
@[simp] theorem State.discardLines_lease (f : Nat → Line → Bool) : (s.discardLines f).lease = s.lease := rfl
@[simp] theorem State.discardLines_rev (f : Nat → Line → Bool) : (s.discardLines f).rev = s.rev := rfl
@[simp] theorem State.discardLines_resid (f : Nat → Line → Bool) : (s.discardLines f).resid = s.resid := rfl
@[simp] theorem State.discardLines_keys (f : Nat → Line → Bool) : (s.discardLines f).keys = s.keys := rfl
@[simp] theorem State.discardLines_sys (f : Nat → Line → Bool) : (s.discardLines f).sys = s.sys := rfl
@[simp] theorem State.discardLines_power (f : Nat → Line → Bool) : (s.discardLines f).power = s.power := rfl
@[simp] theorem State.discardLines_roots (f : Nat → Line → Bool) : (s.discardLines f).roots = s.roots := rfl
@[simp] theorem State.discardLines_owners (f : Nat → Line → Bool) : (s.discardLines f).owners = s.owners := rfl
@[simp] theorem State.discardLines_sealed (f : Nat → Line → Bool) : (s.discardLines f).sealed = s.sealed := rfl
@[simp] theorem State.discardLines_ctl (f : Nat → Line → Bool) : (s.discardLines f).ctl = s.ctl := rfl
@[simp] theorem State.discardLines_mmio (f : Nat → Line → Bool) : (s.discardLines f).mmio = s.mmio := rfl
@[simp] theorem State.discardLines_out (f : Nat → Line → Bool) : (s.discardLines f).out = s.out := rfl
@[simp] theorem State.discardLines_agenda (f : Nat → Line → Bool) : (s.discardLines f).agenda = s.agenda := rfl
@[simp] theorem State.discardLines_focus (f : Nat → Line → Bool) : (s.discardLines f).focus = s.focus := rfl
@[simp] theorem State.discardLines_ctr (f : Nat → Line → Bool) : (s.discardLines f).ctr = s.ctr := rfl
@[simp] theorem State.discardLines_cut (f : Nat → Line → Bool) : (s.discardLines f).cut = s.cut := rfl
@[simp] theorem State.discardLines_fetchStop (f : Nat → Line → Bool) : (s.discardLines f).fetchStop = s.fetchStop := rfl
@[simp] theorem State.discardLines_fetched (f : Nat → Line → Bool) : (s.discardLines f).fetched = s.fetched := rfl

@[simp] theorem State.discardCode_mem (f : Nat → Line → Bool) : (s.discardCode f).mem = s.mem := rfl
@[simp] theorem State.discardCode_groups (f : Nat → Line → Bool) : (s.discardCode f).groups = s.groups := rfl
@[simp] theorem State.discardCode_teams (f : Nat → Line → Bool) : (s.discardCode f).teams = s.teams := rfl
@[simp] theorem State.discardCode_units (f : Nat → Line → Bool) : (s.discardCode f).units = s.units := rfl
@[simp] theorem State.discardCode_launches (f : Nat → Line → Bool) : (s.discardCode f).launches = s.launches := rfl
@[simp] theorem State.discardCode_dist (f : Nat → Line → Bool) : (s.discardCode f).dist = s.dist := rfl
@[simp] theorem State.discardCode_time (f : Nat → Line → Bool) : (s.discardCode f).time = s.time := rfl
@[simp] theorem State.discardCode_sysq (f : Nat → Line → Bool) : (s.discardCode f).sysq = s.sysq := rfl
@[simp] theorem State.discardCode_xlat (f : Nat → Line → Bool) : (s.discardCode f).xlat = s.xlat := rfl
@[simp] theorem State.discardCode_lease (f : Nat → Line → Bool) : (s.discardCode f).lease = s.lease := rfl
@[simp] theorem State.discardCode_rev (f : Nat → Line → Bool) : (s.discardCode f).rev = s.rev := rfl
@[simp] theorem State.discardCode_resid (f : Nat → Line → Bool) : (s.discardCode f).resid = s.resid := rfl
@[simp] theorem State.discardCode_keys (f : Nat → Line → Bool) : (s.discardCode f).keys = s.keys := rfl
@[simp] theorem State.discardCode_sys (f : Nat → Line → Bool) : (s.discardCode f).sys = s.sys := rfl
@[simp] theorem State.discardCode_power (f : Nat → Line → Bool) : (s.discardCode f).power = s.power := rfl
@[simp] theorem State.discardCode_roots (f : Nat → Line → Bool) : (s.discardCode f).roots = s.roots := rfl
@[simp] theorem State.discardCode_owners (f : Nat → Line → Bool) : (s.discardCode f).owners = s.owners := rfl
@[simp] theorem State.discardCode_sealed (f : Nat → Line → Bool) : (s.discardCode f).sealed = s.sealed := rfl
@[simp] theorem State.discardCode_ctl (f : Nat → Line → Bool) : (s.discardCode f).ctl = s.ctl := rfl
@[simp] theorem State.discardCode_mmio (f : Nat → Line → Bool) : (s.discardCode f).mmio = s.mmio := rfl
@[simp] theorem State.discardCode_out (f : Nat → Line → Bool) : (s.discardCode f).out = s.out := rfl
@[simp] theorem State.discardCode_agenda (f : Nat → Line → Bool) : (s.discardCode f).agenda = s.agenda := rfl
@[simp] theorem State.discardCode_focus (f : Nat → Line → Bool) : (s.discardCode f).focus = s.focus := rfl
@[simp] theorem State.discardCode_ctr (f : Nat → Line → Bool) : (s.discardCode f).ctr = s.ctr := rfl
@[simp] theorem State.discardCode_cut (f : Nat → Line → Bool) : (s.discardCode f).cut = s.cut := rfl
@[simp] theorem State.discardCode_fetchStop (f : Nat → Line → Bool) : (s.discardCode f).fetchStop = s.fetchStop := rfl
@[simp] theorem State.discardCode_fetched (f : Nat → Line → Bool) : (s.discardCode f).fetched = s.fetched := rfl

@[simp] theorem State.onSup_mem (i : Nat) (f : Sup → Sup) : (s.onSup i f).mem = s.mem := rfl
@[simp] theorem State.onSup_groups (i : Nat) (f : Sup → Sup) : (s.onSup i f).groups = s.groups := rfl
@[simp] theorem State.onSup_teams (i : Nat) (f : Sup → Sup) : (s.onSup i f).teams = s.teams := rfl
@[simp] theorem State.onSup_units (i : Nat) (f : Sup → Sup) : (s.onSup i f).units = s.units := rfl
@[simp] theorem State.onSup_launches (i : Nat) (f : Sup → Sup) : (s.onSup i f).launches = s.launches := rfl
@[simp] theorem State.onSup_dist (i : Nat) (f : Sup → Sup) : (s.onSup i f).dist = s.dist := rfl
@[simp] theorem State.onSup_time (i : Nat) (f : Sup → Sup) : (s.onSup i f).time = s.time := rfl
@[simp] theorem State.onSup_sysq (i : Nat) (f : Sup → Sup) : (s.onSup i f).sysq = s.sysq := rfl
@[simp] theorem State.onSup_xlat (i : Nat) (f : Sup → Sup) : (s.onSup i f).xlat = s.xlat := rfl
@[simp] theorem State.onSup_lease (i : Nat) (f : Sup → Sup) : (s.onSup i f).lease = s.lease := rfl
@[simp] theorem State.onSup_rev (i : Nat) (f : Sup → Sup) : (s.onSup i f).rev = s.rev := rfl
@[simp] theorem State.onSup_resid (i : Nat) (f : Sup → Sup) : (s.onSup i f).resid = s.resid := rfl
@[simp] theorem State.onSup_keys (i : Nat) (f : Sup → Sup) : (s.onSup i f).keys = s.keys := rfl
@[simp] theorem State.onSup_sys (i : Nat) (f : Sup → Sup) : (s.onSup i f).sys = s.sys := rfl
@[simp] theorem State.onSup_power (i : Nat) (f : Sup → Sup) : (s.onSup i f).power = s.power := rfl
@[simp] theorem State.onSup_roots (i : Nat) (f : Sup → Sup) : (s.onSup i f).roots = s.roots := rfl
@[simp] theorem State.onSup_owners (i : Nat) (f : Sup → Sup) : (s.onSup i f).owners = s.owners := rfl
@[simp] theorem State.onSup_sealed (i : Nat) (f : Sup → Sup) : (s.onSup i f).sealed = s.sealed := rfl
@[simp] theorem State.onSup_ctl (i : Nat) (f : Sup → Sup) : (s.onSup i f).ctl = s.ctl := rfl
@[simp] theorem State.onSup_mmio (i : Nat) (f : Sup → Sup) : (s.onSup i f).mmio = s.mmio := rfl
@[simp] theorem State.onSup_out (i : Nat) (f : Sup → Sup) : (s.onSup i f).out = s.out := rfl
@[simp] theorem State.onSup_agenda (i : Nat) (f : Sup → Sup) : (s.onSup i f).agenda = s.agenda := rfl
@[simp] theorem State.onSup_focus (i : Nat) (f : Sup → Sup) : (s.onSup i f).focus = s.focus := rfl
@[simp] theorem State.onSup_ctr (i : Nat) (f : Sup → Sup) : (s.onSup i f).ctr = s.ctr := rfl
@[simp] theorem State.onSup_cut (i : Nat) (f : Sup → Sup) : (s.onSup i f).cut = s.cut := rfl
@[simp] theorem State.onSup_fetchStop (i : Nat) (f : Sup → Sup) : (s.onSup i f).fetchStop = s.fetchStop := rfl
@[simp] theorem State.onSup_fetched (i : Nat) (f : Sup → Sup) : (s.onSup i f).fetched = s.fetched := rfl

@[simp] theorem State.onMx_mem (i : Nat) (f : Chamois → Chamois) : (s.onMx i f).mem = s.mem := rfl
@[simp] theorem State.onMx_groups (i : Nat) (f : Chamois → Chamois) : (s.onMx i f).groups = s.groups := rfl
@[simp] theorem State.onMx_teams (i : Nat) (f : Chamois → Chamois) : (s.onMx i f).teams = s.teams := rfl
@[simp] theorem State.onMx_units (i : Nat) (f : Chamois → Chamois) : (s.onMx i f).units = s.units := rfl
@[simp] theorem State.onMx_launches (i : Nat) (f : Chamois → Chamois) : (s.onMx i f).launches = s.launches := rfl
@[simp] theorem State.onMx_dist (i : Nat) (f : Chamois → Chamois) : (s.onMx i f).dist = s.dist := rfl
@[simp] theorem State.onMx_time (i : Nat) (f : Chamois → Chamois) : (s.onMx i f).time = s.time := rfl
@[simp] theorem State.onMx_sysq (i : Nat) (f : Chamois → Chamois) : (s.onMx i f).sysq = s.sysq := rfl
@[simp] theorem State.onMx_xlat (i : Nat) (f : Chamois → Chamois) : (s.onMx i f).xlat = s.xlat := rfl
@[simp] theorem State.onMx_lease (i : Nat) (f : Chamois → Chamois) : (s.onMx i f).lease = s.lease := rfl
@[simp] theorem State.onMx_rev (i : Nat) (f : Chamois → Chamois) : (s.onMx i f).rev = s.rev := rfl
@[simp] theorem State.onMx_resid (i : Nat) (f : Chamois → Chamois) : (s.onMx i f).resid = s.resid := rfl
@[simp] theorem State.onMx_keys (i : Nat) (f : Chamois → Chamois) : (s.onMx i f).keys = s.keys := rfl
@[simp] theorem State.onMx_sys (i : Nat) (f : Chamois → Chamois) : (s.onMx i f).sys = s.sys := rfl
@[simp] theorem State.onMx_power (i : Nat) (f : Chamois → Chamois) : (s.onMx i f).power = s.power := rfl
@[simp] theorem State.onMx_roots (i : Nat) (f : Chamois → Chamois) : (s.onMx i f).roots = s.roots := rfl
@[simp] theorem State.onMx_owners (i : Nat) (f : Chamois → Chamois) : (s.onMx i f).owners = s.owners := rfl
@[simp] theorem State.onMx_sealed (i : Nat) (f : Chamois → Chamois) : (s.onMx i f).sealed = s.sealed := rfl
@[simp] theorem State.onMx_ctl (i : Nat) (f : Chamois → Chamois) : (s.onMx i f).ctl = s.ctl := rfl
@[simp] theorem State.onMx_mmio (i : Nat) (f : Chamois → Chamois) : (s.onMx i f).mmio = s.mmio := rfl
@[simp] theorem State.onMx_out (i : Nat) (f : Chamois → Chamois) : (s.onMx i f).out = s.out := rfl
@[simp] theorem State.onMx_agenda (i : Nat) (f : Chamois → Chamois) : (s.onMx i f).agenda = s.agenda := rfl
@[simp] theorem State.onMx_focus (i : Nat) (f : Chamois → Chamois) : (s.onMx i f).focus = s.focus := rfl
@[simp] theorem State.onMx_ctr (i : Nat) (f : Chamois → Chamois) : (s.onMx i f).ctr = s.ctr := rfl
@[simp] theorem State.onMx_cut (i : Nat) (f : Chamois → Chamois) : (s.onMx i f).cut = s.cut := rfl
@[simp] theorem State.onMx_fetchStop (i : Nat) (f : Chamois → Chamois) : (s.onMx i f).fetchStop = s.fetchStop := rfl
@[simp] theorem State.onMx_fetched (i : Nat) (f : Chamois → Chamois) : (s.onMx i f).fetched = s.fetched := rfl

@[simp] theorem State.onPw_mem (i : Nat) (f : CPower → CPower) : (s.onPw i f).mem = s.mem := rfl
@[simp] theorem State.onPw_groups (i : Nat) (f : CPower → CPower) : (s.onPw i f).groups = s.groups := rfl
@[simp] theorem State.onPw_teams (i : Nat) (f : CPower → CPower) : (s.onPw i f).teams = s.teams := rfl
@[simp] theorem State.onPw_units (i : Nat) (f : CPower → CPower) : (s.onPw i f).units = s.units := rfl
@[simp] theorem State.onPw_launches (i : Nat) (f : CPower → CPower) : (s.onPw i f).launches = s.launches := rfl
@[simp] theorem State.onPw_dist (i : Nat) (f : CPower → CPower) : (s.onPw i f).dist = s.dist := rfl
@[simp] theorem State.onPw_time (i : Nat) (f : CPower → CPower) : (s.onPw i f).time = s.time := rfl
@[simp] theorem State.onPw_sysq (i : Nat) (f : CPower → CPower) : (s.onPw i f).sysq = s.sysq := rfl
@[simp] theorem State.onPw_xlat (i : Nat) (f : CPower → CPower) : (s.onPw i f).xlat = s.xlat := rfl
@[simp] theorem State.onPw_lease (i : Nat) (f : CPower → CPower) : (s.onPw i f).lease = s.lease := rfl
@[simp] theorem State.onPw_rev (i : Nat) (f : CPower → CPower) : (s.onPw i f).rev = s.rev := rfl
@[simp] theorem State.onPw_resid (i : Nat) (f : CPower → CPower) : (s.onPw i f).resid = s.resid := rfl
@[simp] theorem State.onPw_keys (i : Nat) (f : CPower → CPower) : (s.onPw i f).keys = s.keys := rfl
@[simp] theorem State.onPw_sys (i : Nat) (f : CPower → CPower) : (s.onPw i f).sys = s.sys := rfl
@[simp] theorem State.onPw_power (i : Nat) (f : CPower → CPower) : (s.onPw i f).power = s.power := rfl
@[simp] theorem State.onPw_roots (i : Nat) (f : CPower → CPower) : (s.onPw i f).roots = s.roots := rfl
@[simp] theorem State.onPw_owners (i : Nat) (f : CPower → CPower) : (s.onPw i f).owners = s.owners := rfl
@[simp] theorem State.onPw_sealed (i : Nat) (f : CPower → CPower) : (s.onPw i f).sealed = s.sealed := rfl
@[simp] theorem State.onPw_ctl (i : Nat) (f : CPower → CPower) : (s.onPw i f).ctl = s.ctl := rfl
@[simp] theorem State.onPw_mmio (i : Nat) (f : CPower → CPower) : (s.onPw i f).mmio = s.mmio := rfl
@[simp] theorem State.onPw_out (i : Nat) (f : CPower → CPower) : (s.onPw i f).out = s.out := rfl
@[simp] theorem State.onPw_agenda (i : Nat) (f : CPower → CPower) : (s.onPw i f).agenda = s.agenda := rfl
@[simp] theorem State.onPw_focus (i : Nat) (f : CPower → CPower) : (s.onPw i f).focus = s.focus := rfl
@[simp] theorem State.onPw_ctr (i : Nat) (f : CPower → CPower) : (s.onPw i f).ctr = s.ctr := rfl
@[simp] theorem State.onPw_cut (i : Nat) (f : CPower → CPower) : (s.onPw i f).cut = s.cut := rfl
@[simp] theorem State.onPw_fetchStop (i : Nat) (f : CPower → CPower) : (s.onPw i f).fetchStop = s.fetchStop := rfl
@[simp] theorem State.onPw_fetched (i : Nat) (f : CPower → CPower) : (s.onPw i f).fetched = s.fetched := rfl

@[simp] theorem State.onXlat_mem (f : Xlat → Xlat) : (s.onXlat f).mem = s.mem := rfl
@[simp] theorem State.onXlat_groups (f : Xlat → Xlat) : (s.onXlat f).groups = s.groups := rfl
@[simp] theorem State.onXlat_cores (f : Xlat → Xlat) : (s.onXlat f).cores = s.cores := rfl
@[simp] theorem State.onXlat_teams (f : Xlat → Xlat) : (s.onXlat f).teams = s.teams := rfl
@[simp] theorem State.onXlat_units (f : Xlat → Xlat) : (s.onXlat f).units = s.units := rfl
@[simp] theorem State.onXlat_launches (f : Xlat → Xlat) : (s.onXlat f).launches = s.launches := rfl
@[simp] theorem State.onXlat_dist (f : Xlat → Xlat) : (s.onXlat f).dist = s.dist := rfl
@[simp] theorem State.onXlat_time (f : Xlat → Xlat) : (s.onXlat f).time = s.time := rfl
@[simp] theorem State.onXlat_sysq (f : Xlat → Xlat) : (s.onXlat f).sysq = s.sysq := rfl
@[simp] theorem State.onXlat_lease (f : Xlat → Xlat) : (s.onXlat f).lease = s.lease := rfl
@[simp] theorem State.onXlat_rev (f : Xlat → Xlat) : (s.onXlat f).rev = s.rev := rfl
@[simp] theorem State.onXlat_resid (f : Xlat → Xlat) : (s.onXlat f).resid = s.resid := rfl
@[simp] theorem State.onXlat_keys (f : Xlat → Xlat) : (s.onXlat f).keys = s.keys := rfl
@[simp] theorem State.onXlat_sys (f : Xlat → Xlat) : (s.onXlat f).sys = s.sys := rfl
@[simp] theorem State.onXlat_power (f : Xlat → Xlat) : (s.onXlat f).power = s.power := rfl
@[simp] theorem State.onXlat_roots (f : Xlat → Xlat) : (s.onXlat f).roots = s.roots := rfl
@[simp] theorem State.onXlat_owners (f : Xlat → Xlat) : (s.onXlat f).owners = s.owners := rfl
@[simp] theorem State.onXlat_sealed (f : Xlat → Xlat) : (s.onXlat f).sealed = s.sealed := rfl
@[simp] theorem State.onXlat_ctl (f : Xlat → Xlat) : (s.onXlat f).ctl = s.ctl := rfl
@[simp] theorem State.onXlat_mmio (f : Xlat → Xlat) : (s.onXlat f).mmio = s.mmio := rfl
@[simp] theorem State.onXlat_out (f : Xlat → Xlat) : (s.onXlat f).out = s.out := rfl
@[simp] theorem State.onXlat_agenda (f : Xlat → Xlat) : (s.onXlat f).agenda = s.agenda := rfl
@[simp] theorem State.onXlat_focus (f : Xlat → Xlat) : (s.onXlat f).focus = s.focus := rfl
@[simp] theorem State.onXlat_ctr (f : Xlat → Xlat) : (s.onXlat f).ctr = s.ctr := rfl
@[simp] theorem State.onXlat_cut (f : Xlat → Xlat) : (s.onXlat f).cut = s.cut := rfl
@[simp] theorem State.onXlat_fetchStop (f : Xlat → Xlat) : (s.onXlat f).fetchStop = s.fetchStop := rfl
@[simp] theorem State.onXlat_fetched (f : Xlat → Xlat) : (s.onXlat f).fetched = s.fetched := rfl

@[simp] theorem State.onHost_mem (n : Nat) (f : HostSide → HostSide) : (s.onHost n f).mem = s.mem := rfl
@[simp] theorem State.onHost_groups (n : Nat) (f : HostSide → HostSide) : (s.onHost n f).groups = s.groups := rfl
@[simp] theorem State.onHost_cores (n : Nat) (f : HostSide → HostSide) : (s.onHost n f).cores = s.cores := rfl
@[simp] theorem State.onHost_teams (n : Nat) (f : HostSide → HostSide) : (s.onHost n f).teams = s.teams := rfl
@[simp] theorem State.onHost_units (n : Nat) (f : HostSide → HostSide) : (s.onHost n f).units = s.units := rfl
@[simp] theorem State.onHost_launches (n : Nat) (f : HostSide → HostSide) : (s.onHost n f).launches = s.launches := rfl
@[simp] theorem State.onHost_dist (n : Nat) (f : HostSide → HostSide) : (s.onHost n f).dist = s.dist := rfl
@[simp] theorem State.onHost_time (n : Nat) (f : HostSide → HostSide) : (s.onHost n f).time = s.time := rfl
@[simp] theorem State.onHost_sysq (n : Nat) (f : HostSide → HostSide) : (s.onHost n f).sysq = s.sysq := rfl
@[simp] theorem State.onHost_xlat (n : Nat) (f : HostSide → HostSide) : (s.onHost n f).xlat = s.xlat := rfl
@[simp] theorem State.onHost_lease (n : Nat) (f : HostSide → HostSide) : (s.onHost n f).lease = s.lease := rfl
@[simp] theorem State.onHost_rev (n : Nat) (f : HostSide → HostSide) : (s.onHost n f).rev = s.rev := rfl
@[simp] theorem State.onHost_resid (n : Nat) (f : HostSide → HostSide) : (s.onHost n f).resid = s.resid := rfl
@[simp] theorem State.onHost_keys (n : Nat) (f : HostSide → HostSide) : (s.onHost n f).keys = s.keys := rfl
@[simp] theorem State.onHost_power (n : Nat) (f : HostSide → HostSide) : (s.onHost n f).power = s.power := rfl
@[simp] theorem State.onHost_roots (n : Nat) (f : HostSide → HostSide) : (s.onHost n f).roots = s.roots := rfl
@[simp] theorem State.onHost_owners (n : Nat) (f : HostSide → HostSide) : (s.onHost n f).owners = s.owners := rfl
@[simp] theorem State.onHost_sealed (n : Nat) (f : HostSide → HostSide) : (s.onHost n f).sealed = s.sealed := rfl
@[simp] theorem State.onHost_ctl (n : Nat) (f : HostSide → HostSide) : (s.onHost n f).ctl = s.ctl := rfl
@[simp] theorem State.onHost_mmio (n : Nat) (f : HostSide → HostSide) : (s.onHost n f).mmio = s.mmio := rfl
@[simp] theorem State.onHost_out (n : Nat) (f : HostSide → HostSide) : (s.onHost n f).out = s.out := rfl
@[simp] theorem State.onHost_agenda (n : Nat) (f : HostSide → HostSide) : (s.onHost n f).agenda = s.agenda := rfl
@[simp] theorem State.onHost_focus (n : Nat) (f : HostSide → HostSide) : (s.onHost n f).focus = s.focus := rfl
@[simp] theorem State.onHost_ctr (n : Nat) (f : HostSide → HostSide) : (s.onHost n f).ctr = s.ctr := rfl
@[simp] theorem State.onHost_cut (n : Nat) (f : HostSide → HostSide) : (s.onHost n f).cut = s.cut := rfl
@[simp] theorem State.onHost_fetchStop (n : Nat) (f : HostSide → HostSide) : (s.onHost n f).fetchStop = s.fetchStop := rfl
@[simp] theorem State.onHost_fetched (n : Nat) (f : HostSide → HostSide) : (s.onHost n f).fetched = s.fetched := rfl

@[simp] theorem State.onKeys_mem (f : Keys → Keys) : (s.onKeys f).mem = s.mem := rfl
@[simp] theorem State.onKeys_groups (f : Keys → Keys) : (s.onKeys f).groups = s.groups := rfl
@[simp] theorem State.onKeys_cores (f : Keys → Keys) : (s.onKeys f).cores = s.cores := rfl
@[simp] theorem State.onKeys_teams (f : Keys → Keys) : (s.onKeys f).teams = s.teams := rfl
@[simp] theorem State.onKeys_units (f : Keys → Keys) : (s.onKeys f).units = s.units := rfl
@[simp] theorem State.onKeys_launches (f : Keys → Keys) : (s.onKeys f).launches = s.launches := rfl
@[simp] theorem State.onKeys_dist (f : Keys → Keys) : (s.onKeys f).dist = s.dist := rfl
@[simp] theorem State.onKeys_time (f : Keys → Keys) : (s.onKeys f).time = s.time := rfl
@[simp] theorem State.onKeys_sysq (f : Keys → Keys) : (s.onKeys f).sysq = s.sysq := rfl
@[simp] theorem State.onKeys_xlat (f : Keys → Keys) : (s.onKeys f).xlat = s.xlat := rfl
@[simp] theorem State.onKeys_lease (f : Keys → Keys) : (s.onKeys f).lease = s.lease := rfl
@[simp] theorem State.onKeys_rev (f : Keys → Keys) : (s.onKeys f).rev = s.rev := rfl
@[simp] theorem State.onKeys_resid (f : Keys → Keys) : (s.onKeys f).resid = s.resid := rfl
@[simp] theorem State.onKeys_sys (f : Keys → Keys) : (s.onKeys f).sys = s.sys := rfl
@[simp] theorem State.onKeys_power (f : Keys → Keys) : (s.onKeys f).power = s.power := rfl
@[simp] theorem State.onKeys_roots (f : Keys → Keys) : (s.onKeys f).roots = s.roots := rfl
@[simp] theorem State.onKeys_owners (f : Keys → Keys) : (s.onKeys f).owners = s.owners := rfl
@[simp] theorem State.onKeys_sealed (f : Keys → Keys) : (s.onKeys f).sealed = s.sealed := rfl
@[simp] theorem State.onKeys_ctl (f : Keys → Keys) : (s.onKeys f).ctl = s.ctl := rfl
@[simp] theorem State.onKeys_mmio (f : Keys → Keys) : (s.onKeys f).mmio = s.mmio := rfl
@[simp] theorem State.onKeys_out (f : Keys → Keys) : (s.onKeys f).out = s.out := rfl
@[simp] theorem State.onKeys_agenda (f : Keys → Keys) : (s.onKeys f).agenda = s.agenda := rfl
@[simp] theorem State.onKeys_focus (f : Keys → Keys) : (s.onKeys f).focus = s.focus := rfl
@[simp] theorem State.onKeys_ctr (f : Keys → Keys) : (s.onKeys f).ctr = s.ctr := rfl
@[simp] theorem State.onKeys_cut (f : Keys → Keys) : (s.onKeys f).cut = s.cut := rfl
@[simp] theorem State.onKeys_fetchStop (f : Keys → Keys) : (s.onKeys f).fetchStop = s.fetchStop := rfl
@[simp] theorem State.onKeys_fetched (f : Keys → Keys) : (s.onKeys f).fetched = s.fetched := rfl

@[simp] theorem State.onWorld_mem (w : Nat) (f : World → World) : (s.onWorld w f).mem = s.mem := rfl
@[simp] theorem State.onWorld_groups (w : Nat) (f : World → World) : (s.onWorld w f).groups = s.groups := rfl
@[simp] theorem State.onWorld_cores (w : Nat) (f : World → World) : (s.onWorld w f).cores = s.cores := rfl
@[simp] theorem State.onWorld_teams (w : Nat) (f : World → World) : (s.onWorld w f).teams = s.teams := rfl
@[simp] theorem State.onWorld_units (w : Nat) (f : World → World) : (s.onWorld w f).units = s.units := rfl
@[simp] theorem State.onWorld_launches (w : Nat) (f : World → World) : (s.onWorld w f).launches = s.launches := rfl
@[simp] theorem State.onWorld_dist (w : Nat) (f : World → World) : (s.onWorld w f).dist = s.dist := rfl
@[simp] theorem State.onWorld_time (w : Nat) (f : World → World) : (s.onWorld w f).time = s.time := rfl
@[simp] theorem State.onWorld_sysq (w : Nat) (f : World → World) : (s.onWorld w f).sysq = s.sysq := rfl
@[simp] theorem State.onWorld_xlat (w : Nat) (f : World → World) : (s.onWorld w f).xlat = s.xlat := rfl
@[simp] theorem State.onWorld_lease (w : Nat) (f : World → World) : (s.onWorld w f).lease = s.lease := rfl
@[simp] theorem State.onWorld_rev (w : Nat) (f : World → World) : (s.onWorld w f).rev = s.rev := rfl
@[simp] theorem State.onWorld_resid (w : Nat) (f : World → World) : (s.onWorld w f).resid = s.resid := rfl
@[simp] theorem State.onWorld_sys (w : Nat) (f : World → World) : (s.onWorld w f).sys = s.sys := rfl
@[simp] theorem State.onWorld_power (w : Nat) (f : World → World) : (s.onWorld w f).power = s.power := rfl
@[simp] theorem State.onWorld_roots (w : Nat) (f : World → World) : (s.onWorld w f).roots = s.roots := rfl
@[simp] theorem State.onWorld_owners (w : Nat) (f : World → World) : (s.onWorld w f).owners = s.owners := rfl
@[simp] theorem State.onWorld_sealed (w : Nat) (f : World → World) : (s.onWorld w f).sealed = s.sealed := rfl
@[simp] theorem State.onWorld_ctl (w : Nat) (f : World → World) : (s.onWorld w f).ctl = s.ctl := rfl
@[simp] theorem State.onWorld_mmio (w : Nat) (f : World → World) : (s.onWorld w f).mmio = s.mmio := rfl
@[simp] theorem State.onWorld_out (w : Nat) (f : World → World) : (s.onWorld w f).out = s.out := rfl
@[simp] theorem State.onWorld_agenda (w : Nat) (f : World → World) : (s.onWorld w f).agenda = s.agenda := rfl
@[simp] theorem State.onWorld_focus (w : Nat) (f : World → World) : (s.onWorld w f).focus = s.focus := rfl
@[simp] theorem State.onWorld_ctr (w : Nat) (f : World → World) : (s.onWorld w f).ctr = s.ctr := rfl
@[simp] theorem State.onWorld_cut (w : Nat) (f : World → World) : (s.onWorld w f).cut = s.cut := rfl
@[simp] theorem State.onWorld_fetchStop (w : Nat) (f : World → World) : (s.onWorld w f).fetchStop = s.fetchStop := rfl
@[simp] theorem State.onWorld_fetched (w : Nat) (f : World → World) : (s.onWorld w f).fetched = s.fetched := rfl

@[simp] theorem State.onSlot_mem (i : Nat) (f : Slot → Slot) : (s.onSlot i f).mem = s.mem := rfl
@[simp] theorem State.onSlot_groups (i : Nat) (f : Slot → Slot) : (s.onSlot i f).groups = s.groups := rfl
@[simp] theorem State.onSlot_cores (i : Nat) (f : Slot → Slot) : (s.onSlot i f).cores = s.cores := rfl
@[simp] theorem State.onSlot_teams (i : Nat) (f : Slot → Slot) : (s.onSlot i f).teams = s.teams := rfl
@[simp] theorem State.onSlot_units (i : Nat) (f : Slot → Slot) : (s.onSlot i f).units = s.units := rfl
@[simp] theorem State.onSlot_launches (i : Nat) (f : Slot → Slot) : (s.onSlot i f).launches = s.launches := rfl
@[simp] theorem State.onSlot_dist (i : Nat) (f : Slot → Slot) : (s.onSlot i f).dist = s.dist := rfl
@[simp] theorem State.onSlot_time (i : Nat) (f : Slot → Slot) : (s.onSlot i f).time = s.time := rfl
@[simp] theorem State.onSlot_sysq (i : Nat) (f : Slot → Slot) : (s.onSlot i f).sysq = s.sysq := rfl
@[simp] theorem State.onSlot_xlat (i : Nat) (f : Slot → Slot) : (s.onSlot i f).xlat = s.xlat := rfl
@[simp] theorem State.onSlot_rev (i : Nat) (f : Slot → Slot) : (s.onSlot i f).rev = s.rev := rfl
@[simp] theorem State.onSlot_resid (i : Nat) (f : Slot → Slot) : (s.onSlot i f).resid = s.resid := rfl
@[simp] theorem State.onSlot_keys (i : Nat) (f : Slot → Slot) : (s.onSlot i f).keys = s.keys := rfl
@[simp] theorem State.onSlot_sys (i : Nat) (f : Slot → Slot) : (s.onSlot i f).sys = s.sys := rfl
@[simp] theorem State.onSlot_power (i : Nat) (f : Slot → Slot) : (s.onSlot i f).power = s.power := rfl
@[simp] theorem State.onSlot_roots (i : Nat) (f : Slot → Slot) : (s.onSlot i f).roots = s.roots := rfl
@[simp] theorem State.onSlot_owners (i : Nat) (f : Slot → Slot) : (s.onSlot i f).owners = s.owners := rfl
@[simp] theorem State.onSlot_sealed (i : Nat) (f : Slot → Slot) : (s.onSlot i f).sealed = s.sealed := rfl
@[simp] theorem State.onSlot_ctl (i : Nat) (f : Slot → Slot) : (s.onSlot i f).ctl = s.ctl := rfl
@[simp] theorem State.onSlot_mmio (i : Nat) (f : Slot → Slot) : (s.onSlot i f).mmio = s.mmio := rfl
@[simp] theorem State.onSlot_out (i : Nat) (f : Slot → Slot) : (s.onSlot i f).out = s.out := rfl
@[simp] theorem State.onSlot_agenda (i : Nat) (f : Slot → Slot) : (s.onSlot i f).agenda = s.agenda := rfl
@[simp] theorem State.onSlot_focus (i : Nat) (f : Slot → Slot) : (s.onSlot i f).focus = s.focus := rfl
@[simp] theorem State.onSlot_ctr (i : Nat) (f : Slot → Slot) : (s.onSlot i f).ctr = s.ctr := rfl
@[simp] theorem State.onSlot_cut (i : Nat) (f : Slot → Slot) : (s.onSlot i f).cut = s.cut := rfl
@[simp] theorem State.onSlot_fetchStop (i : Nat) (f : Slot → Slot) : (s.onSlot i f).fetchStop = s.fetchStop := rfl
@[simp] theorem State.onSlot_fetched (i : Nat) (f : Slot → Slot) : (s.onSlot i f).fetched = s.fetched := rfl

@[simp] theorem State.onLender_mem (i : Nat) (f : Lender → Lender) : (s.onLender i f).mem = s.mem := rfl
@[simp] theorem State.onLender_groups (i : Nat) (f : Lender → Lender) : (s.onLender i f).groups = s.groups := rfl
@[simp] theorem State.onLender_cores (i : Nat) (f : Lender → Lender) : (s.onLender i f).cores = s.cores := rfl
@[simp] theorem State.onLender_teams (i : Nat) (f : Lender → Lender) : (s.onLender i f).teams = s.teams := rfl
@[simp] theorem State.onLender_units (i : Nat) (f : Lender → Lender) : (s.onLender i f).units = s.units := rfl
@[simp] theorem State.onLender_launches (i : Nat) (f : Lender → Lender) : (s.onLender i f).launches = s.launches := rfl
@[simp] theorem State.onLender_dist (i : Nat) (f : Lender → Lender) : (s.onLender i f).dist = s.dist := rfl
@[simp] theorem State.onLender_time (i : Nat) (f : Lender → Lender) : (s.onLender i f).time = s.time := rfl
@[simp] theorem State.onLender_sysq (i : Nat) (f : Lender → Lender) : (s.onLender i f).sysq = s.sysq := rfl
@[simp] theorem State.onLender_xlat (i : Nat) (f : Lender → Lender) : (s.onLender i f).xlat = s.xlat := rfl
@[simp] theorem State.onLender_rev (i : Nat) (f : Lender → Lender) : (s.onLender i f).rev = s.rev := rfl
@[simp] theorem State.onLender_resid (i : Nat) (f : Lender → Lender) : (s.onLender i f).resid = s.resid := rfl
@[simp] theorem State.onLender_keys (i : Nat) (f : Lender → Lender) : (s.onLender i f).keys = s.keys := rfl
@[simp] theorem State.onLender_sys (i : Nat) (f : Lender → Lender) : (s.onLender i f).sys = s.sys := rfl
@[simp] theorem State.onLender_power (i : Nat) (f : Lender → Lender) : (s.onLender i f).power = s.power := rfl
@[simp] theorem State.onLender_roots (i : Nat) (f : Lender → Lender) : (s.onLender i f).roots = s.roots := rfl
@[simp] theorem State.onLender_owners (i : Nat) (f : Lender → Lender) : (s.onLender i f).owners = s.owners := rfl
@[simp] theorem State.onLender_sealed (i : Nat) (f : Lender → Lender) : (s.onLender i f).sealed = s.sealed := rfl
@[simp] theorem State.onLender_ctl (i : Nat) (f : Lender → Lender) : (s.onLender i f).ctl = s.ctl := rfl
@[simp] theorem State.onLender_mmio (i : Nat) (f : Lender → Lender) : (s.onLender i f).mmio = s.mmio := rfl
@[simp] theorem State.onLender_out (i : Nat) (f : Lender → Lender) : (s.onLender i f).out = s.out := rfl
@[simp] theorem State.onLender_agenda (i : Nat) (f : Lender → Lender) : (s.onLender i f).agenda = s.agenda := rfl
@[simp] theorem State.onLender_focus (i : Nat) (f : Lender → Lender) : (s.onLender i f).focus = s.focus := rfl
@[simp] theorem State.onLender_ctr (i : Nat) (f : Lender → Lender) : (s.onLender i f).ctr = s.ctr := rfl
@[simp] theorem State.onLender_cut (i : Nat) (f : Lender → Lender) : (s.onLender i f).cut = s.cut := rfl
@[simp] theorem State.onLender_fetchStop (i : Nat) (f : Lender → Lender) : (s.onLender i f).fetchStop = s.fetchStop := rfl
@[simp] theorem State.onLender_fetched (i : Nat) (f : Lender → Lender) : (s.onLender i f).fetched = s.fetched := rfl

@[simp] theorem State.onDie_mem (d : Nat) (f : Resid → Resid) : (s.onDie d f).mem = s.mem := rfl
@[simp] theorem State.onDie_groups (d : Nat) (f : Resid → Resid) : (s.onDie d f).groups = s.groups := rfl
@[simp] theorem State.onDie_cores (d : Nat) (f : Resid → Resid) : (s.onDie d f).cores = s.cores := rfl
@[simp] theorem State.onDie_teams (d : Nat) (f : Resid → Resid) : (s.onDie d f).teams = s.teams := rfl
@[simp] theorem State.onDie_units (d : Nat) (f : Resid → Resid) : (s.onDie d f).units = s.units := rfl
@[simp] theorem State.onDie_launches (d : Nat) (f : Resid → Resid) : (s.onDie d f).launches = s.launches := rfl
@[simp] theorem State.onDie_dist (d : Nat) (f : Resid → Resid) : (s.onDie d f).dist = s.dist := rfl
@[simp] theorem State.onDie_time (d : Nat) (f : Resid → Resid) : (s.onDie d f).time = s.time := rfl
@[simp] theorem State.onDie_sysq (d : Nat) (f : Resid → Resid) : (s.onDie d f).sysq = s.sysq := rfl
@[simp] theorem State.onDie_xlat (d : Nat) (f : Resid → Resid) : (s.onDie d f).xlat = s.xlat := rfl
@[simp] theorem State.onDie_lease (d : Nat) (f : Resid → Resid) : (s.onDie d f).lease = s.lease := rfl
@[simp] theorem State.onDie_rev (d : Nat) (f : Resid → Resid) : (s.onDie d f).rev = s.rev := rfl
@[simp] theorem State.onDie_keys (d : Nat) (f : Resid → Resid) : (s.onDie d f).keys = s.keys := rfl
@[simp] theorem State.onDie_sys (d : Nat) (f : Resid → Resid) : (s.onDie d f).sys = s.sys := rfl
@[simp] theorem State.onDie_power (d : Nat) (f : Resid → Resid) : (s.onDie d f).power = s.power := rfl
@[simp] theorem State.onDie_roots (d : Nat) (f : Resid → Resid) : (s.onDie d f).roots = s.roots := rfl
@[simp] theorem State.onDie_owners (d : Nat) (f : Resid → Resid) : (s.onDie d f).owners = s.owners := rfl
@[simp] theorem State.onDie_sealed (d : Nat) (f : Resid → Resid) : (s.onDie d f).sealed = s.sealed := rfl
@[simp] theorem State.onDie_ctl (d : Nat) (f : Resid → Resid) : (s.onDie d f).ctl = s.ctl := rfl
@[simp] theorem State.onDie_mmio (d : Nat) (f : Resid → Resid) : (s.onDie d f).mmio = s.mmio := rfl
@[simp] theorem State.onDie_out (d : Nat) (f : Resid → Resid) : (s.onDie d f).out = s.out := rfl
@[simp] theorem State.onDie_agenda (d : Nat) (f : Resid → Resid) : (s.onDie d f).agenda = s.agenda := rfl
@[simp] theorem State.onDie_focus (d : Nat) (f : Resid → Resid) : (s.onDie d f).focus = s.focus := rfl
@[simp] theorem State.onDie_ctr (d : Nat) (f : Resid → Resid) : (s.onDie d f).ctr = s.ctr := rfl
@[simp] theorem State.onDie_cut (d : Nat) (f : Resid → Resid) : (s.onDie d f).cut = s.cut := rfl
@[simp] theorem State.onDie_fetchStop (d : Nat) (f : Resid → Resid) : (s.onDie d f).fetchStop = s.fetchStop := rfl
@[simp] theorem State.onDie_fetched (d : Nat) (f : Resid → Resid) : (s.onDie d f).fetched = s.fetched := rfl

@[simp] theorem State.onPort_mem (n : Nat) (f : Port → Port) : (s.onPort n f).mem = s.mem := rfl
@[simp] theorem State.onPort_groups (n : Nat) (f : Port → Port) : (s.onPort n f).groups = s.groups := rfl
@[simp] theorem State.onPort_cores (n : Nat) (f : Port → Port) : (s.onPort n f).cores = s.cores := rfl
@[simp] theorem State.onPort_teams (n : Nat) (f : Port → Port) : (s.onPort n f).teams = s.teams := rfl
@[simp] theorem State.onPort_units (n : Nat) (f : Port → Port) : (s.onPort n f).units = s.units := rfl
@[simp] theorem State.onPort_launches (n : Nat) (f : Port → Port) : (s.onPort n f).launches = s.launches := rfl
@[simp] theorem State.onPort_dist (n : Nat) (f : Port → Port) : (s.onPort n f).dist = s.dist := rfl
@[simp] theorem State.onPort_time (n : Nat) (f : Port → Port) : (s.onPort n f).time = s.time := rfl
@[simp] theorem State.onPort_sysq (n : Nat) (f : Port → Port) : (s.onPort n f).sysq = s.sysq := rfl
@[simp] theorem State.onPort_xlat (n : Nat) (f : Port → Port) : (s.onPort n f).xlat = s.xlat := rfl
@[simp] theorem State.onPort_lease (n : Nat) (f : Port → Port) : (s.onPort n f).lease = s.lease := rfl
@[simp] theorem State.onPort_rev (n : Nat) (f : Port → Port) : (s.onPort n f).rev = s.rev := rfl
@[simp] theorem State.onPort_resid (n : Nat) (f : Port → Port) : (s.onPort n f).resid = s.resid := rfl
@[simp] theorem State.onPort_keys (n : Nat) (f : Port → Port) : (s.onPort n f).keys = s.keys := rfl
@[simp] theorem State.onPort_power (n : Nat) (f : Port → Port) : (s.onPort n f).power = s.power := rfl
@[simp] theorem State.onPort_roots (n : Nat) (f : Port → Port) : (s.onPort n f).roots = s.roots := rfl
@[simp] theorem State.onPort_owners (n : Nat) (f : Port → Port) : (s.onPort n f).owners = s.owners := rfl
@[simp] theorem State.onPort_sealed (n : Nat) (f : Port → Port) : (s.onPort n f).sealed = s.sealed := rfl
@[simp] theorem State.onPort_ctl (n : Nat) (f : Port → Port) : (s.onPort n f).ctl = s.ctl := rfl
@[simp] theorem State.onPort_mmio (n : Nat) (f : Port → Port) : (s.onPort n f).mmio = s.mmio := rfl
@[simp] theorem State.onPort_out (n : Nat) (f : Port → Port) : (s.onPort n f).out = s.out := rfl
@[simp] theorem State.onPort_agenda (n : Nat) (f : Port → Port) : (s.onPort n f).agenda = s.agenda := rfl
@[simp] theorem State.onPort_focus (n : Nat) (f : Port → Port) : (s.onPort n f).focus = s.focus := rfl
@[simp] theorem State.onPort_ctr (n : Nat) (f : Port → Port) : (s.onPort n f).ctr = s.ctr := rfl
@[simp] theorem State.onPort_cut (n : Nat) (f : Port → Port) : (s.onPort n f).cut = s.cut := rfl
@[simp] theorem State.onPort_fetchStop (n : Nat) (f : Port → Port) : (s.onPort n f).fetchStop = s.fetchStop := rfl
@[simp] theorem State.onPort_fetched (n : Nat) (f : Port → Port) : (s.onPort n f).fetched = s.fetched := rfl

@[simp] theorem State.onGroup_mem (k : Nat) (f : Group → Group) : (s.onGroup k f).mem = s.mem := by unfold State.onGroup; split <;> rfl
@[simp] theorem State.onGroup_cores (k : Nat) (f : Group → Group) : (s.onGroup k f).cores = s.cores := by unfold State.onGroup; split <;> rfl
@[simp] theorem State.onGroup_teams (k : Nat) (f : Group → Group) : (s.onGroup k f).teams = s.teams := by unfold State.onGroup; split <;> rfl
@[simp] theorem State.onGroup_units (k : Nat) (f : Group → Group) : (s.onGroup k f).units = s.units := by unfold State.onGroup; split <;> rfl
@[simp] theorem State.onGroup_launches (k : Nat) (f : Group → Group) : (s.onGroup k f).launches = s.launches := by unfold State.onGroup; split <;> rfl
@[simp] theorem State.onGroup_dist (k : Nat) (f : Group → Group) : (s.onGroup k f).dist = s.dist := by unfold State.onGroup; split <;> rfl
@[simp] theorem State.onGroup_time (k : Nat) (f : Group → Group) : (s.onGroup k f).time = s.time := by unfold State.onGroup; split <;> rfl
@[simp] theorem State.onGroup_sysq (k : Nat) (f : Group → Group) : (s.onGroup k f).sysq = s.sysq := by unfold State.onGroup; split <;> rfl
@[simp] theorem State.onGroup_xlat (k : Nat) (f : Group → Group) : (s.onGroup k f).xlat = s.xlat := by unfold State.onGroup; split <;> rfl
@[simp] theorem State.onGroup_lease (k : Nat) (f : Group → Group) : (s.onGroup k f).lease = s.lease := by unfold State.onGroup; split <;> rfl
@[simp] theorem State.onGroup_rev (k : Nat) (f : Group → Group) : (s.onGroup k f).rev = s.rev := by unfold State.onGroup; split <;> rfl
@[simp] theorem State.onGroup_resid (k : Nat) (f : Group → Group) : (s.onGroup k f).resid = s.resid := by unfold State.onGroup; split <;> rfl
@[simp] theorem State.onGroup_keys (k : Nat) (f : Group → Group) : (s.onGroup k f).keys = s.keys := by unfold State.onGroup; split <;> rfl
@[simp] theorem State.onGroup_sys (k : Nat) (f : Group → Group) : (s.onGroup k f).sys = s.sys := by unfold State.onGroup; split <;> rfl
@[simp] theorem State.onGroup_power (k : Nat) (f : Group → Group) : (s.onGroup k f).power = s.power := by unfold State.onGroup; split <;> rfl
@[simp] theorem State.onGroup_roots (k : Nat) (f : Group → Group) : (s.onGroup k f).roots = s.roots := by unfold State.onGroup; split <;> rfl
@[simp] theorem State.onGroup_owners (k : Nat) (f : Group → Group) : (s.onGroup k f).owners = s.owners := by unfold State.onGroup; split <;> rfl
@[simp] theorem State.onGroup_sealed (k : Nat) (f : Group → Group) : (s.onGroup k f).sealed = s.sealed := by unfold State.onGroup; split <;> rfl
@[simp] theorem State.onGroup_ctl (k : Nat) (f : Group → Group) : (s.onGroup k f).ctl = s.ctl := by unfold State.onGroup; split <;> rfl
@[simp] theorem State.onGroup_mmio (k : Nat) (f : Group → Group) : (s.onGroup k f).mmio = s.mmio := by unfold State.onGroup; split <;> rfl
@[simp] theorem State.onGroup_out (k : Nat) (f : Group → Group) : (s.onGroup k f).out = s.out := by unfold State.onGroup; split <;> rfl
@[simp] theorem State.onGroup_agenda (k : Nat) (f : Group → Group) : (s.onGroup k f).agenda = s.agenda := by unfold State.onGroup; split <;> rfl
@[simp] theorem State.onGroup_focus (k : Nat) (f : Group → Group) : (s.onGroup k f).focus = s.focus := by unfold State.onGroup; split <;> rfl
@[simp] theorem State.onGroup_ctr (k : Nat) (f : Group → Group) : (s.onGroup k f).ctr = s.ctr := by unfold State.onGroup; split <;> rfl
@[simp] theorem State.onGroup_cut (k : Nat) (f : Group → Group) : (s.onGroup k f).cut = s.cut := by unfold State.onGroup; split <;> rfl
@[simp] theorem State.onGroup_fetchStop (k : Nat) (f : Group → Group) : (s.onGroup k f).fetchStop = s.fetchStop := by unfold State.onGroup; split <;> rfl
@[simp] theorem State.onGroup_fetched (k : Nat) (f : Group → Group) : (s.onGroup k f).fetched = s.fetched := by unfold State.onGroup; split <;> rfl

@[simp] theorem State.onTeam_mem (k : Nat) (f : Team → Team) : (s.onTeam k f).mem = s.mem := by unfold State.onTeam; split <;> rfl
@[simp] theorem State.onTeam_groups (k : Nat) (f : Team → Team) : (s.onTeam k f).groups = s.groups := by unfold State.onTeam; split <;> rfl
@[simp] theorem State.onTeam_cores (k : Nat) (f : Team → Team) : (s.onTeam k f).cores = s.cores := by unfold State.onTeam; split <;> rfl
@[simp] theorem State.onTeam_units (k : Nat) (f : Team → Team) : (s.onTeam k f).units = s.units := by unfold State.onTeam; split <;> rfl
@[simp] theorem State.onTeam_launches (k : Nat) (f : Team → Team) : (s.onTeam k f).launches = s.launches := by unfold State.onTeam; split <;> rfl
@[simp] theorem State.onTeam_dist (k : Nat) (f : Team → Team) : (s.onTeam k f).dist = s.dist := by unfold State.onTeam; split <;> rfl
@[simp] theorem State.onTeam_time (k : Nat) (f : Team → Team) : (s.onTeam k f).time = s.time := by unfold State.onTeam; split <;> rfl
@[simp] theorem State.onTeam_sysq (k : Nat) (f : Team → Team) : (s.onTeam k f).sysq = s.sysq := by unfold State.onTeam; split <;> rfl
@[simp] theorem State.onTeam_xlat (k : Nat) (f : Team → Team) : (s.onTeam k f).xlat = s.xlat := by unfold State.onTeam; split <;> rfl
@[simp] theorem State.onTeam_lease (k : Nat) (f : Team → Team) : (s.onTeam k f).lease = s.lease := by unfold State.onTeam; split <;> rfl
@[simp] theorem State.onTeam_rev (k : Nat) (f : Team → Team) : (s.onTeam k f).rev = s.rev := by unfold State.onTeam; split <;> rfl
@[simp] theorem State.onTeam_resid (k : Nat) (f : Team → Team) : (s.onTeam k f).resid = s.resid := by unfold State.onTeam; split <;> rfl
@[simp] theorem State.onTeam_keys (k : Nat) (f : Team → Team) : (s.onTeam k f).keys = s.keys := by unfold State.onTeam; split <;> rfl
@[simp] theorem State.onTeam_sys (k : Nat) (f : Team → Team) : (s.onTeam k f).sys = s.sys := by unfold State.onTeam; split <;> rfl
@[simp] theorem State.onTeam_power (k : Nat) (f : Team → Team) : (s.onTeam k f).power = s.power := by unfold State.onTeam; split <;> rfl
@[simp] theorem State.onTeam_roots (k : Nat) (f : Team → Team) : (s.onTeam k f).roots = s.roots := by unfold State.onTeam; split <;> rfl
@[simp] theorem State.onTeam_owners (k : Nat) (f : Team → Team) : (s.onTeam k f).owners = s.owners := by unfold State.onTeam; split <;> rfl
@[simp] theorem State.onTeam_sealed (k : Nat) (f : Team → Team) : (s.onTeam k f).sealed = s.sealed := by unfold State.onTeam; split <;> rfl
@[simp] theorem State.onTeam_ctl (k : Nat) (f : Team → Team) : (s.onTeam k f).ctl = s.ctl := by unfold State.onTeam; split <;> rfl
@[simp] theorem State.onTeam_mmio (k : Nat) (f : Team → Team) : (s.onTeam k f).mmio = s.mmio := by unfold State.onTeam; split <;> rfl
@[simp] theorem State.onTeam_out (k : Nat) (f : Team → Team) : (s.onTeam k f).out = s.out := by unfold State.onTeam; split <;> rfl
@[simp] theorem State.onTeam_agenda (k : Nat) (f : Team → Team) : (s.onTeam k f).agenda = s.agenda := by unfold State.onTeam; split <;> rfl
@[simp] theorem State.onTeam_focus (k : Nat) (f : Team → Team) : (s.onTeam k f).focus = s.focus := by unfold State.onTeam; split <;> rfl
@[simp] theorem State.onTeam_ctr (k : Nat) (f : Team → Team) : (s.onTeam k f).ctr = s.ctr := by unfold State.onTeam; split <;> rfl
@[simp] theorem State.onTeam_cut (k : Nat) (f : Team → Team) : (s.onTeam k f).cut = s.cut := by unfold State.onTeam; split <;> rfl
@[simp] theorem State.onTeam_fetchStop (k : Nat) (f : Team → Team) : (s.onTeam k f).fetchStop = s.fetchStop := by unfold State.onTeam; split <;> rfl
@[simp] theorem State.onTeam_fetched (k : Nat) (f : Team → Team) : (s.onTeam k f).fetched = s.fetched := by unfold State.onTeam; split <;> rfl

@[simp] theorem State.onLaunch_mem (k : Nat) (f : Launch → Launch) : (s.onLaunch k f).mem = s.mem := by unfold State.onLaunch; split <;> rfl
@[simp] theorem State.onLaunch_groups (k : Nat) (f : Launch → Launch) : (s.onLaunch k f).groups = s.groups := by unfold State.onLaunch; split <;> rfl
@[simp] theorem State.onLaunch_cores (k : Nat) (f : Launch → Launch) : (s.onLaunch k f).cores = s.cores := by unfold State.onLaunch; split <;> rfl
@[simp] theorem State.onLaunch_teams (k : Nat) (f : Launch → Launch) : (s.onLaunch k f).teams = s.teams := by unfold State.onLaunch; split <;> rfl
@[simp] theorem State.onLaunch_units (k : Nat) (f : Launch → Launch) : (s.onLaunch k f).units = s.units := by unfold State.onLaunch; split <;> rfl
@[simp] theorem State.onLaunch_dist (k : Nat) (f : Launch → Launch) : (s.onLaunch k f).dist = s.dist := by unfold State.onLaunch; split <;> rfl
@[simp] theorem State.onLaunch_time (k : Nat) (f : Launch → Launch) : (s.onLaunch k f).time = s.time := by unfold State.onLaunch; split <;> rfl
@[simp] theorem State.onLaunch_sysq (k : Nat) (f : Launch → Launch) : (s.onLaunch k f).sysq = s.sysq := by unfold State.onLaunch; split <;> rfl
@[simp] theorem State.onLaunch_xlat (k : Nat) (f : Launch → Launch) : (s.onLaunch k f).xlat = s.xlat := by unfold State.onLaunch; split <;> rfl
@[simp] theorem State.onLaunch_lease (k : Nat) (f : Launch → Launch) : (s.onLaunch k f).lease = s.lease := by unfold State.onLaunch; split <;> rfl
@[simp] theorem State.onLaunch_rev (k : Nat) (f : Launch → Launch) : (s.onLaunch k f).rev = s.rev := by unfold State.onLaunch; split <;> rfl
@[simp] theorem State.onLaunch_resid (k : Nat) (f : Launch → Launch) : (s.onLaunch k f).resid = s.resid := by unfold State.onLaunch; split <;> rfl
@[simp] theorem State.onLaunch_keys (k : Nat) (f : Launch → Launch) : (s.onLaunch k f).keys = s.keys := by unfold State.onLaunch; split <;> rfl
@[simp] theorem State.onLaunch_sys (k : Nat) (f : Launch → Launch) : (s.onLaunch k f).sys = s.sys := by unfold State.onLaunch; split <;> rfl
@[simp] theorem State.onLaunch_power (k : Nat) (f : Launch → Launch) : (s.onLaunch k f).power = s.power := by unfold State.onLaunch; split <;> rfl
@[simp] theorem State.onLaunch_roots (k : Nat) (f : Launch → Launch) : (s.onLaunch k f).roots = s.roots := by unfold State.onLaunch; split <;> rfl
@[simp] theorem State.onLaunch_owners (k : Nat) (f : Launch → Launch) : (s.onLaunch k f).owners = s.owners := by unfold State.onLaunch; split <;> rfl
@[simp] theorem State.onLaunch_sealed (k : Nat) (f : Launch → Launch) : (s.onLaunch k f).sealed = s.sealed := by unfold State.onLaunch; split <;> rfl
@[simp] theorem State.onLaunch_ctl (k : Nat) (f : Launch → Launch) : (s.onLaunch k f).ctl = s.ctl := by unfold State.onLaunch; split <;> rfl
@[simp] theorem State.onLaunch_mmio (k : Nat) (f : Launch → Launch) : (s.onLaunch k f).mmio = s.mmio := by unfold State.onLaunch; split <;> rfl
@[simp] theorem State.onLaunch_out (k : Nat) (f : Launch → Launch) : (s.onLaunch k f).out = s.out := by unfold State.onLaunch; split <;> rfl
@[simp] theorem State.onLaunch_agenda (k : Nat) (f : Launch → Launch) : (s.onLaunch k f).agenda = s.agenda := by unfold State.onLaunch; split <;> rfl
@[simp] theorem State.onLaunch_focus (k : Nat) (f : Launch → Launch) : (s.onLaunch k f).focus = s.focus := by unfold State.onLaunch; split <;> rfl
@[simp] theorem State.onLaunch_ctr (k : Nat) (f : Launch → Launch) : (s.onLaunch k f).ctr = s.ctr := by unfold State.onLaunch; split <;> rfl
@[simp] theorem State.onLaunch_cut (k : Nat) (f : Launch → Launch) : (s.onLaunch k f).cut = s.cut := by unfold State.onLaunch; split <;> rfl
@[simp] theorem State.onLaunch_fetchStop (k : Nat) (f : Launch → Launch) : (s.onLaunch k f).fetchStop = s.fetchStop := by unfold State.onLaunch; split <;> rfl
@[simp] theorem State.onLaunch_fetched (k : Nat) (f : Launch → Launch) : (s.onLaunch k f).fetched = s.fetched := by unfold State.onLaunch; split <;> rfl

/-! ### What each update does change -/

@[simp] theorem State.group_setGroup (k : Nat) (g : Group) : (s.setGroup k g).group k = some g := by
  simp [State.group, State.setGroup]

theorem State.group_setGroup_if (k j : Nat) (g : Group) :
    (s.setGroup k g).group j = if j = k then some g else s.group j := by
  simp [State.group, State.setGroup, Tab.look_put_if]

@[simp] theorem State.group_setCore (i j : Nat) (c : Core) : (s.setCore i c).group j = s.group j := rfl
@[simp] theorem State.group_onCore (i j : Nat) (f : Core → Core) : (s.onCore i f).group j = s.group j := rfl

theorem State.group_onGroup (k j : Nat) (f : Group → Group) :
    (s.onGroup k f).group j = if j = k then (s.group k).map f else s.group j := by
  unfold State.onGroup
  split
  · rw [State.group_setGroup_if]; simp [*]
  · split
    · subst_vars; simp [*]
    · rfl

@[simp] theorem State.core_setGroup (k j : Nat) (g : Group) : (s.setGroup k g).core j = s.core j := rfl

@[simp] theorem State.core_onGroup (k j : Nat) (f : Group → Group) : (s.onGroup k f).core j = s.core j := by
  unfold State.core; simp

theorem State.core_setCore (i j : Nat) (c : Core) : (s.setCore i c).core j = if j = i then c else s.core j := by
  simp [State.core, State.setCore, Tab.lookD_put]

theorem State.core_onCore (i j : Nat) (f : Core → Core) :
    (s.onCore i f).core j = if j = i then f (s.core i) else s.core j := by
  simp [State.onCore, State.core_setCore]

theorem State.look_onTeam (k j : Nat) (f : Team → Team) :
    Tab.look (s.onTeam k f).teams j = if j = k then (Tab.look s.teams k).map f else Tab.look s.teams j := by
  unfold State.onTeam
  split
  · simp only [Tab.look_put_if]; split <;> simp [*]
  · split
    · subst_vars; simp [*]
    · rfl

theorem State.look_onLaunch (k j : Nat) (f : Launch → Launch) :
    Tab.look (s.onLaunch k f).launches j = if j = k then (Tab.look s.launches k).map f else Tab.look s.launches j := by
  unfold State.onLaunch
  split
  · simp only [Tab.look_put_if]; split <;> simp [*]
  · split
    · subst_vars; simp [*]
    · rfl

end Sys2Proof.Machine
end

