-- ==== Sys2Proof/Laws/Regs.lean ====
section
/-! SUPPORT. What each write of a register does to the registers of a group, and what it leaves alone. -/

namespace Sys2Proof.Machine

/-! ### Threads of a group -/

theorem Group.thread_onThread (g : Group) (t u : Nat) (f : Thread → Thread) :
    (g.onThread t f).thread u = if u = t then f (g.thread t) else g.thread u := by
  simp [Group.onThread, Group.setThread, Group.thread, Tab.lookD_put]

@[simp] theorem Group.onThread_trap (g : Group) (t : Nat) (f : Thread → Thread) : (g.onThread t f).trap = g.trap := rfl
@[simp] theorem Group.onThread_aband (g : Group) (t : Nat) (f : Thread → Thread) : (g.onThread t f).aband = g.aband := rfl
@[simp] theorem Group.onThread_pend (g : Group) (t : Nat) (f : Thread → Thread) : (g.onThread t f).pend = g.pend := rfl
@[simp] theorem Group.onThread_r (g : Group) (t : Nat) (f : Thread → Thread) : (g.onThread t f).r = g.r := rfl
@[simp] theorem Group.onThread_rest (g : Group) (t : Nat) (f : Thread → Thread) : (g.onThread t f).rest = g.rest := rfl
@[simp] theorem Group.onThread_mapped (g : Group) (t : Nat) (f : Thread → Thread) : (g.onThread t f).mapped = g.mapped := rfl
@[simp] theorem Group.onThread_held (g : Group) (t : Nat) (f : Thread → Thread) : (g.onThread t f).held = g.held := rfl
@[simp] theorem Group.onThread_clause (g : Group) (t : Nat) (f : Thread → Thread) : (g.onThread t f).clause = g.clause := rfl

theorem Thread.vreg_setV (x : Thread) (win : Bool) (r q : Nat) (y : W32) (hr : win = true → 120 ≤ r) (hq : win = true → 120 ≤ q) :
    (x.setV win r y).vreg win q = if q = r then y else x.vreg win q := by
  unfold Thread.setV Thread.vreg
  cases win
  · simp [Tab.lookD_cput]
  · simp only [if_true, Tab.lookD_cput]
    have := hr rfl
    have := hq rfl
    congr 1
    exact propext ⟨fun h => by omega, fun h => by omega⟩

theorem Thread.vreg_setV_other (x : Thread) (win : Bool) (r q : Nat) (y : W32) :
    (x.setV win r y).vreg (!win) q = x.vreg (!win) q := by
  unfold Thread.setV Thread.vreg; cases win <;> simp

theorem Thread.pred_setPred (x : Thread) (n m : Nat) (b : Bool) :
    (x.setPred n b).pred m = if m = n ∧ n < 7 then b else x.pred m := by
  unfold Thread.setPred Thread.pred
  by_cases h7 : n = 7
  · simp [h7]
  · rw [if_neg h7]
    by_cases hn : n < 8
    · by_cases hm : m < 8
      · have h : ∀ (p : BitVec 8) (n m : Fin 8) (b : Bool), n.val ≠ 7 →
            ((m.val == 7) || (if b then p ||| BitVec.ofNat 8 (2 ^ n.val) else p &&& ~~~ (BitVec.ofNat 8 (2 ^ n.val))).getLsbD m.val) =
              if m = n then b else ((m.val == 7) || p.getLsbD m.val) := by
          intro p n m b hn
          fin_cases n <;> fin_cases m <;> cases b <;> simp_all
        have := h x.p ⟨n, hn⟩ ⟨m, hm⟩ b h7
        simp only [Fin.mk.injEq] at this
        have hlt : n < 7 := by omega
        simp only [this, hlt, and_true]
      · have h1 : ∀ p : BitVec 8, p.getLsbD m = false := fun p => BitVec.getLsbD_of_ge p m (by omega)
        have h2 : ¬ (m = n ∧ n < 7) := by omega
        simp only [h1, h2, if_false]
    · have h0 : BitVec.ofNat 8 (2 ^ n) = 0 := by
        apply BitVec.eq_of_toNat_eq
        rw [BitVec.toNat_ofNat]
        obtain ⟨k, rfl⟩ := Nat.exists_eq_add_of_le (show 8 ≤ n by omega)
        simp [Nat.pow_add]
      have h2 : ¬ (m = n ∧ n < 7) := by omega
      have h3 : ∀ p : BitVec 8, p &&& ~~~ (0 : BitVec 8) = p := by decide
      have h4 : x.p ||| (0 : BitVec 8) = x.p := BitVec.or_zero
      simp only [h0, h2, if_false, h3 x.p, h4, ite_self]

theorem isWin_congr {g g' : Group} (h : g'.trap = g.trap) (r : Nat) : isWin g' r = isWin g r := by
  simp [isWin, h]

theorem isWin_le {g : Group} {r : Nat} (h : isWin g r = true) : 120 ≤ r := by
  simp [isWin] at h; exact h.2

/-! ### Register updates, as functions of the registers -/

def Regs.setV (R : Regs) (t r : Nat) (y : W32) : Regs :=
  { R with v := fun u q => if u = t ∧ q = r then y else R.v u q }

def Regs.setP (R : Regs) (t n : Nat) (b : Bool) : Regs :=
  { R with p := fun u m => if u = t ∧ m = n ∧ n < 7 then b else R.p u m }

def Regs.setC (R : Regs) (t r : Nat) (c : Cap) : Regs :=
  if r < 32 then { R with c := fun u q => if u = t ∧ q = r then c else R.c u q }
  else { R with gc := fun q => if q = r - 32 then c else R.gc q }

def Regs.setG (R : Regs) (r : Nat) (y : W64) : Regs := { R with g := fun q => if q = r then y else R.g q }

def Regs.orF (R : Regs) (t : Nat) (f : Flags) : Regs :=
  { R with fpst := fun u => if u = t then R.fpst u ||| f.setWidth 32 else R.fpst u }

theorem Regs.ext' {R S : Regs} (h1 : ∀ u r, R.v u r = S.v u r) (h2 : ∀ u r, R.p u r = S.p u r)
    (h3 : ∀ u r, R.c u r = S.c u r) (h4 : ∀ r, R.g r = S.g r) (h5 : ∀ r, R.gc r = S.gc r) (h6 : ∀ r, R.h r = S.h r)
    (h7 : ∀ u, R.fpst u = S.fpst u) (h8 : ∀ u, R.tpc u = S.tpc u) (h9 : R.fmt = S.fmt) (h10 : R.fpctl = S.fpctl) :
    R = S := by
  cases R; cases S
  simp only [Regs.mk.injEq]
  exact ⟨funext₂ h1, funext₂ h2, funext₂ h3, funext h4, funext h5, funext h6, funext h7, funext h8, h9, h10⟩

/-- What a change of one thread makes of the registers. -/
theorem regs_onThread (g : Group) (t : Nat) (f : Thread → Thread) (R : Regs)
    (hv : ∀ u q, R.v u q = if u = t then (f (g.thread t)).vreg (isWin g q) q else g.regs.v u q)
    (hp : ∀ u q, R.p u q = if u = t then (f (g.thread t)).pred q else g.regs.p u q)
    (hc : ∀ u q, R.c u q = if u = t then (f (g.thread t)).cap q else g.regs.c u q)
    (hf : ∀ u, R.fpst u = if u = t then (f (g.thread t)).fpst else g.regs.fpst u)
    (ht : ∀ u, R.tpc u = if u = t then (f (g.thread t)).tpc else g.regs.tpc u)
    (hg : R.g = g.regs.g) (hgc : R.gc = g.regs.gc) (hh : R.h = g.regs.h) (hm : R.fmt = g.regs.fmt)
    (hfp : R.fpctl = g.regs.fpctl) : (g.onThread t f).regs = R := by
  refine Regs.ext' ?_ ?_ ?_ ?_ ?_ ?_ ?_ ?_ ?_ ?_ <;> intros <;>
    simp_all [Group.regs, Group.thread_onThread, isWin, Group.greg, Group.gcap, Group.handle] <;> split <;> rfl

/-- The change of a register's pending writes changes no register. -/
@[simp] theorem regs_pend (g : Group) (p : List Pend) (a : KeySet) : ({ g with pend := p, aband := a } : Group).regs = g.regs := rfl
@[simp] theorem regs_pend' (g : Group) (p : List Pend) : ({ g with pend := p } : Group).regs = g.regs := rfl
@[simp] theorem regs_clause (g : Group) (c : Option Clause) : ({ g with clause := c } : Group).regs = g.regs := rfl
@[simp] theorem regs_held (g : Group) (h : List Held) : ({ g with held := h } : Group).regs = g.regs := rfl

theorem regs_setV (g : Group) (t r : Nat) (y : W32) :
    (g.onThread t (fun x => x.setV (isWin g r) r y)).regs = g.regs.setV t r y := by
  have key : ∀ q, ((g.thread t).setV (isWin g r) r y).vreg (isWin g q) q =
      if q = r then y else (g.thread t).vreg (isWin g q) q := by
    intro q
    by_cases h : isWin g q = isWin g r
    · rw [h]
      exact Thread.vreg_setV _ _ _ _ _ (fun e => isWin_le e) (fun e => isWin_le (h.trans e))
    · have hq : q ≠ r := fun e => h (by rw [e])
      rw [if_neg hq]
      cases hr : isWin g r <;> cases hq' : isWin g q <;> simp_all [Thread.setV, Thread.vreg]
  refine regs_onThread g t _ _ ?_ ?_ ?_ ?_ ?_ rfl rfl rfl rfl rfl
  · intro u q
    simp only [Regs.setV, key, Group.regs]
    by_cases hu : u = t
    · subst hu; simp
    · simp [hu]
  all_goals
    intro u; try intro q
    simp only [Regs.setV, Group.regs]
    by_cases hu : u = t
    · subst hu; simp only [if_true]; unfold Thread.setV; split <;> rfl
    · simp [hu]

theorem regs_writeP (g : Group) (t n : Nat) (b : Bool) : (writeP g t n b).regs = g.regs.setP t n b := by
  unfold writeP
  rw [regs_pend']
  refine regs_onThread g t _ _ ?_ ?_ ?_ ?_ ?_ rfl rfl rfl rfl rfl
  · intro u q
    simp only [Regs.setP, Group.regs]
    by_cases hu : u = t
    · subst hu; simp only [if_true]; unfold Thread.setPred; split <;> rfl
    · simp [hu]
  · intro u q
    simp only [Regs.setP, Group.regs, Thread.pred_setPred]
    by_cases hu : u = t
    · subst hu; simp
    · simp [hu]
  all_goals
    intro u; try intro q
    simp only [Regs.setP, Group.regs]
    by_cases hu : u = t
    · subst hu; simp only [if_true]; unfold Thread.setPred; split <;> rfl
    · simp [hu]

theorem regs_raise (g : Group) (t : Nat) (f : Flags) : (raiseFlags g t f).regs = g.regs.orF t f := by
  unfold raiseFlags
  refine regs_onThread g t _ _ ?_ ?_ ?_ ?_ ?_ rfl rfl rfl rfl rfl <;> intro u <;> (try intro q) <;>
    simp only [Regs.orF, Group.regs, Thread.orFpst] <;> by_cases hu : u = t <;> simp [hu] <;> rfl

theorem regs_writeC (g : Group) (t r : Nat) (c : Cap) : (writeC g t r c).regs = g.regs.setC t r c := by
  unfold writeC Regs.setC
  by_cases hr : r < 32
  · simp only [hr, if_true]
    refine regs_onThread _ t _ _ ?_ ?_ ?_ ?_ ?_ rfl rfl rfl rfl rfl <;> intro u <;> (try intro q) <;>
      by_cases hu : u = t <;> simp [hu, Group.regs, Thread.setCap, Thread.cap, Thread.vreg, Thread.pred, Group.thread, isWin, Tab.lookD_cput]
  · simp only [hr, if_false]
    refine Regs.ext' ?_ ?_ ?_ ?_ ?_ ?_ ?_ ?_ ?_ ?_ <;> intros <;>
      simp [Group.regs, Group.setGC, Group.gcap, Group.thread, isWin, Tab.lookD_cput, Group.greg, Group.handle]

theorem regs_writeG (g : Group) (r : Nat) (x : W64) : (writeG g r x).regs = g.regs.setG r x := by
  unfold writeG Regs.setG
  rw [regs_pend']
  refine Regs.ext' ?_ ?_ ?_ ?_ ?_ ?_ ?_ ?_ ?_ ?_ <;> intros <;>
    simp [Group.regs, Group.setG, Group.greg, Group.thread, isWin, Tab.lookD_cput, Group.gcap, Group.handle]

theorem regs_writeV (g : Group) (t r : Nat) (x : W64) (wide : Bool) :
    (writeV g t r x wide).regs =
      if wide then (g.regs.setV t r (x.setWidth 32)).setV t (r + 1) (x.extractLsb' 32 32) else g.regs.setV t r (x.setWidth 32) := by
  cases wide
  · exact regs_setV g t r _
  · have h : ∀ g' : Group, g'.regs = g.regs.setV t r (x.setWidth 32) →
        (g'.onThread t (fun th => th.setV (isWin g' (r + 1)) (r + 1) (x.extractLsb' 32 32))).regs =
          (g.regs.setV t r (x.setWidth 32)).setV t (r + 1) (x.extractLsb' 32 32) := by
      intro g' e; rw [regs_setV, e]
    exact h _ (regs_setV g t r _)

end Sys2Proof.Machine
end

