-- ==== Sys2Proof/Laws/Sweep.lean ====
section
/-! SUPPORT. The life of a sweep: what its issue does, what its end does, and what a sweep over threads leaves. -/

namespace Sys2Proof.Machine

/-! ### The sweep that is made -/

theorem sweepNow_some {i : Instr} {s : State} {w : Sw} (h : sweepNow i s = some w) :
    ∃ g f e, s.group s.focus = some g ∧ formOf i = some (f, e) ∧ w = sweepOf s s.focus g i f e ∧ w.all ≠ [] := by
  unfold sweepNow at h
  cases hg : s.group s.focus with
  | none => simp [hg] at h
  | some g =>
    cases hf : formOf i with
    | none => simp [hg, hf] at h
    | some p =>
      obtain ⟨f, e⟩ := p
      simp only [hg, hf, Option.bind_eq_bind, Option.bind_some] at h
      split at h
      · cases h
      · cases h; exact ⟨g, f, e, rfl, rfl, rfl, ‹_›⟩

/-- Leaving a sweep before a thread changes only which threads it still has to process, and for how long. -/
theorem Sw.cutTo_cases (w : Sw) (c : Option Nat) :
    w.cutTo c = w ∨ ∃ k, w.cutTo c = { w with todo := w.todo.filter (· < k), upTo := some k } := by
  unfold Sw.cutTo
  split
  · exact Or.inl rfl
  · rename_i k
    split
    · exact Or.inr ⟨k, rfl⟩
    · exact Or.inl rfl

theorem Sw.cutTo_gk (w : Sw) (c : Option Nat) : (w.cutTo c).gk = w.gk := by
  rcases w.cutTo_cases c with h | ⟨_, h⟩ <;> rw [h]
theorem Sw.cutTo_g (w : Sw) (c : Option Nat) : (w.cutTo c).g = w.g := by
  rcases w.cutTo_cases c with h | ⟨_, h⟩ <;> rw [h]
theorem Sw.cutTo_i (w : Sw) (c : Option Nat) : (w.cutTo c).i = w.i := by
  rcases w.cutTo_cases c with h | ⟨_, h⟩ <;> rw [h]
theorem Sw.cutTo_f (w : Sw) (c : Option Nat) : (w.cutTo c).f = w.f := by
  rcases w.cutTo_cases c with h | ⟨_, h⟩ <;> rw [h]
theorem Sw.cutTo_e (w : Sw) (c : Option Nat) : (w.cutTo c).e = w.e := by
  rcases w.cutTo_cases c with h | ⟨_, h⟩ <;> rw [h]
@[simp] theorem sweepOf_gk (s : State) (k : Nat) (g : Group) (i : Instr) (f : Form) (e : Ext) : (sweepOf s k g i f e).gk = k := by
  unfold sweepOf; rw [Sw.cutTo_gk]; unfold wholeSweep; cases g.drain <;> [(cases g.held <;> rfl); rfl]
@[simp] theorem sweepOf_g (s : State) (k : Nat) (g : Group) (i : Instr) (f : Form) (e : Ext) : (sweepOf s k g i f e).g = g := by
  unfold sweepOf; rw [Sw.cutTo_g]; unfold wholeSweep; cases g.drain <;> [(cases g.held <;> rfl); rfl]
@[simp] theorem sweepOf_i (s : State) (k : Nat) (g : Group) (i : Instr) (f : Form) (e : Ext) : (sweepOf s k g i f e).i = i := by
  unfold sweepOf; rw [Sw.cutTo_i]; unfold wholeSweep; cases g.drain <;> [(cases g.held <;> rfl); rfl]
@[simp] theorem sweepOf_f (s : State) (k : Nat) (g : Group) (i : Instr) (f : Form) (e : Ext) : (sweepOf s k g i f e).f = f := by
  unfold sweepOf; rw [Sw.cutTo_f]; unfold wholeSweep; cases g.drain <;> [(cases g.held <;> rfl); rfl]
@[simp] theorem sweepOf_e (s : State) (k : Nat) (g : Group) (i : Instr) (f : Form) (e : Ext) : (sweepOf s k g i f e).e = e := by
  unfold sweepOf; rw [Sw.cutTo_e]; unfold wholeSweep; cases g.drain <;> [(cases g.held <;> rfl); rfl]

theorem sweepOf_todo (s : State) (k : Nat) (g : Group) (i : Instr) (f : Form) (e : Ext) (hd : g.drain = none) :
    ∀ t ∈ (sweepOf s k g i f e).todo, t ∈ (sweepOf s k g i f e).all := by
  have h : ∀ t ∈ (wholeSweep s k g i f e).todo, t ∈ (wholeSweep s k g i f e).all := by
    unfold wholeSweep; rw [hd]
    cases g.held with
    | nil => exact fun t ht => ht
    | cons h l => exact fun t ht => (List.mem_filter.mp ht).1
  unfold sweepOf
  rcases Sw.cutTo_cases (wholeSweep s k g i f e) s.cut with e' | ⟨_, e'⟩ <;> rw [e']
  · exact h
  · exact fun t ht => h t (List.mem_filter.mp ht).1

/-! ### Frames -/

theorem foldl_ins_mem (ts : List Nat) : ∀ (l : KeySet) (x : Nat), x ∈ ts.foldl KeySet.ins l ↔ x ∈ l ∨ x ∈ ts := by
  induction ts with
  | nil => simp
  | cons t ts ih =>
    intro l x
    rw [List.foldl_cons, ih, KeySet.mem_ins]
    simp only [List.mem_cons]
    tauto

theorem ins_sorted (l : KeySet) (k : Nat) (h : l.Pairwise (· < ·)) : (KeySet.ins l k).Pairwise (· < ·) := by
  induction l with
  | nil => simp [KeySet.ins]
  | cons j l ih =>
    obtain ⟨h1, h2⟩ := List.pairwise_cons.mp h
    unfold KeySet.ins
    split
    · rename_i hk
      refine List.pairwise_cons.mpr ⟨fun x hx => ?_, h⟩
      rcases List.mem_cons.mp hx with rfl | hx
      · exact hk
      · exact hk.trans (h1 x hx)
    · split
      · exact h
      · refine List.pairwise_cons.mpr ⟨fun x hx => ?_, ih h2⟩
        rcases (KeySet.mem_ins l k x).mp hx with rfl | hx
        · omega
        · exact h1 x hx

theorem foldl_ins_sorted (ts : List Nat) : ∀ (l : KeySet), l.Pairwise (· < ·) → (ts.foldl KeySet.ins l).Pairwise (· < ·) := by
  induction ts with
  | nil => exact fun _ h => h
  | cons t ts ih => exact fun l h => ih _ (ins_sorted l t h)

theorem mem_ascending (ts : List Nat) (x : Nat) : x ∈ ascending ts ↔ x ∈ ts := by
  unfold ascending; rw [foldl_ins_mem]; simp

theorem ascending_sorted (ts : List Nat) : (ascending ts).Pairwise (· < ·) := foldl_ins_sorted ts [] List.Pairwise.nil

/-- A sweep visits its threads in ascending order, each once. -/
theorem sweepOf_sorted (s : State) (k : Nat) (g : Group) (i : Instr) (f : Form) (e : Ext) :
    (sweepOf s k g i f e).all.Pairwise (· < ·) ∧ (sweepOf s k g i f e).todo.Pairwise (· < ·) := by
  have h : (wholeSweep s k g i f e).all.Pairwise (· < ·) ∧ (wholeSweep s k g i f e).todo.Pairwise (· < ·) := by
    unfold wholeSweep
    cases g.drain with
    | some d => exact ⟨ascending_sorted _, ascending_sorted _⟩
    | none =>
      cases g.held with
      | nil => exact ⟨ascending_sorted _, ascending_sorted _⟩
      | cons h l => exact ⟨ascending_sorted _, (ascending_sorted _).filter _⟩
  unfold sweepOf
  rcases Sw.cutTo_cases (wholeSweep s k g i f e) s.cut with e' | ⟨_, e'⟩ <;> rw [e']
  · exact h
  · exact ⟨h.1, h.2.filter _⟩

theorem SweepFrame.refl (w : Sw) (s : State) : SweepFrame w s s := ⟨rfl, fun _ => rfl, fun _ _ => rfl⟩

theorem SweepFrame.trans {w : Sw} {a b c : State} (h : SweepFrame w a b) (h' : SweepFrame w b c) : SweepFrame w a c :=
  ⟨h'.1.trans h.1, fun k => (h'.2 k).trans (h.2 k), fun k hk => (h'.3 k hk).trans (h.3 k hk)⟩

theorem SweepFrame.setGroup (w : Sw) (s : State) (g : Group) : SweepFrame w s (s.setGroup w.gk g) :=
  ⟨rfl, fun _ => rfl, fun k hk => by rw [State.group_setGroup_if, if_neg hk]⟩

theorem SweepFrame.onGroup (w : Sw) (s : State) (f : Group → Group) : SweepFrame w s (s.onGroup w.gk f) := by
  unfold State.onGroup; split
  · exact SweepFrame.setGroup w s _
  · exact SweepFrame.refl w s

theorem SweepFrame.setCore (w : Sw) (s : State) (i : Nat) (c : Core) (h : c.elsewhere = (s.core i).elsewhere) :
    SweepFrame w s (s.setCore i c) :=
  ⟨rfl, fun k => by rw [State.core_setCore]; split <;> simp_all, fun _ _ => rfl⟩

theorem SweepFrame.ctr (w : Sw) (s : State) (n : Nat) : SweepFrame w s { s with ctr := n } := ⟨rfl, fun _ => rfl, fun _ _ => rfl⟩

theorem frame_freeRows (w : Sw) (s : State) (k n : Nat) : SweepFrame w s (freeRows s k n) := by
  unfold freeRows; split
  · exact SweepFrame.refl w s
  · exact SweepFrame.setCore w s _ _ rfl

@[simp] theorem group_freeRows (s : State) (k n j : Nat) : (freeRows s k n).group j = s.group j := by
  unfold freeRows; split <;> rfl

/-! ### Issue -/

/-- The sweep has issued: what stands of the state and of its group. -/
structure Begun (s : State) (w : Sw) (s2 : State) (n : Option Nat) (g2 : Group) : Prop where
  frame : SweepFrame w s s2
  group : s2.group w.gk = some g2
  regs : g2.regs = w.g.regs
  rest : g2.rest = w.g.rest
  th : g2.th = w.g.th
  trap : g2.trap = w.g.trap
  aband : g2.aband = w.g.aband
  pend : g2.pend = w.g.pend
  held : g2.held = w.g.held
  flag : n = w.flag
  upTo : w.upTo = none
  mapped : ∀ r, KeySet.has g2.mapped r = true → KeySet.has w.g.mapped r = true ∨ r ∈ w.dests
  mapped' : ∀ r, KeySet.has w.g.mapped r = true → KeySet.has g2.mapped r = true

theorem foldl_ins_has (l : List Nat) (m : KeySet) (r : Nat) :
    KeySet.has (l.foldl KeySet.ins m) r = (decide (r ∈ l) || KeySet.has m r) := by
  induction l generalizing m with
  | nil => simp
  | cons a l ih =>
    rw [List.foldl_cons, ih, KeySet.has_ins]
    by_cases h : r = a <;> by_cases h' : r ∈ l <;> simp [h, h']

theorem takeRows_spec {s s' : State} {k n : Nat} {w : Sw} (hk : k = w.gk) (h : takeRows s k n = some s') :
    SweepFrame w s s' ∧ s'.group k = (s.group k).map (fun g => { g with ids := { g.ids with rows := g.ids.rows + n } }) := by
  subst hk
  unfold takeRows at h
  simp only at h
  split at h
  · cases h
    refine ⟨(SweepFrame.setCore w s _ _ ?_).trans (SweepFrame.onGroup w _ _), ?_⟩
    · rfl
    · rw [State.group_onGroup, if_pos rfl]; rfl
  · cases h

theorem mapRegs_spec {s s' : State} {w : Sw} {g : Group} {rs : List Nat} (hg : s.group w.gk = some g)
    (h : mapRegs s w.gk rs = .ok s') :
    ∃ g2, SweepFrame w s s' ∧ s'.group w.gk = some g2 ∧
      (∃ m n, g2 = { g with mapped := m, ids := { g.ids with rows := n } }) ∧
      (∀ r, KeySet.has g2.mapped r = true → KeySet.has g.mapped r = true ∨ r ∈ rs) ∧
      (∀ r, KeySet.has g.mapped r = true → KeySet.has g2.mapped r = true) := by
  unfold mapRegs at h
  simp only [hg] at h
  split at h
  · cases h; exact ⟨g, SweepFrame.refl w s, hg, ⟨g.mapped, g.ids.rows, rfl⟩, fun _ h => .inl h, fun _ h => h⟩
  · split at h
    · cases h
    · split at h
      · cases h
      · rename_i s1 h1
        cases h
        obtain ⟨hf, hgr⟩ := takeRows_spec (w := w) rfl h1
        rw [hg] at hgr
        refine ⟨{ g with mapped := (newRegs g rs).foldl KeySet.ins g.mapped, ids := { g.ids with rows := g.ids.rows + (newRegs g rs).length } }, hf.trans (SweepFrame.onGroup w _ _), ?_, ⟨_, _, rfl⟩, ?_, ?_⟩
        · rw [State.group_onGroup, if_pos rfl, hgr]; rfl
        · intro r hr
          simp only [foldl_ins_has, Bool.or_eq_true, decide_eq_true_eq] at hr
          rcases hr with hr | hr
          · exact .inr (List.mem_filter.mp hr).1
          · exact .inl hr
        · intro r hr
          simp only [foldl_ins_has, Bool.or_eq_true, decide_eq_true_eq]
          exact .inr hr

/-- Issue changes the core's counter, the flag's count and the clause's binding. -/
theorem issue_spec {s : State} {w : Sw} {g : Group} (hg : s.group w.gk = some g) :
    ∃ g2, SweepFrame w s (issue s w).1 ∧ (issue s w).1.group w.gk = some g2 ∧
      (∃ c fl, g2 = { g with clause := c, r := { g.r with fl := fl } }) ∧
      (issue s w).2 = if w.replay then w.held.bind (fun h => h.flag) else if w.f.ll then g.clause.bind clauseFlag else none := by
  unfold issue
  split
  · exact ⟨g, SweepFrame.refl w s, hg, ⟨g.clause, g.r.fl, rfl⟩, rfl⟩
  · simp only [nextSeq, State.group_setCore, hg]
    have hf : SweepFrame w s (s.setCore (coreOf w.gk) { s.core (coreOf w.gk) with seq := ((s.core (coreOf w.gk)).seq + 1) % 2 ^ 48 }) :=
      SweepFrame.setCore w s _ _ rfl
    split
    · refine ⟨_, hf.trans (SweepFrame.setGroup w _ _), State.group_setGroup _ _ _, ?_⟩
      refine ⟨?_, rfl⟩
      unfold bindFlag; split
      · exact ⟨_, g.r.fl, rfl⟩
      · exact ⟨_, _, rfl⟩
    · exact ⟨g, hf, by simpa using hg, ⟨g.clause, g.r.fl, rfl⟩, rfl⟩

/-- An instruction that is ready begins its sweep. -/
theorem enter_ready {i : Instr} {s : State} {w : Sw} (h : Ready i s w) :
    ∃ s2 n g2, Begun s w s2 n g2 ∧ ∀ k, enter i s k = k w n s2 := by
  obtain ⟨g, f, e, hg, hf, hw, ha⟩ := sweepNow_some h.now
  have hgk : w.gk = s.focus := by rw [hw]; simp
  have hwg : w.g = g := by rw [hw]; simp
  have hwf : w.f = f := by rw [hw]; simp
  have hwe : w.e = e := by rw [hw]; simp
  have hdr : g.drain = none := by have := h.settled; rwa [hwg] at this
  have hrows := h.rows
  unfold rowsReady at hrows
  split at hrows
  · rename_i s1 h1
    have hg' : State.group { s with ctr := s.ctr + ctrStep } w.gk = some g := by rw [hgk]; exact hg
    obtain ⟨g1, hf1, hg1, ⟨m, n, rfl⟩, hm, hm'⟩ := mapRegs_spec hg' h1
    obtain ⟨g2, hf2, hg2, ⟨c, fl, rfl⟩, hn⟩ := issue_spec (w := w) hg1
    refine ⟨(issue s1 w).1, (issue s1 w).2, _, ⟨((SweepFrame.ctr w s _).trans hf1).trans hf2, hg2, ?_, ?_, ?_, ?_, ?_, ?_, ?_, ?_, ?_, ?_, ?_⟩, ?_⟩
    · rw [hwg]; rfl
    · rw [hwg]; rfl
    · rw [hwg]
    · rw [hwg]
    · rw [hwg]
    · rw [hwg]
    · rw [hwg]
    · rw [hn, Sw.flag, hwg]
    · exact h.uncut
    · intro r; rw [hwg]; exact hm r
    · intro r; rw [hwg]; exact hm' r
    · intro k
      unfold enter
      simp only [hg, hf]
      rw [← hw]
      cases hall : w.all with
      | nil => exact absurd hall ha
      | cons t0 tl =>
        have hsub : (g.prog.isSome && !engineOk f e) = false := by
          have := h.subset; rw [hwg, hwf, hwe] at this
          cases hp : g.prog.isSome <;> simp_all
        have hpl : placeOk g i e = true := by have := h.place; rwa [hwg, hwe] at this
        simp only [hdr, hsub, h.legal, hpl, h.free, h1]
        simp
  · cases hrows

/-! ### The end of a sweep -/

theorem thread_mapv (g : Group) (f : Nat → Thread → Thread) (hf : ∀ t, f t Thread.reset = Thread.reset) (u : Nat) :
    Group.thread { g with th := Tab.mapv f g.th } u = f u (g.thread u) := by
  unfold Group.thread Tab.lookD
  simp only [Tab.look_mapv]
  cases Tab.look g.th u with
  | none => simp [hf]
  | some x => simp

theorem pendFrame_drop (l : List Pend) (f : PWrite → Bool) :
    ∀ p' ∈ dropPend l f, ∃ p ∈ l, p'.seq = p.seq ∧ p'.flag = p.flag ∧ p'.ldw = p.ldw ∧ p'.load = p.load ∧ ∀ x ∈ p'.writes, x ∈ p.writes := by
  intro p' hp
  obtain ⟨p, hq, rfl⟩ := List.mem_map.mp hp
  exact ⟨p, hq, rfl, rfl, rfl, rfl, fun x hx => (List.mem_filter.mp hx).1⟩

theorem unmapReg_thread (g : Group) (r u : Nat) :
    (unmapReg g r).thread u = { g.thread u with v := Tab.rem (g.thread u).v r } :=
  thread_mapv g (fun _ x => { x with v := Tab.rem x.v r }) (fun _ => rfl) u

/-- Pending results of g2 come from g1, apart from `own`. -/
def PendSub (g1 g2 : Group) : Prop :=
  ∀ p' ∈ g2.pend, ∃ p ∈ g1.pend, p'.seq = p.seq ∧ p'.flag = p.flag ∧ p'.ldw = p.ldw ∧ p'.load = p.load ∧ ∀ x ∈ p'.writes, x ∈ p.writes

theorem PendSub.refl (g : Group) : PendSub g g := fun p hp => ⟨p, hp, rfl, rfl, rfl, rfl, fun _ h => h⟩

theorem PendSub.trans {a b c : Group} (h : PendSub a b) (h' : PendSub b c) : PendSub a c := by
  intro p hp
  obtain ⟨q, hq, e1, e2, e3, e4, e5⟩ := h' p hp
  obtain ⟨r, hr, f1, f2, f3, f4, f5⟩ := h q hq
  exact ⟨r, hr, e1.trans f1, e2.trans f2, e3.trans f3, e4.trans f4, fun x hx => f5 x (e5 x hx)⟩

theorem PendSub.of_eq {a b : Group} (h : b.pend = a.pend) : PendSub a b := by
  intro p hp; rw [h] at hp; exact PendSub.refl a p hp

theorem PendSub.drop (g g' : Group) (f : PWrite → Bool) (h : g'.pend = dropPend g.pend f) : PendSub g g' := by
  intro p hp; rw [h] at hp; exact pendFrame_drop _ f p hp

/-- Is a pending write one of vector register r? -/
def ofReg (r : Nat) : PWrite → Bool
  | .v _ r' _ => r' == r
  | .acc _ r' => r' == r
  | _ => false

/-- Pending results whose registers are not freed stay. -/
def PendKept (l : List Nat) (g g' : Group) : Prop :=
  ∀ p ∈ g.pend, (∀ x ∈ p.writes, ∀ r ∈ l, ofReg r x = false) → p ∈ g'.pend

/-- What freeing the rows of registers does to a group (R42). -/
theorem freeRegs_spec (w : Sw) : ∀ (l : List Nat) (s : State) (g : Group), s.group w.gk = some g →
    (∀ r ∈ l, isWin g r = false) →
    ∃ g', SweepFrame w s (freeRegs w.gk l s) ∧ (freeRegs w.gk l s).group w.gk = some g' ∧
      g'.regs = { g.regs with v := fun u r => if r ∈ l ∧ KeySet.has g.mapped r = true then 0 else g.regs.v u r } ∧
      g'.rest = g.rest ∧ (∀ u, ∃ v, g'.thread u = { g.thread u with v := v }) ∧ PendSub g g' ∧ g'.held = g.held ∧
      PendKept l g g' ∧ g'.trap = g.trap := by
  intro l
  induction l with
  | nil =>
    intro s g hg _
    exact ⟨g, SweepFrame.refl w s, hg, by simp, rfl, fun u => ⟨_, rfl⟩, PendSub.refl g, rfl, fun _ h _ => h, rfl⟩
  | cons r l ih =>
    intro s g hg hw
    simp only [freeRegs, hg]
    have hwl : ∀ q ∈ l, isWin g q = false := fun q hq => hw q (List.mem_cons_of_mem _ hq)
    split
    · rename_i hm
      have hg1 : (freeRows (s.setGroup w.gk (unmapReg g r)) w.gk 1).group w.gk = some (unmapReg g r) := by simp
      obtain ⟨g', hf, hg', hr, hre, hth, hp, hh, hc, ht⟩ := ih _ _ hg1 hwl
      refine ⟨g', ?_, hg', ?_, hre, ?_, ?_, hh, ?_, ht⟩
      · exact ((SweepFrame.setGroup w s _).trans (frame_freeRows w _ _ _)).trans hf
      · rw [hr]
        refine Regs.ext' ?_ (fun u q => ?_) (fun u q => ?_) (fun _ => rfl) (fun _ => rfl) (fun _ => rfl) (fun u => ?_) (fun u => ?_) rfl rfl
        · intro u q
          have hm1 : KeySet.has (unmapReg g r).mapped q = (!decide (q = r) && KeySet.has g.mapped q) := KeySet.has_del _ _ _
          have hv : (unmapReg g r).regs.v u q = if q = r then 0 else g.regs.v u q := by
            simp only [Group.regs, unmapReg_thread, Thread.vreg]
            have : isWin (unmapReg g r) q = isWin g q := rfl
            rw [this]
            by_cases hq : q = r
            · subst hq; simp [hw q List.mem_cons_self, Tab.lookD_rem]
            · simp [hq, Tab.lookD_rem]
          simp only [hm1, hv, List.mem_cons]
          by_cases hq : q = r
          · subst hq; simp [hm]
          · simp [hq]
        all_goals simp only [Group.regs, unmapReg_thread, Thread.pred, Thread.cap]
      · intro u
        obtain ⟨v, hv⟩ := hth u
        exact ⟨v, by rw [hv, unmapReg_thread]⟩
      · exact (PendSub.drop g (unmapReg g r) _ rfl).trans hp
      · intro p hpm hx
        refine hc p ?_ (fun x hxm q hq => hx x hxm q (List.mem_cons_of_mem _ hq))
        refine List.mem_map.mpr ⟨p, hpm, ?_⟩
        have : p.writes.filter (fun w => !(match w with | .v _ r' _ => r' == r | .acc _ r' => r' == r | _ => false)) = p.writes := by
          apply List.filter_eq_self.mpr
          intro x hxm
          have := hx x hxm r List.mem_cons_self
          cases x <;> simp_all [ofReg]
        cases p
        simp only at this ⊢
        rw [Pend.mk.injEq]
        exact ⟨rfl, rfl, rfl, rfl, this⟩
    · rename_i hm
      obtain ⟨g', hf, hg', hr, hre, hth, hp, hh, hc, ht⟩ := ih s g hg hwl
      refine ⟨g', hf, hg', ?_, hre, hth, hp, hh, fun p hpm hx => hc p hpm (fun x hxm q hq => hx x hxm q (List.mem_cons_of_mem _ hq)), ht⟩
      rw [hr]
      refine Regs.ext' (fun u q => ?_) (fun _ _ => rfl) (fun _ _ => rfl) (fun _ => rfl) (fun _ => rfl) (fun _ => rfl) (fun _ => rfl) (fun _ => rfl) rfl rfl
      by_cases hq : q = r
      · subst hq; simp [hm]
      · simp [hq]

/-- Threads that advance keep everything but their code capability. -/
theorem advancePc_thread (g : Group) (ts : KeySet) (a n u : Nat) :
    (advancePc g ts a n).thread u =
      if KeySet.has ts u && (g.thread u).st != .exited && (g.thread u).pc == a then
        { g.thread u with code := capSetAddr (g.thread u).code ((a + n : Nat) : Int) } else g.thread u :=
  thread_mapv g _ (fun t => by
    have h : (KeySet.has ts t && TStat.exited != TStat.exited && Thread.reset.pc == a) = false := by simp
    exact if_neg (by rw [show Thread.reset.st = TStat.exited from rfl, h]; exact Bool.false_ne_true)) u

/-- What the end of a sweep that defers nothing leaves (R25, R42, R120). -/
theorem finish_spec {w : Sw} {s : State} {g : Group} (ti : W32) (adv : Bool) (c : BitVec 16) (hg : s.group w.gk = some g)
    (htr : g.trap = w.g.trap) :
    ∃ g', SweepFrame w s (finishSweep s w ti adv [] c) ∧ (finishSweep s w ti adv [] c).group w.gk = some g' ∧
      g'.regs = { g.regs with v := fun u r => if r ∈ w.lastRead ∧ KeySet.has g.mapped r = true then 0 else g.regs.v u r } ∧
      g'.rest = g.rest ∧ PendSub g g' ∧ PendKept w.lastRead g g' ∧ g'.trap = g.trap ∧
      ∀ u, ∃ v, g'.thread u = { g.thread u with
        v := v
        code := if adv && (KeySet.has w.all u && (g.thread u).st != .exited && (g.thread u).pc == w.iaddr) then
          capSetAddr (g.thread u).code ((w.iaddr + instrLen w.i : Nat) : Int) else (g.thread u).code } := by
  have hwin : ∀ r ∈ w.lastRead, isWin g r = false := by
    intro r hr
    unfold Sw.lastRead at hr
    have := (List.mem_filter.mp hr).2
    rw [isWin_congr htr]
    simp only [Bool.and_eq_true, Bool.not_eq_true'] at this
    exact this.1.2
  obtain ⟨g1, hf1, hg1, hr1, hre1, hth1, hp1, hh1, hc1, ht1⟩ := freeRegs_spec w w.lastRead s g hg hwin
  unfold finishSweep
  simp only [hg1, if_true]
  refine ⟨_, hf1.trans (SweepFrame.setGroup w _ _), State.group_setGroup _ _ _, ?_⟩
  have hth : ∀ (g2 : Group), g2.th = g1.th → g2.thread = g1.thread := by
    intro g2 h; funext u; simp [Group.thread, h]
  generalize hg2 : (if w.replay then { g1 with held := g1.held.drop 1 } else g1) = g2
  have e : g2.th = g1.th ∧ g2.regs = g1.regs ∧ g2.rest = g1.rest ∧ g2.pend = g1.pend ∧ g2.trap = g1.trap := by
    rw [← hg2]; split <;> exact ⟨rfl, rfl, rfl, rfl, rfl⟩
  obtain ⟨e1, e2, e3, e4, e5⟩ := e
  have hpend : ∀ x : Group, x.pend = g2.pend → PendSub g x := fun x hx => hp1.trans (PendSub.of_eq (hx.trans e4))
  have hrA : (advancePc g2 w.all w.iaddr (instrLen w.i)).regs = g2.regs := by
    refine Regs.ext' ?_ ?_ ?_ (fun _ => rfl) (fun _ => rfl) (fun _ => rfl) ?_ ?_ rfl rfl <;> intro u <;> (try intro q) <;>
      simp only [Group.regs, advancePc_thread] <;> split <;> rfl
  have hkept : ∀ x : Group, x.pend = g2.pend → PendKept w.lastRead g x := fun x hx p h1 h2 => by
    rw [hx, e4]; exact hc1 p h1 h2
  cases adv
  · refine ⟨?_, ?_, ?_, ?_, ?_, ?_⟩
    · exact e2.trans hr1
    · exact e3.trans hre1
    · exact hpend _ rfl
    · exact hkept _ rfl
    · exact e5.trans ht1
    · intro u
      obtain ⟨v, hv⟩ := hth1 u
      refine ⟨v, ?_⟩
      have h2 : g2.thread u = { g.thread u with v := v } := (congrFun (hth g2 e1) u).trans hv
      exact h2
  · refine ⟨?_, ?_, ?_, ?_, ?_, ?_⟩
    · exact (hrA.trans e2).trans hr1
    · exact e3.trans hre1
    · exact hpend _ rfl
    · exact hkept _ rfl
    · exact e5.trans ht1
    · intro u
      obtain ⟨v, hv⟩ := hth1 u
      have h2 : g2.thread u = { g.thread u with v := v } := (congrFun (hth g2 e1) u).trans hv
      refine ⟨v, ?_⟩
      have : Group.thread (clauseStep (advancePc g2 w.all w.iaddr (instrLen w.i)) (instrLen w.i)) u =
          (advancePc g2 w.all w.iaddr (instrLen w.i)).thread u := rfl
      rw [if_pos rfl, this, advancePc_thread, h2]
      simp only [Bool.true_and]
      have hpc : Thread.pc { g.thread u with v := v } = (g.thread u).pc := rfl
      rw [hpc]
      split <;> rfl

/-! ### Updates that a sweep makes of its group -/

/-- g' differs from g in registers and pending writes alone, and abandons nothing more. -/
structure Mild (g g' : Group) : Prop where
  trap : g'.trap = g.trap
  aband : ∀ k, KeySet.has g'.aband k = true → KeySet.has g.aband k = true
  mapped : g'.mapped = g.mapped
  rest : g'.rest = g.rest
  threads : ∀ u, (g'.thread u).rest = (g.thread u).rest
  code : ∀ u, (g'.thread u).code = (g.thread u).code
  pend : PendSub g g'

theorem Mild.refl (g : Group) : Mild g g := ⟨rfl, fun _ h => h, rfl, rfl, fun _ => rfl, fun _ => rfl, PendSub.refl g⟩

theorem Mild.trans {a b c : Group} (h : Mild a b) (h' : Mild b c) : Mild a c :=
  ⟨h'.1.trans h.1, fun k hk => h.2 k (h'.2 k hk), h'.3.trans h.3, h'.4.trans h.4, fun u => (h'.5 u).trans (h.5 u),
    fun u => (h'.6 u).trans (h.6 u), h.7.trans h'.7⟩

theorem Mild.onThread (g : Group) (t : Nat) (f : Thread → Thread) (h1 : ∀ x, (f x).rest = x.rest)
    (h2 : ∀ x, (f x).code = x.code) : Mild g (g.onThread t f) := by
  refine ⟨rfl, fun _ h => h, rfl, rfl, fun u => ?_, fun u => ?_, PendSub.refl g⟩
  · rw [Group.thread_onThread]; split
    · subst_vars; exact h1 _
    · rfl
  · rw [Group.thread_onThread]; split
    · subst_vars; exact h2 _
    · rfl

theorem Mild.pend' (g : Group) (f : PWrite → Bool) (a : KeySet) (ha : ∀ k, KeySet.has a k = true → KeySet.has g.aband k = true) :
    Mild g { g with pend := dropPend g.pend f, aband := a } :=
  ⟨rfl, ha, rfl, rfl, fun _ => rfl, fun _ => rfl, PendSub.drop g _ f rfl⟩

theorem Mild.dropped (g : Group) (f : PWrite → Bool) : Mild g { g with pend := dropPend g.pend f } :=
  ⟨rfl, fun _ h => h, rfl, rfl, fun _ => rfl, fun _ => rfl, PendSub.drop g _ f rfl⟩

theorem Mild.setV1 (g : Group) (t r : Nat) (win : Bool) (y : W32) (f : PWrite → Bool) (k : Nat) :
    Mild g { (g.onThread t (fun x => x.setV win r y)) with pend := dropPend g.pend f, aband := KeySet.del g.aband k } :=
  (Mild.onThread g t (fun x => x.setV win r y) (fun x => by unfold Thread.setV; split <;> rfl)
    (fun x => by unfold Thread.setV; split <;> rfl)).trans
    (Mild.pend' _ f _ (fun j h => by
      rw [KeySet.has_del, Bool.and_eq_true] at h; exact h.2))

theorem mild_writeV (g : Group) (t r : Nat) (x : W64) (wide : Bool) : Mild g (writeV g t r x wide) := by
  have h := Mild.setV1 g t r (isWin g r) (x.setWidth 32) (isPV t (winReg g r)) (winReg g r * 256 + t)
  cases wide
  · exact h
  · exact h.trans (Mild.setV1 _ t (r + 1) _ _ _ _)

theorem mild_writeG (g : Group) (r : Nat) (x : W64) : Mild g (writeG g r x) :=
  ⟨rfl, fun _ h => h, rfl, rfl, fun _ => rfl, fun _ => rfl, PendSub.drop g _ _ rfl⟩

theorem mild_writeP (g : Group) (t n : Nat) (b : Bool) : Mild g (writeP g t n b) :=
  (Mild.onThread g t (fun x => x.setPred n b) (fun x => by unfold Thread.setPred; split <;> rfl)
    (fun x => by unfold Thread.setPred; split <;> rfl)).trans (Mild.dropped _ _)

theorem mild_writeC (g : Group) (t r : Nat) (c : Cap) : Mild g (writeC g t r c) := by
  unfold writeC
  split
  · exact (Mild.dropped g _).trans (Mild.onThread _ t _ (fun _ => rfl) (fun _ => rfl))
  · exact (Mild.dropped g _).trans ⟨rfl, fun _ h => h, rfl, rfl, fun _ => rfl, fun _ => rfl, PendSub.refl _⟩

theorem mild_raise (g : Group) (t : Nat) (f : Flags) : Mild g (raiseFlags g t f) :=
  Mild.onThread g t _ (fun _ => rfl) (fun _ => rfl)

theorem mild_supersede (w : Sw) (g : Group) (t : Nat) : Mild g (w.supersede g t) := by
  refine ⟨rfl, fun _ h => h, rfl, rfl, fun _ => rfl, fun _ => rfl, fun p' hp => ?_⟩
  obtain ⟨p, hq, rfl⟩ := List.mem_map.mp hp
  refine ⟨p, hq, ?_⟩
  split
  · exact ⟨rfl, rfl, rfl, rfl, fun _ h => h⟩
  · exact ⟨rfl, rfl, rfl, rfl, fun x hx => (List.mem_filter.mp hx).1⟩

theorem mild_writeD (w : Sw) (g : Group) (t : Nat) (x : W64) : Mild g (w.writeD g t x) := by
  unfold Sw.writeD; split
  · exact mild_writeG _ _ _
  · exact mild_writeV _ _ _ _ _

/-- A thread that could be fetched for and reads nothing abandoned stops at neither. -/
theorem commonStop_none {w : Sw} {t : Nat} (hl : w.lim = none) (h : abandonedAt w t = false) : commonStop w t = none := by
  simp [commonStop, hl, h]

/-- One thread's step of a sweep none of whose threads stops. -/
def stepUp (w : Sw) (up : Nat → Group → Group) (fl : Nat → Flags) (g : Group) (t : Nat) : Group :=
  if w.on t then (if fl t = 0 then up t g else raiseFlags (up t g) t (fl t)) else g

/-- A sweep over threads none of which stops or raises an enabled exception. -/
theorem runThreads_go {w : Sw} (h : Group → Tab W64 → Nat → Except Stop One) (up : Nat → Group → Group)
    (fl : Nat → Flags) (pw : Nat → List PWrite) (hl : w.lim = none)
    (hno : ∀ t g d, w.on t = false → h g d t = .ok ⟨g, 0, [], d⟩) (hm : ∀ t g, Mild g (up t g)) :
    ∀ (ts : List Nat) (r : Run),
      (∀ t ∈ ts, w.on t = true → (∀ g d, h g d t = .ok ⟨up t g, fl t, pw t, d⟩) ∧ trapFlags w.g (fl t) = 0) →
      (∀ t ∈ ts, abandonedAt w t = false) →
      runThreads w h ts r = { r with
        g := ts.foldl (stepUp w up fl) r.g
        pend := r.pend ++ (ts.filter w.on).flatMap pw } ∧ Mild r.g (ts.foldl (stepUp w up fl) r.g) := by
  intro ts
  induction ts with
  | nil => intro r _ _; exact ⟨by simp [runThreads], Mild.refl _⟩
  | cons t ts ih =>
    intro r hoq hab
    have hoq' := fun u hu => hoq u (List.mem_cons_of_mem t hu)
    have hc : commonStop w t = none := commonStop_none hl (hab t List.mem_cons_self)
    have hab' : ∀ u ∈ ts, abandonedAt w u = false := fun u hu => hab u (List.mem_cons_of_mem _ hu)
    simp only [runThreads, hc]
    cases hon : w.on t
    · simp only [hno t _ _ hon]
      have h0 : trapFlags w.g 0 = 0 := by simp [trapFlags]
      have hs : stepUp w up fl r.g t = r.g := by simp [stepUp, hon]
      obtain ⟨e, m⟩ := ih { r with g := r.g } hoq' hab'
      simp only [List.foldl_cons, hs, List.filter_cons, hon, h0]
      refine ⟨?_, m⟩
      simpa using e
    · obtain ⟨hok, hq⟩ := hoq t List.mem_cons_self hon
      simp only [hok, hq]
      have hs : stepUp w up fl r.g t = if fl t = 0 then up t r.g else raiseFlags (up t r.g) t (fl t) := by simp [stepUp, hon]
      have hM' : Mild r.g (stepUp w up fl r.g t) := by
        rw [hs]; split
        · exact hm t _
        · exact (hm t _).trans (mild_raise _ _ _)
      obtain ⟨e, m⟩ := ih { r with g := stepUp w up fl r.g t, pend := r.pend ++ pw t } hoq' hab'
      simp only [List.foldl_cons, List.filter_cons, hon]
      refine ⟨?_, hM'.trans m⟩
      rw [← hs]
      simpa using e

/-! ### The whole of a register-only sweep -/

theorem ready_gk {i : Instr} {s : State} {w : Sw} (h : Ready i s w) : w.gk = s.focus ∧ w.i = i ∧ s.group w.gk = some w.g := by
  obtain ⟨g, f, e, hg, _, hw, _⟩ := sweepNow_some h.now
  subst hw
  refine ⟨by simp, by simp, by simpa using hg⟩

theorem ready_whole {i : Instr} {s : State} {w : Sw} (h : Ready i s w) : ∀ t ∈ w.todo, abandonedAt w t = false := by
  intro t ht
  obtain ⟨g, f, e, _, _, hw, _⟩ := sweepNow_some h.now
  exact h.whole t (by
    have hd := h.settled
    subst hw
    rw [sweepOf_g] at hd
    exact sweepOf_todo _ _ _ _ _ _ hd t ht)

/-- What pushing a sweep's results leaves of a group: its own stand first, the others lose the registers named again. -/
theorem pushPend_spec (w : Sw) (g : Group) (n : Option Nat) (ldw : Bool) (ws : List PWrite) :
    ∃ old, (pushPend g w n ldw ws).pend =
        (if ws = [] ∧ (n = none ∨ w.idle = true) then [] else [⟨w.seq, n, ldw, ldw || isLoad w.f, ws.map (windowed g)⟩]) ++ old ∧
      PendSub g { g with pend := old } ∧ ∃ p fl, pushPend g w n ldw ws = { g with pend := p, r := { g.r with fl := fl } } := by
  unfold pushPend
  split
  · refine ⟨g.pend, ?_, PendSub.refl g, g.pend, ?_⟩
    · unfold clearFlag; split <;> rfl
    · unfold clearFlag; split
      · exact ⟨g.r.fl, rfl⟩
      · exact ⟨_, rfl⟩
  · refine ⟨_, rfl, fun p' hp => ?_, _, g.r.fl, rfl⟩
    obtain ⟨p, hq, rfl⟩ := List.mem_map.mp hp
    refine ⟨p, hq, ?_⟩
    split
    · exact ⟨rfl, rfl, rfl, rfl, fun _ h => h⟩
    · exact ⟨rfl, rfl, rfl, rfl, fun x hx => (List.mem_filter.mp hx).1⟩

theorem windowed_congr {g g' : Group} (h : g'.trap = g.trap) : windowed g' = windowed g := by
  funext x; cases x <;> simp [windowed, winReg, isWin_congr h]

/-- Conclude a run that stopped nowhere and deferred nothing. -/
theorem conclude_ran {s s2 : State} {w : Sw} {n : Option Nat} {g2 : Group} (hb : Begun s w s2 n g2)
    (r : Run) (hs : r.stop = none) (hd : r.defer = []) (hM : Mild g2 r.g) (ldw adv : Bool)
    (hw : ∀ x ∈ r.pend, ∀ q, ofReg q x = true → q ∈ w.dests) :
    ∃ t g', conclude w n ldw adv s2 r = t ∧ SweepFrame w s t ∧ t.group w.gk = some g' ∧
      g'.regs = Regs.freed w r.g.regs ∧ g'.rest = w.g.rest ∧ (∀ u, (g'.thread u).rest = (w.g.thread u).rest) ∧
      (∀ u, (g'.thread u).code =
        if adv && (KeySet.has w.all u && (r.g.thread u).st != .exited && (r.g.thread u).pc == w.iaddr) then
          capSetAddr (r.g.thread u).code ((w.iaddr + instrLen w.i : Nat) : Int) else (r.g.thread u).code) ∧
      PendFrame w.g g' (w.own ldw r.pend) := by
  have htr : r.g.trap = w.g.trap := hM.trap.trans hb.trap
  unfold conclude
  simp only [hs, hd, hb.upTo]
  obtain ⟨old, hown, hold, pp, fl, hpp⟩ := pushPend_spec w r.g n ldw r.pend
  generalize pushPend r.g w n ldw r.pend = gp at hown hpp ⊢
  have e : gp.trap = r.g.trap ∧ gp.regs = r.g.regs ∧ gp.rest = r.g.rest ∧ gp.thread = r.g.thread ∧ gp.mapped = r.g.mapped := by
    subst hpp; exact ⟨rfl, rfl, rfl, rfl, rfl⟩
  obtain ⟨e1, e2, e3, e4, e5⟩ := e
  obtain ⟨g', hf, hg', hr, hre, hp, hk, _, hth⟩ := finish_spec (w := w) (s := s2.setGroup w.gk gp) (tinstOf s2 w) adv
    (fpCause r.dfl ++ (0 : BitVec 8)) (State.group_setGroup _ _ _) (e1.trans htr)
  refine ⟨_, g', rfl, (hb.frame.trans (SweepFrame.setGroup w _ _)).trans hf, hg', ?_, ?_, ?_, ?_, ?_⟩
  · rw [hr, e2]
    refine Regs.ext' (fun u q => ?_) (fun _ _ => rfl) (fun _ _ => rfl) (fun _ => rfl) (fun _ => rfl) (fun _ => rfl) (fun _ => rfl) (fun _ => rfl) rfl rfl
    simp only [Regs.freed, Sw.frees, e5, hM.mapped]
    have hiff : (q ∈ w.lastRead ∧ KeySet.has g2.mapped q = true) ↔ (w.lastRead.contains q && KeySet.has w.g.mapped q) = true := by
      simp only [Bool.and_eq_true, List.contains_iff_mem]
      constructor
      · rintro ⟨h1, h2⟩
        refine ⟨h1, (hb.mapped q h2).resolve_right ?_⟩
        have := (List.mem_filter.mp (show q ∈ List.filter _ _ from h1)).2
        simp only [Bool.and_eq_true, Bool.not_eq_true', List.contains_eq_mem, decide_eq_false_iff_not] at this
        exact this.1.1
      · rintro ⟨h1, h2⟩
        exact ⟨h1, hb.mapped' q h2⟩
    by_cases h : q ∈ w.lastRead ∧ KeySet.has g2.mapped q = true
    · exact (if_pos h).trans (if_pos (hiff.mp h)).symm
    · exact (if_neg h).trans (if_neg (fun hc => h (hiff.mpr hc))).symm
  · rw [hre, e3, hM.rest, hb.rest]
  · intro u
    obtain ⟨v, hv⟩ := hth u
    have h1 : (g'.thread u).rest = (gp.thread u).rest := by rw [hv]; rfl
    rw [h1, e4, hM.threads u]
    unfold Group.thread; rw [hb.th]
  · intro u
    obtain ⟨v, hv⟩ := hth u
    rw [hv, e4]
  · replace hown : gp.pend = w.own ldw r.pend ++ old := by
      rw [hown]; unfold Sw.own
      rw [hb.flag, windowed_congr htr]
    refine ⟨fun p hpm => ?_, fun p' hp' => ?_⟩
    · refine hk p (by rw [hown]; exact List.mem_append_left _ hpm) ?_
      intro x hx q hq
      unfold Sw.own at hpm
      split at hpm
      · cases hpm
      · rw [List.mem_singleton] at hpm
        subst hpm
        obtain ⟨y, hy, rfl⟩ := List.mem_map.mp hx
        rw [Bool.eq_false_iff]
        intro hc
        have hq2 := (List.mem_filter.mp (show q ∈ List.filter _ _ from hq)).2
        simp only [Bool.and_eq_true, Bool.not_eq_true', List.contains_eq_mem, decide_eq_false_iff_not] at hq2
        have key : ∀ r', winReg w.g r' = q → r' ∈ w.dests → False := by
          intro r' hr' hd'
          unfold winReg at hr'
          split at hr'
          · rename_i hwin
            have h120 := isWin_le hwin
            have : isWin w.g q = true := by
              unfold isWin at hwin ⊢
              simp only [Bool.and_eq_true, decide_eq_true_eq] at hwin ⊢
              exact ⟨hwin.1, by omega⟩
            rw [this] at hq2; exact Bool.noConfusion hq2.1.2
          · subst hr'; exact hq2.1.1 hd'
        cases y <;> simp only [windowed, ofReg, beq_iff_eq] at hc <;> (try cases hc)
        · exact key _ rfl (hw _ hy _ (by simp [ofReg]))
        · exact key _ rfl (hw _ hy _ (by simp [ofReg]))
    · obtain ⟨p, hpm, q1, q2, q3, q5, q4⟩ := hp p' hp'
      rw [hown] at hpm
      rcases List.mem_append.mp hpm with h | h
      · exact ⟨p, List.mem_append_left _ h, q1, q2, q3, q5, q4⟩
      · obtain ⟨p0, h0, f1, f2, f3, f5, f4⟩ := (hM.pend.trans hold) p h
        rw [hb.pend] at h0
        exact ⟨p0, List.mem_append_right _ h0, q1.trans f1, q2.trans f2, q3.trans f3, q5.trans f5, fun x hx => f4 x (q4 x hx)⟩

/-- What processing the participants makes of the registers, one after another. -/
def foldRegs (w : Sw) (U : Nat → Regs → Regs) (fl : Nat → Flags) (R : Regs) : Regs :=
  (w.todo.filter w.on).foldl (fun R t => (U t R).orF t (fl t)) R

theorem Regs.orF_zero (R : Regs) (t : Nat) : R.orF t 0 = R := by
  refine Regs.ext' (fun _ _ => rfl) (fun _ _ => rfl) (fun _ _ => rfl) (fun _ => rfl) (fun _ => rfl) (fun _ => rfl) (fun u => ?_) (fun _ => rfl) rfl rfl
  simp [Regs.orF]

theorem fold_regs {w : Sw} {up : Nat → Group → Group} {fl : Nat → Flags} {U : Nat → Regs → Regs}
    (hm : ∀ t g, Mild g (up t g)) (hU : ∀ t g, g.trap = w.g.trap → (up t g).regs = U t g.regs) :
    ∀ (ts : List Nat) (g : Group), g.trap = w.g.trap →
      (ts.foldl (stepUp w up fl) g).regs = (ts.filter w.on).foldl (fun R t => (U t R).orF t (fl t)) g.regs := by
  intro ts
  induction ts with
  | nil => intro g _; rfl
  | cons t ts ih =>
    intro g hg
    rw [List.foldl_cons, List.filter_cons]
    cases hon : w.on t
    · have : stepUp w up fl g t = g := by simp [stepUp, hon]
      rw [this]; exact ih g hg
    · have e : stepUp w up fl g t = if fl t = 0 then up t g else raiseFlags (up t g) t (fl t) := by simp [stepUp, hon]
      have htr : (stepUp w up fl g t).trap = w.g.trap := by
        rw [e]; split
        · exact ((hm t g).trap).trans hg
        · exact ((hm t g).trap).trans hg
      have hr : (stepUp w up fl g t).regs = (U t g.regs).orF t (fl t) := by
        rw [e]; split
        · rename_i h0; rw [hU t g hg, h0, Regs.orF_zero]
        · rw [regs_raise, hU t g hg]
      rw [ih _ htr, hr]; rfl

/-- A register-only sweep of a ready instruction, thread by thread. -/
theorem sweepG_ran {i : Instr} {s : State} {w : Sw} {f : Sw → Group → Tab W64 → Nat → Except Stop One}
    (h : Ready i s w) (hu : w.e.u = false) (up : Nat → Group → Group) (fl : Nat → Flags) (pw : Nat → List PWrite)
    (U : Nat → Regs → Regs)
    (hok : ∀ t ∈ w.todo, w.on t = true → ∀ g d, f w g d t = .ok ⟨up t g, fl t, pw t, d⟩)
    (hm : ∀ t g, Mild g (up t g)) (hU : ∀ t g, g.trap = w.g.trap → (up t g).regs = U t g.regs)
    (hq : ∀ t ∈ w.todo, w.on t = true → trapFlags w.g (fl t) = 0)
    (hw : ∀ t ∈ w.todo, ∀ x ∈ pw t, ∀ q, ofReg q x = true → q ∈ w.dests) :
    ∃ t g', sweepG i s f = .next t ∧ SweepFrame w s t ∧ t.group w.gk = some g' ∧
      g'.regs = Regs.freed w (foldRegs w U fl w.g.regs) ∧ g'.rest = w.g.rest ∧
      (∀ u, (g'.thread u).rest = (w.g.thread u).rest) ∧ (∀ u, (g'.thread u).code = w.codeAfter u) ∧
      PendFrame w.g g' (w.own false ((w.todo.filter w.on).flatMap pw)) := by
  obtain ⟨s2, n, g2, hb, he⟩ := enter_ready h
  let f' := fun (g : Group) (d : Tab W64) (t : Nat) => if w.on t then f w g d t else Except.ok (⟨g, 0, [], d⟩ : One)
  obtain ⟨hrun, hM⟩ := runThreads_go f' up fl pw h.fetched (fun t g d ho => by simp [f', ho]) hm w.todo (Run.start w g2)
    (fun t ht ho => ⟨fun g d => by simp [f', ho, hok t ht ho], hq t ht ho⟩) (ready_whole h)
  have hpend : (runThreads w f' w.todo (Run.start w g2)).pend = (w.todo.filter w.on).flatMap pw := by
    rw [hrun]; simp [Run.start]
  obtain ⟨t, g', ht, hf, hg, hr, hre, hth, hc, hp⟩ := conclude_ran hb (runThreads w f' w.todo (Run.start w g2))
    (by rw [hrun]; rfl) (by rw [hrun]; exact h.fresh) (by rw [hrun]; exact hM) false true (by
      intro x hx q hq'
      rw [hpend] at hx
      obtain ⟨u, hu', hx'⟩ := List.mem_flatMap.mp hx
      exact hw u (List.mem_filter.mp hu').1 x hx' q hq')
  refine ⟨t, g', ?_, hf, hg, ?_, hre, hth, ?_, ?_⟩
  · unfold sweepG
    rw [he]
    simp only [hb.group, runSweep, hu]
    rw [← ht]; rfl
  · rw [hr, hrun]
    have e := fold_regs (fl := fl) hm hU w.todo g2 hb.trap
    rw [hb.regs] at e
    exact congrArg (Regs.freed w) e
  · intro u
    have h1 : ((runThreads w f' w.todo (Run.start w g2)).g.thread u).code = (w.g.thread u).code := by
      rw [hrun, hM.code]; simp only [Run.start]; unfold Group.thread; rw [hb.th]
    have h2 : ((runThreads w f' w.todo (Run.start w g2)).g.thread u).st = (w.g.thread u).st := by
      have := hM.threads u
      rw [hrun]
      have e : (((w.todo.foldl (stepUp w up fl) (Run.start w g2).g).thread u).rest).st = (((Run.start w g2).g.thread u).rest).st := by rw [this]
      have e' : (g2.thread u).st = (w.g.thread u).st := by unfold Group.thread; rw [hb.th]
      exact e.trans e'
    rw [hc]
    generalize (runThreads w f' w.todo (Run.start w g2)).g = gf at h1 h2 ⊢
    unfold Sw.codeAfter Thread.pc
    rw [h1, h2]
    simp
  · rw [hpend] at hp; exact hp

/-- The registers after a sweep with U = 1: one result for the group, its flags to every active thread (R112, R68). -/
def uniformRegs (w : Sw) (U : Nat → Regs → Regs) (fl : Nat → Flags) (R : Regs) : Regs :=
  match w.todo.head? with
  | none => R
  | some t => if w.on t then Regs.raise (fun u => w.all.contains u) (fun _ => fl t) (U t R) else R

theorem foldl_raise (ts : List Nat) (f : Flags) (g : Group) :
    Mild g (ts.foldl (fun g t => raiseFlags g t f) g) ∧
      (ts.foldl (fun g t => raiseFlags g t f) g).regs = Regs.raise (fun u => ts.contains u) (fun _ => f) g.regs := by
  induction ts generalizing g with
  | nil => exact ⟨Mild.refl g, by simp [Regs.raise]⟩
  | cons t ts ih =>
    rw [List.foldl_cons]
    obtain ⟨m, e⟩ := ih (raiseFlags g t f)
    refine ⟨(mild_raise g t f).trans m, ?_⟩
    rw [e, regs_raise]
    refine Regs.ext' (fun _ _ => rfl) (fun _ _ => rfl) (fun _ _ => rfl) (fun _ => rfl) (fun _ => rfl) (fun _ => rfl) (fun u => ?_) (fun _ => rfl) rfl rfl
    simp only [Regs.raise, Regs.orF, List.contains_cons]
    by_cases h1 : u = t <;> by_cases h2 : ts.contains u = true <;> simp [h1, h2]
    all_goals (subst h1; intro _; rw [BitVec.or_assoc, BitVec.or_self])

/-- A register-only sweep of a ready instruction with U = 1. -/
theorem sweepG_ran_uniform {i : Instr} {s : State} {w : Sw} {f : Sw → Group → Tab W64 → Nat → Except Stop One}
    (h : Ready i s w) (hu : w.e.u = true) (up : Nat → Group → Group) (fl : Nat → Flags) (pw : Nat → List PWrite)
    (U : Nat → Regs → Regs)
    (hok : ∀ t, w.todo.head? = some t → w.on t = true → ∀ g d, f w g d t = .ok ⟨up t g, fl t, pw t, d⟩)
    (hm : ∀ t g, Mild g (up t g)) (hU : ∀ t g, g.trap = w.g.trap → (up t g).regs = U t g.regs)
    (hq : ∀ t, w.todo.head? = some t → w.on t = true → trapFlags w.g (fl t) = 0)
    (hw : ∀ t ∈ w.todo, ∀ x ∈ pw t, ∀ q, ofReg q x = true → q ∈ w.dests) :
    ∃ t g', sweepG i s f = .next t ∧ SweepFrame w s t ∧ t.group w.gk = some g' ∧
      g'.regs = Regs.freed w (uniformRegs w U fl w.g.regs) ∧ g'.rest = w.g.rest ∧
      (∀ u, (g'.thread u).rest = (w.g.thread u).rest) ∧ (∀ u, (g'.thread u).code = w.codeAfter u) ∧
      PendFrame w.g g' (w.own false ((w.todo.head?.toList.filter w.on).flatMap pw)) := by
  obtain ⟨s2, n, g2, hb, he⟩ := enter_ready h
  let f' := fun (g : Group) (d : Tab W64) (t : Nat) => if w.on t then f w g d t else Except.ok (⟨g, 0, [], d⟩ : One)
  have key : ∃ gf, Mild g2 gf ∧ gf.regs = uniformRegs w U fl w.g.regs ∧
      (runSweep w f' (Run.start w g2)).stop = none ∧ (runSweep w f' (Run.start w g2)).defer = [] ∧
      (runSweep w f' (Run.start w g2)).g = gf ∧
      (runSweep w f' (Run.start w g2)).pend = (w.todo.head?.toList.filter w.on).flatMap pw := by
    unfold runSweep uniformRegs
    simp only [hu, if_true, h.fetched]
    cases htd : w.todo with
    | nil => exact ⟨g2, Mild.refl g2, hb.regs, rfl, h.fresh, rfl, rfl⟩
    | cons t ts =>
      cases hon : w.on t
      · have e : f' (Run.start w g2).g (Run.start w g2).data t = .ok ⟨g2, 0, [], w.data0⟩ := by simp [f', hon, Run.start]
        simp only [e, List.head?_cons, hon]
        refine ⟨g2, Mild.refl g2, by simpa using hb.regs, rfl, ?_, by simp, by simp [Run.start, hon]⟩
        exact (if_pos (BitVec.zero_and)).trans h.fresh
      · have htm : w.todo.head? = some t := by rw [htd]; rfl
        have e : f' (Run.start w g2).g (Run.start w g2).data t = .ok ⟨up t g2, fl t, pw t, w.data0⟩ := by
          simp [f', hon, Run.start, hok t htm hon]
        simp only [e, List.head?_cons, hon, hq t htm hon]
        by_cases h0 : fl t = 0
        · refine ⟨up t g2, hm t g2, ?_, rfl, h.fresh, by simp [h0], by simp [Run.start, hon]⟩
          rw [hU t g2 hb.trap, hb.regs, h0]
          refine Regs.ext' (fun _ _ => rfl) (fun _ _ => rfl) (fun _ _ => rfl) (fun _ => rfl) (fun _ => rfl) (fun _ => rfl) (fun u => ?_) (fun _ => rfl) rfl rfl
          simp [Regs.raise]
        · obtain ⟨m, er⟩ := foldl_raise w.all (fl t) (up t g2)
          refine ⟨_, (hm t g2).trans m, ?_, rfl, h.fresh, if_neg h0, by simp [Run.start, hon]⟩
          rw [er, hU t g2 hb.trap, hb.regs]; rfl
  obtain ⟨gf, hM, hrg, hst, hdf, hgf, hpd⟩ := key
  obtain ⟨t, g', ht, hf, hg, hr, hre, hth, hc, hp⟩ := conclude_ran hb (runSweep w f' (Run.start w g2)) hst hdf
    (by rw [hgf]; exact hM) false true (by
      intro x hx q hq'
      rw [hpd] at hx
      obtain ⟨u, hu', hx'⟩ := List.mem_flatMap.mp hx
      have hu2 := (List.mem_filter.mp hu').1
      exact hw u (by cases htd : w.todo with
        | nil => rw [htd] at hu2; cases hu2
        | cons a l => rw [htd] at hu2; simp at hu2; rw [hu2]; exact List.mem_cons_self) x hx' q hq')
  refine ⟨t, g', ?_, hf, hg, ?_, hre, hth, ?_, ?_⟩
  · unfold sweepG
    rw [he]
    simp only [hb.group]
    rw [← ht]
  · rw [hr, hgf, hrg]
  · intro u
    rw [hc, hgf]
    have h1 : (gf.thread u).code = (w.g.thread u).code := by rw [hM.code]; unfold Group.thread; rw [hb.th]
    have h2 : (gf.thread u).st = (w.g.thread u).st := by
      have e : ((gf.thread u).rest).st = ((g2.thread u).rest).st := by rw [hM.threads]
      have e' : (g2.thread u).st = (w.g.thread u).st := by unfold Group.thread; rw [hb.th]
      exact e.trans e'
    unfold Sw.codeAfter Thread.pc
    rw [h1, h2]
    simp
  · rw [hpd] at hp; exact hp

/-! ### What the folds come to -/

theorem doers_plain {w : Sw} (hu : w.e.u = false) : w.doers = w.todo.filter w.on := by simp [Sw.doers, hu]

theorem acts_iff {w : Sw} (hu : w.e.u = false) (u : Nat) : w.acts u = true ↔ u ∈ w.todo.filter w.on := by
  simp [Sw.acts, doers_plain hu, List.mem_filter]

theorem doers_uniform {w : Sw} (hu : w.e.u = true) : w.doers = w.todo.head?.toList.filter w.on := by
  unfold Sw.doers; rw [if_pos hu]; cases w.todo <;> rfl

theorem fold_results (w : Sw) (val : Nat → W64) (fl : Nat → Flags) (R : Regs) (hu : w.e.u = false)
    (U : Nat → Regs → Regs)
    (hU : ∀ t R, U t R = if isWide w.f.wd w.e.ty w.e.imm then
        (R.setV t w.e.d.toNat ((val t).setWidth 32)).setV t (w.e.d.toNat + 1) ((val t).extractLsb' 32 32)
      else R.setV t w.e.d.toNat ((val t).setWidth 32)) :
    foldRegs w U fl R = Regs.raise w.acts fl (Regs.results w val R) := by
  have key : ∀ (ts : List Nat) (R : Regs), ts.foldl (fun R t => (U t R).orF t (fl t)) R =
      { R with
        v := fun u r => if u ∈ ts then
            if r = w.e.d.toNat + 1 ∧ isWide w.f.wd w.e.ty w.e.imm = true then (val u).extractLsb' 32 32
            else if r = w.e.d.toNat then (val u).setWidth 32 else R.v u r
          else R.v u r
        fpst := fun u => if u ∈ ts then R.fpst u ||| (fl u).setWidth 32 else R.fpst u } := by
    intro ts
    induction ts with
    | nil => intro R; simp
    | cons t ts ih =>
      intro R
      rw [List.foldl_cons, ih]
      refine Regs.ext' (fun u r => ?_) (fun u q => ?_) (fun u q => ?_) (fun q => ?_) (fun q => ?_) (fun q => ?_) (fun u => ?_) (fun u => ?_) ?_ ?_
      · simp only [hU, Regs.orF, List.mem_cons]
        by_cases hw : isWide w.f.wd w.e.ty w.e.imm = true
        · simp only [hw, if_true, and_true, Regs.setV]
          by_cases h1 : u ∈ ts <;> by_cases h2 : u = t <;> by_cases h3 : r = w.e.d.toNat + 1 <;> by_cases h4 : r = w.e.d.toNat <;> simp [h1, h2, h3, h4] <;> (try subst h2; try simp_all) <;> omega
        · simp only [hw, Regs.setV]
          by_cases h1 : u ∈ ts <;> by_cases h2 : u = t <;> by_cases h4 : r = w.e.d.toNat <;> simp [h1, h2, h4] <;> (subst h2; simp_all)
      all_goals (try (simp only [hU, Regs.orF]; split <;> rfl))
      simp only [Regs.orF, List.mem_cons]
      have hf : (U t R).fpst = R.fpst := by rw [hU]; split <;> rfl
      rw [hf]
      by_cases h1 : u ∈ ts <;> by_cases h2 : u = t <;> simp [h1, h2]
      · subst h2; simp [h1, BitVec.or_assoc]
      · subst h2; simp [h1]
  unfold foldRegs
  rw [key]
  refine Regs.ext' (fun u r => ?_) (fun _ _ => rfl) (fun _ _ => rfl) (fun _ => rfl) (fun _ => rfl) (fun _ => rfl) (fun u => ?_) (fun _ => rfl) rfl rfl <;>
    simp only [Regs.raise, Regs.results, acts_iff hu]

end Sys2Proof.Machine
end

