-- ==== Sys2Proof/Laws/Computes.lean ====
section
/-! SUPPORT. What the shapes of register-only instructions come to: results by thread or for the group, predicates,
capabilities and pending results. -/

namespace Sys2Proof.Machine

/-! ### The folds over the threads that act -/

theorem uniformRegs_doers {w : Sw} (hu : w.e.u = true) (U : Nat → Regs → Regs) (fl : Nat → Flags) (R : Regs) :
    uniformRegs w U fl R = match w.doers.head? with
      | some t => Regs.raise (fun u => w.all.contains u) (fun _ => fl t) (U t R)
      | none => R := by
  rw [doers_uniform hu]
  unfold uniformRegs
  cases w.todo with
  | nil => rfl
  | cons t ts => cases h : w.on t <;> simp [h]

theorem fold_outcomes {w : Sw} (hu : w.e.u = false) (val : Nat → Bool) (fl : Nat → Flags) (R : Regs) :
    foldRegs w (fun t R => R.setP t w.e.d.toNat (val t)) fl R = Regs.raise w.acts fl (Regs.outcomes w val R) := by
  have key : ∀ (ts : List Nat) (R : Regs), ts.foldl (fun R t => (R.setP t w.e.d.toNat (val t)).orF t (fl t)) R =
      { R with
        p := fun u n => if u ∈ ts ∧ n = w.e.d.toNat ∧ n < 7 then val u else R.p u n
        fpst := fun u => if u ∈ ts then R.fpst u ||| (fl u).setWidth 32 else R.fpst u } := by
    intro ts
    induction ts with
    | nil => intro R; simp
    | cons t ts ih =>
      intro R
      rw [List.foldl_cons, ih]
      refine Regs.ext' (fun _ _ => rfl) (fun u q => ?_) (fun _ _ => rfl) (fun _ => rfl) (fun _ => rfl) (fun _ => rfl) (fun u => ?_) (fun _ => rfl) rfl rfl
      · simp only [Regs.orF, Regs.setP, List.mem_cons]
        by_cases h1 : u ∈ ts <;> by_cases h2 : u = t <;> by_cases h3 : q = w.e.d.toNat <;> by_cases h4 : q < 7 <;> simp [h1, h2, h3, h4] <;> (try subst h2) <;> (try subst h3) <;> simp_all
      · simp only [Regs.orF, Regs.setP, List.mem_cons]
        by_cases h1 : u ∈ ts <;> by_cases h2 : u = t <;> simp [h1, h2]
        · subst h2; simp [h1, BitVec.or_assoc]
        · subst h2; simp [h1]
  unfold foldRegs
  rw [key]
  refine Regs.ext' (fun _ _ => rfl) (fun u q => ?_) (fun _ _ => rfl) (fun _ => rfl) (fun _ => rfl) (fun _ => rfl) (fun u => ?_) (fun _ => rfl) rfl rfl <;>
    simp only [Regs.raise, Regs.outcomes, acts_iff hu]

theorem fold_caps {w : Sw} (hu : w.e.u = false) (val : Nat → Cap) (R : Regs) :
    foldRegs w (fun t R => R.setC t w.e.d.toNat (val t)) (fun _ => 0) R = Regs.caps w val R := by
  have key : ∀ (ts : List Nat) (R : Regs), ts.foldl (fun R t => (R.setC t w.e.d.toNat (val t)).orF t 0) R =
      { R with
        c := fun u r => if u ∈ ts ∧ r = w.e.d.toNat ∧ r < 32 then val u else R.c u r
        gc := fun r => if r + 32 = w.e.d.toNat then (match ts.getLast? with | some u => val u | none => R.gc r) else R.gc r } := by
    intro ts
    induction ts with
    | nil => intro R; simp
    | cons t ts ih =>
      intro R
      rw [List.foldl_cons, ih, Regs.orF_zero]
      refine Regs.ext' (fun u r => ?_) (fun u q => ?_) (fun u q => ?_) (fun q => ?_) (fun q => ?_) (fun q => ?_) (fun u => ?_) (fun u => ?_) ?_ ?_
      all_goals (try (simp only [Regs.setC]; split <;> rfl))
      · by_cases h : w.e.d.toNat < 32
        · simp only [Regs.setC, h, if_true, List.mem_cons]
          by_cases h1 : u ∈ ts <;> by_cases h2 : u = t <;> by_cases h3 : q = w.e.d.toNat <;> simp [h1, h2, h3, h]
        · simp only [Regs.setC, h, if_false]
          rw [if_neg (by omega), if_neg (by omega)]
      · by_cases h : w.e.d.toNat < 32
        · simp only [Regs.setC, h, if_true]
          rw [if_neg (by omega), if_neg (by omega)]
        · simp only [Regs.setC, h, if_false]
          by_cases h3 : q + 32 = w.e.d.toNat
          · rw [if_pos h3, if_pos h3]
            cases ts with
            | nil => simp; omega
            | cons a l => rw [List.getLast?_cons_cons]; simp [List.getLast?_cons]
          · rw [if_neg h3, if_neg h3]; simp; omega
  unfold foldRegs
  rw [key]
  refine Regs.ext' (fun _ _ => rfl) (fun u q => rfl) (fun u q => ?_) (fun _ => rfl) (fun q => ?_) (fun _ => rfl) (fun u => rfl) (fun _ => rfl) rfl rfl
  · simp only [Regs.caps, acts_iff hu]
  · simp only [Regs.caps, doers_plain hu]; try rfl

theorem fold_flags {w : Sw} (hu : w.e.u = false) (fl : Nat → Flags) (R : Regs) :
    foldRegs w (fun _ R => R) fl R = Regs.raise w.acts fl R := by
  have key : ∀ (ts : List Nat) (R : Regs), ts.foldl (fun R t => R.orF t (fl t)) R =
      { R with fpst := fun u => if u ∈ ts then R.fpst u ||| (fl u).setWidth 32 else R.fpst u } := by
    intro ts
    induction ts with
    | nil => intro R; simp
    | cons t ts ih =>
      intro R
      rw [List.foldl_cons, ih]
      refine Regs.ext' (fun _ _ => rfl) (fun _ _ => rfl) (fun _ _ => rfl) (fun _ => rfl) (fun _ => rfl) (fun _ => rfl) (fun u => ?_) (fun _ => rfl) rfl rfl
      simp only [Regs.orF, List.mem_cons]
      by_cases h1 : u ∈ ts <;> by_cases h2 : u = t <;> simp [h1, h2]
      · subst h2; simp [h1, BitVec.or_assoc]
      · subst h2; simp [h1]
  unfold foldRegs
  rw [key]
  refine Regs.ext' (fun _ _ => rfl) (fun _ _ => rfl) (fun _ _ => rfl) (fun _ => rfl) (fun _ => rfl) (fun _ => rfl) (fun u => ?_) (fun _ => rfl) rfl rfl
  simp only [Regs.raise, acts_iff hu]

theorem Regs.raise_zero (ts : Nat → Bool) (R : Regs) : Regs.raise ts (fun _ => 0) R = R := by
  refine Regs.ext' (fun _ _ => rfl) (fun _ _ => rfl) (fun _ _ => rfl) (fun _ => rfl) (fun _ => rfl) (fun _ => rfl) (fun u => ?_) (fun _ => rfl) rfl rfl
  simp [Regs.raise]

/-! ### Sweeps by shape -/

/-- Nothing of its own waits after a sweep that writes at once and binds no flag. -/
theorem own_none {i : Instr} {s : State} {w : Sw} (h : Ready i s w) (hll : w.f.ll = false) (ldw : Bool) :
    w.own ldw [] = [] := by
  unfold Sw.own; rw [if_pos ⟨rfl, Or.inl (h.unbound hll)⟩]

theorem ready_form {i : Instr} {s : State} {w : Sw} (h : Ready i s w) : formOf i = some (w.f, w.e) := by
  obtain ⟨g, f, e, _, hf, hw, _⟩ := sweepNow_some h.now
  subst hw; simpa using hf

theorem form_ll {i : Instr} {s : State} {w : Sw} (h : Ready i s w) (b : Bool) (hf : ∀ f e, formOf i = some (f, e) → f.ll = b) :
    w.f.ll = b := hf _ _ (ready_form h)

theorem todo_doers {w : Sw} {t : Nat} (h : t ∈ w.doers) : t ∈ w.todo ∧ w.on t = true := by
  unfold Sw.doers at h
  obtain ⟨h1, h2⟩ := List.mem_filter.mp h
  refine ⟨?_, h2⟩
  split at h1
  · exact List.mem_of_mem_take h1
  · exact h1

/-- A sweep whose threads each apply one register update and merge flags at once; U = 0. -/
theorem sweepG_plain {i : Instr} {s : State} {w : Sw} {f : Sw → Group → Tab W64 → Nat → Except Stop One}
    (h : Ready i s w) (hu : w.e.u = false) (hll : w.f.ll = false) (hex : exec i s = sweepG i s f)
    (up : Nat → Group → Group) (fl : Nat → Flags) (U : Nat → Regs → Regs)
    (hok : ∀ t ∈ w.doers, ∀ g d, f w g d t = .ok ⟨up t g, fl t, [], d⟩)
    (hm : ∀ t g, Mild g (up t g)) (hU : ∀ t g, g.trap = w.g.trap → (up t g).regs = U t g.regs) (hq : Quiet w fl) :
    Completes i s w (Regs.freed w (foldRegs w U fl w.g.regs)) := by
  have hd : ∀ t ∈ w.todo, w.on t = true → t ∈ w.doers := fun t h1 h2 => by
    rw [doers_plain hu]; exact List.mem_filter.mpr ⟨h1, h2⟩
  obtain ⟨t, g', e1, e2, e3, e4, e5, e6, e7, e8⟩ := sweepG_ran h hu up fl (fun _ => []) U
    (fun t h1 h2 g d => hok t (hd t h1 h2) g d) hm hU (fun t h1 h2 => hq t (hd t h1 h2)) (by simp)
  refine ⟨t, g', hex.trans e1, e2, e3, e4, e5, e6, e7, ?_⟩
  have e9 : ((w.todo.filter w.on).flatMap fun _ => ([] : List PWrite)) = [] := by simp
  rw [e9, own_none h hll] at e8
  exact e8

/-- The same with U = 1: one update for the group, its flags to every active thread. -/
theorem sweepG_once {i : Instr} {s : State} {w : Sw} {f : Sw → Group → Tab W64 → Nat → Except Stop One}
    (h : Ready i s w) (hu : w.e.u = true) (hll : w.f.ll = false) (hex : exec i s = sweepG i s f)
    (up : Nat → Group → Group) (fl : Nat → Flags) (U : Nat → Regs → Regs)
    (hok : ∀ t ∈ w.doers, ∀ g d, f w g d t = .ok ⟨up t g, fl t, [], d⟩)
    (hm : ∀ t g, Mild g (up t g)) (hU : ∀ t g, g.trap = w.g.trap → (up t g).regs = U t g.regs)
    (hq : Quiet w fl) :
    Completes i s w (Regs.freed w (uniformRegs w U fl w.g.regs)) := by
  have hd : ∀ t, w.todo.head? = some t → w.on t = true → t ∈ w.doers := fun t h1 h2 => by
    rw [doers_uniform hu, h1]; simp [h2]
  obtain ⟨t, g', e1, e2, e3, e4, e5, e6, e7, e8⟩ := sweepG_ran_uniform h hu up fl (fun _ => []) U
    (fun t h1 h2 => hok t (hd t h1 h2)) hm hU (fun t h1 h2 => hq t (hd t h1 h2)) (by simp)
  refine ⟨t, g', hex.trans e1, e2, e3, e4, e5, e6, e7, ?_⟩
  have e9 : ((w.todo.head?.toList.filter w.on).flatMap fun _ => ([] : List PWrite)) = [] := by simp
  rw [e9, own_none h hll] at e8
  exact e8

/-- Results of role v, at once. -/
theorem completes_value {i : Instr} {s : State} {w : Sw} {f : Sw → Group → Tab W64 → Nat → Except Stop One}
    (h : Ready i s w) (hll : w.f.ll = false) (hex : exec i s = sweepG i s f) (val : Nat → W64) (fl : Nat → Flags)
    (hok : ∀ t ∈ w.doers, ∀ g d, f w g d t = .ok ⟨w.writeD g t (val t), fl t, [], d⟩) (hq : Quiet w fl) :
    Completes i s w (Regs.freed w (Regs.computed w val fl w.g.regs)) := by
  cases hu : w.e.u
  · have := sweepG_plain h hu hll hex (fun t g => w.writeD g t (val t)) fl
      (fun t R => if isWide w.f.wd w.e.ty w.e.imm then
        (R.setV t w.e.d.toNat ((val t).setWidth 32)).setV t (w.e.d.toNat + 1) ((val t).extractLsb' 32 32)
      else R.setV t w.e.d.toNat ((val t).setWidth 32)) hok (fun t g => mild_writeD w g t _)
      (fun t g hg => by simp only [Sw.writeD, hu]; exact regs_writeV g t _ _ _) hq
    rw [fold_results w val fl w.g.regs hu _ (fun _ _ => rfl)] at this
    unfold Regs.computed Regs.flagged
    simpa [hu] using this
  · have := sweepG_once h hu hll hex (fun t g => w.writeD g t (val t)) fl (fun t R => R.setG w.e.d.toNat (val t))
      hok (fun t g => mild_writeD w g t _)
      (fun t g hg => by simp only [Sw.writeD, hu, if_true]; exact regs_writeG g _ _) hq
    rw [uniformRegs_doers hu] at this
    unfold Regs.computed Regs.flagged
    simp only [hu, if_true]
    cases hh : w.doers.head? with
    | none => rw [hh] at this; exact this
    | some t => rw [hh] at this; exact this

/-- Outcomes of role p, at once. -/
theorem completes_outcome {i : Instr} {s : State} {w : Sw} {f : Sw → Group → Tab W64 → Nat → Except Stop One}
    (h : Ready i s w) (hu : w.e.u = false) (hll : w.f.ll = false) (hex : exec i s = sweepG i s f) (val : Nat → Bool)
    (fl : Nat → Flags) (hok : ∀ t ∈ w.doers, ∀ g d, f w g d t = .ok ⟨writeP g t w.e.d.toNat (val t), fl t, [], d⟩)
    (hq : Quiet w fl) :
    Completes i s w (Regs.freed w (Regs.raise w.acts fl (Regs.outcomes w val w.g.regs))) := by
  have := sweepG_plain h hu hll hex (fun t g => writeP g t w.e.d.toNat (val t)) fl
      (fun t R => R.setP t w.e.d.toNat (val t)) hok (fun t g => mild_writeP g t _ _) (fun t g _ => regs_writeP g t _ _) hq
  rwa [fold_outcomes hu] at this

/-- Derived capabilities, at once; C[D] names a group register under U = 1 (R112). -/
theorem completes_cap {i : Instr} {s : State} {w : Sw} {f : Sw → Group → Tab W64 → Nat → Except Stop One}
    (h : Ready i s w) (hd : w.e.u = true → 32 ≤ w.e.d.toNat) (hll : w.f.ll = false) (hex : exec i s = sweepG i s f)
    (val : Nat → Cap) (hok : ∀ t ∈ w.doers, ∀ g d, f w g d t = .ok ⟨w.writeCD g t (val t), 0, [], d⟩) :
    Completes i s w (Regs.freed w (Regs.caps w val w.g.regs)) := by
  have hq : Quiet w (fun _ => 0) := fun _ _ => BitVec.zero_and
  cases hu : w.e.u
  · have := sweepG_plain h hu hll hex (fun t g => w.writeCD g t (val t)) (fun _ => 0)
      (fun t R => R.setC t w.e.d.toNat (val t)) hok (fun t g => mild_writeC g t _ _) (fun t g _ => regs_writeC g t _ _) hq
    rwa [fold_caps hu] at this
  · have h32 := hd hu
    have := sweepG_once h hu hll hex (fun t g => w.writeCD g t (val t)) (fun _ => 0)
      (fun t R => R.setC t w.e.d.toNat (val t)) hok (fun t g => mild_writeC g t _ _) (fun t g _ => regs_writeC g t _ _) hq
    rw [uniformRegs_doers hu] at this
    have e : Regs.caps w val w.g.regs = (match w.doers.head? with
      | some t => Regs.raise (fun u => w.all.contains u) (fun _ => 0) (w.g.regs.setC t w.e.d.toNat (val t))
      | none => w.g.regs) := by
      have hl : w.doers.getLast? = w.doers.head? := by
        rw [doers_uniform hu]
        cases w.todo with
        | nil => rfl
        | cons t ts => cases ho : w.on t <;> simp [ho]
      refine Eq.trans (b := match w.doers.head? with
        | some t => w.g.regs.setC t w.e.d.toNat (val t) | none => w.g.regs) ?_ ?_
      · unfold Regs.caps
        rw [hl]
        cases w.doers.head? with
        | none =>
          refine Regs.ext' (fun _ _ => rfl) (fun _ _ => rfl) (fun u q => ?_) (fun _ => rfl) (fun q => ?_) (fun _ => rfl) (fun u => rfl) (fun _ => rfl) rfl rfl
          · exact if_neg (by omega)
          · simp
        | some t =>
          have e' : w.g.regs.setC t w.e.d.toNat (val t) =
              { w.g.regs with gc := fun q => if q = w.e.d.toNat - 32 then val t else w.g.regs.gc q } := if_neg (by omega)
          simp only [e']
          refine Regs.ext' (fun _ _ => rfl) (fun _ _ => rfl) (fun u q => ?_) (fun _ => rfl) (fun q => ?_) (fun _ => rfl) (fun u => rfl) (fun _ => rfl) rfl rfl
          · exact if_neg (by omega)
          · by_cases hq : q + 32 = w.e.d.toNat
            · exact (if_pos hq).trans (if_pos (by omega)).symm
            · exact (if_neg hq).trans (if_neg (by omega)).symm
      · cases w.doers.head? with
        | none => rfl
        | some t => exact (Regs.raise_zero _ _).symm
    rw [e]; exact this

/-- Pending results of role v. -/
theorem promises_value {i : Instr} {s : State} {w : Sw} {f : Sw → Group → Tab W64 → Nat → Except Stop One}
    (h : Ready i s w) (hex : exec i s = sweepG i s f) (hd : w.e.u = false → ∀ t x, ∀ y ∈ w.later t x, ∀ q, ofReg q y = true → q ∈ w.dests)
    (val : Nat → W64) (fl : Nat → Flags)
    (hok : ∀ t ∈ w.doers, ∀ g d, f w g d t = .ok ⟨w.supersede g t, fl t, w.later t (val t), d⟩) (hq : Quiet w fl) :
    ∃ t g', Ran i s w (Regs.freed w (Regs.flagged w fl w.g.regs))
      (w.own false (w.doers.flatMap (fun t => w.later t (val t)))) t g' := by
  cases hu : w.e.u
  · have hdo : ∀ t ∈ w.todo, w.on t = true → t ∈ w.doers := fun t h1 h2 => by
      rw [doers_plain hu]; exact List.mem_filter.mpr ⟨h1, h2⟩
    obtain ⟨t, g', e1, e2, e3, e4, e5, e6, e7, e8⟩ := sweepG_ran h hu (fun t g => w.supersede g t) fl
      (fun t => w.later t (val t)) (fun _ R => R) (fun t h1 h2 g d => hok t (hdo t h1 h2) g d)
      (fun t g => mild_supersede w g t) (fun _ _ _ => rfl) (fun t h1 h2 => hq t (hdo t h1 h2))
      (fun t _ y hy => hd hu t _ y hy)
    rw [← doers_plain hu] at e8
    refine ⟨t, g', hex.trans e1, e2, e3, ?_, e5, e6, e7, e8⟩
    rw [e4, fold_flags hu]; unfold Regs.flagged; simp [hu]
  · have hdo : ∀ t, w.todo.head? = some t → w.on t = true → t ∈ w.doers := fun t h1 h2 => by
      rw [doers_uniform hu, h1]; simp [h2]
    obtain ⟨t, g', e1, e2, e3, e4, e5, e6, e7, e8⟩ := sweepG_ran_uniform h hu (fun t g => w.supersede g t) fl
      (fun t => w.later t (val t)) (fun _ R => R) (fun t h1 h2 => hok t (hdo t h1 h2))
      (fun t g => mild_supersede w g t) (fun _ _ _ => rfl) (fun t h1 h2 => hq t (hdo t h1 h2))
      (fun t _ y hy q hq => by
        unfold Sw.later at hy
        rw [if_pos hu, List.mem_singleton] at hy
        subst hy; simp [ofReg] at hq)
    rw [← doers_uniform hu] at e8
    refine ⟨t, g', hex.trans e1, e2, e3, ?_, e5, e6, e7, e8⟩
    rw [e4, uniformRegs_doers hu]; unfold Regs.flagged; simp only [hu, if_true]; try rfl

end Sys2Proof.Machine
end

