-- ==== Sys2Proof/Laws/Memory.lean ====
section
/-! SUPPORT. What the operations over memory do: a read after a write, tags and error marks after a write, and that each
operation keeps the canonical form. -/

namespace Sys2Proof

namespace KeySet

/-- The sorted form says that members rise strictly. -/
theorem wf_iff (l : KeySet) : Machine.KeySet.wf l = true ↔ l.Pairwise (· < ·) := by
  induction l with
  | nil => simp [Machine.KeySet.wf]
  | cons a l ih =>
    cases l with
    | nil => simp [Machine.KeySet.wf]
    | cons b l =>
      simp only [Machine.KeySet.wf, Bool.and_eq_true, decide_eq_true_eq, ih, List.pairwise_cons, List.mem_cons, forall_eq_or_imp]
      constructor
      · rintro ⟨h, h1, h2⟩
        exact ⟨⟨h, fun c hc => lt_trans h (h1 c hc)⟩, h1, h2⟩
      · rintro ⟨⟨h, -⟩, h1, h2⟩
        exact ⟨h, h1, h2⟩

theorem wf_filter {l : KeySet} (p : Nat → Bool) (h : Machine.KeySet.wf l = true) : Machine.KeySet.wf (l.filter p) = true :=
  (wf_iff _).2 (((wf_iff _).1 h).filter p)

theorem wf_ins {l : KeySet} (k : Nat) (h : Machine.KeySet.wf l = true) : Machine.KeySet.wf (ins l k) = true := by
  rw [wf_iff] at h ⊢
  induction l with
  | nil => simp [ins]
  | cons a l ih =>
    rw [List.pairwise_cons] at h
    simp only [ins]
    split
    · refine List.pairwise_cons.2 ⟨fun c hc => ?_, List.pairwise_cons.2 h⟩
      rcases List.mem_cons.1 hc with rfl | hc
      · assumption
      · exact lt_trans ‹_› (h.1 c hc)
    · split
      · exact List.pairwise_cons.2 h
      · refine List.pairwise_cons.2 ⟨fun c hc => ?_, ih h.2⟩
        rcases (mem_ins l k c).1 hc with rfl | hc
        · omega
        · exact h.1 c hc

theorem wf_del {l : KeySet} (k : Nat) (h : Machine.KeySet.wf l = true) : Machine.KeySet.wf (del l k) = true := by
  rw [wf_iff] at h ⊢
  induction l with
  | nil => simp [del]
  | cons a l ih =>
    rw [List.pairwise_cons] at h
    simp only [del]
    split
    · exact ih h.2
    · exact List.pairwise_cons.2 ⟨fun c hc => h.1 c ((mem_del l k c).1 hc).2, ih h.2⟩

theorem wf_foldl_ins {α : Type} (f : α → Nat) (xs : List α) {l : KeySet} (h : Machine.KeySet.wf l = true) :
    Machine.KeySet.wf (xs.foldl (fun l x => ins l (f x)) l) = true := by
  induction xs generalizing l with
  | nil => exact h
  | cons x xs ih => exact ih (wf_ins _ h)

end KeySet

namespace Machine

/-! ### Tags and error marks -/

theorem has_clearTags (ts : KeySet) (k n j : Nat) :
    KeySet.has (clearTags ts k n) j = (!decide (k ≤ j ∧ j < k + n) && KeySet.has ts j) := by
  induction n generalizing ts k with
  | zero => simp [clearTags]; omega
  | succ n ih =>
    rw [clearTags, ih, KeySet.has_del]
    rw [Bool.eq_iff_iff]; simp only [Bool.and_eq_true, Bool.not_eq_true', decide_eq_false_iff_not]
    constructor
    · rintro ⟨h1, h2, h3⟩; exact ⟨by omega, h3⟩
    · rintro ⟨h1, h2⟩; exact ⟨by omega, by omega, h2⟩

theorem wf_clearTags {ts : KeySet} (k n : Nat) (h : KeySet.wf ts = true) : KeySet.wf (clearTags ts k n) = true := by
  induction n generalizing ts k with
  | zero => exact h
  | succ n ih => exact ih _ (KeySet.wf_del _ h)

theorem wf_clearErrs {es : KeySet} (a len k n : Nat) (h : KeySet.wf es = true) : KeySet.wf (clearErrs es a len k n) = true := by
  induction n generalizing es k with
  | zero => exact h
  | succ n ih =>
    simp only [clearErrs]
    split
    · exact ih _ (KeySet.wf_del _ h)
    · exact ih _ h

/-- Clearing marks sets none. -/
theorem mem_clearErrs {es : KeySet} {a len k n j : Nat} (h : j ∈ clearErrs es a len k n) : j ∈ es := by
  induction n generalizing es k with
  | zero => exact h
  | succ n ih =>
    simp only [clearErrs] at h
    split at h
    · exact ((KeySet.mem_del _ _ _).1 (ih h)).2
    · exact ih h

/-! ### Reads after writes -/

@[simp] theorem Memory.read_put (m : Memory) (a b : Nat) (x : Byte) :
    (m.put a x).read b = if b = a then x else m.read b := Tab.lookD_cput _ _ _ _ _

@[simp] theorem Memory.put_tags (m : Memory) (a : Nat) (x : Byte) : (m.put a x).tags = m.tags := rfl
@[simp] theorem Memory.put_errs (m : Memory) (a : Nat) (x : Byte) : (m.put a x).errs = m.errs := rfl

@[simp] theorem Memory.putAll_tags (m : Memory) (a : Nat) (bs : List Byte) : (m.putAll a bs).tags = m.tags := by
  induction bs generalizing m a with
  | nil => rfl
  | cons b bs ih => simp [Memory.putAll, ih]

@[simp] theorem Memory.putAll_errs (m : Memory) (a : Nat) (bs : List Byte) : (m.putAll a bs).errs = m.errs := by
  induction bs generalizing m a with
  | nil => rfl
  | cons b bs ih => simp [Memory.putAll, ih]

theorem Memory.read_putAll (m : Memory) (a b : Nat) (bs : List Byte) :
    (m.putAll a bs).read b = if a ≤ b ∧ b < a + bs.length then bs.getD (b - a) 0 else m.read b := by
  induction bs generalizing m a with
  | nil => simp [Memory.putAll]
  | cons x bs ih =>
    rw [Memory.putAll, ih, Memory.read_put, List.length_cons]
    by_cases h : a = b
    · subst h; rw [if_neg (by omega), if_pos rfl, if_pos (by omega)]; simp
    · by_cases h2 : a + 1 ≤ b ∧ b < a + 1 + bs.length
      · rw [if_pos h2, if_pos (by omega), show b - a = (b - (a + 1)) + 1 by omega]; simp
      · rw [if_neg h2, if_neg (by omega), if_neg (by omega)]

@[simp] theorem Memory.write_cells (m : Memory) (a : Nat) (bs : List Byte) : (m.write a bs).cells = (m.putAll a bs).cells := by
  unfold Memory.write; dsimp only; split <;> rfl

/-- Every byte after a write: those written, the others as they were. -/
theorem Memory.read_write (m : Memory) (a b : Nat) (bs : List Byte) :
    (m.write a bs).read b = if a ≤ b ∧ b < a + bs.length then bs.getD (b - a) 0 else m.read b := by
  rw [← Memory.read_putAll]; simp [Memory.read]

@[simp] theorem Memory.writeCap_cells (m : Memory) (a : Nat) (bs : List Byte) (tag : Bool) :
    (m.writeCap a bs tag).cells = (m.write a bs).cells := by
  unfold Memory.writeCap; dsimp only; split <;> rfl

theorem Memory.read_writeCap (m : Memory) (a b : Nat) (bs : List Byte) (tag : Bool) :
    (m.writeCap a bs tag).read b = if a ≤ b ∧ b < a + bs.length then bs.getD (b - a) 0 else m.read b := by
  rw [← Memory.read_write]; simp [Memory.read]

theorem Memory.bytes_congr {m m' : Memory} {a n : Nat} (h : ∀ b, a ≤ b → b < a + n → m.read b = m'.read b) :
    m.bytes a n = m'.bytes a n := by
  induction n generalizing a with
  | zero => rfl
  | succ n ih =>
    simp only [Memory.bytes]
    rw [h a (by omega) (by omega), ih (fun b h1 h2 => h b (by omega) (by omega))]

/-- What was written is what is read back. -/
theorem Memory.bytes_write (m : Memory) (a : Nat) (bs : List Byte) : (m.write a bs).bytes a bs.length = bs := by
  have aux : ∀ (bs : List Byte) (m : Memory) (a : Nat), (m.putAll a bs).bytes a bs.length = bs := by
    intro bs
    induction bs with
    | nil => intros; rfl
    | cons b bs ih =>
      intro m a
      rw [List.length_cons, Memory.bytes, Memory.read_putAll, if_pos (by simp), Nat.sub_self]
      refine congrArg₂ List.cons (by simp) ((Memory.bytes_congr (fun c h1 h2 => ?_)).trans (ih m (a + 1)))
      rw [Memory.read_putAll, Memory.read_putAll, if_pos (by simp at *; omega), if_pos (by simp at *; omega),
        show c - a = (c - (a + 1)) + 1 by omega]
      simp
  rw [Memory.bytes_congr (m' := m.putAll a bs) (fun c _ _ => by simp [Memory.read])]
  exact aux bs m a

/-- A data write clears the tags of the granules it touches, and no other (R96). -/
theorem Memory.tag_write (m : Memory) (a b : Nat) (bs : List Byte) :
    (m.write a bs).tag b =
      (!decide (bs ≠ [] ∧ a / 16 ≤ b / 16 ∧ b / 16 ≤ (a + bs.length - 1) / 16) && m.tag b) := by
  unfold Memory.write Memory.tag
  by_cases h : bs = []
  · subst h; simp [Memory.putAll]
  · have hl : bs.length ≠ 0 := by simpa using h
    have hd : a / 16 ≤ (a + bs.length - 1) / 16 := Nat.div_le_div_right (by omega)
    simp only [hl, ↓reduceIte, has_clearTags, Memory.putAll_tags, ne_eq, h, not_false_eq_true, true_and]
    congr 2
    rw [decide_eq_decide]
    omega

/-- A capability write leaves its granule with the tag given (R96, R99). -/
theorem Memory.tag_writeCap (m : Memory) (a b : Nat) (bs : List Byte) (tag : Bool) :
    (m.writeCap a bs tag).tag b = (tag && decide (b / 16 = a / 16) || (m.write a bs).tag b) := by
  unfold Memory.writeCap Memory.tag
  cases tag
  · simp
  · simp [KeySet.has_ins]

/-! ### The canonical form -/

/-- No cell is listed at the blank value. -/
def fullCells (t : Tab Byte) : Bool := t.all (fun c => c.2 != Memory.blank)

theorem Memory.wf_iff (m : Memory) : m.wf = true ↔
    Tab.wf m.cells = true ∧ fullCells m.cells = true ∧ KeySet.wf m.tags = true ∧ KeySet.wf m.errs = true := by
  simp only [Memory.wf, fullCells, Bool.and_eq_true]; tauto

theorem fullCells_put {t : Tab Byte} {k : Nat} {x : Byte} (h : fullCells t = true) (hx : x ≠ Memory.blank) :
    fullCells (Tab.put t k x) = true := by
  induction t with
  | nil => simp [Tab.put, fullCells, hx]
  | cons p t ih =>
    obtain ⟨j, w⟩ := p
    simp only [fullCells, List.all_cons, Bool.and_eq_true] at h ih ⊢
    simp only [Tab.put]
    split
    · simpa [hx] using h
    · split
      · simpa [hx] using h.2
      · simp only [List.all_cons, Bool.and_eq_true]; exact ⟨h.1, ih h.2⟩

theorem fullCells_rem {t : Tab Byte} {k : Nat} (h : fullCells t = true) : fullCells (Tab.rem t k) = true := by
  induction t with
  | nil => rfl
  | cons p t ih =>
    obtain ⟨j, w⟩ := p
    simp only [fullCells, List.all_cons, Bool.and_eq_true] at h ih
    simp only [Tab.rem]
    split
    · exact ih h.2
    · simp only [fullCells, List.all_cons, Bool.and_eq_true]; exact ⟨h.1, ih h.2⟩

theorem fullCells_filter {t : Tab Byte} (p : Nat × Byte → Bool) (h : fullCells t = true) : fullCells (t.filter p) = true := by
  simp only [fullCells, List.all_eq_true, List.mem_filter] at h ⊢
  exact fun x hx => h x hx.1

theorem Memory.wf_put {m : Memory} (a : Nat) (x : Byte) (h : m.wf = true) : (m.put a x).wf = true := by
  rw [Memory.wf_iff] at h ⊢
  refine ⟨Tab.wf_cput h.1, ?_, h.2.2⟩
  simp only [Memory.put, Tab.cput]
  split
  · exact fullCells_rem h.2.1
  · exact fullCells_put h.2.1 ‹_›

theorem Memory.wf_putAll {m : Memory} (a : Nat) (bs : List Byte) (h : m.wf = true) : (m.putAll a bs).wf = true := by
  induction bs generalizing m a with
  | nil => exact h
  | cons b bs ih => exact ih _ (Memory.wf_put a b h)

theorem Memory.wf_write {m : Memory} (a : Nat) (bs : List Byte) (h : m.wf = true) : (m.write a bs).wf = true := by
  have hp := Memory.wf_putAll a bs h
  unfold Memory.write
  dsimp only
  split
  · exact hp
  · rw [Memory.wf_iff] at hp ⊢
    exact ⟨hp.1, hp.2.1, wf_clearTags _ _ hp.2.2.1, wf_clearErrs _ _ _ _ hp.2.2.2⟩

theorem Memory.wf_tags {m : Memory} {ts : KeySet} (h : m.wf = true) (ht : KeySet.wf ts = true) : ({ m with tags := ts } : Memory).wf = true := by
  rw [Memory.wf_iff] at h ⊢; exact ⟨h.1, h.2.1, ht, h.2.2.2⟩

theorem Memory.wf_errs {m : Memory} {es : KeySet} (h : m.wf = true) (he : KeySet.wf es = true) : ({ m with errs := es } : Memory).wf = true := by
  rw [Memory.wf_iff] at h ⊢; exact ⟨h.1, h.2.1, h.2.2.1, he⟩

theorem Memory.wf_writeCap {m : Memory} (a : Nat) (bs : List Byte) (tag : Bool) (h : m.wf = true) : (m.writeCap a bs tag).wf = true := by
  have hw := Memory.wf_write a bs h
  unfold Memory.writeCap
  dsimp only
  split
  · exact Memory.wf_tags hw (KeySet.wf_ins _ ((Memory.wf_iff _).1 hw).2.2.1)
  · exact hw

theorem Memory.wf_clearRange {m : Memory} (a n : Nat) (h : m.wf = true) : (m.clearRange a n).wf = true := by
  rw [Memory.wf_iff] at h ⊢
  exact ⟨Tab.wf_filter _ h.1, fullCells_filter _ h.2.1, KeySet.wf_filter _ h.2.2.1, KeySet.wf_filter _ h.2.2.2⟩

theorem Tab.look_filter_key {α : Type} (t : Tab α) (p : Nat → Bool) (k : Nat) :
    Tab.look (t.filter (fun c => p c.1)) k = if p k then Tab.look t k else none := by
  induction t with
  | nil => simp [Tab.look]
  | cons q t ih =>
    obtain ⟨j, v⟩ := q
    rw [List.filter_cons]
    by_cases hj : j = k
    · subst hj; split <;> simp_all [Tab.look]
    · split
      · simp only [Tab.look, if_neg hj, ih]
      · simp only [Tab.look, if_neg hj, ih]

/-- A cleared range reads as nothing written. -/
theorem Memory.read_clearRange (m : Memory) (a n b : Nat) :
    (m.clearRange a n).read b = if a ≤ b ∧ b < a + n then Memory.blank else m.read b := by
  unfold Memory.clearRange Memory.read Tab.lookD
  dsimp only
  rw [Tab.look_filter_key m.cells (fun k => !decide (a ≤ k ∧ k < a + n)) b]
  by_cases h : a ≤ b ∧ b < a + n
  · simp [h]
  · simp [h]

theorem wf_putGranules (s : State) (home : Nat) (tagged : Bool) (l : LeaseLine) (n : Nat) {m : Memory} (h : m.wf = true) :
    (putGranules s home tagged l n m).wf = true := by
  induction n generalizing m with
  | zero => exact h
  | succ n ih => exact ih (Memory.wf_writeCap _ _ _ h)

theorem reset_mem_wf : State.reset.mem.wf = true := by decide

end Machine

end Sys2Proof
end

