-- ==== Sys2Proof/Laws/Device.lean ====
section
/-! SUPPORT. What the device's own writes to memory change (R431, R451, R453): memory, the keys it stands under, and the
lender's directory; and that they keep memory's canonical form. -/

namespace Sys2Proof.Machine

/-- From s to t only memory, its keys and the lender's directory have changed. -/
def Wrote (s t : State) : Prop :=
  t = { s with mem := t.mem, sealed := t.sealed, lease := { s.lease with far := t.lease.far } }

theorem Wrote.refl (s : State) : Wrote s s := rfl

theorem Wrote.trans {a b c : State} (h : Wrote a b) (h' : Wrote b c) : Wrote a c := by
  unfold Wrote at *; rw [h', h]

theorem Wrote.groups {s t : State} (h : Wrote s t) : t.groups = s.groups := by rw [h]
theorem Wrote.cores {s t : State} (h : Wrote s t) : t.cores = s.cores := by rw [h]
theorem Wrote.core {s t : State} (h : Wrote s t) (i : Nat) : t.core i = s.core i := by unfold State.core; rw [h.cores]
theorem Wrote.teams {s t : State} (h : Wrote s t) : t.teams = s.teams := by rw [h]
theorem Wrote.time {s t : State} (h : Wrote s t) : t.time = s.time := by rw [h]
theorem Wrote.ctr {s t : State} (h : Wrote s t) : t.ctr = s.ctr := by rw [h]
theorem Wrote.keys {s t : State} (h : Wrote s t) : t.keys = s.keys := by rw [h]
theorem Wrote.sys {s t : State} (h : Wrote s t) : t.sys = s.sys := by rw [h]
theorem Wrote.xlat {s t : State} (h : Wrote s t) : t.xlat = s.xlat := by rw [h]

theorem snoopFor_wrote (s : State) (pa n : Nat) (b : Bool) : Wrote s (snoopFor s pa n b) ∧ (snoopFor s pa n b).mem = s.mem := by
  unfold snoopFor; split <;> exact ⟨rfl, rfl⟩

@[simp] theorem snoopFor_mem (s : State) (pa n : Nat) (b : Bool) : (snoopFor s pa n b).mem = s.mem := (snoopFor_wrote s pa n b).2

/-- To begin to wait for a borrower writes no memory. -/
@[simp] theorem awaitFar_mem (s : State) (pa : Nat) (b : Bool) : (awaitFar s pa b).mem = s.mem := by
  unfold awaitFar; split <;> rfl

theorem sealWith_wrote (s : State) (key pa n : Nat) : Wrote s (sealWith s key pa n) ∧ (sealWith s key pa n).mem = s.mem := by
  unfold sealWith; split <;> exact ⟨rfl, rfl⟩

@[simp] theorem sealWith_mem (s : State) (key pa n : Nat) : (sealWith s key pa n).mem = s.mem := (sealWith_wrote s key pa n).2

/-- A fold of writes is one. -/
theorem foldl_wrote {α : Type} (f : State → α → State) (h : ∀ s x, Wrote s (f s x) ∧ (f s x).mem = s.mem) (l : List α) :
    ∀ s, Wrote s (l.foldl f s) ∧ (l.foldl f s).mem = s.mem := by
  induction l with
  | nil => exact fun s => ⟨rfl, rfl⟩
  | cons x l ih => exact fun s => ⟨(h s x).1.trans (ih _).1, (ih _).2.trans (h s x).2⟩

theorem sealRange_wrote (s : State) (key pa n : Nat) : Wrote s (sealRange s key pa n) ∧ (sealRange s key pa n).mem = s.mem := by
  unfold sealRange
  split
  · refine foldl_wrote _ (fun s i => ?_) _ s
    dsimp only
    split
    · exact ⟨rfl, rfl⟩
    · exact sealWith_wrote _ _ _ _
  · exact sealWith_wrote _ _ _ _

@[simp] theorem sealRange_mem (s : State) (key pa n : Nat) : (sealRange s key pa n).mem = s.mem := (sealRange_wrote s key pa n).2

theorem rawPiece_wrote (s : State) (pa : Nat) (bs : List Byte) : Wrote s (rawPiece s pa bs) := by
  unfold rawPiece; split <;> rfl

theorem rawWrite_wrote (s : State) (pa : Nat) (bs : List Byte) : Wrote s (rawWrite s pa bs) := by
  simp only [rawWrite]; split
  · exact rawPiece_wrote _ _ _
  · exact (rawPiece_wrote _ _ _).trans (rawPiece_wrote _ _ _)

/-- All that a write of an engine or of Mydal's can change. -/
theorem keyWrite_wrote (s : State) (key pa : Nat) (bs : List Byte) : Wrote s (keyWrite s key pa bs) :=
  ((snoopFor_wrote s pa bs.length true).1.trans (sealRange_wrote _ key pa bs.length).1).trans (rawWrite_wrote _ _ _)

theorem devWrite_wrote (s : State) (pa : Nat) (bs : List Byte) : Wrote s (devWrite s pa bs) := keyWrite_wrote _ _ _ _

theorem rawPiece_wf {s : State} (pa : Nat) (bs : List Byte) (h : s.mem.wf = true) : (rawPiece s pa bs).mem.wf = true := by
  unfold rawPiece; split
  · exact h
  · exact Memory.wf_write pa bs h

theorem keyWrite_wf {s : State} (key pa : Nat) (bs : List Byte) (h : s.mem.wf = true) : (keyWrite s key pa bs).mem.wf = true := by
  have h0 : (sealRange (snoopFor s pa bs.length true) key pa bs.length).mem.wf = true := by simpa using h
  simp only [keyWrite, rawWrite]; split
  · exact rawPiece_wf _ _ h0
  · exact rawPiece_wf _ _ (rawPiece_wf _ _ h0)

theorem keyCap_wf {s : State} (key pa : Nat) (c : Cap) (h : s.mem.wf = true) : (keyCap s key pa c).mem.wf = true := by
  have h0 : (sealRange (snoopFor s pa 16 true) key pa 16).mem.wf = true := by simpa using h
  simp only [keyCap, rawCap]; split
  · exact h0
  · exact Memory.wf_writeCap pa _ _ h0

theorem keyZero_wf {s : State} (key pa n : Nat) (h : s.mem.wf = true) : (keyZero s key pa n).mem.wf = true := by
  have h0 : (sealRange (snoopFor s pa n true) key pa n).mem.wf = true := by simpa using h
  obtain ⟨h1, h2, h3, h4⟩ := (Memory.wf_iff _).1 h0
  exact (Memory.wf_iff _).2 ⟨Tab.wf_filter _ h1, fullCells_filter _ h2, KeySet.wf_filter _ h3, KeySet.wf_filter _ h4⟩

end Sys2Proof.Machine
end

