-- ==== Sys2Proof/Laws/Encoding.lean ====
section
/-! SUPPORT. The words of the encoder as numbers, and their fields read back. -/

namespace Sys2Proof

open Machine

theorem toNat_app {n m : Nat} (x : BitVec n) (y : BitVec m) : (x ++ y).toNat = y.toNat + 2 ^ m * x.toNat := by
  rw [BitVec.toNat_append, ← Nat.shiftLeft_add_eq_or_of_lt y.isLt, Nat.shiftLeft_eq, Nat.mul_comm, Nat.add_comm]

theorem getLsbD_num {n : Nat} (x : BitVec n) (k : Nat) (b : Bool) (h : x.toNat / 2 ^ k % 2 = b.toNat) : x.getLsbD k = b := by
  rw [BitVec.getLsbD, Nat.testBit_eq_decide_div_mod_eq, h]
  cases b <;> rfl

theorem extract_num {n m : Nat} (x : BitVec n) (k : Nat) (y : BitVec m) (h : x.toNat / 2 ^ k % 2 ^ m = y.toNat) :
    x.extractLsb' k m = y := by
  apply BitVec.eq_of_toNat_eq
  rw [BitVec.extractLsb'_toNat, Nat.shiftRight_eq_div_pow, h]

theorem word0_toNat (len : BitVec 2) (op : BitVec 6) (u : Bool) (d a b : BitVec 7) (la lb : Bool) :
    (word0 len op u d a b la lb).toNat = len.toNat + 4 * (op.toNat + 64 * (u.toNat + 2 * (d.toNat + 128 * (a.toNat + 128 *
      (b.toNat + 128 * (la.toNat + 2 * lb.toNat)))))) := by
  unfold word0 bit1
  repeat rw [toNat_app]
  simp only [BitVec.toNat_ofBool]
  omega

theorem word1_toNat (fn : BitVec 8) (e : Ext) :
    (word1 fn e).toNat = fn.toNat + 256 * (e.c.toNat + 128 * (e.lc.toNat + 2 * (e.pr.toNat + 8 * (e.pn.toNat + 2 *
      (e.hold.toNat + 4 * (e.ty.toNat + 64 * (e.rnd.toNat + 8 * e.sat.toNat))))))) := by
  unfold word1 bit1
  repeat rw [toNat_app]
  simp only [BitVec.toNat_ofBool]
  omega

theorem word2_toNat (e : Ext) : (word2 e).toNat = e.modA.toNat + 4096 * (e.modB.toNat + 4096 * e.imm.toNat) := by
  unfold word2
  repeat rw [toNat_app]
  omega

theorem word0_len (len : BitVec 2) (op : BitVec 6) (u : Bool) (d a b : BitVec 7) (la lb : Bool) :
    (word0 len op u d a b la lb).extractLsb' 0 2 = len := by
  have := len.isLt
  apply extract_num; rw [word0_toNat]; omega

theorem word0_op (len : BitVec 2) (op : BitVec 6) (u : Bool) (d a b : BitVec 7) (la lb : Bool) :
    (word0 len op u d a b la lb).extractLsb' 2 6 = op := by
  have := len.isLt; have := op.isLt
  apply extract_num; rw [word0_toNat]; omega

/-- Word 0 gives its fields back. -/
theorem base0_word0 (len : BitVec 2) (op : BitVec 6) (u : Bool) (d a b : BitVec 7) (la lb : Bool) :
    base0 (word0 len op u d a b la lb) = ⟨u, d, a, b, la, lb⟩ := by
  have := len.isLt; have := op.isLt; have := d.isLt; have := a.isLt; have := b.isLt
  have := Bool.toNat_lt u; have := Bool.toNat_lt la; have := Bool.toNat_lt lb
  unfold base0
  rw [Base.mk.injEq]
  refine ⟨getLsbD_num _ _ _ ?_, extract_num _ _ _ ?_, extract_num _ _ _ ?_, extract_num _ _ _ ?_, getLsbD_num _ _ _ ?_,
    getLsbD_num _ _ _ ?_⟩ <;> rw [word0_toNat] <;> omega

theorem word1_fn (fn : BitVec 8) (e : Ext) : (word1 fn e).extractLsb' 0 8 = fn := by
  have := fn.isLt
  apply extract_num; rw [word1_toNat]; omega

/-- W1 and W2 give their fields back. -/
theorem ext12_words (fn : BitVec 8) (e : Ext) : ext12 ⟨e.u, e.d, e.a, e.b, e.la, e.lb⟩ (word1 fn e) (word2 e) e.lit = e := by
  have := fn.isLt; have := e.c.isLt; have := e.pr.isLt; have := e.hold.isLt; have := e.ty.isLt; have := e.rnd.isLt
  have := e.modA.isLt; have := e.modB.isLt; have := e.imm.isLt
  have := Bool.toNat_lt e.lc; have := Bool.toNat_lt e.pn; have := Bool.toNat_lt e.sat
  have h1 : (word1 fn e).extractLsb' 8 7 = e.c := by apply extract_num; rw [word1_toNat]; omega
  have h2 : (word1 fn e).getLsbD 15 = e.lc := by apply getLsbD_num; rw [word1_toNat]; omega
  have h3 : (word1 fn e).extractLsb' 16 3 = e.pr := by apply extract_num; rw [word1_toNat]; omega
  have h4 : (word1 fn e).getLsbD 19 = e.pn := by apply getLsbD_num; rw [word1_toNat]; omega
  have h5 : (word1 fn e).extractLsb' 20 2 = e.hold := by apply extract_num; rw [word1_toNat]; omega
  have h6 : (word1 fn e).extractLsb' 22 6 = e.ty := by apply extract_num; rw [word1_toNat]; omega
  have h7 : (word1 fn e).extractLsb' 28 3 = e.rnd := by apply extract_num; rw [word1_toNat]; omega
  have h8 : (word1 fn e).getLsbD 31 = e.sat := by apply getLsbD_num; rw [word1_toNat]; omega
  have h9 : (word2 e).extractLsb' 0 12 = e.modA := by apply extract_num; rw [word2_toNat]; omega
  have h10 : (word2 e).extractLsb' 12 12 = e.modB := by apply extract_num; rw [word2_toNat]; omega
  have h11 : (word2 e).extractLsb' 24 8 = e.imm := by apply extract_num; rw [word2_toNat]; omega
  unfold ext12
  rw [h1, h2, h3, h4, h5, h6, h7, h8, h9, h10, h11]

/-- The two literal words give the literal back (R7, R111). -/
theorem litWords_join (l : W64) : l.extractLsb' 32 32 ++ l.extractLsb' 0 32 = l := by
  apply BitVec.eq_of_toNat_eq
  rw [toNat_app]
  simp only [BitVec.extractLsb'_toNat, Nat.shiftRight_eq_div_pow]
  have := l.isLt
  omega

end Sys2Proof
end

