-- ==== Sys2Proof/Laws/Integers.lean ====
section
/-! SUPPORT. The integer operations of the model as bit vectors of the width of TYPE (R52, R148, R149). -/

namespace Sys2Proof.Machine

theorem toInt_eq (n : Nat) (sg : Bool) (x : W64) :
    toInt n sg x = if sg then (x.setWidth n).toInt else ((x.setWidth n).toNat : Int) := by
  unfold toInt
  cases sg
  · simp [BitVec.toNat_setWidth]
  · simp only [if_true, Bool.true_and, BitVec.toInt_eq_toNat_cond, BitVec.toNat_setWidth, decide_eq_true_eq]
    rcases n with _ | n
    · simp [Nat.mod_one]
    · have h : 2 ^ (n + 1) = 2 * 2 ^ n := by rw [Nat.pow_succ, Nat.mul_comm]
      simp only [Nat.add_sub_cancel]
      by_cases hc : 2 ^ n ≤ x.toNat % 2 ^ (n + 1)
      · rw [if_pos hc, if_neg (by omega)]; push_cast; rfl
      · rw [if_neg hc, if_pos (by omega)]

theorem extend_eq (n : Nat) (sg : Bool) (x : W64) :
    extend n sg x = if sg then (x.setWidth n).signExtend 64 else (x.setWidth n).setWidth 64 := by
  unfold extend
  rw [toInt_eq]
  cases sg
  · rw [if_neg (by decide), if_neg (by decide)]
    apply BitVec.eq_of_toNat_eq
    simp only [ofInt, BitVec.toNat_ofInt, BitVec.toNat_setWidth]
    omega
  · rfl

theorem Sw.whole_eq (w : Sw) (x : W64) : w.whole x = w.int x := (toInt_eq _ _ _).symm

theorem Sw.fill_eq (w : Sw) (x : W64) : w.fill (w.bits x) = extend w.n w.sg x := (extend_eq _ _ _).symm

theorem setWidth_ofInt {n : Nat} (hn : n ≤ 64) (x : Int) : (BitVec.ofInt 64 x).setWidth n = BitVec.ofInt n x := by
  apply BitVec.eq_of_toNat_eq
  rw [BitVec.toNat_setWidth, BitVec.toNat_ofInt, BitVec.toNat_ofInt]
  have hd : ((2 ^ n : Nat) : Int) ∣ ((2 ^ 64 : Nat) : Int) := by
    exact_mod_cast Nat.pow_dvd_pow 2 hn
  have h0 : (0 : Int) ≤ x % ((2 ^ 64 : Nat) : Int) := Int.emod_nonneg _ (by positivity)
  have h1 : (0 : Int) ≤ x % ((2 ^ n : Nat) : Int) := Int.emod_nonneg _ (by positivity)
  apply Int.ofNat_inj.mp
  push_cast
  push_cast at h0 h1 hd
  rw [Int.toNat_of_nonneg h0, Int.toNat_of_nonneg h1, Int.emod_emod_of_dvd _ hd]

theorem Sw.fill_ofInt (w : Sw) (h : w.n ≤ 64) (x : Int) : w.fill (BitVec.ofInt _ x) = extend w.n w.sg (ofInt x) := by
  rw [← w.fill_eq]; unfold Sw.bits ofInt; exact (congrArg w.fill (setWidth_ofInt (n := tyWidth w.e.ty) h x)).symm

theorem tyWidth_le (t : BitVec 6) : tyWidth t ≤ 64 := by unfold tyWidth; split <;> omega

theorem Sw.n_le (w : Sw) : w.n ≤ 64 := tyWidth_le _

theorem Sw.fit_eq (w : Sw) (x : Int) : w.fit x = narrow w.n w.sg w.e.sat x := by
  have h2 : (0 : Int) < 2 ^ w.n := by positivity
  have h3 : (0 : Int) < 2 ^ (w.n - 1) := by positivity
  unfold Sw.fit narrow
  simp only [w.fill_ofInt w.n_le]
  cases hs : w.e.sat
  · simp [show tyWidth w.e.ty = w.n from rfl, w.fill_ofInt w.n_le]
  · simp only [true_and, if_true]
    rw [show (if tySigned w.e.ty then -(2 ^ (tyWidth w.e.ty - 1)) else 0 : Int) = intMin w.n w.sg from rfl,
      show (if tySigned w.e.ty then 2 ^ (tyWidth w.e.ty - 1) - 1 else 2 ^ tyWidth w.e.ty - 1 : Int) = intMax w.n w.sg from rfl]
    have hle : intMin w.n w.sg ≤ intMax w.n w.sg := by unfold intMin intMax; split <;> omega
    by_cases h1 : x < intMin w.n w.sg
    · rw [if_pos h1, if_neg (by omega), show max (intMin w.n w.sg) (min (intMax w.n w.sg) x) = intMin w.n w.sg by omega]
      rfl
    · rw [if_neg h1]
      by_cases h4 : intMax w.n w.sg < x
      · rw [if_pos h4, if_neg (by omega), show max (intMin w.n w.sg) (min (intMax w.n w.sg) x) = intMax w.n w.sg by omega]
        rfl
      · rw [if_neg h4, if_pos (by omega), show max (intMin w.n w.sg) (min (intMax w.n w.sg) x) = x by omega]

end Sys2Proof.Machine
end

