-- ==== Sys2Proof/Laws/Links.lean ====
section
/-! SUPPORT. Writes at the point of coherence and over links keep memory's canonical form, and command registers carry out the
commands their values name. -/

namespace Sys2Proof.Machine

/-! ### The point of coherence (R305, R421, R431) -/

@[simp] theorem takeExclusive_mem (s : State) (pa : Nat) : (takeExclusive s pa).mem = s.mem := rfl

@[simp] theorem leaseByte_mem (s : State) (pa : Nat) (b : Byte) : (leaseByte s pa b).mem = s.mem := by
  simp only [leaseByte]; split <;> simp

@[simp] theorem leaseBytes_mem (bs : List Byte) : ∀ (s : State) (pa : Nat), (leaseBytes s pa bs).mem = s.mem := by
  induction bs with
  | nil => intros; rfl
  | cons b l ih => intro s pa; simp [leaseBytes, ih]

theorem writeBytes_wf {s : State} (pa : Nat) (bs : List Byte) (h : s.mem.wf = true) : (s.writeBytes pa bs).mem.wf = true := by
  simp only [State.writeBytes]
  split
  · simpa using Memory.wf_errs h (wf_clearErrs _ _ _ _ ((Memory.wf_iff _).1 h).2.2.2)
  · exact Memory.wf_write pa bs h

theorem writeCapAt_wf {s : State} (pa : Nat) (c : Cap) (h : s.mem.wf = true) : (s.writeCapAt pa c).mem.wf = true := by
  simp only [State.writeCapAt]
  split
  · split <;> simpa using h
  · exact Memory.wf_writeCap pa _ _ h

/-! ### Links (R101, R421, R422, R445) -/

theorem linkWrite_wf {s : State} (key pa : Nat) (bs : List Byte) (h : s.mem.wf = true) : (linkWrite s key pa bs).mem.wf = true := by
  unfold linkWrite
  generalize pageParts _ _ _ = l
  induction l generalizing s with
  | nil => exact h
  | cons x l ih =>
    rw [List.foldl_cons]
    refine ih ?_
    split
    · exact h
    · exact writeBytes_wf _ _ (by simpa using h)

theorem setLinkTags_wf (pa : Nat) (tags : BitVec 8) (n : Nat) {s : State} (h : s.mem.wf = true) :
    (setLinkTags pa tags n s).mem.wf = true := by
  induction n with
  | zero => exact h
  | succ n ih =>
    simp only [setLinkTags]; split
    · exact writeCapAt_wf _ _ ih
    · exact ih

theorem setLinkTags_zero (pa n : Nat) (s : State) : setLinkTags pa 0 n s = s := by
  induction n with
  | zero => rfl
  | succ n ih => simpa [setLinkTags] using ih

theorem linkTags_bit (s : State) (pa n i : Nat) (hi : i < 8) :
    (linkTags s pa n).getLsbD i = (decide (i < n) && s.readTag (pa + 16 * i)) := by
  induction n with
  | zero => simp [linkTags]
  | succ n ih =>
    simp only [linkTags, BitVec.getLsbD_or, ih]
    by_cases hn : i = n
    · subst hn
      have : (BitVec.ofNat 8 (2 ^ i)).getLsbD i = true := by
        rw [BitVec.getLsbD_ofNat, Nat.testBit_two_pow_self]; simpa using hi
      cases hr : s.readTag (pa + 16 * i)
      · simp
      · rw [if_pos rfl, this]; simp
    · have hz : (BitVec.ofNat 8 (2 ^ n)).getLsbD i = false := by
        rw [BitVec.getLsbD_ofNat, Nat.testBit_two_pow_of_ne (Ne.symm hn), Bool.and_false]
      have hd : decide (i < n + 1) = decide (i < n) := by
        simp only [decide_eq_decide]; omega
      rw [hd]; cases hr : s.readTag (pa + 16 * n)
      · simp
      · rw [if_pos rfl, hz, Bool.or_false]

theorem forwardedOp_wf {s : State} (r : FwdReq) (h : s.mem.wf = true) : (forwardedOp s r).mem.wf = true := by
  simp only [forwardedOp]
  split
  · exact h
  · split
    · simpa using h
    · split
      · split
        · exact setLinkTags_wf _ _ _ (linkWrite_wf _ _ _ h)
        · exact linkWrite_wf _ _ _ h
      · simpa using h

/-! ### Command registers (R308, R418, R450) -/

/-- A value of TCMD that is none of the four commands sets REFUSED and nothing else. -/
theorem tcmdWrite_refused (s : State) (x : W64) (h : x.toNat / 2 ^ 16 % 16 = 0 ∨ 5 ≤ x.toNat / 2 ^ 16 % 16) :
    tcmdWrite s x = s.onXlat (fun t => { t with refused := true }) := by
  simp only [tcmdWrite]; split <;> first | omega | rfl

/-- A value of KSCMD that is none of the four commands answers 3, or 4 while BUSY, and changes no world. -/
theorem kscmdWrite_bad (s : State) (x : W64) (h : x.toNat % 16 = 0 ∨ 5 ≤ x.toNat % 16) :
    kscmdWrite s x = if s.keys.busy then s.onKeys (fun k => { k with result := 4 }) else ksResult s 3 := by
  simp only [kscmdWrite]; split <;> first | omega | rfl

end Sys2Proof.Machine
end

