-- ==== Sys2Proof/Laws/PerInstr.lean ====
section
/-! SUPPORT. Per instruction: the tables of R124 to R131 give back the constructor whose codes they are asked for, so that
no two instructions share codes and none is out of the decoder's reach. -/

namespace Sys2Proof.Laws.F

open Sys2Proof Sys2Proof.Machine

/-- What the opcode tables answer for the fields of a base instruction. -/
def Base.of (e : Ext) : Base := ⟨e.u, e.d, e.a, e.b, e.la, e.lb⟩

/-- The codes of an encoded instruction, given to the decoder's tables with its fields, answer that instruction. -/
def Statement (i : Instr) : Prop :=
  match formOf i with
  | none => True
  | some (f, e) =>
    (f.maj < 0x18 ∧ 0 < f.maj ∧ e = Ext.ofBase (Base.of e) e.lit e.ty e.c ∧
      match e.lit with
      | none => baseInstr f.maj (Base.of e) = some i
      | some l => litInstr f.maj (Base.of e) l = some i) ∨
    (0x20 ≤ f.maj ∧ f.maj ≤ 0x34 ∧ f.fn < 256 ∧ extInstr f.maj f.fn e = some i ∧
      (f.litOk = true → noLitMajor f.maj = false))

theorem clauseHeader : ∀ a0 a1 a2 a3, Statement (.clauseHeader a0 a1 a2 a3) := fun _ _ _ _ => trivial
theorem iadd : ∀ a0, Statement (.iadd a0) := fun _ => .inl ⟨by decide, by decide, rfl, rfl⟩
theorem iaddLit : ∀ a0 a1, Statement (.iaddLit a0 a1) := fun _ _ => .inl ⟨by decide, by decide, rfl, rfl⟩
theorem iaddX : ∀ a0, Statement (.iaddX a0) := fun _ => .inr ⟨by decide, by decide, by decide, rfl, by decide⟩
theorem isub : ∀ a0, Statement (.isub a0) := fun _ => .inl ⟨by decide, by decide, rfl, rfl⟩
theorem isubLit : ∀ a0 a1, Statement (.isubLit a0 a1) := fun _ _ => .inl ⟨by decide, by decide, rfl, rfl⟩
theorem isubX : ∀ a0, Statement (.isubX a0) := fun _ => .inr ⟨by decide, by decide, by decide, rfl, by decide⟩
theorem imul : ∀ a0, Statement (.imul a0) := fun _ => .inl ⟨by decide, by decide, rfl, rfl⟩
theorem imulLit : ∀ a0 a1, Statement (.imulLit a0 a1) := fun _ _ => .inl ⟨by decide, by decide, rfl, rfl⟩
theorem imulX : ∀ a0, Statement (.imulX a0) := fun _ => .inr ⟨by decide, by decide, by decide, rfl, by decide⟩
theorem andI : ∀ a0, Statement (.andI a0) := fun _ => .inl ⟨by decide, by decide, rfl, rfl⟩
theorem andLit : ∀ a0 a1, Statement (.andLit a0 a1) := fun _ _ => .inl ⟨by decide, by decide, rfl, rfl⟩
theorem andX : ∀ a0, Statement (.andX a0) := fun _ => .inr ⟨by decide, by decide, by decide, rfl, by decide⟩
theorem orI : ∀ a0, Statement (.orI a0) := fun _ => .inl ⟨by decide, by decide, rfl, rfl⟩
theorem orLit : ∀ a0 a1, Statement (.orLit a0 a1) := fun _ _ => .inl ⟨by decide, by decide, rfl, rfl⟩
theorem orX : ∀ a0, Statement (.orX a0) := fun _ => .inr ⟨by decide, by decide, by decide, rfl, by decide⟩
theorem xorI : ∀ a0, Statement (.xorI a0) := fun _ => .inl ⟨by decide, by decide, rfl, rfl⟩
theorem xorLit : ∀ a0 a1, Statement (.xorLit a0 a1) := fun _ _ => .inl ⟨by decide, by decide, rfl, rfl⟩
theorem xorX : ∀ a0, Statement (.xorX a0) := fun _ => .inr ⟨by decide, by decide, by decide, rfl, by decide⟩
theorem shl : ∀ a0, Statement (.shl a0) := fun _ => .inl ⟨by decide, by decide, rfl, rfl⟩
theorem shlLit : ∀ a0 a1, Statement (.shlLit a0 a1) := fun _ _ => .inl ⟨by decide, by decide, rfl, rfl⟩
theorem shlX : ∀ a0, Statement (.shlX a0) := fun _ => .inr ⟨by decide, by decide, by decide, rfl, by decide⟩
theorem shr : ∀ a0, Statement (.shr a0) := fun _ => .inl ⟨by decide, by decide, rfl, rfl⟩
theorem shrLit : ∀ a0 a1, Statement (.shrLit a0 a1) := fun _ _ => .inl ⟨by decide, by decide, rfl, rfl⟩
theorem shrX : ∀ a0, Statement (.shrX a0) := fun _ => .inr ⟨by decide, by decide, by decide, rfl, by decide⟩
theorem sar : ∀ a0, Statement (.sar a0) := fun _ => .inl ⟨by decide, by decide, rfl, rfl⟩
theorem sarLit : ∀ a0 a1, Statement (.sarLit a0 a1) := fun _ _ => .inl ⟨by decide, by decide, rfl, rfl⟩
theorem sarX : ∀ a0, Statement (.sarX a0) := fun _ => .inr ⟨by decide, by decide, by decide, rfl, by decide⟩
theorem imin : ∀ a0, Statement (.imin a0) := fun _ => .inl ⟨by decide, by decide, rfl, rfl⟩
theorem iminLit : ∀ a0 a1, Statement (.iminLit a0 a1) := fun _ _ => .inl ⟨by decide, by decide, rfl, rfl⟩
theorem iminX : ∀ a0, Statement (.iminX a0) := fun _ => .inr ⟨by decide, by decide, by decide, rfl, by decide⟩
theorem imax : ∀ a0, Statement (.imax a0) := fun _ => .inl ⟨by decide, by decide, rfl, rfl⟩
theorem imaxLit : ∀ a0 a1, Statement (.imaxLit a0 a1) := fun _ _ => .inl ⟨by decide, by decide, rfl, rfl⟩
theorem imaxX : ∀ a0, Statement (.imaxX a0) := fun _ => .inr ⟨by decide, by decide, by decide, rfl, by decide⟩
theorem mov : ∀ a0, Statement (.mov a0) := fun _ => .inl ⟨by decide, by decide, rfl, rfl⟩
theorem movLit : ∀ a0 a1, Statement (.movLit a0 a1) := fun _ _ => .inl ⟨by decide, by decide, rfl, rfl⟩
theorem movX : ∀ a0, Statement (.movX a0) := fun _ => .inr ⟨by decide, by decide, by decide, rfl, by decide⟩
theorem sel : ∀ a0, Statement (.sel a0) := fun _ => .inl ⟨by decide, by decide, rfl, rfl⟩
theorem selLit : ∀ a0 a1, Statement (.selLit a0 a1) := fun _ _ => .inl ⟨by decide, by decide, rfl, rfl⟩
theorem selX : ∀ a0, Statement (.selX a0) := fun _ => .inr ⟨by decide, by decide, by decide, rfl, by decide⟩
theorem fadd : ∀ a0, Statement (.fadd a0) := fun _ => .inl ⟨by decide, by decide, rfl, rfl⟩
theorem faddLit : ∀ a0 a1, Statement (.faddLit a0 a1) := fun _ _ => .inl ⟨by decide, by decide, rfl, rfl⟩
theorem faddX : ∀ a0, Statement (.faddX a0) := fun _ => .inr ⟨by decide, by decide, by decide, rfl, by decide⟩
theorem fsub : ∀ a0, Statement (.fsub a0) := fun _ => .inl ⟨by decide, by decide, rfl, rfl⟩
theorem fsubLit : ∀ a0 a1, Statement (.fsubLit a0 a1) := fun _ _ => .inl ⟨by decide, by decide, rfl, rfl⟩
theorem fsubX : ∀ a0, Statement (.fsubX a0) := fun _ => .inr ⟨by decide, by decide, by decide, rfl, by decide⟩
theorem fmul : ∀ a0, Statement (.fmul a0) := fun _ => .inl ⟨by decide, by decide, rfl, rfl⟩
theorem fmulLit : ∀ a0 a1, Statement (.fmulLit a0 a1) := fun _ _ => .inl ⟨by decide, by decide, rfl, rfl⟩
theorem fmulX : ∀ a0, Statement (.fmulX a0) := fun _ => .inr ⟨by decide, by decide, by decide, rfl, by decide⟩
theorem ffma : ∀ a0, Statement (.ffma a0) := fun _ => .inl ⟨by decide, by decide, rfl, rfl⟩
theorem ffmaLit : ∀ a0 a1, Statement (.ffmaLit a0 a1) := fun _ _ => .inl ⟨by decide, by decide, rfl, rfl⟩
theorem ffmaX : ∀ a0, Statement (.ffmaX a0) := fun _ => .inr ⟨by decide, by decide, by decide, rfl, by decide⟩
theorem fmin : ∀ a0, Statement (.fmin a0) := fun _ => .inl ⟨by decide, by decide, rfl, rfl⟩
theorem fminLit : ∀ a0 a1, Statement (.fminLit a0 a1) := fun _ _ => .inl ⟨by decide, by decide, rfl, rfl⟩
theorem fminX : ∀ a0, Statement (.fminX a0) := fun _ => .inr ⟨by decide, by decide, by decide, rfl, by decide⟩
theorem fmax : ∀ a0, Statement (.fmax a0) := fun _ => .inl ⟨by decide, by decide, rfl, rfl⟩
theorem fmaxLit : ∀ a0 a1, Statement (.fmaxLit a0 a1) := fun _ _ => .inl ⟨by decide, by decide, rfl, rfl⟩
theorem fmaxX : ∀ a0, Statement (.fmaxX a0) := fun _ => .inr ⟨by decide, by decide, by decide, rfl, by decide⟩
theorem ldw : ∀ a0, Statement (.ldw a0) := fun _ => .inl ⟨by decide, by decide, rfl, rfl⟩
theorem ldwLit : ∀ a0 a1, Statement (.ldwLit a0 a1) := fun _ _ => .inl ⟨by decide, by decide, rfl, rfl⟩
theorem stw : ∀ a0, Statement (.stw a0) := fun _ => .inl ⟨by decide, by decide, rfl, rfl⟩
theorem stwLit : ∀ a0 a1, Statement (.stwLit a0 a1) := fun _ _ => .inl ⟨by decide, by decide, rfl, rfl⟩
theorem ill : ∀ a0 a1, Statement (.ill a0 a1) := fun _ _ => trivial
theorem imulh : ∀ a0, Statement (.imulh a0) := fun _ => .inr ⟨by decide, by decide, by decide, rfl, by decide⟩
theorem imad : ∀ a0, Statement (.imad a0) := fun _ => .inr ⟨by decide, by decide, by decide, rfl, by decide⟩
theorem idiv : ∀ a0, Statement (.idiv a0) := fun _ => .inr ⟨by decide, by decide, by decide, rfl, by decide⟩
theorem irem : ∀ a0, Statement (.irem a0) := fun _ => .inr ⟨by decide, by decide, by decide, rfl, by decide⟩
theorem iabs : ∀ a0, Statement (.iabs a0) := fun _ => .inr ⟨by decide, by decide, by decide, rfl, by decide⟩
theorem ineg : ∀ a0, Statement (.ineg a0) := fun _ => .inr ⟨by decide, by decide, by decide, rfl, by decide⟩
theorem andn : ∀ a0, Statement (.andn a0) := fun _ => .inr ⟨by decide, by decide, by decide, rfl, by decide⟩
theorem rol : ∀ a0, Statement (.rol a0) := fun _ => .inr ⟨by decide, by decide, by decide, rfl, by decide⟩
theorem popc : ∀ a0, Statement (.popc a0) := fun _ => .inr ⟨by decide, by decide, by decide, rfl, by decide⟩
theorem clz : ∀ a0, Statement (.clz a0) := fun _ => .inr ⟨by decide, by decide, by decide, rfl, by decide⟩
theorem brev : ∀ a0, Statement (.brev a0) := fun _ => .inr ⟨by decide, by decide, by decide, rfl, by decide⟩
theorem bfe : ∀ a0, Statement (.bfe a0) := fun _ => .inr ⟨by decide, by decide, by decide, rfl, by decide⟩
theorem bfi : ∀ a0, Statement (.bfi a0) := fun _ => .inr ⟨by decide, by decide, by decide, rfl, by decide⟩
theorem icmp : ∀ a0, Statement (.icmp a0) := fun _ => .inr ⟨by decide, by decide, by decide, rfl, by decide⟩
theorem fcmp : ∀ a0, Statement (.fcmp a0) := fun _ => .inr ⟨by decide, by decide, by decide, rfl, by decide⟩
theorem fclass : ∀ a0, Statement (.fclass a0) := fun _ => .inr ⟨by decide, by decide, by decide, rfl, by decide⟩
theorem fround : ∀ a0, Statement (.fround a0) := fun _ => .inr ⟨by decide, by decide, by decide, rfl, by decide⟩
theorem ffract : ∀ a0, Statement (.ffract a0) := fun _ => .inr ⟨by decide, by decide, by decide, rfl, by decide⟩
theorem frcp : ∀ a0, Statement (.frcp a0) := fun _ => .inr ⟨by decide, by decide, by decide, rfl, by decide⟩
theorem frsq : ∀ a0, Statement (.frsq a0) := fun _ => .inr ⟨by decide, by decide, by decide, rfl, by decide⟩
theorem fsqrt : ∀ a0, Statement (.fsqrt a0) := fun _ => .inr ⟨by decide, by decide, by decide, rfl, by decide⟩
theorem fdiv : ∀ a0, Statement (.fdiv a0) := fun _ => .inr ⟨by decide, by decide, by decide, rfl, by decide⟩
theorem fexp2 : ∀ a0, Statement (.fexp2 a0) := fun _ => .inr ⟨by decide, by decide, by decide, rfl, by decide⟩
theorem flog2 : ∀ a0, Statement (.flog2 a0) := fun _ => .inr ⟨by decide, by decide, by decide, rfl, by decide⟩
theorem fsin : ∀ a0, Statement (.fsin a0) := fun _ => .inr ⟨by decide, by decide, by decide, rfl, by decide⟩
theorem fcos : ∀ a0, Statement (.fcos a0) := fun _ => .inr ⟨by decide, by decide, by decide, rfl, by decide⟩
theorem hadd2 : ∀ a0, Statement (.hadd2 a0) := fun _ => .inr ⟨by decide, by decide, by decide, rfl, by decide⟩
theorem hmul2 : ∀ a0, Statement (.hmul2 a0) := fun _ => .inr ⟨by decide, by decide, by decide, rfl, by decide⟩
theorem hfma2 : ∀ a0, Statement (.hfma2 a0) := fun _ => .inr ⟨by decide, by decide, by decide, rfl, by decide⟩
theorem idp4 : ∀ a0, Statement (.idp4 a0) := fun _ => .inr ⟨by decide, by decide, by decide, rfl, by decide⟩
theorem fdp2 : ∀ a0, Statement (.fdp2 a0) := fun _ => .inr ⟨by decide, by decide, by decide, rfl, by decide⟩
theorem cvt : ∀ a0, Statement (.cvt a0) := fun _ => .inr ⟨by decide, by decide, by decide, rfl, by decide⟩
theorem pack : ∀ a0, Statement (.pack a0) := fun _ => .inr ⟨by decide, by decide, by decide, rfl, by decide⟩
theorem unpk : ∀ a0, Statement (.unpk a0) := fun _ => .inr ⟨by decide, by decide, by decide, rfl, by decide⟩
theorem bfpenc : ∀ a0, Statement (.bfpenc a0) := fun _ => .inr ⟨by decide, by decide, by decide, rfl, by decide⟩
theorem prev : ∀ a0, Statement (.prev a0) := fun _ => .inr ⟨by decide, by decide, by decide, rfl, by decide⟩
theorem nextI : ∀ a0, Statement (.nextI a0) := fun _ => .inr ⟨by decide, by decide, by decide, rfl, by decide⟩
theorem scan : ∀ a0, Statement (.scan a0) := fun _ => .inr ⟨by decide, by decide, by decide, rfl, by decide⟩
theorem segscan : ∀ a0, Statement (.segscan a0) := fun _ => .inr ⟨by decide, by decide, by decide, rfl, by decide⟩
theorem red : ∀ a0, Statement (.red a0) := fun _ => .inr ⟨by decide, by decide, by decide, rfl, by decide⟩
theorem vote : ∀ a0, Statement (.vote a0) := fun _ => .inr ⟨by decide, by decide, by decide, rfl, by decide⟩
theorem rank : ∀ a0, Statement (.rank a0) := fun _ => .inr ⟨by decide, by decide, by decide, rfl, by decide⟩
theorem compact : ∀ a0, Statement (.compact a0) := fun _ => .inr ⟨by decide, by decide, by decide, rfl, by decide⟩
theorem topk : ∀ a0, Statement (.topk a0) := fun _ => .inr ⟨by decide, by decide, by decide, rfl, by decide⟩
theorem pset : ∀ a0, Statement (.pset a0) := fun _ => .inr ⟨by decide, by decide, by decide, rfl, by decide⟩
theorem psetLead : ∀ a0, Statement (.psetLead a0) := fun _ => .inr ⟨by decide, by decide, by decide, rfl, by decide⟩
theorem pand : ∀ a0, Statement (.pand a0) := fun _ => .inr ⟨by decide, by decide, by decide, rfl, by decide⟩
theorem por : ∀ a0, Statement (.por a0) := fun _ => .inr ⟨by decide, by decide, by decide, rfl, by decide⟩
theorem pxor : ∀ a0, Statement (.pxor a0) := fun _ => .inr ⟨by decide, by decide, by decide, rfl, by decide⟩
theorem pnot : ∀ a0, Statement (.pnot a0) := fun _ => .inr ⟨by decide, by decide, by decide, rfl, by decide⟩
theorem pmov : ∀ a0, Statement (.pmov a0) := fun _ => .inr ⟨by decide, by decide, by decide, rfl, by decide⟩
theorem bra : ∀ a0, Statement (.bra a0) := fun _ => .inr ⟨by decide, by decide, by decide, rfl, by decide⟩
theorem brc : ∀ a0, Statement (.brc a0) := fun _ => .inr ⟨by decide, by decide, by decide, rfl, by decide⟩
theorem jmp : ∀ a0, Statement (.jmp a0) := fun _ => .inr ⟨by decide, by decide, by decide, rfl, by decide⟩
theorem call : ∀ a0, Statement (.call a0) := fun _ => .inr ⟨by decide, by decide, by decide, rfl, by decide⟩
theorem callr : ∀ a0, Statement (.callr a0) := fun _ => .inr ⟨by decide, by decide, by decide, rfl, by decide⟩
theorem ret : ∀ a0, Statement (.ret a0) := fun _ => .inr ⟨by decide, by decide, by decide, rfl, by decide⟩
theorem exit : ∀ a0, Statement (.exit a0) := fun _ => .inr ⟨by decide, by decide, by decide, rfl, by decide⟩
theorem yield : ∀ a0, Statement (.yield a0) := fun _ => .inr ⟨by decide, by decide, by decide, rfl, by decide⟩
theorem nop : ∀ a0, Statement (.nop a0) := fun _ => .inr ⟨by decide, by decide, by decide, rfl, by decide⟩
theorem bar : ∀ a0, Statement (.bar a0) := fun _ => .inr ⟨by decide, by decide, by decide, rfl, by decide⟩
theorem barc : ∀ a0, Statement (.barc a0) := fun _ => .inr ⟨by decide, by decide, by decide, rfl, by decide⟩
theorem spawn : ∀ a0, Statement (.spawn a0) := fun _ => .inr ⟨by decide, by decide, by decide, rfl, by decide⟩
theorem bincfg : ∀ a0, Statement (.bincfg a0) := fun _ => .inr ⟨by decide, by decide, by decide, rfl, by decide⟩
theorem time : ∀ a0, Statement (.time a0) := fun _ => .inr ⟨by decide, by decide, by decide, rfl, by decide⟩
theorem atI : ∀ a0, Statement (.atI a0) := fun _ => .inr ⟨by decide, by decide, by decide, rfl, by decide⟩
theorem sleep : ∀ a0, Statement (.sleep a0) := fun _ => .inr ⟨by decide, by decide, by decide, rfl, by decide⟩
theorem sys : ∀ a0, Statement (.sys a0) := fun _ => .inr ⟨by decide, by decide, by decide, rfl, by decide⟩
theorem trap : ∀ a0, Statement (.trap a0) := fun _ => .inr ⟨by decide, by decide, by decide, rfl, by decide⟩
theorem eret : ∀ a0, Statement (.eret a0) := fun _ => .inr ⟨by decide, by decide, by decide, rfl, by decide⟩
theorem trapcfg : ∀ a0, Statement (.trapcfg a0) := fun _ => .inr ⟨by decide, by decide, by decide, rfl, by decide⟩
theorem rget : ∀ a0, Statement (.rget a0) := fun _ => .inr ⟨by decide, by decide, by decide, rfl, by decide⟩
theorem rset : ∀ a0, Statement (.rset a0) := fun _ => .inr ⟨by decide, by decide, by decide, rfl, by decide⟩
theorem sregr : ∀ a0, Statement (.sregr a0) := fun _ => .inr ⟨by decide, by decide, by decide, rfl, by decide⟩
theorem sregw : ∀ a0, Statement (.sregw a0) := fun _ => .inr ⟨by decide, by decide, by decide, rfl, by decide⟩
theorem ld : ∀ a0, Statement (.ld a0) := fun _ => .inr ⟨by decide, by decide, by decide, rfl, by decide⟩
theorem lda : ∀ a0, Statement (.lda a0) := fun _ => .inr ⟨by decide, by decide, by decide, rfl, by decide⟩
theorem pref : ∀ a0, Statement (.pref a0) := fun _ => .inr ⟨by decide, by decide, by decide, rfl, by decide⟩
theorem st : ∀ a0, Statement (.st a0) := fun _ => .inr ⟨by decide, by decide, by decide, rfl, by decide⟩
theorem stl : ∀ a0, Statement (.stl a0) := fun _ => .inr ⟨by decide, by decide, by decide, rfl, by decide⟩
theorem ldc : ∀ a0, Statement (.ldc a0) := fun _ => .inr ⟨by decide, by decide, by decide, rfl, by decide⟩
theorem stc : ∀ a0, Statement (.stc a0) := fun _ => .inr ⟨by decide, by decide, by decide, rfl, by decide⟩
theorem amoAdd : ∀ a0, Statement (.amoAdd a0) := fun _ => .inr ⟨by decide, by decide, by decide, rfl, by decide⟩
theorem amoAnd : ∀ a0, Statement (.amoAnd a0) := fun _ => .inr ⟨by decide, by decide, by decide, rfl, by decide⟩
theorem amoOr : ∀ a0, Statement (.amoOr a0) := fun _ => .inr ⟨by decide, by decide, by decide, rfl, by decide⟩
theorem amoXor : ∀ a0, Statement (.amoXor a0) := fun _ => .inr ⟨by decide, by decide, by decide, rfl, by decide⟩
theorem amoMin : ∀ a0, Statement (.amoMin a0) := fun _ => .inr ⟨by decide, by decide, by decide, rfl, by decide⟩
theorem amoMax : ∀ a0, Statement (.amoMax a0) := fun _ => .inr ⟨by decide, by decide, by decide, rfl, by decide⟩
theorem amoSwap : ∀ a0, Statement (.amoSwap a0) := fun _ => .inr ⟨by decide, by decide, by decide, rfl, by decide⟩
theorem amoCas : ∀ a0, Statement (.amoCas a0) := fun _ => .inr ⟨by decide, by decide, by decide, rfl, by decide⟩
theorem amocSwap : ∀ a0, Statement (.amocSwap a0) := fun _ => .inr ⟨by decide, by decide, by decide, rfl, by decide⟩
theorem amocCas : ∀ a0, Statement (.amocCas a0) := fun _ => .inr ⟨by decide, by decide, by decide, rfl, by decide⟩
theorem fence : ∀ a0, Statement (.fence a0) := fun _ => .inr ⟨by decide, by decide, by decide, rfl, by decide⟩
theorem tld : ∀ a0, Statement (.tld a0) := fun _ => .inr ⟨by decide, by decide, by decide, rfl, by decide⟩
theorem tst : ∀ a0, Statement (.tst a0) := fun _ => .inr ⟨by decide, by decide, by decide, rfl, by decide⟩
theorem refadr : ∀ a0, Statement (.refadr a0) := fun _ => .inr ⟨by decide, by decide, by decide, rfl, by decide⟩
theorem refbase : ∀ a0, Statement (.refbase a0) := fun _ => .inr ⟨by decide, by decide, by decide, rfl, by decide⟩
theorem reflen : ∀ a0, Statement (.reflen a0) := fun _ => .inr ⟨by decide, by decide, by decide, rfl, by decide⟩
theorem refperm : ∀ a0, Statement (.refperm a0) := fun _ => .inr ⟨by decide, by decide, by decide, rfl, by decide⟩
theorem reftype : ∀ a0, Statement (.reftype a0) := fun _ => .inr ⟨by decide, by decide, by decide, rfl, by decide⟩
theorem refseta : ∀ a0, Statement (.refseta a0) := fun _ => .inr ⟨by decide, by decide, by decide, rfl, by decide⟩
theorem refadd : ∀ a0, Statement (.refadd a0) := fun _ => .inr ⟨by decide, by decide, by decide, rfl, by decide⟩
theorem refnar : ∀ a0, Statement (.refnar a0) := fun _ => .inr ⟨by decide, by decide, by decide, rfl, by decide⟩
theorem refnarx : ∀ a0, Statement (.refnarx a0) := fun _ => .inr ⟨by decide, by decide, by decide, rfl, by decide⟩
theorem refdrop : ∀ a0, Statement (.refdrop a0) := fun _ => .inr ⟨by decide, by decide, by decide, rfl, by decide⟩
theorem refwrap : ∀ a0, Statement (.refwrap a0) := fun _ => .inr ⟨by decide, by decide, by decide, rfl, by decide⟩
theorem refunwr : ∀ a0, Statement (.refunwr a0) := fun _ => .inr ⟨by decide, by decide, by decide, rfl, by decide⟩
theorem refchk : ∀ a0, Statement (.refchk a0) := fun _ => .inr ⟨by decide, by decide, by decide, rfl, by decide⟩
theorem refvoid : ∀ a0, Statement (.refvoid a0) := fun _ => .inr ⟨by decide, by decide, by decide, rfl, by decide⟩
theorem refdiff : ∀ a0, Statement (.refdiff a0) := fun _ => .inr ⟨by decide, by decide, by decide, rfl, by decide⟩
theorem refeq : ∀ a0, Statement (.refeq a0) := fun _ => .inr ⟨by decide, by decide, by decide, rfl, by decide⟩
theorem refmint : ∀ a0, Statement (.refmint a0) := fun _ => .inr ⟨by decide, by decide, by decide, rfl, by decide⟩
theorem refmov : ∀ a0, Statement (.refmov a0) := fun _ => .inr ⟨by decide, by decide, by decide, rfl, by decide⟩
theorem cpy : ∀ a0, Statement (.cpy a0) := fun _ => .inr ⟨by decide, by decide, by decide, rfl, by decide⟩
theorem cpyc : ∀ a0, Statement (.cpyc a0) := fun _ => .inr ⟨by decide, by decide, by decide, rfl, by decide⟩
theorem cpyw : ∀ a0, Statement (.cpyw a0) := fun _ => .inr ⟨by decide, by decide, by decide, rfl, by decide⟩
theorem setfmt : ∀ a0, Statement (.setfmt a0) := fun _ => .inr ⟨by decide, by decide, by decide, rfl, by decide⟩
theorem claim : ∀ a0, Statement (.claim a0) := fun _ => .inr ⟨by decide, by decide, by decide, rfl, by decide⟩
theorem release : ∀ a0, Statement (.release a0) := fun _ => .inr ⟨by decide, by decide, by decide, rfl, by decide⟩
theorem mma : ∀ a0, Statement (.mma a0) := fun _ => .inr ⟨by decide, by decide, by decide, rfl, by decide⟩
theorem mmz : ∀ a0, Statement (.mmz a0) := fun _ => .inr ⟨by decide, by decide, by decide, rfl, by decide⟩
theorem accrd : ∀ a0, Statement (.accrd a0) := fun _ => .inr ⟨by decide, by decide, by decide, rfl, by decide⟩
theorem accwr : ∀ a0, Statement (.accwr a0) := fun _ => .inr ⟨by decide, by decide, by decide, rfl, by decide⟩
theorem fork : ∀ a0, Statement (.fork a0) := fun _ => .inr ⟨by decide, by decide, by decide, rfl, by decide⟩
theorem join : ∀ a0, Statement (.join a0) := fun _ => .inr ⟨by decide, by decide, by decide, rfl, by decide⟩
theorem hwait : ∀ a0, Statement (.hwait a0) := fun _ => .inr ⟨by decide, by decide, by decide, rfl, by decide⟩
theorem htest : ∀ a0, Statement (.htest a0) := fun _ => .inr ⟨by decide, by decide, by decide, rfl, by decide⟩
theorem hcancel : ∀ a0, Statement (.hcancel a0) := fun _ => .inr ⟨by decide, by decide, by decide, rfl, by decide⟩
theorem sth : ∀ a0, Statement (.sth a0) := fun _ => .inr ⟨by decide, by decide, by decide, rfl, by decide⟩
theorem ldh : ∀ a0, Statement (.ldh a0) := fun _ => .inr ⟨by decide, by decide, by decide, rfl, by decide⟩
theorem launch : ∀ a0, Statement (.launch a0) := fun _ => .inr ⟨by decide, by decide, by decide, rfl, by decide⟩
theorem longLatencyComplete : ∀ a0 a1, Statement (.longLatencyComplete a0 a1) := fun _ _ => trivial
theorem ldwReturn : ∀ a0, Statement (.ldwReturn a0) := fun _ => trivial
theorem rowFreed : ∀ a0 a1, Statement (.rowFreed a0 a1) := fun _ _ => trivial
theorem evict : ∀ a0 a1, Statement (.evict a0 a1) := fun _ _ => trivial
theorem evictedReturn : ∀ a0, Statement (.evictedReturn a0) := fun _ => trivial
theorem stopFaultDeliver : ∀ a0, Statement (.stopFaultDeliver a0) := fun _ => trivial
theorem sweepEndTrap : ∀ a0, Statement (.sweepEndTrap a0) := fun _ => trivial
theorem handlerEntry : ∀ a0, Statement (.handlerEntry a0) := fun _ => trivial
theorem owedRefresh : ∀ a0, Statement (.owedRefresh a0) := fun _ => trivial
theorem yieldExpiry : ∀ a0, Statement (.yieldExpiry a0) := fun _ => trivial
theorem overrideEnter : ∀ a0, Statement (.overrideEnter a0) := fun _ => trivial
theorem overrideEnd : ∀ a0, Statement (.overrideEnd a0) := fun _ => trivial
theorem barrierComplete : ∀ a0 a1 a2, Statement (.barrierComplete a0 a1 a2) := fun _ _ _ => trivial
theorem atRelease : ∀ a0, Statement (.atRelease a0) := fun _ => trivial
theorem sleepExpiry : ∀ a0, Statement (.sleepExpiry a0) := fun _ => trivial
theorem sysReply : ∀ a0 a1 a2, Statement (.sysReply a0 a1 a2) := fun _ _ _ => trivial
theorem sysAlloc : ∀ a0 a1 a2 a3, Statement (.sysAlloc a0 a1 a2 a3) := fun _ _ _ _ => trivial
theorem sysFree : ∀ a0 a1, Statement (.sysFree a0 a1) := fun _ _ => trivial
theorem vaultWindow : ∀ a0 a1, Statement (.vaultWindow a0 a1) := fun _ _ => trivial
theorem attest : ∀ a0 a1, Statement (.attest a0 a1) := fun _ _ => trivial
theorem binTimerExpiry : ∀ a0 a1, Statement (.binTimerExpiry a0 a1) := fun _ _ => trivial
theorem spawnGroupForm : ∀ a0 a1, Statement (.spawnGroupForm a0 a1) := fun _ _ => trivial
theorem groupRetire : ∀ a0, Statement (.groupRetire a0) := fun _ => trivial
theorem launchSubmit : ∀ a0 a1 a2 a3, Statement (.launchSubmit a0 a1 a2 a3) := fun _ _ _ _ => trivial
theorem launchRecordRead : ∀ a0, Statement (.launchRecordRead a0) := fun _ => trivial
theorem launchDepsDone : ∀ a0, Statement (.launchDepsDone a0) := fun _ => trivial
theorem launchStartTime : ∀ a0, Statement (.launchStartTime a0) := fun _ => trivial
theorem distributorConsider : Statement .distributorConsider := trivial
theorem headAgingExpiry : Statement .headAgingExpiry := trivial
theorem genPassDone : ∀ a0 a1, Statement (.genPassDone a0 a1) := fun _ _ => trivial
theorem l1Fill : ∀ a0, Statement (.l1Fill a0) := fun _ => trivial
theorem copyAccept : ∀ a0 a1, Statement (.copyAccept a0 a1) := fun _ _ => trivial
theorem copyServeBegin : ∀ a0 a1, Statement (.copyServeBegin a0 a1) := fun _ _ => trivial
theorem copyRowDeliver : ∀ a0 a1, Statement (.copyRowDeliver a0 a1) := fun _ _ => trivial
theorem copyRowSkip : ∀ a0 a1, Statement (.copyRowSkip a0 a1) := fun _ _ => trivial
theorem copyStop : ∀ a0 a1, Statement (.copyStop a0 a1) := fun _ _ => trivial
theorem copyCancel : ∀ a0 a1, Statement (.copyCancel a0 a1) := fun _ _ => trivial
theorem quarterArrive : ∀ a0, Statement (.quarterArrive a0) := fun _ => trivial
theorem passWindowExpiry : ∀ a0, Statement (.passWindowExpiry a0) := fun _ => trivial
theorem passStart : ∀ a0, Statement (.passStart a0) := fun _ => trivial
theorem passWriteback : ∀ a0, Statement (.passWriteback a0) := fun _ => trivial
theorem tileOpEffect : ∀ a0, Statement (.tileOpEffect a0) := fun _ => trivial
theorem claimGrant : ∀ a0, Statement (.claimGrant a0) := fun _ => trivial
theorem releaseDone : ∀ a0, Statement (.releaseDone a0) := fun _ => trivial
theorem programStart : ∀ a0 a1, Statement (.programStart a0 a1) := fun _ _ => trivial
theorem programEnd : ∀ a0 a1, Statement (.programEnd a0 a1) := fun _ _ => trivial
theorem parkComplete : ∀ a0, Statement (.parkComplete a0) := fun _ => trivial
theorem unitRestore : ∀ a0, Statement (.unitRestore a0) := fun _ => trivial
theorem worldScrub : ∀ a0, Statement (.worldScrub a0) := fun _ => trivial
theorem park : ∀ a0, Statement (.park a0) := fun _ => trivial
theorem resume : ∀ a0, Statement (.resume a0) := fun _ => trivial
theorem reflect : ∀ a0, Statement (.reflect a0) := fun _ => trivial
theorem terminate : ∀ a0, Statement (.terminate a0) := fun _ => trivial
theorem capload : ∀ a0, Statement (.capload a0) := fun _ => trivial
theorem capstore : ∀ a0, Statement (.capstore a0) := fun _ => trivial
theorem pwdataRead : ∀ a0, Statement (.pwdataRead a0) := fun _ => trivial
theorem pwdataWrite : ∀ a0 a1, Statement (.pwdataWrite a0 a1) := fun _ _ => trivial
theorem registerWrite : ∀ a0 a1, Statement (.registerWrite a0 a1) := fun _ _ => trivial
theorem rvStart : Statement .rvStart := trivial
theorem revokeWalkGroups : Statement .revokeWalkGroups := trivial
theorem revokeWalkPages : Statement .revokeWalkPages := trivial
theorem revokeSweepDone : Statement .revokeSweepDone := trivial
theorem rsStep : ∀ a0 a1, Statement (.rsStep a0 a1) := fun _ _ => trivial
theorem residencyStepApply : ∀ a0, Statement (.residencyStepApply a0) := fun _ => trivial
theorem rsEnable : ∀ a0 a1, Statement (.rsEnable a0 a1) := fun _ _ => trivial
theorem rsDisable : ∀ a0, Statement (.rsDisable a0) := fun _ => trivial
theorem rsClrovf : ∀ a0, Statement (.rsClrovf a0) := fun _ => trivial
theorem residencyLoadDone : ∀ a0, Statement (.residencyLoadDone a0) := fun _ => trivial
theorem bump : ∀ a0, Statement (.bump a0) := fun _ => trivial
theorem invalidateRange : ∀ a0, Statement (.invalidateRange a0) := fun _ => trivial
theorem invalidateRangeAll : Statement .invalidateRangeAll := trivial
theorem dumpCounters : ∀ a0, Statement (.dumpCounters a0) := fun _ => trivial
theorem translationCmdDone : Statement .translationCmdDone := trivial
theorem rfctlAll : Statement .rfctlAll := trivial
theorem rfctlAsid : Statement .rfctlAsid := trivial
theorem rfctlRange : Statement .rfctlRange := trivial
theorem rfctlRangeAllAsids : Statement .rfctlRangeAllAsids := trivial
theorem rfctlIcache : ∀ a0, Statement (.rfctlIcache a0) := fun _ => trivial
theorem rfRequestDone : Statement .rfRequestDone := trivial
theorem leaseOffer : ∀ a0, Statement (.leaseOffer a0) := fun _ => trivial
theorem leaseGrant : ∀ a0, Statement (.leaseGrant a0) := fun _ => trivial
theorem leaseWithdraw : ∀ a0, Statement (.leaseWithdraw a0) := fun _ => trivial
theorem lenderRenew : ∀ a0, Statement (.lenderRenew a0) := fun _ => trivial
theorem leaseRecall : ∀ a0, Statement (.leaseRecall a0) := fun _ => trivial
theorem leaseClear : ∀ a0, Statement (.leaseClear a0) := fun _ => trivial
theorem slotClaim : ∀ a0, Statement (.slotClaim a0) := fun _ => trivial
theorem borrowerRenew : ∀ a0, Statement (.borrowerRenew a0) := fun _ => trivial
theorem leaseReturn : ∀ a0, Statement (.leaseReturn a0) := fun _ => trivial
theorem slotRelease : ∀ a0, Statement (.slotRelease a0) := fun _ => trivial
theorem leaseCancel : ∀ a0, Statement (.leaseCancel a0) := fun _ => trivial
theorem addCapacity : ∀ a0 a1, Statement (.addCapacity a0 a1) := fun _ _ => trivial
theorem grantRefused : ∀ a0, Statement (.grantRefused a0) := fun _ => trivial
theorem forcedRelease : ∀ a0, Statement (.forcedRelease a0) := fun _ => trivial
theorem lenderExpiry : ∀ a0, Statement (.lenderExpiry a0) := fun _ => trivial
theorem slotExpiry : ∀ a0, Statement (.slotExpiry a0) := fun _ => trivial
theorem leaseFlushDone : ∀ a0, Statement (.leaseFlushDone a0) := fun _ => trivial
theorem returnArrive : ∀ a0, Statement (.returnArrive a0) := fun _ => trivial
theorem lenderLost : ∀ a0, Statement (.lenderLost a0) := fun _ => trivial
theorem slotLost : ∀ a0, Statement (.slotLost a0) := fun _ => trivial
theorem backInvalidate : ∀ a0 a1, Statement (.backInvalidate a0 a1) := fun _ _ => trivial
theorem forwardedAccess : ∀ a0, Statement (.forwardedAccess a0) := fun _ => trivial
theorem inboundWrite : ∀ a0 a1 a2, Statement (.inboundWrite a0 a1 a2) := fun _ _ _ => trivial
theorem ksCreate : ∀ a0 a1, Statement (.ksCreate a0 a1) := fun _ _ => trivial
theorem ksMeasure : ∀ a0, Statement (.ksMeasure a0) := fun _ => trivial
theorem ksFinal : ∀ a0, Statement (.ksFinal a0) := fun _ => trivial
theorem ksDestroy : ∀ a0, Statement (.ksDestroy a0) := fun _ => trivial
theorem beacon : Statement .beacon := trivial
theorem beaconReceived : ∀ a0 a1 a2, Statement (.beaconReceived a0 a1 a2) := fun _ _ _ => trivial
theorem managerTimeout : Statement .managerTimeout := trivial
theorem managerStepDown : ∀ a0, Statement (.managerStepDown a0) := fun _ => trivial
theorem syncGained : ∀ a0, Statement (.syncGained a0) := fun _ => trivial
theorem syncLost : Statement .syncLost := trivial
theorem linkUp : ∀ a0 a1 a2 a3, Statement (.linkUp a0 a1 a2 a3) := fun _ _ _ _ => trivial
theorem linkDown : ∀ a0, Statement (.linkDown a0) := fun _ => trivial
theorem upstreamHotReset : ∀ a0, Statement (.upstreamHotReset a0) := fun _ => trivial
theorem sequenceWarning : ∀ a0, Statement (.sequenceWarning a0) := fun _ => trivial
theorem debugD0 : ∀ a0, Statement (.debugD0 a0) := fun _ => trivial
theorem debugD1 : Statement .debugD1 := trivial
theorem debugD2 : Statement .debugD2 := trivial
theorem debugD3 : Statement .debugD3 := trivial
theorem coldBoot : Statement .coldBoot := trivial
theorem coreClose : ∀ a0, Statement (.coreClose a0) := fun _ => trivial
theorem coreReopen : ∀ a0, Statement (.coreReopen a0) := fun _ => trivial
theorem clockStepDown : Statement .clockStepDown := trivial
theorem thermalShutdown : Statement .thermalShutdown := trivial
theorem firmwareUpdate : ∀ a0, Statement (.firmwareUpdate a0) := fun _ => trivial
theorem contextSwitch : ∀ a0, Statement (.contextSwitch a0) := fun _ => trivial
theorem supervisorFence : ∀ a0, Statement (.supervisorFence a0) := fun _ => trivial
theorem evtail : ∀ a0 a1, Statement (.evtail a0 a1) := fun _ _ => trivial
theorem uncorrectableSoftError : ∀ a0, Statement (.uncorrectableSoftError a0) := fun _ => trivial
theorem clockStepUp : Statement .clockStepUp := trivial
theorem powerGate : ∀ a0 a1, Statement (.powerGate a0 a1) := fun _ _ => trivial
theorem wakeWithZeroing : ∀ a0, Statement (.wakeWithZeroing a0) := fun _ => trivial
theorem pbrIdentifierAssign : ∀ a0, Statement (.pbrIdentifierAssign a0) := fun _ => trivial
theorem inboundRead : ∀ a0 a1 a2, Statement (.inboundRead a0 a1 a2) := fun _ _ _ => trivial

end Sys2Proof.Laws.F
end

