-- ==== Sys2Proof/Laws/Traps.lean ====
section
/-! SUPPORT. Taking an exception: what an event record changes, what the rows of a trap window take, the three ways in which
an exception is taken, and what a stop comes to (R24, R346, R359, R365). -/

namespace Sys2Proof.Machine

/-! ### Event records -/

/-- Writing held-back event records changes memory and the supervisor registers of one core, and nothing else. -/
theorem coreDrain_keeps (core n : Nat) : ∀ s : State,
    (coreDrain core n s).groups = s.groups ∧ (coreDrain core n s).teams = s.teams ∧ (coreDrain core n s).time = s.time ∧
    (coreDrain core n s).ctr = s.ctr ∧ ∀ i, i ≠ core → (coreDrain core n s).core i = s.core i := by
  induction n with
  | zero => exact fun s => ⟨rfl, rfl, rfl, rfl, fun _ _ => rfl⟩
  | succ n ih =>
    intro s
    simp only [coreDrain]
    split
    · exact ⟨rfl, rfl, rfl, rfl, fun _ _ => rfl⟩
    · split
      · exact ⟨rfl, rfl, rfl, rfl, fun _ _ => rfl⟩
      · obtain ⟨h1, h2, h3, h4, h5⟩ := ih _
        have hd := fun pa bs => devWrite_wrote s pa bs
        refine ⟨h1.trans (hd _ _).groups, h2.trans (hd _ _).teams, h3.trans (hd _ _).time, h4.trans (hd _ _).ctr,
          fun i hi => (h5 i hi).trans ?_⟩
        rw [State.core_onCore, if_neg hi]; exact (hd _ _).core i

theorem coreEvent_keeps (s : State) (core : Nat) (r : List Byte) :
    (coreEvent s core r).groups = s.groups ∧ (coreEvent s core r).teams = s.teams ∧ (coreEvent s core r).time = s.time ∧
    (coreEvent s core r).ctr = s.ctr ∧ ∀ i, i ≠ core → (coreEvent s core r).core i = s.core i := by
  obtain ⟨h1, h2, h3, h4, h5⟩ := coreDrain_keeps core
    ((s.onCore core (fun c => { c with sup := { c.sup with waiting := c.sup.waiting ++ [r] } })).core core).sup.waiting.length
    (s.onCore core (fun c => { c with sup := { c.sup with waiting := c.sup.waiting ++ [r] } }))
  exact ⟨h1, h2, h3, h4, fun i hi => (h5 i hi).trans (by rw [State.core_onCore, if_neg hi])⟩

/-- An event record leaves every group as it stood. -/
@[simp] theorem coreEvent_group (s : State) (core : Nat) (r : List Byte) (k : Nat) : (coreEvent s core r).group k = s.group k :=
  congrArg (fun t => Tab.look t k) (coreEvent_keeps s core r).1

/-! ### The window's rows (R36, R44) -/

/-- A window takes its eight rows from the general ones first; its group notes how many came from the reserve, and no other
group changes. -/
theorem takeWindow_spec {s s' : State} {k : Nat} {g : Group} (hg : s.group k = some g) (h : takeWindow s k = some s') :
    s'.mem = s.mem ∧ (∀ j, j ≠ k → s'.group j = s.group j) ∧
    s'.group k = some { g with ids := { g.ids with rsv := 8 - min 8 ((s.core (coreOf k)).part (partOf k)).gen } } := by
  simp only [takeWindow] at h
  split at h
  · cases h
    refine ⟨?_, fun j hj => ?_, ?_⟩
    · simp [State.onGroup, hg]
    · rw [State.group_onGroup, if_neg hj]; rfl
    · rw [State.group_onGroup, if_pos rfl]
      show (s.group k).map _ = _
      rw [hg]; rfl
  · cases h

/-! ### The three ways an exception is taken -/

/-- To the supervisor core where the cause goes there, in trap mode, or without a handler (R354, R360): the group holds the
delivery and stands parked at it, a PARK under way going on (R370), and the other groups are as they were. -/
theorem takeException_sup {s : State} {k : Nat} {g : Group} {d : Delivery} (hg : s.group k = some g)
    (h : (causeSup (d.tcause.extractLsb' 8 8) || g.trap.isSome || !g.hasHandler) = true) :
    (takeException s k d).group k =
      some { g with
        sup := some { d with inHandler := g.trap.isSome }, park := if g.park = .requested then .requested else .delivered, deliv := none } ∧
    ∀ j, j ≠ k → (takeException s k d).group j = s.group j := by
  simp only [takeException, hg, h, if_true, deliverSup, coreEvent_group]
  exact ⟨by rw [State.group_setGroup_if, if_pos rfl], fun j hj => by rw [State.group_setGroup_if, if_neg hj]⟩

/-- Where the window's rows cannot be taken the delivery waits with its group (R359). -/
theorem takeException_waits {s : State} {k : Nat} {g : Group} {d : Delivery} (hg : s.group k = some g)
    (h : (causeSup (d.tcause.extractLsb' 8 8) || g.trap.isSome || !g.hasHandler) = false) (hw : takeWindow s k = none) :
    takeException s k d = s.setGroup k { g with deliv := some d } := by
  simp only [takeException, hg, h, hw, Bool.false_eq_true, if_false]

/-- Otherwise the group enters its handler, with the rows of its window (R346). -/
theorem takeException_enters {s s' : State} {k : Nat} {g : Group} {d : Delivery} (hg : s.group k = some g)
    (h : (causeSup (d.tcause.extractLsb' 8 8) || g.trap.isSome || !g.hasHandler) = false) (hw : takeWindow s k = some s') :
    takeException s k d = s'.setGroup k
      (enterHandler { g with ids := { g.ids with rsv := 8 - min 8 ((s.core (coreOf k)).part (partOf k)).gen } } d) := by
  simp only [takeException, hg, h, hw, Bool.false_eq_true, if_false, (takeWindow_spec hg hw).2.2]

/-! ### What a stop comes to -/

@[simp] theorem dropRefused_group (s : State) (a : Nat) (st : Stop) (k : Nat) : (dropRefused s a st).group k = s.group k := by
  unfold dropRefused; split <;> rfl

@[simp] theorem dropRefused_mem (s : State) (a : Nat) (st : Stop) : (dropRefused s a st).mem = s.mem := by
  unfold dropRefused; split <;> rfl

/-- A stop that waits for another package stands at its thread and takes no exception (R435). -/
theorem stopSweep_waits {s : State} {w : Sw} {g : Group} (hg : s.group w.gk = some g) (ti : W32) (t : Nat) (st : Stop)
    (hc : st.cause = cWAIT) (df : KeySet) (fl : Flags) (d : Tab W64) (n : Option Nat) :
    stopSweep s w ti t st df fl d n = drained (awaitPeer (dropRefused s w.g.ids.asid st) st) w t df fl d n := by
  simp [stopSweep, hg, hc]

/-- In an engine program a stop ends the program (R261). -/
theorem stopSweep_program {s : State} {w : Sw} {g : Group} (hd : g.drain = none) (hg : s.group w.gk = some g)
    (hp : g.prog.isSome = true) (ti : W32) (t : Nat) (st : Stop) (hc : st.cause ≠ cWAIT) (df : KeySet) (fl : Flags) (d : Tab W64)
    (n : Option Nat) :
    stopSweep s w ti t st df fl d n = endProgram (dropRefused s w.g.ids.asid st) w.gk (stopStatus st.cause) := by
  simp [stopSweep, hd, hg, hp, hc]

/-- The younger sweeps in flight behind one that stops at thread t: those that the agenda finds, or those that have begun. -/
def inFlightBehind (s : State) (w : Sw) (g : Group) (t : Nat) (df : KeySet) (fl : Flags) (d : Tab W64) (n : Option Nat) : Nat :=
  max g.sched.ahead (begun ((holdAt g 0 w.replay (heldAt s w t df fl d n)).held.drop 1))

/-- With no younger sweep in flight the sweep is held at its thread and the exception is taken (R24). -/
theorem stopSweep_alone {s : State} {w : Sw} {g : Group} (hd : g.drain = none) (hg : s.group w.gk = some g)
    (hp : g.prog = none) (ti : W32) (t : Nat) (st : Stop) (hc : st.cause ≠ cWAIT) (df : KeySet) (fl : Flags) (d : Tab W64)
    (n : Option Nat) (ha : inFlightBehind (dropRefused s w.g.ids.asid st) w g t df fl d n = 0) :
    let s' := dropRefused s w.g.ids.asid st
    stopSweep s w ti t st df fl d n =
      takeException (s'.setGroup w.gk (holdAt g 0 w.replay (heldAt s' w t df fl d n))) w.gk
        ⟨st.cause ++ (0 : BitVec 8), t, [t], BitVec.ofNat 64 w.iaddr, ti, w.seq, st.faddr, st.detail, false⟩ := by
  have e : ∀ h, (holdAt g 0 w.replay h).sched.ahead = g.sched.ahead := fun _ => rfl
  simp only [inFlightBehind] at ha
  simp only [stopSweep, dropRefused_group, hg, hd, hp, hc, e, ha, Option.isSome_none, Bool.false_eq_true, if_false, if_true]

/-- With younger ones in flight the delivery waits until they are drained below that thread (R24). -/
theorem stopSweep_drains {s : State} {w : Sw} {g : Group} (hd : g.drain = none) (hg : s.group w.gk = some g)
    (hp : g.prog = none) (ti : W32) (t : Nat) (st : Stop) (hc : st.cause ≠ cWAIT) (df : KeySet) (fl : Flags) (d : Tab W64)
    (n : Option Nat) (ha : inFlightBehind (dropRefused s w.g.ids.asid st) w g t df fl d n ≠ 0) :
    ∃ g', (stopSweep s w ti t st df fl d n) = (dropRefused s w.g.ids.asid st).setGroup w.gk g' ∧ g'.th = g.th ∧ g'.sup = g.sup ∧
      g'.trap = g.trap ∧ g'.drain = some ⟨t, inFlightBehind (dropRefused s w.g.ids.asid st) w g t df fl d n, 1,
        some ⟨st.cause ++ (0 : BitVec 8), t, [t], BitVec.ofNat 64 w.iaddr, ti, w.seq, st.faddr, st.detail, false⟩⟩ := by
  have e : ∀ h, (holdAt g 0 w.replay h).sched.ahead = g.sched.ahead := fun _ => rfl
  simp only [inFlightBehind] at ha ⊢
  simp only [stopSweep, dropRefused_group, hg, hd, hp, hc, e, ha, Option.isSome_none, Bool.false_eq_true, if_false]
  exact ⟨_, rfl, rfl, rfl, rfl, rfl⟩

/-- A group that is not in trap mode has nothing to return from. -/
theorem returnFrom_idle {s : State} {k : Nat} {g : Group} (hg : s.group k = some g) (ht : g.trap = none) :
    returnFrom s k = s := by simp [returnFrom, hg, ht]

end Sys2Proof.Machine
end

