-- ==== Sys2Proof/Tests/Slice0.lean ====
section
/-! SUPPORT. The model's own tests: ill-formed terms that the checks refuse, words that the spec writes out, states that
meet the hypotheses of the statements, and worked examples of the spec. Expected values come from the spec. -/

set_option Elab.async false

namespace Sys2Proof.Tests

open Sys2Proof.Machine

/-! ### Terms -/

/-- Fields of an extended instruction: unpredicated, all registers 0. -/
def x0 : Ext :=
  { u := false, d := 0, a := 0, b := 0, la := false, lb := false, c := 0, lc := false, pr := 7, pn := false, hold := 0,
    ty := 0, rnd := 0, sat := false, modA := 0, modB := 0, imm := 0, lit := none }

def o0 : Base := { u := false, d := 0, a := 0, b := 0, la := false, lb := false }

def tx (ty : BitVec 6) : Ext := { x0 with ty := ty }

/-! ### Ill-formed terms (R134): one for each check -/

theorem test_wf_uniform : (Instr.sel { o0 with u := true }).wf = false := by decide
theorem test_wf_type : (Instr.iaddX (tx 0x11)).wf = false ∧ (Instr.fexp2 (tx 0x10)).wf = false := by decide
theorem test_wf_imm : (Instr.icmp { tx 2 with imm := 6 }).wf = false ∧ (Instr.unpk { tx 0x14 with imm := 4 }).wf = false := by
  decide
theorem test_wf_rounding : (Instr.faddX { tx 0x11 with rnd := 7 }).wf = false := by decide
theorem test_wf_pair : (Instr.iaddX { tx 3 with d := 1 }).wf = false ∧ (Instr.iaddX { tx 3 with a := 1 }).wf = false ∧
    (Instr.iaddX { tx 3 with b := 1 }).wf = false ∧ (Instr.imad { tx 3 with c := 1 }).wf = false := by decide
theorem test_wf_group_register : (Instr.iadd { o0 with u := true, a := 64 }).wf = false := by decide
theorem test_wf_predicate_number : (Instr.pnot { x0 with d := 8 }).wf = false := by decide
theorem test_wf_last_read : (Instr.ld { x0 with la := true, ty := 2 }).wf = false ∧
    (Instr.iadd { o0 with u := true, lb := true }).wf = false ∧ (Instr.selX { tx 2 with lc := true }).wf = false := by decide
theorem test_wf_modifier : (Instr.pack { tx 0x14 with modA := 1 }).wf = false ∧
    (Instr.movX { tx 2 with modB := 0x401 }).wf = true ∧ (Instr.movX { tx 2 with modB := 0x402 }).wf = false := by decide
theorem test_wf_capability_field : (Instr.refmov { x0 with d := 32 }).wf = false ∧ (Instr.tld { x0 with ty := 2 }).wf = false ∧
    (Instr.refmov { x0 with u := true }).wf = false := by decide
theorem test_wf_offset : (Instr.ret { x0 with modA := 1 }).wf = false := by decide
theorem test_wf_unpredicated : (Instr.bar { x0 with pr := 0 }).wf = false := by decide
theorem test_wf_literal : (Instr.iaddX { tx 2 with lit := some 5, b := 1 }).wf = false ∧
    (Instr.cpy { x0 with lit := some 0 }).wf = false := by decide
theorem test_wf_header : (Instr.clauseHeader 0 12 15 0).wf = false ∧ (Instr.clauseHeader 0 15 3 0).wf = false ∧
    (Instr.ill 0 0).wf = false := by decide


/-! ### Every constructor from the words that the maps give it (R108, R109, R111, R126 to R131): D 1, A 2, B 3; C 5, p7; IMM8 9 -/

def e1 : Ext := { x0 with d := 1, a := 2, b := 3, c := 5, imm := 9 }
def o1 : Base := { o0 with d := 1, a := 2, b := 3 }

/-- The decoder reads the extended instruction with this major and minor as i. -/
def reads (op fn : W32) (i : Instr) : Bool :=
  match decode [0x01820201 + 4 * op, 0x00070500 + fn, 0x09000000] with
  | .ok (j, []) => decide (j = i)
  | _ => false

theorem test_decode_base : ∀ x ∈ ([
   (0x1, .iadd o1, .iaddLit o1 7), (0x2, .isub o1, .isubLit o1 7), (0x3, .imul o1, .imulLit o1 7), (0x4, .andI o1,
   .andLit o1 7), (0x5, .orI o1, .orLit o1 7), (0x6, .xorI o1, .xorLit o1 7), (0x7, .shl o1, .shlLit o1 7), (0x8, .shr
   o1, .shrLit o1 7), (0x9, .sar o1, .sarLit o1 7), (0xa, .imin o1, .iminLit o1 7), (0xb, .imax o1, .imaxLit o1 7),
   (0xc, .mov o1, .movLit o1 7), (0xd, .sel o1, .selLit o1 7), (0xf, .fadd o1, .faddLit o1 7), (0x10, .fsub o1,
   .fsubLit o1 7), (0x11, .fmul o1, .fmulLit o1 7), (0x12, .ffma o1, .ffmaLit o1 7), (0x13, .fmin o1, .fminLit o1 7),
   (0x14, .fmax o1, .fmaxLit o1 7), (0x16, .ldw o1, .ldwLit o1 7), (0x17, .stw o1, .stwLit o1 7)] : List (W32 × Instr × Instr)),
    decode [0x01820200 + 4 * x.1] = .ok (x.2.1, []) ∧ decode [0x01820202 + 4 * x.1, 7, 0] = .ok (x.2.2, []) := by decide +kernel

theorem test_decode_20 :
    (reads 0x20 0x1 (.iaddX e1) && reads 0x20 0x2 (.isubX e1) && reads 0x20 0x3 (.imulX e1) && reads 0x20 0x4 (.andX
    e1) && reads 0x20 0x5 (.orX e1) && reads 0x20 0x6 (.xorX e1) && reads 0x20 0x7 (.shlX e1) && reads 0x20 0x8 (.shrX
    e1) && reads 0x20 0x9 (.sarX e1) && reads 0x20 0xa (.iminX e1) && reads 0x20 0xb (.imaxX e1) && reads 0x20 0xc
    (.movX e1) && reads 0x20 0xd (.selX e1) && reads 0x20 0x10 (.imulh e1) && reads 0x20 0x11 (.imad e1) && reads 0x20
    0x12 (.idiv e1) && reads 0x20 0x13 (.irem e1) && reads 0x20 0x14 (.iabs e1) && reads 0x20 0x15 (.ineg e1) && reads
    0x20 0x16 (.andn e1) && reads 0x20 0x17 (.rol e1) && reads 0x20 0x18 (.popc e1) && reads 0x20 0x19 (.clz e1) &&
    reads 0x20 0x1a (.brev e1) && reads 0x20 0x1b (.bfe e1) && reads 0x20 0x1c (.bfi e1) && reads 0x20 0x1d (.icmp
    e1)) = true := by
  decide +kernel

theorem test_decode_21 :
    (reads 0x21 0xf (.faddX e1) && reads 0x21 0x10 (.fsubX e1) && reads 0x21 0x11 (.fmulX e1) && reads 0x21 0x12
    (.ffmaX e1) && reads 0x21 0x13 (.fminX e1) && reads 0x21 0x14 (.fmaxX e1) && reads 0x21 0x20 (.fcmp e1) && reads
    0x21 0x21 (.fclass e1) && reads 0x21 0x22 (.fround e1) && reads 0x21 0x23 (.ffract e1)) = true := by
  decide +kernel

theorem test_decode_22 :
    (reads 0x22 0x1 (.frcp e1) && reads 0x22 0x2 (.frsq e1) && reads 0x22 0x3 (.fsqrt e1) && reads 0x22 0x4 (.fdiv e1)
    && reads 0x22 0x5 (.fexp2 e1) && reads 0x22 0x6 (.flog2 e1) && reads 0x22 0x7 (.fsin e1) && reads 0x22 0x8 (.fcos
    e1)) = true := by
  decide +kernel

theorem test_decode_23 :
    (reads 0x23 0x1 (.hadd2 e1) && reads 0x23 0x2 (.hmul2 e1) && reads 0x23 0x3 (.hfma2 e1) && reads 0x23 0x4 (.idp4
    e1) && reads 0x23 0x5 (.fdp2 e1)) = true := by
  decide +kernel

theorem test_decode_24 :
    (reads 0x24 0x1 (.cvt e1) && reads 0x24 0x2 (.pack e1) && reads 0x24 0x3 (.unpk e1) && reads 0x24 0x4 (.bfpenc
    e1)) = true := by
  decide +kernel

theorem test_decode_25 :
    (reads 0x25 0x1 (.prev e1) && reads 0x25 0x2 (.nextI e1) && reads 0x25 0x3 (.scan e1) && reads 0x25 0x4 (.segscan
    e1) && reads 0x25 0x5 (.red e1) && reads 0x25 0x6 (.vote e1) && reads 0x25 0x7 (.rank e1) && reads 0x25 0x8
    (.compact e1) && reads 0x25 0x9 (.topk e1)) = true := by
  decide +kernel

theorem test_decode_26 :
    (reads 0x26 0x1 (.pset e1) && reads 0x26 0x2 (.psetLead e1) && reads 0x26 0x3 (.pand e1) && reads 0x26 0x4 (.por
    e1) && reads 0x26 0x5 (.pxor e1) && reads 0x26 0x6 (.pnot e1) && reads 0x26 0x7 (.pmov e1)) = true := by
  decide +kernel

theorem test_decode_27 :
    (reads 0x27 0x1 (.bra e1) && reads 0x27 0x2 (.brc e1) && reads 0x27 0x3 (.jmp e1) && reads 0x27 0x4 (.call e1) &&
    reads 0x27 0x5 (.callr e1) && reads 0x27 0x6 (.ret e1) && reads 0x27 0x7 (.exit e1) && reads 0x27 0x8 (.yield e1)
    && reads 0x27 0x9 (.nop e1)) = true := by
  decide +kernel

theorem test_decode_28 :
    (reads 0x28 0x1 (.bar e1) && reads 0x28 0x2 (.barc e1) && reads 0x28 0x3 (.spawn e1) && reads 0x28 0x4 (.bincfg
    e1) && reads 0x28 0x5 (.time e1) && reads 0x28 0x6 (.atI e1) && reads 0x28 0x7 (.sleep e1)) = true := by
  decide +kernel

theorem test_decode_29 :
    (reads 0x29 0x1 (.sys e1) && reads 0x29 0x2 (.trap e1) && reads 0x29 0x3 (.eret e1) && reads 0x29 0x4 (.trapcfg
    e1) && reads 0x29 0x5 (.rget e1) && reads 0x29 0x6 (.rset e1) && reads 0x29 0x7 (.sregr e1) && reads 0x29 0x8
    (.sregw e1)) = true := by
  decide +kernel

theorem test_decode_2a :
    (reads 0x2a 0x1 (.ld e1) && reads 0x2a 0x2 (.lda e1) && reads 0x2a 0x3 (.pref e1)) = true := by
  decide +kernel

theorem test_decode_2b :
    (reads 0x2b 0x1 (.st e1) && reads 0x2b 0x2 (.stl e1)) = true := by
  decide +kernel

theorem test_decode_2c :
    (reads 0x2c 0x1 (.ldc e1) && reads 0x2c 0x2 (.stc e1)) = true := by
  decide +kernel

theorem test_decode_2d :
    (reads 0x2d 0x1 (.amoAdd e1) && reads 0x2d 0x2 (.amoAnd e1) && reads 0x2d 0x3 (.amoOr e1) && reads 0x2d 0x4
    (.amoXor e1) && reads 0x2d 0x5 (.amoMin e1) && reads 0x2d 0x6 (.amoMax e1) && reads 0x2d 0x7 (.amoSwap e1) &&
    reads 0x2d 0x8 (.amoCas e1) && reads 0x2d 0x9 (.amocSwap e1) && reads 0x2d 0xa (.amocCas e1)) = true := by
  decide +kernel

theorem test_decode_2e :
    (reads 0x2e 0x1 (.fence e1)) = true := by
  decide +kernel

theorem test_decode_2f :
    (reads 0x2f 0x1 (.tld e1) && reads 0x2f 0x2 (.tst e1)) = true := by
  decide +kernel

theorem test_decode_30 :
    (reads 0x30 0x1 (.refadr e1) && reads 0x30 0x2 (.refbase e1) && reads 0x30 0x3 (.reflen e1) && reads 0x30 0x4
    (.refperm e1) && reads 0x30 0x5 (.reftype e1) && reads 0x30 0x6 (.refseta e1) && reads 0x30 0x7 (.refadd e1) &&
    reads 0x30 0x8 (.refnar e1) && reads 0x30 0x9 (.refnarx e1) && reads 0x30 0xa (.refdrop e1) && reads 0x30 0xb
    (.refwrap e1) && reads 0x30 0xc (.refunwr e1) && reads 0x30 0xd (.refchk e1) && reads 0x30 0xe (.refvoid e1) &&
    reads 0x30 0xf (.refdiff e1) && reads 0x30 0x10 (.refeq e1) && reads 0x30 0x11 (.refmint e1) && reads 0x30 0x12
    (.refmov e1)) = true := by
  decide +kernel

theorem test_decode_31 :
    (reads 0x31 0x1 (.cpy e1) && reads 0x31 0x2 (.cpyc e1) && reads 0x31 0x3 (.cpyw e1)) = true := by
  decide +kernel

theorem test_decode_32 :
    (reads 0x32 0x1 (.setfmt e1) && reads 0x32 0x2 (.claim e1) && reads 0x32 0x3 (.release e1) && reads 0x32 0x4 (.mma
    e1) && reads 0x32 0x5 (.mmz e1) && reads 0x32 0x6 (.accrd e1) && reads 0x32 0x7 (.accwr e1)) = true := by
  decide +kernel

theorem test_decode_33 :
    (reads 0x33 0x1 (.fork e1) && reads 0x33 0x2 (.join e1) && reads 0x33 0x3 (.hwait e1) && reads 0x33 0x4 (.htest
    e1) && reads 0x33 0x5 (.hcancel e1) && reads 0x33 0x6 (.sth e1) && reads 0x33 0x7 (.ldh e1)) = true := by
  decide +kernel

theorem test_decode_34 :
    (reads 0x34 0x1 (.launch e1)) = true := by
  decide +kernel

theorem test_decode_long_literal :
    decode [0x01820283, 0x00070501, 0x09000000, 7, 1] = .ok (.iaddX { e1 with lit := some 0x100000007 }, []) := by decide +kernel

theorem test_decode_reserved : decode [0x00000038] = .error (.reservedMajor 0x0E) ∧
    decode [0x01820281, 0x0007001E, 0] = .error (.reservedMinor 0x20 0x1E) ∧ decode [0x000000D8] = .error (.reservedMajor 0x36) ∧
    decode [0x00000005] = .error (.lengthNotAccepted 1 1) ∧ decode [0x0000009F, 0, 0, 0, 0] = .error (.lengthNotAccepted 0x27 3) ∧
    decode [0x123456FE] = .ok (.ill 2 0x123456, []) := by decide +kernel

/-! ### Worked words of the spec (R147, R160, R163, R173, R218, R245, R253, Worked encodings) -/

theorem test_words_integer :
    decode [0x41820804] = .ok (.iadd { o0 with d := 4, a := 2, b := 3, la := true }, []) ∧
    decode [0x00060C06, 0x3E8, 0] = .ok (.iaddLit { o0 with d := 6, a := 6 } 1000, []) ∧
    decode [0x01820C81, 0x80478411, 0] =
      .ok (.imad { x0 with d := 6, a := 2, b := 3, c := 4, lc := true, ty := 1, sat := true }, []) ∧
    decode [0x02840481, 0x0187001D, 0x02000000] = .ok (.icmp { x0 with d := 2, a := 4, b := 5, ty := 6, imm := 2 }, []) := by decide +kernel

theorem test_words_float :
    decode [0x82821485, 0x144B000F, 0x581] =
      .ok (.faddX { x0 with d := 10, a := 2, b := 5, lb := true, pr := 3, pn := true, ty := 0x11, rnd := 1, modA := 0x581 }, []) ∧
    decode [0x00050E91, 0x85070001, 0x11000000] =
      .ok (.cvt { x0 with d := 7, a := 5, ty := 0x14, sat := true, imm := 0x11 }, []) ∧
    decode [0x40081891, 0x08470004, 0] = .ok (.bfpenc { x0 with d := 12, a := 8, la := true, ty := 0x21 }, []) := by decide +kernel

theorem test_words_flow :
    decode [0x2FF00000] = .ok (.clauseHeader 0 15 15 2, []) ∧ decode [0x22100900] = .ok (.clauseHeader 9 1 2 2, []) ∧
    decode [0x9D, 0x20001, 0xFFFFF9] = .ok (.bra { x0 with pr := 2, modA := 0xFF9, modB := 0xFFF }, []) := by decide +kernel

theorem test_words_memory :
    decode [0x020210A9, 0x04470001, 0] = .ok (.ld { x0 with d := 8, a := 2, b := 4, ty := 0x11 }, []) ∧
    decode [0x01030CB5, 0x00878501, 0x03000000] =
      .ok (.amoAdd { x0 with d := 6, a := 3, b := 2, c := 5, lc := true, ty := 2, imm := 3 }, []) := by decide +kernel

theorem test_words_engine :
    decode [0x042002C5, 0x00010001, 0x02000000] = .ok (.cpy { x0 with d := 1, a := 32, b := 8, pr := 1, imm := 2 }, []) ∧
    decode [0x038300C9, 0x00070204, 0x01000000] = .ok (.mma { x0 with a := 3, b := 7, c := 2, imm := 1 }, []) := by decide +kernel

/-! ### Instructions that execute normally -/

/-- Data authority over the first 2^20 bytes from 0x20000: LD, ST, LDC, STC, ROAM, ATOM (R86). -/
def heap : Cap := capMk 0x20000 0x100 0 12 false 0 0x205B true

def thread (v : List (Nat × W32)) : Thread := { newThread (codeAt placeAt) [] with v := v, c := [(0, heap), (1, heap)] }

/-- Two threads about to execute the one instruction of their clause at 0x10000. -/
def group : Group :=
  { newGroup ⟨0, 0, 0, 0, 128, 0, 0, 0⟩ [heap] [(0, thread [(2, 7)]), (1, thread [(2, 9)])] with
    clause := some ⟨placeAt, 1, 15, 15, false, [0, 1]⟩ }

def team : Team :=
  { num := 0, launch := 0, unit := 0, pos := 0, core := 0, idx := 0, vbase := 0, vlen := 0, slotCeil := 8, tileCeil := 4,
    slots := 4, tiles := 2, sdat := [], sscale := [], tdat := [], claim := none, relSlots := false, relTiles := false,
    nextGrp := 64, placed := true, retired := false }

/-- The machine with one group, its team, and an address space that maps onto physical memory. -/
def start (g : Group) : State := { (placeWords State.reset []).setGroup 0 g with teams := [(0, team)] }

/-- Instruction i executes normally at s, with p holding of its sweep. -/
def readyB (i : Instr) (s : State) (p : Sw → Bool) : Bool :=
  match sweepNow i s with
  | none => false
  | some w => (w.g.prog.isNone || engineOk w.f w.e) && legal i && placeOk w.g i w.e && !sbBlocked w && w.lim.isNone &&
      w.all.all (fun t => !abandonedAt w t) && rowsReady s w && w.g.drain.isNone && w.upTo.isNone && w.defer0 == [] &&
      (w.f.ll || w.flag.isNone) && p w

theorem readyB_sound (i : Instr) (s : State) (p : Sw → Bool) (h : readyB i s p = true) : ∃ w, Ready i s w ∧ p w = true := by
  unfold readyB at h
  cases hw : sweepNow i s with
  | none => simp [hw] at h
  | some w =>
    simp only [hw, Bool.and_eq_true, Bool.or_eq_true, Bool.not_eq_true', List.all_eq_true, beq_iff_eq] at h
    obtain ⟨⟨⟨⟨⟨⟨⟨⟨⟨⟨⟨h1, h2⟩, h3⟩, h4⟩, h5⟩, h6⟩, h7⟩, h11⟩, h12⟩, h8⟩, h9⟩, h10⟩ := h
    refine ⟨w, ⟨hw, ?_, h2, h3, h4, ?_, h6, h7, ?_, ?_, h8, ?_⟩, h10⟩
    · intro hp
      rcases h1 with h1 | h1
      · simp_all
      · exact h1
    · simpa using h5
    · simpa using h11
    · simpa using h12
    · intro hl
      rcases h9 with h9 | h9
      · simp_all
      · simpa using h9

def acting (w : Sw) : Bool := w.doers == [0, 1]

/-- Every encoded instruction but ERET, ILL and the header executes normally somewhere, for two threads. -/
theorem ready_base : ([.iadd o0, .iaddLit o0 1, .isub o0, .isubLit o0 1, .imul o0, .imulLit o0 1, .andI o0, .andLit o0 1,
    .orI o0, .orLit o0 1, .xorI o0, .xorLit o0 1, .shl o0, .shlLit o0 1, .shr o0, .shrLit o0 1, .sar o0, .sarLit o0 1,
    .imin o0, .iminLit o0 1, .imax o0, .imaxLit o0 1, .mov o0, .movLit o0 1, .sel o0, .selLit o0 1, .fadd o0, .faddLit o0 1,
    .fsub o0, .fsubLit o0 1, .fmul o0, .fmulLit o0 1, .ffma o0, .ffmaLit o0 1, .fmin o0, .fminLit o0 1, .fmax o0, .fmaxLit o0 1,
    .ldw o0, .ldwLit o0 16, .stw o0, .stwLit o0 16] : List Instr).all (fun i => readyB i (start group) acting) = true := by
  decide +kernel

theorem ready_integer : ([.iaddX (tx 6), .isubX (tx 6), .imulX (tx 6), .andX (tx 6), .orX (tx 6), .xorX (tx 6), .shlX (tx 6),
    .shrX (tx 6), .sarX (tx 6), .iminX (tx 6), .imaxX (tx 6), .movX (tx 6), .selX (tx 6), .imulh (tx 6), .imad (tx 6),
    .idiv (tx 6), .irem (tx 6), .iabs (tx 6), .ineg (tx 6), .andn (tx 6), .rol (tx 6), .popc (tx 6), .clz (tx 6), .brev (tx 6),
    .bfe (tx 6), .bfi (tx 6), .icmp (tx 6), .pset (tx 6), .psetLead x0, .pand x0, .por x0, .pxor x0, .pnot x0, .pmov x0]
    : List Instr).all (fun i => readyB i (start group) acting) = true := by decide +kernel

theorem ready_float : ([.faddX (tx 0x11), .fsubX (tx 0x11), .fmulX (tx 0x11), .ffmaX (tx 0x11), .fminX (tx 0x11),
    .fmaxX (tx 0x11), .fcmp (tx 0x11), .fclass (tx 0x11), .fround (tx 0x11), .ffract (tx 0x11), .frcp (tx 0x11), .frsq (tx 0x11),
    .fsqrt (tx 0x11), .fdiv (tx 0x11), .fexp2 (tx 0x11), .flog2 (tx 0x11), .fsin (tx 0x11), .fcos (tx 0x11), .hadd2 (tx 0x12),
    .hmul2 (tx 0x12), .hfma2 (tx 0x12), .idp4 (tx 4), .fdp2 (tx 0x12), .cvt (tx 0x11), .pack (tx 0x14), .unpk (tx 0x14),
    .bfpenc (tx 0x20)] : List Instr).all (fun i => readyB i (start group) acting) = true := by decide +kernel

theorem ready_flow : ([.prev (tx 6), .nextI (tx 6), .scan (tx 6), .segscan (tx 6), .red (tx 6), .vote x0, .rank (tx 6),
    .compact (tx 6), .topk (tx 6), .bra x0, .brc x0, .jmp x0, .call x0, .callr x0, .ret x0, .exit x0, .yield x0, .nop x0, .bar x0,
    .barc x0, .spawn x0, .bincfg x0, .time x0, .atI x0, .sleep x0, .sys x0, .trap x0, .trapcfg { x0 with a := 32 }, .sregr x0,
    .sregw { x0 with imm := 4 }] : List Instr).all (fun i => readyB i (start group) acting) = true := by
  decide +kernel

/-- The group in trap mode, both threads in the handler, v2 of the interrupted context mapped. -/
def trapped : Group := { group with trap := some ⟨0x1500, 0, [0, 1], 256, 0, none, [], []⟩, handler := codeAt placeAt, mapped := [2] }

theorem ready_handler : ([.eret x0, .rget { x0 with d := 120, a := 120 }, .rset { x0 with a := 120, b := 121 }, .sregr { x0 with imm := 8, d := 120 }]
    : List Instr).all (fun i => readyB i (start trapped) acting) = true := by decide +kernel

theorem ready_memory : ([.ld (tx 6), .lda (tx 6), .pref x0, .st (tx 6), .stl (tx 6), .ldc x0, .stc x0, .amoAdd (tx 6),
    .amoAnd (tx 6), .amoOr (tx 6), .amoXor (tx 6), .amoMin (tx 6), .amoMax (tx 6), .amoSwap (tx 6), .amoCas (tx 6), .amocSwap x0,
    .amocCas x0, .fence x0, .tld { tx 6 with a := 32 }, .tst { tx 6 with a := 32 }, .refadr x0, .refbase x0, .reflen x0,
    .refperm x0, .reftype x0, .refseta x0, .refadd x0, .refnar x0, .refnarx x0, .refdrop x0, .refwrap x0, .refunwr x0, .refchk x0,
    .refvoid x0, .refdiff x0, .refeq x0, .refmint x0, .refmov x0] : List Instr).all (fun i => readyB i (start group) acting) =
      true := by decide +kernel

theorem ready_engine : ([.cpy x0, .cpyc x0, .cpyw x0, .setfmt x0, .claim x0, .release x0, .mma x0, .mmz x0, .accrd x0, .accwr x0,
    .fork x0, .join x0, .hwait x0, .htest x0, .hcancel x0, .sth x0, .ldh x0, .launch x0] : List Instr).all
      (fun i => readyB i (start group) acting) = true := by decide +kernel

/-! ### States that meet the hypotheses of the statements -/

/-- No exception is enabled at reset, so nothing is raised that is enabled (R67). -/
theorem quiet_of_fpctl (w : Sw) (fl : Nat → Flags) (h : w.g.r.fpctl = 0) : Quiet w fl := by
  intro t _
  simp [trapFlags, fpEnabled, h]

/-- Every sweep of the ready tables has no exception enabled. -/
theorem ready_quiet : ([.iadd o0, .faddX (tx 0x11), .frcp (tx 0x11), .scan (tx 6), .red (tx 6), .pset (tx 6), .fdp2 (tx 0x12)] : List Instr).all
    (fun i => readyB i (start group) (fun w => w.g.r.fpctl == 0 && fpEnabled w.g == 0 && w.held.isNone)) = true := by decide +kernel

theorem witness_decodeOfEncode : (Instr.iadd o1).wf = true ∧ encode (.iadd o1) ≠ [] ∧ (Instr.clauseHeader 0 15 15 0).wf = true ∧
    encode (.clauseHeader 0 15 15 0) ≠ [] := by decide

/-- A modifier of each class with a segment of 16 and distance 5, at the last thread of a segment. -/
theorem witness_permutationOfSource : ∀ c : Fin 4,
    modOk .a .v false (BitVec.ofNat 12 (c.val * 2 ^ 10 + (if c.val = 0 then 0 else 3 * 2 ^ 7 + 5))) = true ∧
    ((BitVec.ofNat 12 (c.val * 2 ^ 10 + (if c.val = 0 then 0 else 3 * 2 ^ 7 + 5))).extractLsb' 10 2).toNat = c.val := by decide

/-- R117: rotation, exclusive-or and index within a segment of 16. -/
theorem test_permutation : perm 0x585 31 = 20 ∧ perm 0x985 31 = 26 ∧ perm 0xD85 31 = 21 ∧ perm 0 31 = 31 := by decide

/-- Nothing pending; a literal; group registers and vector registers, plain or with abs and negate. -/
theorem witness_operandForms :
    (readyB (.iaddLit o0 5) (start group) (fun w => w.g.pend == [] && w.held.isNone && w.e.lit == some 5) &&
    readyB (.iadd { o0 with u := true }) (start group) (fun w => w.g.pend == [] && w.held.isNone && w.f.m != .a && w.e.u) &&
    readyB (.iaddX { tx 6 with u := true }) (start group) (fun w => w.g.pend == [] && w.f.m == .a && w.e.u) &&
    readyB (.iaddX { tx 6 with modA := 4 }) (start group) (fun w => w.f.m == .a && !w.e.u && modG w.e.modA) &&
    readyB (.iaddX { tx 6 with modA := 3 }) (start group) (fun w => !modG w.e.modA && modClass w.e.modA == 0 && !tyFloat w.e.ty) &&
    readyB (.movX { tx 6 with modB := 0x581 }) (start group) (fun w => w.f.m == .p && modClass w.e.modB != 0) &&
    readyB (.iadd o0) (start group) (fun w => w.f.m == .no && !w.e.u)) = true := by decide +kernel

theorem witness_integerDivision : legal (.idiv (tx 7)) = true ∧ legal (.irem (tx 0)) = true := by decide

/-- Rounding 5/3 of a unit in the last place, in each format, without overflow. -/
theorem witness_correctRounding : ∀ m ∈ [fmt64, fmt32, fmtOf 0x12, fmtOf 0x13],
    ∀ mode ∈ [RMode.nearestEven, .towardZero, .down, .up, .nearestAway, .stochastic], ∀ neg ∈ [false, true],
      (roundTo m mode false 1 ⟨neg, 2 ^ 60 + 2 ^ 6 + 1, -60, false⟩).2.getLsbD 2 = false := by decide +kernel

/-- Finite numbers, infinities of unlike sign, zero, quiet and signalling NaNs of binary32. -/
theorem witness_nanAndOrder :
    isSig (fdecode fmt32 0x7FC00000) = false ∧ isSig (fdecode fmt32 0x7F800001) = true ∧ fdecode fmt32 0x7F800000 = .inf false ∧
    fdecode fmt32 0xFF800000 = .inf true ∧ fdecode fmt32 0x80000000 = .fin true 0 (-149) ∧
    fdecode fmt32 0x3F800000 = .fin false (2 ^ 23) (-23) ∧ isNan (fdecode fmt32 0x7FC00000) = true ∧
    isNan (fdecode fmt32 0x3F800000) = false ∧ ((15 : BitVec 8).toNat < 16) := by decide

/-- R153, R154, R160: an unordered comparison, the lesser of zeros of unlike sign, and the first row of CVT's example. -/
theorem test_float : fcmp fmt32 2 0x7FC00000 0x3F800000 = (false, 0) ∧ fcmp fmt32 10 0x7FC00000 0x3F800000 = (false, 1) ∧
    (fminmax fmt32 false 0x80000000 0).1 = 0x80000000 ∧
    cvtOp 0x11 0x14 ⟨.nearestEven, true, 0⟩ 0x43FA0000 = (0x7E, 0x14) := by decide +kernel

theorem witness_capabilityBounds : (0x100 : Nat) < 2 ^ 15 ∧ (12 : Nat) < 43 ∧ (43 : Nat) < 63 ∧
    capDecode heap = some (0x20000, 0x120000) ∧ capDecode (capMk 0 0 0 63 false 0 0 true) = some (0, 2 ^ 64) ∧
    capDecode (capMk 0 1 0 63 false 0 0 true) = none ∧ capDecode (capMk 0 0 0 43 false 0 0 true) = none := by decide +kernel

/-- A tagged well-formed capability, each derivation of which is tagged; sealing authority for type 16. -/
def sealer : Cap := capMk 16 16 0 0 false 0 0x0180 true

theorem witness_derivations : capWell heap = true ∧ heap.tag = true ∧ (capSetAddr heap 0x20010).tag = true ∧
    (capSetBounds heap 64 true).1.tag = true ∧ (capSetBounds heap 64 true).2 = false ∧ (capDrop heap 1).tag = true ∧
    (capMint heap (capSetAddr heap 0x20010).bits).tag = true ∧ (capWrap heap sealer 16).tag = true ∧
    (capUnwrap (capWrap heap sealer 16) sealer).tag = true := by decide +kernel

/-- REFNARX with a length that is exact, and with one of 2^20 − 1 bytes at an odd address, which is not. -/
theorem witness_exactNarrowing :
    (readyB (.refnarx { x0 with a := 0, b := 2 }) (start group)
      (fun w => w.doers.all (fun t => !(capSetBounds (w.capA t) (w.srcB t).toNat true).2)) &&
    readyB (.refnarx { x0 with b := 2 }) (start { group with th := [(0, { (thread [(2, 0xFFFFF)]) with c := [(0, capSetAddr heap 0x20001)] })] })
      (fun w => w.doers.find? (fun t => (capSetBounds (w.capA t) (w.srcB t).toNat true).2) == some 0 && w.g.prog.isNone)) = true := by
  decide +kernel

/-! #### Control flow -/

/-- The group with c0 of its threads as given. -/
def withCap (c : Cap) : Group := { group with th := [(0, { (thread [(2, 7)]) with c := [(0, c)] }), (1, { (thread [(2, 9)]) with c := [(0, c)] })] }

/-- c31 of both threads. -/
def withLink (c : Cap) : Group := { group with th := [(0, { (thread []) with c := [(31, c)] }), (1, { (thread []) with c := [(31, c)] })] }

def good (c : Cap) : Bool := c.tag && (capOtype c == 0 || capOtype c == 2) && capHas c pX && decide ((capAddr c).toNat % 4 = 0)

/-- Targets that are entries, and for each check one that fails it: no tag, sealed, without X, not word-aligned; links
that are return sentries, untagged, or of another type. -/
theorem witness_capabilityJumps :
    (([.jmp x0, .callr x0] : List Instr).all (fun i =>
      readyB i (start (withCap (codeAt 0x40))) (fun w => w.doers.all (fun t => good (w.capA t))) &&
      ([⟨0, false⟩, capWithOtype (codeAt 0x40) 3, heap, codeAt 0x42] : List Cap).all (fun c =>
        readyB i (start (withCap c)) (fun w => w.doers.find? (fun t => !good (w.capA t)) == some 0 && w.g.prog.isNone))) &&
    readyB (.ret x0) (start (withLink (capWithOtype (codeAt 0x40) 1)))
      (fun w => w.doers.all (fun t => let c := readC w.g w.base 0 t 31; c.tag && capOtype c == 1)) &&
    ([Cap.null, codeAt 0x40] : List Cap).all (fun c => readyB (.ret x0) (start (withLink c))
      (fun w => w.doers.find? (fun t => let c := readC w.g w.base 0 t 31; !(c.tag && capOtype c == 1)) == some 0))) = true := by
  decide +kernel

/-- Thread 1 waits at barrier 1 while thread 0 executes. -/
def atBarrier : Group := { group with th := [(0, thread []), (1, { (thread []) with st := .waiting, wait := .bar, barNum := 1 })] }

/-- An engine program of sequencer 0. -/
def program : Prog := ⟨0, 3, 0, 0, [], none⟩

theorem witness_exitBarriersHolds :
    (readyB (.exit x0) (start group) (fun w => w.g.prog.isNone && !barWaits w.g w.parts) &&
    readyB (.exit x0) (start { group with prog := some program, th := [(0, thread [])] }) (fun w => w.parts != [] && w.g.prog == some program) &&
    ([.bar x0, .barc x0] : List Instr).all (fun i =>
      readyB i (start group) (fun w => !orphans (waitThreads w.g w.all .bar 0) && !orphans (waitThreads w.g w.all .barc 0)) &&
      readyB i (start atBarrier) (fun w => orphans (waitThreads w.g w.all .bar 0) && orphans (waitThreads w.g w.all .barc 0) && w.g.prog.isNone)) &&
    readyB (.atI x0) (start group) (fun w => decide (w.gA.toNat ≤ (start group).time.ftime)) &&
    readyB (.atI x0) (start { group with r := { group.r with g := [(0, 5)] } }) (fun w => decide (0 < w.gA.toNat)) &&
    readyB (.sleep x0) (start group) (fun w => (w.gA.setWidth 32 : W32) == 0) &&
    readyB (.sleep x0) (start { group with r := { group.r with g := [(0, 5)] } }) (fun w => (w.gA.setWidth 32 : W32) != 0) &&
    readyB (.bincfg x0) (start group) (fun w => w.parts != [])) = true := by decide +kernel

/-- SYS and TRAPCFG with participants and without; TRAPCFG of null, of an entry, and of a data capability. -/
theorem witness_systemRequests :
    (readyB (.sys x0) (start group) (fun w => w.parts != []) && readyB (.sys { x0 with pr := 0 }) (start group) (fun w => w.parts == []) &&
    readyB (.trapcfg { x0 with a := 32, pr := 0 }) (start group) (fun w => w.parts == []) &&
    readyB (.trapcfg { x0 with a := 33 }) (start group) (fun w => w.parts.getLast? == some 1 && w.capA 1 == Cap.null) &&
    readyB (.trapcfg { x0 with a := 32 }) (start group) (fun w => w.parts.getLast? == some 1 && (targetCheck (w.capA 1)).isSome && w.capA 1 != Cap.null && w.g.prog.isNone) &&
    readyB (.trapcfg { x0 with a := 32 }) (start { group with r := { group.r with gc := [(0, codeAt 0x40)] } })
      (fun w => w.parts.getLast? == some 1 && (targetCheck (w.capA 1)).isNone)) = true := by decide +kernel

/-- A header at a clause boundary with no flag set and with flag 0 set, and inside a clause; ILL in a group and in a program. -/
theorem witness_clauseHeaders :
    let free := { group with clause := none }
    let wait := { free with r := { free.r with fl := [(0, 1)] } }
    let w := fun (g : Group) => sweepOf (start g) 0 g (.clauseHeader 1 0 1 2) bareForm bareExt
    (start free).group 0 = some free ∧ free.held = [] ∧ (start free).fetchStop = none ∧ (start free).focus = 0 ∧
      (w free).all.head? = some 0 ∧ (w wait).all.head? = some 0 ∧ wait.flagCount 0 = 1 ∧ free.flagCount 0 = 0 ∧
      (w group).all.head? = some 0 ∧ group.clause.isSome = true ∧ group.prog = none ∧
      (sweepOf (start group) 0 group (.ill 0 0) bareForm bareExt).all.head? = some 0 := by decide +kernel

/-- Illegal by a field (ICMP's condition), by place (BRA before the clause's last instruction), by mode (ERET outside trap mode). -/
theorem witness_illegalInstructions :
    (([.icmp { tx 6 with imm := 6 }, .eret x0] : List Instr).all (fun i => match sweepNow i (start group) with
      | some w => w.all.head? == some 0 && w.g.prog.isNone && !(legal i && placeOk w.g i w.e) | none => false) &&
    (match sweepNow (.bra x0) (start { group with clause := some ⟨placeAt, 2, 15, 15, false, [0, 1]⟩ }) with
      | some w => w.all.head? == some 0 && !(legal (.bra x0) && placeOk w.g (.bra x0) w.e) | none => false)) = true := by
  decide +kernel

/-! #### Exceptions and registers by number -/

/-- A delivery of a stop at thread 0 with CAP_TAG, and of a cause that goes to the supervisor core. -/
def delivery (c : Cause) : Delivery := ⟨c ++ (0 : BitVec 8), 0, [0], 0x10000, 0, 5, 0, 0, false⟩

def handled : Group := { group with handler := codeAt 0x40 }

theorem witness_exceptionEntry :
    handled.trap = none ∧ handled.handler.tag = true ∧ causeSup ((delivery cCAP_TAG).tcause.extractLsb' 8 8) = false ∧
    (takeWindow (start handled) 0).isSome = true ∧ causeSup ((delivery 0x20).tcause.extractLsb' 8 8) = true ∧
    trapped.trap.isSome = true ∧ group.handler.tag = false ∧
    (let u := ((start group).core 0).sup; u.waiting = [] ∧ ringFull u.evsize u.evhead u.evtail = false) := by decide +kernel

theorem witness_softwareTraps :
    (readyB (.trap { x0 with pr := 0 }) (start group) (fun w => w.parts == [] && w.g.prog.isNone) &&
    readyB (.trap x0) (start group) (fun w => w.parts != [] && !w.g.handler.tag) &&
    readyB (.trap x0) (start handled) (fun w => w.parts != [] && w.g.handler.tag)) = true := by decide +kernel

/-- FADD of a signalling NaN with INVALID enabled. -/
theorem witness_sweepEndTraps :
    readyB (.faddX { tx 0x11 with a := 2 }) (start { group with
        th := [(0, thread [(2, 0x7F800001)]), (1, thread [])], r := { group.r with fpctl := 0x10 } })
      (fun w => !w.e.u && w.dfl0 == 0 && w.g.prog.isNone && w.g.trap.isNone && !w.g.handler.tag &&
        w.doers.filter (fun t => trapFlags w.g (fadd (fmtOf w.e.ty) (w.rctx t 0) (w.srcA t) (w.srcB t)).2 != 0) == [0]) = true := by
  decide +kernel

/-- A handler thread that leaves while thread 2 of it remains elsewhere; the last that leaves, with a held sweep to resume. -/
def held : Held := ⟨1, BitVec.ofNat 64 placeAt, .nop x0, 0, none, [0, 1], [], 0, [], [], [], [0], false⟩

theorem witness_exceptionReturn :
    (readyB (.eret x0) (start { trapped with
        th := [(0, thread []), (2, { (thread []) with code := codeAt 0x40 })], trap := some ⟨0x1500, 0, [0, 2], 256, 0, none, [], []⟩ })
      (fun w => w.parts == [0] && (w.g.thread 2).st == .runnable) &&
    readyB (.eret x0) (start { trapped with
        th := [(0, { (thread []) with kept := codeAt 0x40, tpc := 0x10000 }), (1, { (thread []) with kept := codeAt 0x40, tpc := 0x10000 })]
        trap := some ⟨0x0100, 0, [0, 1], 0, 0x10000, some ⟨placeAt, 2, 15, 15, false, [0, 1]⟩, [held], []⟩ })
      (fun w => w.parts == [0, 1])) = true := by decide +kernel

/-- R195: after the last ERET the held sweep stands ready at its own address, in its clause. -/
theorem test_eret :
    (match exec (.eret x0) (start { trapped with
        th := [(0, { (thread []) with kept := codeAt 0x40, tpc := 0x10000 }), (1, { (thread []) with kept := codeAt 0x40, tpc := 0x10000 })]
        trap := some ⟨0x0100, 0, [0, 1], 0, 0x10000, some ⟨placeAt, 2, 15, 15, false, [0, 1]⟩, [held], []⟩ }) with
    | .next s => (match s.group 0 with
      | some g => g.trap.isNone && g.held == [held] && g.clause == some ⟨placeAt, 2, 15, 15, false, [0, 1]⟩ && (g.thread 1).pc == placeAt
      | none => false)
    | _ => false) = true := by decide +kernel

theorem witness_specialRegisters :
    (([0, 1, 4, 5, 6, 15, 16] : List (BitVec 8)).all (fun n => readyB (.sregr { x0 with imm := n }) (start group) (fun _ => true)) &&
    ([7, 8, 9, 14] : List (BitVec 8)).all (fun n => readyB (.sregr { x0 with imm := n, d := 120 }) (start trapped) (fun w => w.g.trap.isSome)) &&
    ([4, 5, 6] : List (BitVec 8)).all (fun n => readyB (.sregw { x0 with imm := n }) (start group) (fun _ => true)) &&
    readyB (.sregr { x0 with imm := 0x13 }) (start group) (fun w => w.all.head? == some 0 && w.g.prog.isNone) &&
    readyB (.sregr { x0 with imm := 8 }) (start group) (fun w => w.all.head? == some 0 && w.g.trap.isNone) &&
    readyB (.sregr { x0 with u := true, imm := 5 }) (start group) (fun w => w.all.head? == some 0) &&
    readyB (.sregw { x0 with imm := 3 }) (start group) (fun w => w.all.head? == some 0 && w.g.prog.isNone)) = true := by decide +kernel

/-- RGET and RSET of a vector register, a predicate, a word of a capability, and a tag, by the index in the window. -/
def indexed (ix : W32) : Group :=
  { trapped with th := [(0, { (thread [(2, 7)]) with w := [(0, ix)] }), (1, { (thread [(2, 9)]) with w := [(0, ix)] })] }

theorem witness_registersByIndex :
    (([2, 0x81, 0x101, 0x181] : List W32).all (fun ix =>
      readyB (.rget { x0 with d := 121, a := 120 }) (start (indexed ix)) (fun w => w.g.pend == [] && !rBlocked w && w.rIx 0 == ix.toNat &&
        w.doers.all (fun t => !KeySet.has w.g.aband (w.rIx t * 256 + t))) &&
      readyB (.rset { x0 with a := 120, b := 122 }) (start (indexed ix)) (fun w => w.lastRead == [] &&
        (match mapNumbers { (start (indexed ix)) with ctr := ctrStep } 0 (rsetRegs w) with | .ok _ => true | _ => false)))) = true := by
  decide +kernel

theorem witness_spawnRecords :
    (readyB (.spawn x0) (start (withCap (codeAt 0x40)))
      (fun w => w.doers.all (fun t => (targetCheck (w.capA t)).isNone && capAddr (w.capA t) == 0x40) && w.doers != []) &&
    readyB (.spawn x0) (start (withCap heap)) (fun w => w.doers.head? == some 0 && (targetCheck (w.capA 0)).isSome && w.g.prog.isNone)) =
      true ∧ ((start group).core 0).bin 0 = ⟨0, 0, [], 0, 0, false⟩ := by decide +kernel

/-! #### Memory -/

theorem witness_memoryWrites : (start group).mem.wf = true ∧ (0x20 : Nat) % 16 = 0 ∧
    (start group).mem.err 0x20000 16 = none ∧ (⟨[], [], [0x800]⟩ : Memory).err 0x20000 16 = some 0x20000 ∧ isLease 0x20000 = false := by
  decide +kernel

/-- R96: a store of one byte clears the tag of its granule and leaves the rest of it. -/
theorem test_tag_clears :
    let m := (⟨[], [], []⟩ : Memory).writeCap 0x20 (leBytes 0x1234 16) true
    m.tag 0x2F = true ∧ m.read 0x20 = 0x34 ∧ (m.write 0x2F [1]).tag 0x20 = false ∧ (m.write 0x2F [1]).read 0x21 = 0x12 ∧
      (m.write 0x2F [0]) = ⟨[(0x20, 0x34), (0x21, 0x12)], [], []⟩ := by decide +kernel

/-- An access by the group, with cached translations to memory, to an I/O page and to a lease window of slot 0. -/
def cached : State :=
  let s := start group
  { s with xlat := { s.xlat with tlb := [⟨.chip, 0, 0, 0x30, 0, 0xE0000000000, 0xF, true, 0⟩, ⟨.chip, 0, 0, 0x31, 0, 0xF0000000000, 0xF, false, 0⟩, ⟨.core 0, 0, 0, 0x32, 0, 0x32, 0x9, false, 0⟩] } }

def who : Who := ⟨0, 0, 0⟩

/-- Each check of R204 failing in turn, and an access that passes them all. -/
theorem witness_accessChecks :
    let r := fun (c : Cap) (perms : List Nat) (align : Nat) (ea : Int) => checkAccess cached who ⟨needStore, false, true, false⟩ c 0 perms 0 align ea 8
    let cause := fun (x : Except Stop (State × List (Target × Nat))) => match x with | .error e => some e.cause | .ok _ => none
    let all := [pLD, pST]
    cause (r ⟨heap.bits, false⟩ all 8 0x20000) = some cCAP_TAG ∧ cause (r (capWithOtype heap 3) all 8 0x20000) = some cCAP_SEAL ∧
    cause (r heap [pX] 8 0x20000) = some cCAP_PERM ∧ cause (r heap all 8 0x1FFF8) = some cCAP_BOUNDS ∧
    cause (r heap all 8 0x120000) = some cCAP_BOUNDS ∧ cause (r heap all 8 0x20004) = some cCAP_ALIGN ∧
    cause (r heap all 8 0x32000) = some cPAGE_PERM ∧ cause (r heap all 8 0x30000) = some cCAP_PERM ∧
    cause (r heap all 8 0x31000) = some cLEASE_RECALLED ∧ cause (r heap all 8 0x20000) = none ∧
    cause (r (capMk 0 0 0 63 false 0 0x0803 true) all 8 0x20000) = some cVAULT_RANGE := by decide +kernel

/-- Each access instruction with an address beyond its authority stops at thread 0. -/
theorem witness_accessStops :
    let g := { group with th := [(0, thread [(2, 0x100000)]), (1, thread [])], mapped := [2] }
    let b := { x0 with b := 2, ty := 6 }
    let c := { x0 with b := 2 }
    let stops := fun {α : Type} (i : Instr) (f : Sw → State → Nat → Except Stop (State × α)) =>
      readyB i (start g) (fun w => (match firstToStop (f w) w.doers (w.begun (start g)) with | some (0, _) => true | _ => false) && w.g.prog.isNone)
    (stops (.ldw { o0 with b := 2 }) (fun w => w.loadAt false false 0 1) && stops (.ldwLit o0 0x100000) (fun w => w.loadAt false false 0 1) &&
    stops (.ld b) (fun w => w.loadAt false false 0 1) && stops (.lda b) (fun w => w.loadAt false false 0 w.width) &&
    stops (.stw { o0 with b := 2 }) (fun w => w.storeAt false false 0 0 1) && stops (.stwLit o0 0x100000) (fun w => w.storeAt false false 0 0 1) &&
    stops (.st b) (fun w => w.storeAt false false 0 0 1) && stops (.stl b) (fun w => w.storeAt false false 0 0 w.width) &&
    stops (.ldc c) (fun w => w.ldcAt) && stops (.stc c) (fun w s t => w.stcAt (fun s => revCheck s w.g.ids.asid (w.capD t)) s t) &&
    stops (.amoOr b) (fun w => w.amoAt (fun old v _ => old ||| v)) && stops (.amocSwap c) (fun w => w.amocAt w.capC (fun _ => none))) =
      true := by decide +kernel

/-- Every access passes its checks for both threads: threads act in turn, none stops. -/
def passes {α : Type} (i : Instr) (f : Sw → State → Nat → Except Stop (State × α)) : Bool :=
  readyB i (start group) (fun w => (inTurn (f w) w.doers (w.begun (start group))).isSome && w.doers != [])

theorem witness_accesses :
    (passes (.ldw o0) (fun w => w.loadAt false false 0 1) && passes (.ldwLit o0 16) (fun w => w.loadAt false false 0 1) &&
    passes (.ld (tx 6)) (fun w => w.loadAt false false 0 1) && passes (.lda { tx 6 with imm := 3 }) (fun w => w.loadAt false true 0 w.width) &&
    passes (.stw o0) (fun w => w.storeAt false false 0 0 1) && passes (.stwLit o0 16) (fun w => w.storeAt false false 0 0 1) &&
    passes (.st (tx 6)) (fun w => w.storeAt false false 0 0 1) && passes (.stl (tx 6)) (fun w => w.storeAt false false 0 0 w.width) &&
    passes (.ldc x0) (fun w => w.ldcAt) && passes (.stc x0) (fun w s t => w.stcAt (fun s => revCheck s w.g.ids.asid (w.capD t)) s t) &&
    ([.amoAdd (tx 2), .amoAnd (tx 2), .amoOr (tx 2), .amoXor (tx 2), .amoMin (tx 2), .amoMax (tx 2), .amoSwap (tx 2), .amoCas (tx 2)] : List Instr).all
      (fun i => passes i (fun w => w.amoAt (fun old v _ => old ||| v))) &&
    passes (.amocSwap x0) (fun w => w.amocAt w.capC (fun _ => none)) && passes (.amocCas x0) (fun w => w.amocAt w.capC1 (fun t => some (w.capC t)))) =
      true := by decide +kernel

/-- A team of one core with a window of 2^17 bytes, its authority in c0, c1 and gc0: LD, ST, LDC, STC, ENG, VLT, ATOM. -/
def window : Cap := capMk 0 32 0 12 false 0 0x2A1B true
def inVault : State :=
  let th := fun (x : W32) => { (thread [(2, x)]) with c := [(0, window), (1, window)] }
  { start { group with th := [(0, th 16), (1, th 32)], mapped := [2], r := { group.r with gc := [(0, capMk 0 1 0 12 false 0 0x2A1B true)] } } with
    teams := [(0, { team with vlen := 2 ^ 17 })], units := [(0, ⟨0, 0, 1, 1, [0], none⟩)] }

/-- Every thread has an authority, bounds, alignment and a window for its access. -/
def openAt (i : Instr) (perms : List Nat) (low align n : Sw → Nat) : Bool :=
  readyB i inVault (fun w => w.doers == [0, 1] && w.held.isNone && w.doers.all (fun t =>
    (w.capA t).tag && capOtype (w.capA t) == 0 && capHas (w.capA t) pVLT && perms.all (capHas (w.capA t)) &&
    (match capDecode (w.capA t) with | some (b, top) => decide ((b : Int) + low w ≤ w.ea t ∧ w.ea t + n w ≤ top) | none => false) &&
    (w.ea t).toNat % align w == 0 &&
    (match vaultUnit inVault w.who.team (w.ea t).toNat (n w) with | some h => (inVault.mem.err h (n w)).isNone | none => false)))

theorem witness_vaultAccesses :
    (([.ldw o0, .ldwLit o0 16, .ld (tx 6)] : List Instr).all (fun i => openAt i [pLD] (fun _ => 0) (fun _ => 1) Sw.width) &&
    openAt (.lda (tx 6)) [pLD] (fun _ => 0) Sw.width Sw.width && openAt (.stl (tx 6)) [pST] (fun _ => 0) Sw.width Sw.width &&
    ([.stw o0, .stwLit o0 16, .st (tx 6)] : List Instr).all (fun i => openAt i [pST] (fun _ => 0) (fun _ => 1) Sw.width) &&
    openAt (.ldc x0) [pLD] (fun _ => 0) (fun _ => 16) (fun _ => 16) && openAt (.stc x0) [pST, pSTC, pVLT] (fun _ => 0) (fun _ => 16) (fun _ => 16) &&
    openAt (.amoAdd (tx 2)) [pLD, pST, pATOM] (fun _ => 0) Sw.width Sw.width &&
    ([.amocSwap x0, .amocCas x0] : List Instr).all (fun i => openAt i [pLD, pST, pATOM, pSTC, pVLT] (fun _ => 0) (fun _ => 16) (fun _ => 16)) &&
    openAt (.tld { tx 6 with a := 32, b := 2 }) [pLD] (fun _ => 16) Sw.width Sw.width &&
    openAt (.tst { tx 6 with a := 32, b := 2 }) [pST] (fun _ => 16) Sw.width Sw.width &&
    readyB (.tld { tx 6 with a := 32, b := 2 }) inVault (fun w => w.all.head? == some 0 && w.parts != [] &&
      capBase (w.capA 0) == 0 && capTop (w.capA 0) == 4096 && (vaultUnit inVault w.who.team 0 16).isSome)) = true := by decide +kernel

/-- FENCE at each scope, and with no participant. -/
theorem witness_fences :
    (([0, 2, 3, 4] : List (BitVec 8)).all (fun q => readyB (.fence { x0 with imm := q }) (start group) (fun w => w.parts != [])) &&
    readyB (.fence { x0 with imm := 3, pr := 0 }) (start group) (fun w => w.parts == [])) = true := by decide +kernel

/-- A panel of 4 KiB in gc0. -/
def panel : Group :=
  { group with
    r := { group.r with gc := [(0, capMk 0x20000 0x100 0 4 false 0 0x205B true)] }
    th := [(0, thread [(2, 16)]), (1, thread [(2, 20)])]
    mapped := [2] }

def panelState : State := start panel

theorem witness_panels :
    let base := capBase (capMk 0x20000 0x100 0 4 false 0 0x205B true)
    let size := capTop (capMk 0x20000 0x100 0 4 false 0 0x205B true) - base
    (base % 64 = 0 ∧ size % 16 = 0 ∧ 32 ≤ size ∧ size ≤ 65536) ∧
    (readyB (.tld { tx 6 with a := 32, b := 2 }) panelState (fun w => (inTurn (w.loadAt true false 16 w.width) w.doers (w.begun panelState)).isSome && !qAon w.e.imm) &&
    readyB (.tst { tx 6 with a := 32, b := 2 }) panelState (fun w => (inTurn (w.storeAt true false 0 16 w.width) w.doers (w.begun panelState)).isSome) &&
    readyB (.tld { tx 6 with a := 32, b := 2, imm := 0x43 }) panelState (fun w => match panelCheck w (w.begun panelState) false 0 with
      | .ok s1 => (inTurn (w.loadAt true false 16 w.width) w.doers (versionAcquire w s1 0)).isSome && w.held.isNone && w.parts.head? == some 0 &&
          w.doers.all (fun t => match loadBytes w s1 t true false [pLD] 16 w.width w.width with | .ok _ => true | .error _ => false)
      | .error _ => false) &&
    readyB (.tst { tx 6 with a := 32, b := 2, imm := 0x43 }) panelState (fun w => match panelCheck w (w.begun panelState) true 0 with
      | .ok s1 => (match inTurn (fun s t => storeTargets w s t true 16 w.width w.width) w.doers s1 with
        | some (s2, _) => (match inTurn (w.storeAt true false 0 16 w.width) w.doers s2 with
          | some (s3, _) => (match versionTarget w s3 0 with
            | some (s4, x) => (match readPiece s4 w.who true x base 8 with | .ok _ => w.held.isNone && w.parts.head? == some 0 | .error _ => false)
            | none => false)
          | none => false)
        | none => false)
      | .error _ => false)) = true := by decide +kernel

/-! #### Engines -/

/-- The group with handle register h0 naming operation q of core 0, of the kind given. -/
def holding (q kind : Nat) : Group := { group with r := { group.r with h := [(0, mkHandle q 0 kind)], g := [(0, 1)] } }

/-- Operation q of core 0 is in flight. -/
def running (q : Nat) (g : Group) : State :=
  (start g).onCore 0 (fun c => { c with store := { c.store with live := [q] } })

theorem witness_futures :
    (([.hwait x0, .join x0] : List Instr).all (fun i =>
      readyB i (running 3 (holding 3 1)) (fun w => w.parts != [] && !((running 3 (holding 3 1)).status (mkHandle 3 0 1)).getLsbD 31 && readH w.g w.base 0 == some (mkHandle 3 0 1)) &&
      readyB i (start (holding 3 1)) (fun w => w.parts != [] && ((start group).status (mkHandle 3 0 1)).getLsbD 31)) &&
    ([.hwait { x0 with pr := 0 }, .join { x0 with pr := 0 }, .hcancel { x0 with pr := 0 }] : List Instr).all (fun i => readyB i (start group) (fun w => w.parts == [])) &&
    readyB (.hcancel x0) (start (holding 3 4)) (fun w => w.parts != [] && ((start (holding 3 4)).status (mkHandle 3 0 4)).getLsbD 31) &&
    (let s := { running 3 (holding 3 4) with launches := [(9, { Launch.blank with st := .queued, seq := 3 })] }
     readyB (.hcancel x0) s (fun w => readH w.g w.base 0 == some (mkHandle 3 0 4) && !(s.status (mkHandle 3 0 4)).getLsbD 31 && hKind (mkHandle 3 0 4) == 4 &&
      s.launches.find? (fun y => y.2.core == 0 && y.2.seq == 3) == some (9, { Launch.blank with st := .queued, seq := 3 }) &&
      w.g.hold == .none && decide ((s.core 0).store.order.length < 65536)))) = true := by decide +kernel

theorem witness_handlesInMemory :
    (readyB (.sth x0) (start (holding 3 1)) (fun w => (inTurn (w.stcAt (fun _ => capMk (mkHandle 3 0 1) 0 0 0 false 5 0x0040 true)) w.doers (w.begun (start (holding 3 1)))).isSome) &&
    readyB (.ldh x0) (start group) (fun w => (inTurn w.ldcAt w.doers (w.begun (start group))).isSome)) = true := by decide +kernel

/-- R258: the handle comes back as it was stored, by STH and LDH. -/
theorem test_handle_round_trip :
    (match exec (.sth x0) (start (holding 3 1)) with
    | .next s => (s.mem.bytes 0x20000 8 == leBytes (mkHandle 3 0 1).toNat 8) && s.mem.tag 0x20000
    | _ => false) = true := by decide +kernel

/-- An engine record of type t at 0x20000: LD, LDC, ENG (R234, R263). -/
def recordCap (t : Nat) : Cap := capMk 0x20000 0x100 0 4 false t 0x0209 true

/-- Authority for the engines over 0x20000 to 0x120000: LD, ST, LDC, STC, ROAM, ENG. -/
def engineCap : Cap := capMk 0x20000 0x100 0 12 false 0 0x025B true

/-- A layout record of one dimension (R234): n elements of 32 bits, 4 bytes apart. -/
def layoutAt (s : State) (n : Nat) : State :=
  { s with mem := ((s.mem.writeCap 0x20000 (leBytes engineCap.bits.toNat 16) true).write 0x20010 (leBytes 0x1861 4 ++ leBytes 0 4 ++ leBytes n 4 ++
      leBytes 1 4 ++ leBytes 1 4 ++ leBytes 1 4 ++ leBytes 1 4 ++ leBytes 0 4 ++ leBytes 4 8)) }

/-- One thread with a record in c0, a destination in c1 and a descriptor in v13. -/
def copying (d : W32) (r dest : Cap) : Group :=
  { group with th := [(0, { (thread [(13, d)]) with c := [(0, r), (1, dest)] })], mapped := [13] }

def copyTest (e : Ext) (s : State) (p : Sw → State → Layout → List W32 → Bool) : Bool :=
  readyB (.cpy e) s (fun w => w.parts == [0] && decide (((s.core 0).chan 0).length < 16) && (recordCheck (w.capA 0) 4 128).isNone &&
    match readGranules w (w.capA 0) 8 (capAddr (w.capA 0)).toNat (w.begun s) with
    | .ok (s1, gs) => p w s1 (parseLayout gs) (copyOps w 0)
    | .error _ => false)

def e8 : Ext := { x0 with b := 8, c := 1 }

/-- A copy to memory; one to registers; a record, a source and a destination that fail their checks; no participant. -/
theorem witness_copies :
    (readyB (.cpy { e8 with pr := 0 }) (start group) (fun w => w.parts == []) &&
    readyB (.cpy e8) (layoutAt (start (copying 0 heap engineCap)) 4) (fun w => (recordCheck (w.capA 0) 4 128).isSome && w.g.prog.isNone) &&
    copyTest e8 (layoutAt (start (copying 0 (recordCap 4) engineCap)) 4) (fun w s1 l ops => (copySrc l ops).isNone && descKind (opDesc ops) == 0 &&
      (copyDest w s1 l ops (w.capC 0)).isNone && (copySrcBox w s1 l ops).isNone && (match copyRows s1 0 0 l ops (2 ^ 32) with | .ok _ => true | _ => false)) &&
    copyTest e8 (layoutAt (start (copying 0 (recordCap 4) heap)) 4) (fun w s1 l ops => (copySrc l ops).isNone &&
      (copyDest w s1 l ops (w.capC 0)).isSome) &&
    copyTest e8 (layoutAt (start (copying 0 (recordCap 4) engineCap)) 0) (fun _ _ l ops => (copySrc l ops).isSome) &&
    copyTest { e8 with c := 0 } (layoutAt (start (copying 3 (recordCap 4) engineCap)) 64) (fun w s1 l ops => (copySrc l ops).isNone && descKind (opDesc ops) == 3 &&
      (copyDest w s1 l ops Cap.null).isNone && descGroup s1 0 0 (opDesc ops) == some 0 && (copySrcBox w s1 l ops).isNone &&
      (match copyRows s1 0 0 l ops (2 ^ 32) with | .ok _ => true | _ => false))) = true := by
  decide +kernel

/-- FORK of an entry and of a data capability; LAUNCH of a record and of data. -/
theorem witness_forksAndLaunches :
    (([.fork { x0 with pr := 0 }, .launch { x0 with pr := 0 }] : List Instr).all (fun i => readyB i (start group) (fun w => w.parts == [])) &&
    readyB (.fork x0) (start (withCap (codeAt 0x40))) (fun w => w.parts == [0, 1] && (targetCheck (w.capA 0)).isNone && ((start group).core 0).pq 0 == []) &&
    readyB (.fork x0) (start (withCap heap)) (fun w => w.parts == [0, 1] && (targetCheck (w.capA 0)).isSome && w.g.prog.isNone) &&
    readyB (.launch x0) (start (withCap (recordCap 6))) (fun w => w.parts == [0, 1] && (recordCheck (w.capA 0) 6 256).isNone &&
      (match readGranules w (w.capA 0) 16 (capAddr (w.capA 0)).toNat (w.begun (start (withCap (recordCap 6)))) with | .ok _ => true | .error _ => false)) &&
    readyB (.launch x0) (start group) (fun w => w.parts == [0, 1] && (recordCheck (w.capA 0) 6 256).isSome)) = true := by decide +kernel

/-- The team of the group with what it holds given, and the group with its count in G[0]. -/
def holds (slots tiles : Nat) (n : W64) : State :=
  { start { group with r := { group.r with g := [(0, n)] } } with teams := [(0, { team with slots := slots, tiles := tiles })] }

/-- CLAIM of nothing, beyond the ceiling, again, what is free, and what another team holds; RELEASE that nothing uses. -/
theorem witness_claims :
    (readyB (.claim x0) (holds 0 0 0) (fun w => w.parts != [] && w.gA == 0) &&
    readyB (.claim x0) (holds 0 0 9) (fun w => decide (8 < w.gA.toNat)) && readyB (.claim x0) (holds 4 2 1) (fun w => w.parts != []) &&
    readyB (.claim x0) (holds 0 0 0x101) (fun w => w.gA == 0x101 && !lowerBlocked (holds 0 0 0x101) 0 0 0 0 0 && decide (1 ≤ freeSlots (holds 0 0 0x101) 0 ∧ 1 ≤ freeTiles (holds 0 0 0x101) 0)) &&
    (let s := { holds 0 0 0x101 with teams := [(0, { team with slots := 0, tiles := 0 }), (1, { team with slots := 64, tiles := 16 })] }
     readyB (.claim x0) s (fun w => w.parts != [] && decide (freeSlots s 0 = 0))) &&
    readyB (.release x0) (holds 4 2 3) (fun w => w.parts != [] && !releaseBusy (holds 4 2 3) 0 team true true) &&
    (let s := (holds 4 2 3).onMx 0 (fun m => { m with queue := [⟨0, 0, 0, 4, 0, 0, 0, 0, 0x4D3, 0, 0, 0, none, 0, [], []⟩] })
     readyB (.release x0) s (fun w => w.parts != [] && releaseBusy s 0 team true true)) &&
    ([.claim { x0 with pr := 0 }, .release { x0 with pr := 0 }, .mma { x0 with pr := 0 }, .mmz { x0 with pr := 0 }, .accrd { x0 with pr := 0 }, .accwr { x0 with pr := 0 }] : List Instr).all
      (fun i => readyB i (start group) (fun w => w.parts == []))) = true ∧ legal (.setfmt x0) = true := by decide +kernel

/-- Matrix operations on slots and tiles that the team holds, in bfloat16; beyond them; and in a format of the table's gaps. -/
theorem witness_matrixOperations :
    let bf := { group with r := { group.r with fmt := 0x4D3 } }
    (readyB (.mma { x0 with a := 3, b := 3, c := 1 }) (start bf) (fun w => mmaSel w == [0, 1] && (mmaFormat w.g.r.fmt).isSome) &&
    readyB (.mma { x0 with a := 4 }) (start bf) (fun w => (mmaSel w).head? == some 0 && w.g.prog.isNone) &&
    readyB (.mma x0) (start { group with r := { group.r with fmt := 0x3F } }) (fun w => (mmaSel w).head? == some 0 && (mmaFormat w.g.r.fmt).isNone) &&
    readyB (.mmz { x0 with c := 1 }) (start group) (fun w => mmzSel w == [0, 1]) && readyB (.mmz { x0 with c := 2 }) (start group) (fun w => (mmzSel w).head? == some 0) &&
    ([.accrd { x0 with imm := 126 }, .accwr { x0 with imm := 126 }] : List Instr).all (fun i => readyB i (start group) (fun w => w.parts == [0, 1]))) = true ∧
    team.slots = 4 ∧ team.tiles = 2 ∧ Tab.look (start group).teams 0 = some team ∧ ((start group).core 0).mx.queue = [] := by decide +kernel

/-! #### The step -/

/-- The machine whose group 0 stands at one base word, and at the three words of an extended instruction. -/
def atWord : State := { placeWords State.reset [0x41820804] with agenda := [] }
def atWords : State := { placeWords State.reset [0x01820C81, 0x80478411, 0] with agenda := [] }

theorem witness_stands : ∃ g, Stands atWord 0 g placeAt 0 [] [0x41820804] (.iadd { o0 with d := 4, a := 2, b := 3, la := true }) ∧
    mayPick atWord 0 g = true :=
  ⟨(atWord.group 0).getD group, ⟨by decide +kernel, by decide +kernel, by decide +kernel, by decide +kernel, by decide +kernel,
    ⟨[0x04, 0x08, 0x82, 0x41], by decide +kernel, .inl (by decide +kernel)⟩, by decide +kernel⟩, by decide +kernel⟩

theorem witness_stands_extended : ∃ g, Stands atWords 0 g placeAt 0 [] [0x01820C81, 0x80478411, 0]
    (.imad { x0 with d := 6, a := 2, b := 3, c := 4, lc := true, ty := 1, sat := true }) :=
  ⟨(atWords.group 0).getD group, by decide +kernel, by decide +kernel, by decide +kernel, by decide +kernel, by decide +kernel,
    ⟨[0x81, 0x0C, 0x82, 0x01], by decide +kernel, .inr ⟨by decide +kernel, [0x81, 0x0C, 0x82, 0x01, 0x11, 0x84, 0x47, 0x80, 0, 0, 0, 0],
      by decide +kernel, by decide +kernel, by decide +kernel, by decide +kernel⟩⟩, by decide +kernel⟩

/-- No internal step changes that machine, its group is the first that is ready, and its instruction changes it; in the
machine after reset, with nothing resident, no step changes anything but the clock, until a beacon is due. -/
theorem witness_schedule : stopped atWord = false ∧ atWord.agenda = [] ∧ firstEvent atWord (events atWord) = none ∧ readyOrder atWord = [0] ∧
    (match runs atWord 0 ((atWord.group 0).getD group) placeAt [] [0x41820804] (.iadd { o0 with d := 4, a := 2, b := 3, la := true }) with
      | .next s => decide (s.group 0 ≠ atWord.group 0) | _ => false) = true ∧
    (firstEvent { State.reset with time := { State.reset.time with ftime := 10 ^ 8 } } (events { State.reset with time := { State.reset.time with ftime := 10 ^ 8 } })).isSome = true ∧
    isEvent (.coldBoot) = true ∧ firstEvent State.reset (events State.reset) = none ∧ readyOrder State.reset = [] ∧ { State.reset.power with down := true }.down = true := by decide +kernel

/-- R173: v4 := v4 + 1 of the loop's first instruction, by a step. -/
theorem test_step_adds :
    (match step { placeWords State.reset [0x00040806, 1, 0] with agenda := [.run 0] } with
    | .next s => (match s.group 0 with | some g => (g.thread 0).vreg false 4 == 1 && (g.thread 0).pc == placeAt + 12 && s.time.clock == 0 && g.sched.issuedAt == 1 | none => false)
    | _ => false) = true := by decide +kernel

theorem witness_stepKeepsInv : (start group).mem.wf = true ∧ (match step atWord with | .next s => s.mem.wf | _ => false) = true := by decide +kernel

/-! #### Steps of groups -/

/-- A group with a pending result of each kind, one held at a time, asleep, yielding, overridden and waiting at a barrier. -/
def pending : Group := { group with clause := none, pend := [⟨5, some 1, false, false, [.v 0 3 9, .g 2 8]⟩, ⟨4, none, true, true, [.v 1 3 7]⟩] }

theorem witness_groupSteps :
    (pending.pend[0]?.isSome && !pendHeld (start pending) 0 ⟨5, some 1, false, false, [.v 0 3 9, .g 2 8]⟩ &&
    (pending.pend.filter (fun p => p.ldw)).getLast? == some ⟨4, none, true, true, [.v 1 3 7]⟩ &&
    ({ group with hold := .at 0 } : Group).hold == .at 0 && ({ group with hold := .sleep 0 } : Group).hold == .sleep 0 &&
    (let y := { group with sched := { group.sched with yieldUntil := 3 } }; y.sched.yieldUntil == 3 && { (start y).time with clock := 3 }.clock == 3) &&
    (let o := { group with clause := none, sched := { group.sched with ovc := 64 } }; overrideDue o) &&
    ([{ group.sched with ovOn := true, ovl := 64 }] : List GSched).all (fun sc => overrideOver { group with clause := none, sched := sc }) &&
    overrideOver { group with clause := none, sched := { group.sched with ovOn := true, ovT := 1 }, th := [(0, thread []), (1, { (thread []) with st := .waiting })] } &&
    overrideOver { group with clause := none, sched := { group.sched with ovOn := true, ovT := 1 }, th := [(0, thread []), (1, { (thread []) with st := .exited })] } &&
    (takeWindow (start { handled with deliv := some (delivery 1) }) 0).isSome &&
    (let b := { group with th := [(0, { (thread []) with st := .waiting, wait := .bar, barNum := 2 }), (1, { (thread []) with st := .waiting, wait := .bar, barNum := 2 })] }
     allArrived (teamGroups (start b) 0) .bar 2) && !allArrived (([0] : List Nat).flatMap (teamGroups (start group))) .barc 2) = true := by decide +kernel

/-- R289: after the wait of 64 clocks the group takes part again; R44: a freed row fills the reserve first. -/
theorem test_rowFreed :
    (match exec (.rowFreed 0 0) ((start group).onCore 0 (fun c => c.setPart 0 { (c.part 0) with rsv := 63, freeing := 2 })) with
    | .next s => let p := (s.core 0).part 0; p.rsv == 64 && p.freeing == 1 && p.gen == 448
    | _ => false) = true := by decide +kernel

/-- A partition with its reserve empty and a favoured group stalled: another group is asked to stop, then evicted; a group
on the return list is seated. -/
def crowded (park : ParkState) (inside : Bool) : State :=
  let s := (start { group with ids := { group.ids with budget := 128 } }).setGroup 1 { group with
    ids := { group.ids with grp := 1, rows := 1 }, mapped := [2], clause := if inside then group.clause else none, park := park }
  let s := s.onCore 0 (fun c => c.setPart 0 { (c.part 0) with gen := 0, rsv := 0 })
  { s with mem := s.mem.write placeAt (bytesOfWord 0x00000804 ++ bytesOfWord 0 ++ bytesOfWord 0) }

/-- The save area of team 0 is named. -/
def named0 (s : State) : State :=
  { s with mem := s.mem.write 0x3000 (leBytes 0x200000 8) }.onSup 0 (fun u => { u with savebase := 0x3000 })

def asked (s : State) (p : Nat → Group → Bool) : Bool :=
  match s.groups.find? (fun x => coreOf x.1 == 0 && partOf x.1 == 0 && (x.2.park == .evicting || x.2.park == .missingEvict)) with
  | some x => p x.1 x.2
  | none => false

theorem witness_evictions :
    (evictWanted (crowded .running false) 0 0 && !asked (crowded .running false) (fun _ _ => true) &&
    (match evictVictim (crowded .running false) 0 0 with | some (k, g) => k == 1 && g.sup.isNone && g.park == .running | none => false) &&
    evictionOn (crowded .evicting false) 0 0 &&
    asked (crowded .evicting false) (fun k g => let s := crowded .evicting false
      g.park == .evicting && !favoured s k && parkReady s k g && groupSave s k g == 0) &&
    asked (named0 (crowded .evicting false)) (fun k g => let s := named0 (crowded .evicting false)
      g.park == .evicting && !favoured s k && parkReady s k g && groupSave s k g == 0x200000) &&
    asked (crowded .evicting true) (fun k g => let s := crowded .evicting true; g.park == .evicting && !favoured s k && !parkReady s k g) &&
    (let s := start { group with park := .evicting }; evictionOn s 0 0 && asked s (fun k g => g.park == .evicting && favoured s k)) &&
    !evictionOn (start group) 0 0 && !evictWanted (start group) 0 0 &&
    (let s := (start group).onCore 0 (fun c => { c with ret := [{ group with clause := none }] })
     firstReturn s (s.core 0).ret == some { group with clause := none } &&
      (seatGroup (s.setCore 0 { (s.core 0) with ret := [] }) 0 { group with clause := none }).isSome)) = true := by decide +kernel

/-! #### Services, spawning, launches -/

/-- A request of the two threads of group 0, results in v2, and the machine that holds it. -/
def request (n : Nat) : SysReq := ⟨0, 0, 0, 0, n, [0, 1], [], [(0, 64), (1, 64)], 0, some 2⟩
def asks (n : Nat) : State := { (start { group with mapped := [2] }) with sysq := [request n] }

theorem witness_serviceReplies :
    ([0x40, 0x20, 0x01, 0x02, 0x21, 0x30].all (fun n => findReq (asks n) 0 0 == some (request n) && (replyRows (asks n) (request n)).isSome) &&
    (let s := { (start group) with sysq := [request 0x40] }
     let s := s.onCore 0 (fun c => c.setPart 0 { (c.part 0) with gen := 0, rsv := 0 })
     findReq s 0 0 == some (request 0x40) && (replyRows s (request 0x40)).isNone) &&
    (Tab.look (asks 0x21).teams 0).isSome && (heapCap (asks 0x21) 0x20000 64 0xFFFF).isSome && (heapCap (asks 0x21) 1 (2 ^ 40 + 1) 0xFFFF).isNone) = true := by
  decide +kernel

/-- A launch that runs, of one team of the group's kind. -/
def launched : Launch := { Launch.blank with st := .running, nteam := 1, ngrp := 1, rows := 64, w := 1, h := 1, teamsLeft := 1 }

/-- Bin 0 of core 0 holds two records of the team. -/
def binned (due : Bool) : State :=
  { ((start group).onCore 0 (fun c => { c with bins := [(0, ⟨0, 0x40, [⟨codeAt 0x40, [1]⟩, ⟨codeAt 0x40, [2]⟩], 0, 64, due⟩)] })) with
    launches := [(0, launched)] }

/-- Every thread of the group has exited; n groups of that kind stand. -/
def retiring (n : Nat) : State :=
  let g := { group with clause := none, th := [(0, { (thread []) with st := .exited })] }
  { ((List.range n).foldl (fun s k => s.setGroup k { g with ids := { g.ids with grp := k } }) (start g)) with launches := [(0, launched)] }

def busyMatrix (s : State) : State := s.onMx 0 (fun m => { m with queue := [⟨0, 0, 0, 4, 0, 0, 0, 0, 0x4D3, 0, 0, 0, none, 0, [], []⟩] })

theorem witness_spawnAndRetire :
    (let s := binned true
     let b := (s.core 0).bin 0
     b.recs != [] && decide (b.deadline ≤ s.time.clock) && b.due && Tab.look s.teams b.team == some team &&
      Tab.look s.launches team.launch == some launched && (choosePart s 0).isSome && (freePositions s 0 ((choosePart s 0).getD 0) != []) &&
      positionFree s 0 && (s.core 0).formed != s.time.clock + 1 &&
      decide ((teamGroups s b.team).length < 64 ∧ 4 ≤ launched.rows ∧ 4 ≤ ((s.core 0).part ((choosePart s 0).getD 0)).gen)) = true ∧
    (([1, 2] : List Nat).all (fun n => (retiring n).group 0 != none && (retiring n).groups.all (fun x => groupDone (retiring n) x.2) &&
      (teamGroups (retiring n) 0).length == n && Tab.look (retiring n).teams 0 == some team)) = true ∧
    binsHold (retiring 1) 0 = false := by
  decide +kernel

/-- The granules of an accepted launch record (R262): an entry, no KEY, one team of one group of 256 threads with 64 rows. -/
def recordOk : List (BitVec 128 × Bool) :=
  [((codeAt 0x40).bits, true)] ++ List.replicate 9 (0, false) ++ [(BitVec.ofNat 128 (1 + 2 ^ 32 + 255 * 2 ^ 40 + 64 * 2 ^ 48 + 4096 * 2 ^ 96), false)] ++
    List.replicate 5 (0, false)

def withLaunch (l : Launch) : State := { State.reset with launches := [(9, l)] }
def read (bs : List (BitVec 128 × Bool)) : Launch := { Launch.blank with st := .reading, recBytes := bs }

/-- A launch that waits for operation 3 of core 0. -/
def depends : Launch := { launched with st := .dependent, deps := [mkHandle 3 0 1] }

/-- Operation 3 of core 0 has completed with a status. -/
def finished (x : W32) (s : State) : State := s.onCore 0 (fun c => { c with store := { c.store with stat := [(3, x)], order := [3] } })

/-- Unit 0 of launch 9 heads a queue. -/
def waiting (aged : Bool) (last : Nat) (l : Launch) : State :=
  { withLaunch l with dist := ⟨[(0, [⟨9, 0, 1, false⟩])], some (9, 0), 0, aged, 10, 0, last⟩, time := { State.reset.time with clock := 16, ftime := 2 ^ 25 } }

theorem witness_launches :
    (decide (placesTaken State.reset < placeCap) && decide (placesTaken (withLaunch (read [])) < placeCap) &&
    recordFault (withLaunch (read [])) (read []) == some 0 && recordFault (withLaunch (read recordOk)) (read recordOk) == none &&
    (let s := (withLaunch depends).onCore 0 (fun c => { c with store := { c.store with live := [3] } })
     depends.deps.any (fun h => !s.handleDone h)) &&
    ([(0x80000007, false), (0x80000001, true)] : List (W32 × Bool)).all (fun x => depends.deps.all (fun h =>
      (finished x.1 (withLaunch depends)).handleDone h && depGood ((finished x.1 (withLaunch depends)).status h) == x.2)) &&
    decide ((withLaunch { depends with timed := true, start := 5 }).time.ftime < 5) &&
    (let s := waiting false 1 { launched with st := .queued }; decide (s.time.clock < (watchHead s).dist.lastConsider + 16)) &&
    ([({ launched with st := .queued }, true), ({ launched with st := .queued, ngrp := 200 }, false)] : List (Launch × Bool)).all (fun x =>
      let s := watchHead (waiting false 0 x.1)
      decide (s.dist.lastConsider + 16 ≤ s.time.clock) && candidates s.dist == [(0, ⟨9, 0, 1, false⟩)] && (bestRect s x.1).isSome == x.2) &&
    (let s := watchHead (waiting false 0 { launched with st := .queued }); s.dist.head.isSome && decide (s.dist.headSince + msTicks ≤ s.time.ftime))) = true := by
  decide +kernel

/-- 4,096 launches take every place. -/
theorem witness_full_distributor : placeCap ≤ placesTaken { State.reset with launches := (List.range 4096).map (fun i => (i, depends)) } := by
  decide +kernel

/-! #### Copies and the vector L1 -/

/-- A copy of four words to memory, as CPY leaves it; accepted; being served. -/
def issued : State :=
  match execCpy e8 (layoutAt (start (copying 0 (recordCap 4) engineCap)) 4) with
  | .next s => s
  | _ => State.reset
def accepted : State := copyAcceptOp issued 0 0
def serving : State := copyServeOp accepted 0 0
def onCopies (f : Copy → Copy) (s : State) : State := s.onCore 0 (fun c => { c with ch := Tab.mapv (fun _ l => l.map f) c.ch })

def goes (s : State) (p : Copy → Bool) : Bool := match headCopy s 0 0 true with | some c => !c.cancel && p c | none => false

theorem witness_copiesUnderWay :
    ((((issued.core 0).chan 0).find? (fun c => !c.accepted)).isSome &&
    (match headCopy accepted 0 0 false with | some c => c.accepted && !c.cancel | none => false) &&
    goes serving (fun c => !rowSkipped serving 0 c && (match tryRow serving 0 c with | .ok _ => true | .error _ => false)) &&
    (let s := onCopies (fun c => { c with count := 0 }) serving; goes s (fun c => rowSkipped s 0 c)) &&
    (let s := onCopies (fun c => { c with dest := capMk 0x20000 0x100 0 12 false 0 0x0A1B true }) serving
     goes s (fun c => !rowSkipped s 0 c && (match tryRow s 0 c with | .ok _ => false | .error _ => true))) &&
    (((onCopies (fun c => { c with cancel := true }) serving).core 0).chan 0).any (fun c => c.cancel) && (serving.core 0).isServing 0) = true := by
  decide +kernel

/-- A line of core 0 at the current generations, one at stale ones, and a fill on its way. -/
def lined : State :=
  (start group).onCore 0 (fun c => { c with l1 := { c.l1 with
    passC := true, passD := true, lines := [(5, ⟨0xF, 0, 0, 0x280, [], 0, 7, none, 0, 0⟩), (6, ⟨0xF, 0, 0, 0x300, [], 0, 7, none, 1, 1⟩)]
    order := [5, 6], fills := [(7, ⟨0xF, 0, 0, 0x380, [], 0, 7, none, 0, 0⟩)] } })

theorem witness_vectorL1 : (lined.core 0).l1.passC = true ∧ (lined.core 0).l1.passD = true ∧ (lined.core 0).l1.fills.head?.isSome = true ∧
    (l1Hit lined 0 0 0x280).isSome = true ∧ (l1Hit (stepGen lined 0 true) 0 0 0x280).isNone = true ∧
    Tab.keys ((genPassDone lined 0 true).core 0).l1.lines = [5] := by decide +kernel

/-! #### Engines -/

def quarter (row : Nat) : MRec := ⟨row, row, 0, 4, 0, 0, 0, row, 0x4D3, 0, 0, 0, none, 0, [], []⟩
def tileOp (op : Nat) : MRec := ⟨9, 9, 0, op, 0, 0, 0, 0, 0, 0, 0, 0, none, 5, [0, 1], if op = 7 then [(0, 3), (1, 4)] else []⟩
def mxState (clock : Nat) (m : Chamois) : State :=
  { ((start group).onMx 0 (fun _ => m)) with time := { (start group).time with clock := clock } }

theorem witness_matrixEngine :
    (joins ⟨[quarter 0], 0, [], 0⟩ (quarter 1) 3 && !joins ⟨[quarter 0], 0, [], 0⟩ (quarter 1) 16 &&
    ((mxState 16 ⟨[quarter 1], some ⟨[quarter 0], 0, [], 0⟩, [], none, [], []⟩).core 0).mx.queue == [quarter 1] &&
    ([0, 128].all (fun n => ((mxState n ⟨[], none, [⟨[quarter 0], 0, [], 0⟩], none, [], []⟩).core 0).mx.run.isNone)) &&
    (let s := mxState 160 ⟨[], none, [], some ⟨[quarter 0], 0, [(0, 0, [(5, 6)])], 128⟩, [], []⟩
     (match (freeArray (s.core 0).mx s.time.clock).ended with | p :: _ => decide (p.ends + 32 ≤ s.time.clock) | [] => false)) &&
    (freeArray (mxState 140 ⟨[], none, [], some ⟨[quarter 0], 0, [], 128⟩, [], []⟩ |>.core 0).mx 140).ended.any (fun p => decide (140 < p.ends + 32)) &&
    ((mxState 100 ⟨[], none, [], some ⟨[quarter 0], 0, [], 128⟩, [], []⟩).core 0).mx.run.any (fun p => decide (100 < p.ends)) &&
    ([5, 6, 7].all (fun n => (tileOp n).op != 4 && Tab.look (mxState 0 ⟨[tileOp n], none, [], none, [], []⟩).teams (tileOp n).team == some team)) &&
    (closePass ⟨[tileOp 5], some ⟨[quarter 0], 0, [], 0⟩, [], none, [], []⟩).passes.any (fun p => p.recs.any (fun x => x.team == 0 && x.tile == 0))) = true := by
  decide +kernel

/-- R254, R392: four quarters fill a pass, which closes; the pass ends 128 clocks after it starts. -/
theorem test_pass :
    (let s := mxState 3 ⟨[quarter 3], some ⟨[quarter 0, quarter 1, quarter 2], 0, [], 0⟩, [], none, [], []⟩
     let m := ((quarterArrive s 0).core 0).mx
     m.opn.isNone && m.closed.map (fun p => p.recs.length) == [4]) = true ∧
    (match ((passStartOp (mxState 7 ⟨[], none, [⟨[], 0, [], 0⟩], none, [], []⟩) 0).core 0).mx.run with | some p => p.ends == 135 | none => false) = true := by
  decide +kernel

/-- A claim that waits; a release that waits, with and without a user; a program in its queue, and one that has ended. -/
def claiming : Team := { team with slots := 0, tiles := 0, claim := some ⟨1, 1, 0, none, 0, [0], 0, 0⟩ }
def releasing : Team := { team with relSlots := true }
def withTeam (t : Team) : State := { (start group) with teams := [(0, t)] }
def sequenced (x : Option W32) : Group := { group with prog := some { program with outcome := x, start := 5 }, th := [(0, thread [])] }

theorem witness_engineWork :
    ((claimNext (withTeam claiming) 0).isSome && !releaseBusy (withTeam releasing) 0 releasing true false &&
    releaseBusy (busyMatrix (withTeam releasing)) 0 releasing true false &&
    ([0, 5].all (fun n => let s := { ((start group).onCore 0 (fun c => { c with pq0 := [sequenced none] })) with time := { (start group).time with ftime := n } }
      (s.group (progKey 0 0)).isNone && (s.core 0).pq 0 == [sequenced none] && (sequenced none).prog.isSome)) &&
    (let s := (start group).setGroup (progKey 0 0) (sequenced (some 0x80000000))
     programIdle s 0 0 (sequenced (some 0x80000000)) ⟨0, 3, 0, 5, [], some 0x80000000⟩ &&
      !programIdle (s.onMx 0 (fun m => { m with queue := [{ quarter 0 with gk := progKey 0 0 }] })) 0 0 (sequenced (some 0x80000000)) ⟨0, 3, 0, 5, [], some 0x80000000⟩)) = true := by
  decide +kernel

/-! #### Supervisor cores -/

/-- The one group, parked as given, the supervisor core selecting it with an index and a value. -/
def parkedAs (p : ParkState) (ix : BitVec 12) (x : W64) : State :=
  (start { group with clause := none, mapped := [2], park := p }).onSup 0 (fun u => { u with pwidx := ix, pwdata := x })

/-- A delivery that the supervisor core holds, of a group with a handler or without. -/
def delivered (h : Bool) : State :=
  start { group with clause := none, park := .delivered, sup := some (delivery 1), handler := if h then codeAt 0x40 else Cap.null }

def selected (s : State) (p : Group → Bool) : Bool := match s.group (selKey s 0) with | some g => p g | none => false

theorem witness_parkAccess :
    (([.running, .stopping, .delivered, .parked] : List ParkState).all (fun p => let s := parkedAs p 0 0
      selected s (fun g => g.park == p && decide (posOf (selKey s 0) < 128)) && !(s.core 0).sup.busy) &&
    ((parkedAs .running 0 0).onSup 0 (fun u => { u with busy := true })).cores.any (fun c => c.2.sup.busy) &&
    ((parkedAs .running 0 0).onSup 0 (fun u => { u with pwsel := 5 })).group 5 == none &&
    selected (parkedAs .running 0 0) (fun g => g.sup.isNone && !pwOpen g) &&
    ([true, false].all (fun h => selected (delivered h) (fun g => g.sup.isSome && g.hasHandler == h && g.trap.isNone &&
      (takeWindow ((delivered h).setGroup 0 { g with sup := none, park := .running }) 0).isSome))) &&
    Tab.look { (parkedAs .parked 0 0) with launches := [(0, launched)] }.launches team.launch == some launched &&
    ([0x100, 0x17C, 0x240, 0x25E].all (fun ix => let s := parkedAs .parked ix 0x20000
      selected s pwOpen && (pwCapReg ix.toNat).isSome && paLocal s 0x20000)) &&
    ([0, 0x200].all (fun a => let s := (parkedAs .requested 0 0)
      let s := { s with mem := s.mem.write 0x3000 (leBytes (a * 4096) 8) }.onSup 0 (fun u => { u with savebase := 0x3000 })
      selected s (fun g => g.park == .requested && parkReady s 0 g) &&
        (match Tab.look s.teams 0 with | some t => saveArea s 0 t == a * 4096 | none => false))) &&
    ([ParkState.missing, .missingEvict, .missingStop].all (fun p => selected (parkedAs p 0 0) (fun g => g.park == p))) &&
    selected (parkedAs .parked 0x307 0x20000) (fun g => pwOpen g && g.trap.isNone && (g.thread 0).pc != 0x20000 && (Tab.look g.th 0).isSome) &&
    ([0, 0x7F, 0x19F, 0x1A7, 0x200, 0x23F, 0x26F, 0x292, 0x312].all (fun ix => let s := parkedAs .parked ix 0
      selected s (fun g => (pwRead s 0 g 0 ix.toNat).isSome))) &&
    ([0x1A8, 0x1FF, 0x270, 0x293, 0x313, 0x400].all (fun ix => let s := parkedAs .parked ix 0
      selected s (fun g => (pwRead s 0 g 0 ix.toNat).isNone)))) = true := by decide +kernel

/-- A unit of the one team, running and saved. -/
def unitOf (v : Option UnitSave) : CUnit := ⟨0, 0, 1, 1, [0], v⟩
def inUnits (g : Group) (v : Option UnitSave) (placed : Bool) : State :=
  { (start g) with units := [(0, unitOf v)], launches := [(0, launched)], teams := [(0, { team with placed := placed })] }
def savedUnit : UnitSave := ⟨[{ group with clause := none }], [], [], [], [], []⟩

theorem witness_controlRegisters :
    ((State.reset.lease.lender 16383).st == 0 && ({ State.reset with lease := { State.reset.lease with lenders := [(3, ⟨0, 1, 7, 2, 1, 2, 10, 0, false, none⟩)] } }.lease.lender 3).st != 0 &&
    !unitReady (inUnits group none true) (unitOf none) && unitReady (inUnits { group with clause := none } none true) (unitOf none) &&
    ([true, false].all (fun b => (unitTeams (inUnits group (some savedUnit) b) (unitOf (some savedUnit))).all (fun t => t.2.placed) == b)) &&
    savedUnit.groups.all (fun g => Tab.look (inUnits group (some savedUnit) true).teams g.ids.team != none)) = true := by decide +kernel

/-! #### Revocation and residency -/

/-- A region table at 0x4000 with one region of n bytes, its map at 0x5000, of address space 0. -/
def regions (num : W64) (n : Nat) : State :=
  { (start { group with clause := none }) with
    mem := (start group).mem.write 0x4000 (leBytes 0x20000 8 ++ leBytes n 8 ++ leBytes 0x5000 8 ++ leBytes 0 8)
    rev := { State.reset.rev with tab := 0x4000, num := num } }

/-- A sweep under way in a phase. -/
def sweeping (p : Nat) (s : State) : State := { s with rev := { s.rev with busy := true, phase := p, regions := [⟨0x20000, 0x1000, 0x5000, 0⟩] } }

theorem witness_revocation :
    (([0, 257].all (fun n => let s := regions n 4096; s.rev.num.toNat % 512 == 0 || decide (256 < s.rev.num.toNat % 512))) &&
    regionOk (regionAt (regions 1 4096) 0) && !regionOk (regionAt (regions 1 100) 0) && !(regions 1 4096).rev.busy &&
    revDrained (sweeping 2 (regions 1 4096)) && named (sweeping 2 (regions 1 4096)) 0 &&
    ([sweeping 2 (regions 1 4096), sweeping 2 { (regions 1 4096) with groups := (start group).groups }].all (fun s =>
      s.groups.map Prod.fst == [0] && s.groups.all (fun x => toWalk s x.2 && (match x.2.hold with | .handles _ => false | _ => true)))) &&
    (sweeping 2 (regions 1 4096)).groups.all (fun x => parkReady (sweeping 2 (regions 1 4096)) x.1 x.2) &&
    !(start group).groups.all (fun x => parkReady (sweeping 2 (start group)) x.1 x.2)) = true := by decide +kernel

/-- R102, R103: the walk untags a capability of the region whose bit is set, and no other. -/
theorem test_revoked :
    (let s := sweeping 2 (regions 1 4096)
     let s := { s with mem := s.mem.write 0x5000 [2] }
     let c := fun (a : Nat) => (capSetBounds (capSetAddr heap (a : Int)) 16 true).1
     (walkCap s 0 (c 0x20010)).tag == false && (walkCap s 0 (c 0x20020)).tag && (walkCap s 1 (c 0x20010)).tag) = true := by decide +kernel

def resident (r : Resid) : State := { State.reset with resid := [(0, r)] }
def entryOf (n : Nat) (a : Byte) : RsEnt := ⟨0x100000, n, 5, a⟩

theorem witness_residency :
    (((resident { Resid.reset with active := true, queue := List.replicate 16 5 }).die 0).queue.length == 16 &&
    ([0, 1].all (fun a => let r : Resid := { Resid.reset with active := true, queue := [5], table := [entryOf 4 a] }
      ((resident r).die 0).table.filter (fun e => e.stp == 5) == [entryOf 4 a] && decide (keptPages (unkeep r.kept 0x100000 4 ++ [(0x100000, 4)]) ≤ 3072))) &&
    decide (3072 < keptPages (unkeep [(0, 3072)] 0x1000000 4 ++ [(0x1000000, 4)])) && ((resident { Resid.reset with active := true, queue := [5] }).die 0).queue.length == 1 &&
    (let r : Resid := { Resid.reset with len := 1, base := 0x6000 }
     ((resident r).die 0).len != 0 && r.base.toNat % 16 == 0 && (State.reset.keys.world 0).st == 2) &&
    ((resident { Resid.reset with loading := true }).die 0).loading) = true := by decide +kernel

/-! #### Translation and leases -/

/-- Two cached pages of address space 7, the second of the pool, and one of address space 8. -/
def cachedPages : State :=
  (State.reset.onXlat (fun x => { x with
    tlb := [⟨.core 0, 7, 0, 0x20, 0, 0x20, 7, false, 0⟩, ⟨.chip, 7, 0, 0x21, 0, 2 ^ 40, 7, false, 6⟩, ⟨.chip, 8, 0, 0x20, 0, 0x20, 7, false, 0⟩]
    tdlen := 1 })).onHost 0 (fun h => { h with rfreqs := [⟨0, false, 0, 0, 0⟩] })

theorem witness_translationCommands :
    (cachedPages.xlat.tlb.filter (fun e => e.asid == 7 && counted e)).length = 1 ∧ cachedPages.xlat.busy = false ∧
    (cachedPages.onXlat (fun x => { x with busy := true })).xlat.busy = true ∧ (cachedPages.sys.port 0).host.rfreqs ≠ [] ∧
    (tlbFind cachedPages 7 0x20008).isSome = true ∧ (tlbFind (bumpOp cachedPages 7) 7 0x20008).isNone = true ∧
    (tlbFind (bumpOp cachedPages 7) 8 0x20008).isSome = true ∧
    (cachedPages.onXlat (fun x => { x with gens := [(7, 4095)] })).xlat.gen 7 = 4095 := by decide +kernel

def lends (st : Byte) : State :=
  { State.reset with
    sys := { State.reset.sys with pbrValid := true }
    time := { State.reset.time with ftime := 100 }
    out := [.addCapacity 0 7 9 2 0 1 50]
    lease := { State.reset.lease with lenders := [(0, ⟨0, 1, 9, 7, 2, st, 50, 0, false, none⟩)], larg := 60 } }
def borrows (st : Byte) : State :=
  { State.reset with
    sys := { State.reset.sys with pbrValid := true }
    lease := { State.reset.lease with slots := [(0, ⟨7, 2, st, 9, 0, 1, 50, 0x10000, 4096, 0, 0, false, false, false, none⟩)]
                                      lines := [(3, ⟨true, true, List.replicate 128 1, 0⟩)] } }

theorem witness_leaseLife :
    ((List.range 6).all (fun n => ((lends (BitVec.ofNat 8 n)).lease.lender 0).st == BitVec.ofNat 8 n && ((borrows (BitVec.ofNat 8 n)).lease.slot 0).st == BitVec.ofNat 8 n) &&
    offerOk (lends 0) 0 ((lends 0).lease.lender 0) && !offerOk { (lends 0) with sys := State.reset.sys } 0 ((lends 0).lease.lender 0) &&
    (lends 1).out.any (isGrant 0 9) && decide (((lends 2).lease.lender 0).expiry.toNat ≤ (lends 2).time.ftime) &&
    decide (((borrows 2).lease.slot 0).expiry.toNat ≤ (borrows 2).time.ftime + 16000) &&
    ((borrows 1).lease.slots.find? (fun x => x.2.st == 1 && x.2.lender.setWidth 12 == (7 : BitVec 12) && x.2.lid == 9)).isSome &&
    (slotLines (borrows 3) 0).length == 1 && (Tab.look (borrows 2).lease.lines (0 * 2 ^ 33 + 384 / 128)).isSome && paLocal (borrows 2) 0x10000) = true := by
  decide +kernel

/-! #### Worlds, the fabric, the package -/

def worldAt (w : World) : State := { State.reset with keys := { State.reset.keys with worlds := [(0, World.mydal), (1, w)] } }

/-- The world's launch has a team. -/
def populated (s : State) : State := { s with launches := [(0, { launched with world := 1 })], teams := [(0, team)] }

theorem witness_worldLife :
    (([0, 1, 2].all (fun n => ((worldAt { World.reset with st := n }).keys.world 1).st == n)) && !State.reset.keys.busy &&
    ((worldAt World.reset).keys.world 1).scrubbed && !((worldAt { World.reset with scrubbed := false }).keys.world 1).scrubbed &&
    worldBusy (populated (worldAt { World.reset with st := 2 })) 1 && !worldBusy (worldAt { World.reset with st := 2 }) 1 &&
    Tab.look { State.reset.keys with locked := [(5, 2)] }.locked 5 == some 2) = true := by decide +kernel

def ported (p : Port) (clock : Nat) : State :=
  { (start group) with sys := { State.reset.sys with ports := [(2, p)] }, time := { State.reset.time with ftime := clock } }
def fabricPort : Port := { Port.reset with role := .fabric, up := true, peers := [7] }
def hostPort : Port := { Port.reset with role := .upstream, up := true, asid := 0 }

theorem witness_fabricAndHosts :
    (beaconDue (ported fabricPort 16000000) && !beaconDue (ported fabricPort 15999999) && managerDue (ported fabricPort 64000000) && !managerDue State.reset &&
    (let s := ported fabricPort 1600000000; { s.time with sync := true }.sync && decide (s.time.syncAt + 100 * msTicks ≤ s.time.ftime)) &&
    ((ported fabricPort 0).sys.port 2).up && !(State.reset.sys.port 2).up && ((ported hostPort 0).sys.port 2).role == .upstream &&
    (match inboundXlat (ported hostPort 0) 2 needStore 2 0x20000 8 with | .ok _ [(_, k, io)] => k == 8 && !io | _ => false) &&
    cutOff (ported { hostPort with cut := true, win := (0xE0000000000000, 4096) } 0) 0xE0000000000000 &&
    (match inboundXlat (ported { hostPort with asid := 9 } 0) 2 needLoad 2 0x20000 8 with | .bad _ => true | _ => false) &&
    (match inboundXlat (ported hostPort 0) 2 needLoad 3 0x20FFC 8 with | .ok s l => l.length == 2 && l.all (fun x => s.mem.err (homeOf s x.1) x.2.1 == none && !x.2.2) | _ => false)) = true := by
  decide +kernel

def heated (deg : Nat) (closed gated : Bool) : State :=
  State.reset.onPw 0 (fun p => { p with temp := deg, closed := closed, gated := gated })

theorem witness_packageEvents :
    (((worldAt { World.reset with key := 5 }).keys.world 1).key != 0 && (State.reset.keys.world 1).key == 0 &&
    (worldAt { World.reset with st := 2, prot := true }).keys.worlds.any (fun x => x.2.st == 2 && x.2.prot) &&
    !State.reset.keys.worlds.any (fun x => x.2.st == 2 && x.2.prot) && Tab.look (start group).teams 0 == some team &&
    closeDue (heated 95 false false) 0 && !closeDue (heated 94 false false) 0 && reopenDue (heated 87 true false) 0 && !reopenDue (heated 88 true false) 0 &&
    shutdownDue (heated 110 true false) && ((heated 25 false true).core 0).pw.gated && teamsOn State.reset 0 == [] && teamsOn (start group) 0 != [] &&
    { State.reset.power with overLimit := true }.overLimit) = true := by decide +kernel

/-- R459: a package that has stopped takes no step. -/
theorem test_shutdown : step (shutdownOp (heated 110 false false)) = .fault .packageDown := by rfl

/-- A core that caches the code line at placeAt, where a store has changed memory since; a remote fence limited to
instruction caches waits. -/
def cachedCode (icache : Bool) : State :=
  let s := codeFill (start group) 0 0 placeAt
  { s with mem := s.mem.write placeAt [0x77], xlat := { s.xlat with bound := [(0, 5 * 64 + 2)] } }.onHost 2 (fun h =>
    { h with rfreqs := [⟨3, icache, 0, BitVec.ofNat 64 placeAt, 4⟩] })

def firstByte (o : Except Stop (List Byte)) : Option Byte := match o with | .ok b => b.head? | .error _ => none

/-- R420: the stale line serves a fetch until the fence; a core without it reads memory. -/
theorem test_codeLine :
    (let s := cachedCode true
     let fetch := fun (s : State) (core : Nat) => firstByte (fetchBytes s ⟨core, 0, 0⟩ placeAt 4 0)
     (fetch s 0 == firstByte (fetchBytes (start group) who placeAt 4 0)) && fetch s 0 != some 0x77 && fetch s 1 == some 0x77 &&
       fetch (rfDone s 2) 0 == some 0x77 && fetch (rfDone (cachedCode false) 2) 0 == some 0x77 && (codeHit s 0 0 placeAt).isSome &&
       fetch (dropAsidLines s 0) 0 == some 0x77) = true := by decide +kernel

/-- R458: a boot that fails holds the package until the next one. -/
theorem test_failedBoot :
    (let s := { (start group) with power := { State.reset.power with failing := some 3 } }
     let t := coldBootOp s
     t.power.held == some 3 && t.out == [.bootFailed 3] && stopped t && !stopped (coldBootOp t)) = true := by decide +kernel

/-- A port to the peer 7 that carries tags, and a line from it whose first two granules come tagged, the second malformed. -/
def tagPeer : State := ported { hostPort with role := .fabric, up := true, peers := [7], tagExt := true } 0

def taggedLine : FwdReq := ⟨true, 0x40000, 128, capBytes heap ++ List.replicate 112 0xFF, 7, 0x83⟩

theorem witness_forwardedTags :
    (peerTagged tagPeer 7 && !peerTagged (start group) 7 && paLocal tagPeer 0x40000 && !writeBarred tagPeer 0x40000 && tagPeer.mem.wf &&
      capWell heap && !capWell (capOfBytes (List.replicate 16 0xFF) true) && taggedLine.data.length == 128) = true := by decide +kernel

/-- R101: tags come over a route that carries them, and over no other. -/
theorem test_forwardedTags :
    ((forwardedOp tagPeer taggedLine).readTag 0x40000 && !(forwardedOp tagPeer taggedLine).readTag 0x40010 &&
      !(forwardedOp tagPeer { taggedLine with peer := 8 }).readTag 0x40000 &&
      (forwardedOp (forwardedOp tagPeer taggedLine) ⟨false, 0x40000, 128, [], 7, 0⟩).out.any (fun m => match m with
        | .peerReply 7 d 1 => d.take 16 == capBytes heap | _ => false)) = true := by decide +kernel

/-- R418, R428, R450, R308: commands written to their registers, and what the status words then read. -/
theorem test_commandRegisters :
    let s := start group
    (tStat (registerWriteOp s .tcmd 0x50003) == 2 && tStat (registerWriteOp s .tcmd 0x10003) == 1 &&
      tGen (registerWriteOp (registerWriteOp s .tcmd 0x10003) .tgensel 3) == 1 &&
      lStat (registerWriteOp s .lcmd 0x7) == 2 && lStat (registerWriteOp s .lcmd 0x100011) == 4 &&
      ksStat (registerWriteOp s .kscmd 0x15) == 6 && ksStat (registerWriteOp s .kscmd 0x1) == 4 &&
      rsStat (registerWriteOp s (.rsctl 0) 1) 0 == 4 && ((registerWriteOp s (.rfctl 3) 6).sys.port 3).host.rfreqs.length == 1) = true := by decide +kernel

/-! ### Witnesses of further clauses -/

/-! #### Numbers -/

theorem reads_one : fmt32.Reads 0x3F800000 1 := ⟨false, 2 ^ 23, -23, by decide, by norm_num [zpow_neg]⟩
theorem reads_zero : fmt32.Reads 0 0 := ⟨false, 0, -149, by decide, by simp⟩
theorem reads_minus_two : fmt32.Reads 0xC0000000 (-2) := ⟨true, 2 ^ 23, -22, by decide, by norm_num [zpow_neg]⟩

/-- Sums, products and fused products that are zero and that are not, a divisor and a radicand of each kind. -/
theorem witness_arithmeticValues : fmt32 ∈ [fmt64, fmt32, fmtOf 0x12, fmtOf 0x13] ∧
    (∃ a b c : W64, fmt32.Reads a 1 ∧ fmt32.Reads b (-2) ∧ fmt32.Reads c 0) ∧ ((1 : ℝ) + -2 ≠ 0) ∧ ((1 : ℝ) * -2 ≠ 0) ∧
    ((1 : ℝ) * -2 + 0 ≠ 0) ∧ ((1 : ℝ) * 0 + 0 = 0) ∧ ((0 : ℝ) < 1) ∧ ((-2 : ℝ) < 0) ∧ (|((1 : ℤ) : ℝ)| < 4096) ∧
    ((1 : ℝ) = (2 : ℝ) ^ (0 : ℤ)) :=
  ⟨by simp, ⟨_, _, _, reads_one, reads_minus_two, reads_zero⟩, by norm_num, by norm_num, by norm_num, by norm_num, by norm_num,
    by norm_num, by norm_num, by norm_num⟩

/-- Integers and numbers to convert, and to sum. -/
theorem witness_conversionValues : tyInt 6 = true ∧ tyFloat 0x11 = true ∧ fmtOf 0x11 = fmt32 ∧ toInt 32 true 5 = 5 ∧
    (fmtOf 0x11).Reads 0x3F800000 1 ∧ (1 : ℝ) ≠ 0 ∧ (fmtOf 0x12).Reads 0x3C00 1 ∧ (1 : ℝ) * 1 + 1 * 1 + 1 ≠ 0 ∧
    (0x7F : W64).toNat % 256 ≠ 255 ∧ (2 : ℝ) ^ (0 : ℤ) ≤ |1| ∧ |(1 : ℝ)| < (2 : ℝ) ^ ((0 : ℤ) + 1) ∧ intMin 8 true ≤ 5 ∧ 5 ≤ intMax 8 true :=
  ⟨by decide, by decide, rfl, by decide, reads_one, by norm_num, ⟨false, 2 ^ 10, -10, by decide, by norm_num [zpow_neg]⟩, by norm_num,
    by decide, by norm_num, by norm_num, by decide, by decide⟩

theorem witness_transcendentalValues : fmt32 ∈ [fmt32, fmtOf 0x12, fmtOf 0x13] ∧ fmt32.Reads 0x3F800000 1 ∧ |(1 : ℝ)| < 4096 ∧
    (0 : ℝ) < 1 ∧ (1 : ℝ) ≠ 0 := ⟨by simp, reads_one, by norm_num, by norm_num, by norm_num⟩

/-- A number whose digits are all there, and one a part of whose digits is cut off. -/
theorem witness_stands_exact : (⟨false, 3, -1, false⟩ : Exact).Stands fmt32 (3 / 2) :=
  ⟨by decide, by norm_num, by norm_num [abs_of_pos, zpow_neg], by norm_num [abs_of_pos, zpow_neg], by norm_num [abs_of_pos, zpow_neg],
    by simp⟩
theorem witness_stands_cut : (⟨false, 2 ^ 200, -200, true⟩ : Exact).Stands fmt32 (1 + 1 / 2 ^ 201) :=
  ⟨by norm_num, by norm_num, by norm_num [abs_of_pos, zpow_neg], by norm_num [abs_of_pos, zpow_neg],
    by norm_num [abs_of_pos, zpow_neg], fun _ => by
      have : Nat.log2 (2 ^ 200) = 200 := by decide +kernel
      simp only [this]; decide⟩

/-! #### Instructions -/

/-- The first thread not yet done of an illegal instruction; records that wait for room are of 96 bytes at most. -/
theorem witness_illegalFirst :
    (match sweepNow (.eret x0) (start group) with
      | some w => w.first == some 0 && w.g.drain.isNone && (((start group).core (coreOf w.gk)).sup.waiting).all (fun r => decide (r.length ≤ 96))
      | none => false) = true := by decide +kernel

/-- An event ring whose pages may be written, and one in a page that no agent may write. -/
theorem witness_keptRing :
    let s := start handled
    let u := (s.core 0).sup
    let t := { s with keys := { s.keys with locked := [(u.evbase.toNat / 4096, 2)] } }
    (∀ a < 96, pageKept s (u.evbase.toNat + 96 * u.evhead + a) = false) ∧ pageKept t u.evbase.toNat = true := by decide +kernel

/-- The special registers of a team, its unit and its launch, and of the threads of a trap. -/
theorem witness_specialNumbers :
    (let s := { (start trapped) with units := [(0, ⟨0, 0, 1, 1, [0], none⟩)], launches := [(0, { Launch.blank with nteam := 1, ngrp := 1 })] }
     ([2, 3, 17, 18, 10, 11, 12, 13] : List (BitVec 8)).all (fun n => readyB (.sregr { x0 with imm := n, d := 120 }) s (fun w =>
       match Tab.look s.teams w.g.ids.team, w.g.trap with
       | some tm, some tr => (Tab.look s.units tm.unit).isSome && (Tab.look s.launches tm.launch).isSome && decide tr.tmask.Nodup
       | _, _ => false))) = true := by decide +kernel

/-- A device page: with MMIO, without, in an atomic, misaligned; a page lent read-only; a line that a borrower has modified, and one
that none has; bytes under the reader's key, and under another. -/
theorem witness_targets :
    (let c := fun (p : Nat) => capMk 0x20000 0x100 0 12 false 0 p true
     let r := fun (k : Kind) (c : Cap) (align : Nat) (ea : Int) => checkAccess cached who k c 0 [pLD, pST] 0 align ea 8
     let cause := fun (x : Except Stop (State × List (Target × Nat))) => match x with | .error e => some e.cause | .ok _ => none
     let dev := c (0x205B + 0x400)
     capHas dev pMMIO && !capHas heap pMMIO && cause (r ⟨needStore, false, true, false⟩ dev 1 0x30000) == none &&
       cause (r ⟨needStore, false, true, false⟩ dev 1 0x30004) == some cCAP_ALIGN &&
       cause (r ⟨needStore, true, true, false⟩ dev 1 0x30000) == some cCAP_PERM) = true ∧
    (let s := start group
     let far := { s with lease := { s.lease with far := [(2 ^ 45, ⟨0, true, false, some (List.replicate 128 7, 0)⟩)] } }
     farData s 0x20000 = none ∧ (farData far (2 ^ 52)).isSome = true ∧
     opens s 0 0x20000 8 = true ∧ opens (sealWith s 5 0x20000 8) 5 0x20000 8 = true ∧ opens (sealWith s 5 0x20000 8) 6 0x20000 8 = false) := by
  decide +kernel

/-- TLD.aon below .clu, at .clu and at .dev; a handle stored that is none. -/
theorem witness_panelScopes :
    (([0x41, 0x42, 0x43] : List (BitVec 8)).all (fun q =>
      readyB (.tld { tx 6 with a := 32, b := 2, imm := q }) panelState (fun w => match panelCheck w (w.begun panelState) false 0 with
        | .ok s1 => (inTurn (w.loadAt true false 16 w.width) w.doers (versionAcquire w s1 0)).isSome && qAon w.e.imm && decide (qScope w.e.imm = q.toNat % 64)
        | .error _ => false)) &&
    ([start group, start (holding 3 1)].all (fun s => readyB (.sth x0) s (fun w =>
      (inTurn (w.sthAt (match readH w.g w.base 0 with | some x => capMk x 0 0 0 false 5 0x0040 true | none => Cap.null)) w.doers (w.begun s)).isSome)))) =
      true := by decide +kernel

theorem witness_matrixRoom : ((start group).core 0).mx.queued < 64 ∧ (busyMatrix (start group) |>.core 0).mx.queued = 1 := by decide +kernel

/-! #### Steps -/

/-- Barriers of the unit that all have reached; a slot owed, and one owed already in this clock. -/
theorem witness_groupClauses :
    (let b := { group with th := [(0, { (thread []) with st := .waiting, wait := .barc, barNum := 2 }), (1, { (thread []) with st := .waiting, wait := .barc, barNum := 2 })] }
     let s := { (start b) with units := [(0, ⟨0, 0, 1, 1, [0], none⟩)] }
     allArrived (([0] : List Nat).flatMap (teamGroups s)) .barc 2 && (Tab.look s.units 0).isSome && s.groups.any (fun x => x.2.ids.team == 0 && x.2.prog.isNone)) = true ∧
    (start group).time.clock % 64 = 0 ∧ ((start group).core 0).owedAt ≠ (start group).time.clock + 1 ∧
    (((start group).onCore 0 (fun c => { c with owedAt := 1 })).core 0).owedAt = (start group).time.clock + 1 ∧
    favoured (start { group with clause := none }) 0 = true ∧ (1 : Nat) % 64 ≠ 0 := by decide +kernel

/-- Victims of an eviction: being parked by a command, waiting for a save area, parked already or delivered, ready or not; one asked
that waits for its area. -/
theorem witness_evictionVictims :
    (([.requested, .missing, .missingStop, .parked] : List ParkState).all (fun p => let s := crowded p false
      evictWanted s 0 0 && !asked s (fun _ _ => true) && (match evictVictim s 0 0 with | some (k, g) => k == 1 && g.park == p | none => false)) &&
    (let s := crowded .parked false; parkReady s 1 ((s.group 1).getD group)) && (let s := crowded .parked true; !parkReady s 1 ((s.group 1).getD group)) &&
    (let s := crowded .missingEvict false; evictWanted s 0 0 && asked s (fun k g => k == 1 && g.park == .missingEvict))) = true := by decide +kernel

/-- A tile operation that waits for the pass before it, with a pass behind it that it holds back, and with none; one that may take effect. -/
theorem witness_tileOrder :
    (let q := fun (n : Nat) => { quarter 0 with seq := n }
     let m : Chamois := ⟨[], none, [⟨[q 10], 0, [], 0⟩], none, [], [tileOp 5]⟩
     let held := fun (p : Pass) => m.waits.any (fun r => p.recs.any (fun x => x.team == r.team && x.tile == r.tile && seqOlder r.seq x.seq))
     held ⟨[q 10], 0, [], 0⟩ && !held ⟨[q 3], 0, [], 0⟩ &&
     (([⟨[q 3], 0, [], 0⟩] : List Pass).any (fun p => p.recs.any (fun x => x.team == 0 && x.tile == 0 && seqOlder x.seq 9))) &&
     !(([⟨[q 10], 0, [], 0⟩] : List Pass).any (fun p => p.recs.any (fun x => x.team == 0 && x.tile == 0 && seqOlder x.seq 9))) &&
     ((sequenced (some 0x80000003)).prog.any (fun x => x.outcome.isSome))) = true := by decide +kernel

/-- A bin that is empty, and one whose timer has not run out; a unit with another team that has not retired. -/
theorem witness_binsAndUnits :
    ((start group).core 0).bin 5 = ⟨0, 0, [], 0, 0, false⟩ ∧
    (let s := (binned false).onCore 0 (fun c => { c with bins := Tab.mapv (fun _ (b : Bin) => { b with deadline := 9 }) c.bins }); s.time.clock < ((s.core 0).bin 0).deadline) ∧
    (let s := { (retiring 1) with teams := [(0, team), (1, { team with num := 1, pos := 1 })] }
     ∃ x ∈ s.teams, x.1 ≠ 0 ∧ x.2.unit = team.unit ∧ x.2.retired = false) ∧
    (let s := (binned true).onCore 0 (fun c => { c with formed := 1 }); (s.core 0).formed = s.time.clock + 1) :=
  ⟨by decide +kernel, by decide +kernel, ⟨(1, { team with num := 1, pos := 1 }), by decide +kernel, by decide, rfl, rfl⟩, by decide +kernel⟩

/-! #### Supervisor cores, revocation, translation -/

/-- Granules and pages that Mydal's key opens and may write, and others; a unit whose team has no save area named, and one that has. -/
theorem witness_parkPages :
    let s := parkedAs .parked 0x100 0x20000
    let t := sealWith { s with keys := { s.keys with locked := [(0x20, 2)] } } 5 0x20000 16
    opens s (s.keys.world 0).key 0x20000 16 = true ∧ pageKept s 0x20000 = false ∧
      opens t (t.keys.world 0).key 0x20000 16 = false ∧ pageKept t 0x20000 = true ∧
      (unitMissing (inUnits { group with clause := none } none true) (unitOf none)).isSome = true ∧
      unitMissing (named0 (inUnits { group with clause := none } none true)) (unitOf none) = none := by decide +kernel

/-- The one group that a sweep has to walk, its save area named or not; none to walk; phases 4 and 5. -/
theorem witness_revocationPhases :
    let s := sweeping 2 (regions 1 4096)
    let done := { s with rev := { s.rev with walked := s.groups.map (fun (x : Nat × Group) => walkName x.2) } }
    (s.groups.all (fun x => toWalk s x.2 && parkReady s x.1 x.2 && (afterMissing x.2.park).isNone && groupSave s x.1 x.2 == 0 &&
      groupSave (named0 s) x.1 x.2 == 0x200000 && x.1 == 0)) = true ∧ (done.groups.all (fun x => !toWalk done x.2)) = true ∧
    (sweeping 4 (regions 1 4096)).rev.phase = 4 ∧ (sweeping 5 (regions 1 4096)).rev.phase = 5 ∧ s.rev.busy = true ∧ s.lease.far = [] := by
  decide +kernel

/-- A dump with no counter at the threshold and with one, its page free or kept; vector 0 enabled and masked. -/
theorem witness_dumps :
    let full := fun (n : W64) (thr : BitVec 16) (kept : Bool) =>
      let s := cachedPages.onXlat (fun x => { x with tdlen := n, tthr := thr, tdump := 0x9000 })
      if kept then { s with keys := { s.keys with locked := [(9, 2)] } } else s
    let es := fun (s : State) => (s.xlat.tlb.filter (fun e => decide (e.place = .chip) && e.asid == 7 && counted e && decide (s.xlat.tthr.toNat ≤ e.count.toNat))).take s.xlat.tdlen.toNat
    es (full 1 7 false) = [] ∧ (es (full 1 6 false)).length = 1 ∧ pageKept (full 1 6 false) 0x9000 = false ∧ pageKept (full 1 6 true) 0x9000 = true ∧
      (let on := cachedPages.onHost 0 (fun x => { x with msixOn := true, table := [(3, 0)] })
       (on.sys.port 0).host.msixOn = true ∧ (Tab.lookD (on.sys.port 0).host.table 3 1).getLsbD 0 = false) ∧
      (Tab.lookD (cachedPages.sys.port 0).host.table 3 1).getLsbD 0 = true := by decide +kernel

/-! #### Leases -/

/-- A fabric link to the lender, and a request that has had no answer for 1 ms. -/
def linked (late : Bool) (s : State) : State :=
  let s := { s with sys := { s.sys with ports := [(2, fabricPort)] } }
  if late then { ((s.onSlot 0 (fun x => { x with wait := some 0 })).onLender 0 (fun x => { x with wait := some 0 })) with
    time := { s.time with ftime := 16000000 } } else s

theorem witness_leaseClauses :
    { (borrows 3).lease with busy := true }.busy = true ∧ (borrows 3).lease.busy = false ∧
    (∃ y ∈ (linked false (borrows 3)).sys.ports, y.2.up = true ∧ y.2.role = .fabric ∧ ((borrows 3).lease.slot 0).lender.setWidth 12 ∈ y.2.peers) ∧
    (borrows 3).sys.ports = [] ∧ ((linked true (borrows 3)).lease.slot 0).wait = some 0 ∧ 0 + 16000000 ≤ (linked true (borrows 3)).time.ftime ∧
    ((borrows 3).lease.slot 0).flushed = false ∧ (((borrows 3).onSlot 0 (fun x => { x with flushed := true })).lease.slot 0).flushed = true ∧
    (((borrows 3).onSlot 0 (fun x => { x with releasing := true })).lease.slot 0).releasing = true ∧
    ((linked true (lends 2)).lease.lender 0).wait = some 0 :=
  ⟨rfl, rfl, ⟨(2, fabricPort), by decide +kernel, rfl, rfl, by decide +kernel⟩, rfl, by decide +kernel, by decide +kernel, by decide +kernel,
    by decide +kernel, by decide +kernel, by decide +kernel⟩

/-- A write that arrives for a page that may be written, and for one of a world; over a flow that goes on, and one at its end. -/
theorem witness_forwardedPages :
    let s := tagPeer
    paLocal s 0x40000 = true ∧ peerStalled s 7 = false ∧ writeBarred { s with keys := { s.keys with locked := [(0x40, 2)] } } 0x40000 = true ∧
      0x40000 % 4096 + 128 ≤ 4096 ∧
      peerStalled (ported { fabricPort with flow := 2 ^ 48 - 1 } 0) 7 = true ∧ flowStalled (ported { hostPort with flow := 2 ^ 48 - 1 } 0) 2 = true ∧
      flowStalled (ported hostPort 0) 2 = false := by decide +kernel

/-! #### The fabric and the package -/

/-- A link that goes down under a lease of its peer; a manager that hears one of lower serial; a candidate and none. -/
theorem witness_fabricClauses :
    (let s := linked false (borrows 3)
     (s.sys.port 2).up = true ∧ (7 : BitVec 12) ∈ (s.sys.port 2).peers ∧ peerUp (s.onPort 2 (fun p => { p with up := false })) 7 = false ∧
       (s.lease.slot 0).st = 3) ∧
    (let s0 : Sys := { State.reset.sys with role := .manager, candidate := true }; s0.role = FabricRole.manager ∧ s0.candidate = true) ∧ State.reset.time.sync = false :=
  ⟨by decide +kernel, ⟨rfl, rfl⟩, rfl⟩

/-- A die at 110 °C, a world that has a key, a step at which the boot fails. -/
theorem witness_packageClauses :
    (let s := { State.reset with power := { State.reset.power with dieTemp := [(3, 110)], failing := some 3 } }
     ∃ x ∈ s.power.dieTemp, 110 ≤ x.2) ∧ (State.reset.keys.world 0).key ≠ 0 ∧ State.reset.power.stepsDown < 39 ∧
    { State.reset.power with failing := some 3 }.failing = some 3 :=
  ⟨⟨(3, 110), by decide, by decide⟩, by decide, by decide, rfl⟩

/-! ### Witnesses of overflow, traps, spawning, cancellation, links and the boot -/

theorem witness_stands_overflow : (⟨false, 1, 200, false⟩ : Exact).Stands fmt32 (2 ^ 200) :=
  ⟨by decide, by norm_num, by norm_num, by norm_num [abs_of_pos], by norm_num [abs_of_pos], by simp⟩

/-- R64: the overflow of a positive and a negative number under each kind of mode, and with SAT; .e4m3 and .e2m1. -/
theorem test_overflow :
    (let r := fun (mode : RMode) (sat neg : Bool) => roundTo fmt32 mode sat 0 ⟨neg, 1, 200, false⟩
     r .nearestEven false false == (0x7F800000, 0x14) && r .nearestAway false true == (0xFF800000, 0x14) &&
     r .stochastic false false == (0x7F800000, 0x14) && r .towardZero false true == (0xFF7FFFFF, 0x14) &&
     r .down false false == (0x7F7FFFFF, 0x14) && r .down false true == (0xFF800000, 0x14) && r .up false true == (0xFF7FFFFF, 0x14) &&
     r .up false false == (0x7F800000, 0x14) && r .nearestEven true true == (0xFF7FFFFF, 0x14) &&
     roundTo (fmtOf 0x14) .nearestEven false 0 ⟨true, 1, 20, false⟩ == (0x7F, 0x14) &&
     roundTo (fmtOf 0x18) .nearestEven false 0 ⟨true, 1, 20, false⟩ == (0xF, 0x14)) = true := by decide +kernel

/-- R153, R155: one NaN, a signalling one, −0 below +0, an infinity; a class of each kind. -/
theorem test_extremes :
    (fminmax fmt32 false 0x3F800000 0x7FC00000 == (0x3F800000, 0) && fminmax fmt32 true 0x7F800001 0xC0000000 == (0xC0000000, 1) &&
     fminmax fmt32 true 0x80000000 0 == (0, 0) && fminmax fmt32 false 0x7F800000 0xC0000000 == (0xC0000000, 0) &&
     ([(0xFF800000, 1), (0xC0000000, 2), (0x80000001, 4), (0x80000000, 8), (0, 0x10), (1, 0x20), (0x3F800000, 0x40), (0x7F800000, 0x80),
       (0x7F800001, 0x100), (0x7FC00000, 0x200)] : List (W64 × W64)).all (fun x => fclass fmt32 x.1 == x.2)) = true := by decide +kernel

/-- Thread 0 exits while thread 1 waits at a barrier. -/
theorem witness_exitOrphans :
    readyB (.exit x0) (start atBarrier) (fun w => w.g.prog.isNone && w.parts != [] && barWaits w.g w.parts && w.all.head? == some 0) = true := by
  decide +kernel

/-- In trap mode a flag that a held sweep keeps set, and one that the handler's own work keeps set. -/
theorem witness_handlerHeaders :
    let g := fun (n : Nat) => { trapped with clause := none, r := { group.r with fl := [(2, n)] }
                                             trap := some ⟨0x1500, 0, [0, 1], 256, 0, none, [{ held with flag := some 2 }], []⟩ }
    let kept := fun (g : Group) => ((match g.trap with | some tr => tr.saved | none => []).filter (fun (h : Held) => h.flag == some 2)).length
    kept (g 1) = 1 ∧ (g 1).flagCount 2 = 1 ∧ (g 2).flagCount 2 = 2 ∧ (g 1).held = [] := by decide +kernel

/-- FADD of a signalling NaN of one thread, with INVALID enabled: in trap mode, with a handler and rows for its window, with none
free, and under U = 1. -/
def signalling (g : Group) : Group :=
  { g with th := [(0, thread [(2, 0x7F800001)]), (1, thread [])], mapped := [2], r := { group.r with fpctl := 0x10, g := [(2, 0x7F800001)] } }
def noRows (s : State) : State := s.onCore 0 (fun c => c.setPart 0 { (c.part 0) with gen := 0, rsv := 0 })
def raises (e : Ext) (s : State) (p : Sw → Bool) : Bool :=
  readyB (.faddX e) s (fun w => w.dfl0 == 0 && w.g.pend == [] && w.g.prog.isNone &&
    w.doers.any (fun t => trapFlags w.g (fadd (fmtOf w.e.ty) (w.rctx t 0) (w.srcA t) (w.srcB t)).2 != 0) && p w)

theorem witness_sweepEndTrapCases :
    (raises { tx 0x11 with a := 2, d := 120 } (start (signalling trapped)) (fun w => w.g.trap.isSome) &&
    raises { tx 0x11 with a := 2 } (start (signalling handled)) (fun w => w.g.trap.isNone && w.g.handler.tag && (takeWindow (start (signalling handled)) 0).isSome) &&
    raises { tx 0x11 with a := 2, d := 2 } (noRows (start (signalling handled)))
      (fun w => w.g.trap.isNone && w.g.handler.tag && (takeWindow (noRows (start (signalling handled))) 0).isNone) &&
    raises { tx 0x11 with a := 2, u := true, d := 4 } (start (signalling handled)) (fun w => w.e.u && w.all == [0, 1])) = true := by decide +kernel

/-- Bin 0 with n records of team 0 and entry a, in a core that may form a group. -/
def binOf (n : Nat) (a : W64) (formed : Nat) : State :=
  { (start (withCap (codeAt 0x40))).onCore 0 (fun c =>
      { c with bins := [(0, ⟨0, a, List.replicate n ⟨capSetAddr (codeAt 0x40) a.toNat, [1]⟩, 9, 64, false⟩)], formed := formed }) with
    launches := [(0, launched)] }

def binClear (s : State) : Bool :=
  (s.core 0).formed != s.time.clock + 1 && (choosePart s 0).isSome && (freePositions s 0 ((choosePart s 0).getD 0) != []) && positionFree s 0 &&
    decide ((teamGroups s 0).length < 64 ∧ 4 ≤ launched.rows ∧ 4 ≤ ((s.core 0).part ((choosePart s 0).getD 0)).gen)

/-- A record of another entry, the 256th, a bin whose group forms later in this clock, and one that cannot form. -/
theorem witness_spawnBins :
    (readyB (.spawn x0) (binOf 254 0x40 0) (fun w => w.doers == [0, 1]) && (((binOf 254 0x40 0).core 0).bin 0).entry == 0x40 &&
    binClear (binOf 254 0x40 0) && binClear (binOf 3 0x80 0) && (((binOf 3 0x80 0).core 0).bin 0).entry == 0x80 &&
    readyB (.spawn x0) (binOf 3 0x80 0) (fun w => w.doers.head? == some 0) &&
    readyB (.spawn x0) (binOf 3 0x80 1) (fun w => w.doers.head? == w.todo.head?) && (formBin (binOf 3 0x80 1) 0 0).isSome &&
    (let s := (binOf 3 0x80 0).onCore 0 (fun c => (List.range 8).foldl (fun c p => c.setPart p { (c.part p) with gen := 0 }) c); (formBin s 0 0).isNone && readyB (.spawn x0) s (fun w => w.doers.head? == some 0 && w.g.prog.isNone)) &&
    (let g := { group with th := [(0, { (thread [(2, 7)]) with c := [(0, codeAt 0x40)] }), (1, { (thread [(2, 9)]) with c := [(0, heap)] })] }
     readyB (.spawn x0) (start g) (fun w => w.doers.takeWhile (· != 1) == [0] && (targetCheck (w.capA 1)).isSome && (targetCheck (w.capA 0)).isNone))) =
      true := by decide +kernel

/-- The accesses that witness_accessStops leaves out, beyond their authority at thread 0. -/
theorem witness_furtherAccessStops :
    let g := { group with th := [(0, thread [(2, 0x100000)]), (1, thread [])], mapped := [2] }
    let b := { x0 with b := 2, ty := 6 }
    let c := { x0 with b := 2 }
    let stops := fun {α : Type} (i : Instr) (f : Sw → State → Nat → Except Stop (State × α)) =>
      readyB i (start g) (fun w => (match firstToStop (f w) w.doers (w.begun (start g)) with | some (0, st) => st.cause != cWAIT | _ => false) && w.g.prog.isNone)
    (([.amoAdd b, .amoAnd b, .amoOr b, .amoXor b, .amoMin b, .amoMax b, .amoSwap b, .amoCas b] : List Instr).all (fun i => stops i (fun w => w.amoAt (fun old v _ => old ||| v))) &&
    ([.amocSwap c, .amocCas c] : List Instr).all (fun i => stops i (fun w => w.amocAt w.capC (fun _ => none))) &&
    stops (.ldh c) (fun w => w.ldcAt) && stops (.sth c) (fun w => w.sthAt Cap.null)) = true ∧
    (let s := start { panel with th := [(0, thread [(2, 4096)]), (1, thread [(2, 20)])] }
     let bad := start { panel with r := { group.r with gc := [(0, capMk 0x20010 0x100 0 4 false 0 0x205B true)] } }
     ([.tld { tx 6 with a := 32, b := 2 }, .tst { tx 6 with a := 32, b := 2 }] : List Instr).all (fun i =>
       readyB i s (fun w => w.parts != [] && w.all.head? == some 0 && w.todo.length == w.all.length &&
         (match firstToStop (w.loadAt true false 16 w.width) w.doers (w.begun s) with | some (0, st) => st.cause != cWAIT | _ => false)) &&
       readyB i bad (fun w => (match panelCheck w (w.begun bad) (i == .tst { tx 6 with a := 32, b := 2 }) 0 with | .error st => st.cause != cWAIT | .ok _ => false)))) = true := by
  decide +kernel

/-- Operation 3 of core 0 in the group's h0: a copy served or queued behind another, a program that runs, or waits for a sequencer. -/
def cancelling (kind : Nat) : State := running 3 (holding 3 kind)
def copyOf (q : Nat) : Copy :=
  ⟨q, 0, 0, none, 0, 0, 0, false, 4, 0, [], heap, parseLayout [], true, false, false, false, false, false⟩

theorem witness_cancellations :
    (let is := fun (s : State) (k : Nat) => readyB (.hcancel x0) s (fun w => w.parts != [] && readH w.g w.base 0 == some (mkHandle 3 0 k) &&
       !(s.status (mkHandle 3 0 k)).getLsbD 31 && s.units == [])
     let served := (cancelling 1).onCore 0 (fun c => { c with ch := [(1, [copyOf 3, copyOf 4])], serving := [(1, true)] })
     let queued := (cancelling 1).onCore 0 (fun c => { c with ch := [(1, [copyOf 4, copyOf 3])], serving := [(1, true)] })
     let prog := { newGroup ⟨0, 0, 0, 0, 0, 0, 0, 0⟩ [] [] with prog := some { program with seq := 3 } }
     let runs := (cancelling 3).setGroup (2 ^ 40) prog
     let waits := (cancelling 3).onCore 0 (fun c => { c with pq0 := [prog] })
     is served 1 && (served.core 0).isServing 1 && is queued 1 && is (cancelling 2) 2 && is runs 3 &&
       (match runs.groups.find? (fun y => isProg 0 3 y.2) with | some (k, _) => k != 0 | none => false) &&
       is waits 3 && isProg 0 3 prog && progQuiet waits prog && (waits.core 0).pq0 == [prog]) = true := by decide +kernel

/-- ACCRD and ACCWR of a tile not held, and of a row that is odd or beyond 126; an engine copy to memory that names no gc register. -/
theorem witness_accumulatorStops :
    (([.accrd { x0 with c := 2 }, .accwr { x0 with c := 2 }] : List Instr).all (fun i => readyB i (start group) (fun w => w.parts.head? == some 0 && w.g.prog.isNone)) &&
    ([1, 128] : List (BitVec 8)).all (fun n => ([.accrd { x0 with imm := n }, .accwr { x0 with imm := n }] : List Instr).all (fun i =>
      readyB i (start group) (fun w => w.parts.head? == some 0))) &&
    (let s := layoutAt (start { (copying 0 (recordCap 4) engineCap) with prog := some program, r := { group.r with gc := [(0, recordCap 4)] } }) 4
     readyB (.cpy { e8 with a := 32, c := 0, u := true, b := 8 }) s (fun w => w.parts == [0] && descKind (opDesc (copyOps w 0)) == 0))) = true := by
  decide +kernel

/-- A borrower that answers no snoop holds the line of a forwarded access, and one of another package; a flush whose request is out,
and whose lender answers no more; the length of what borrowers have modified. -/
def farHeld (silent : Bool) : State :=
  { tagPeer with lease := { tagPeer.lease with
      lenders := [(0, ⟨0, 1, 9, 8, 2, 2, 50, 0, silent, none⟩)], far := [(2 ^ 45, ⟨0, true, false, some (List.replicate 128 7, 0)⟩)] } }
theorem witness_awaits :
    paLocal (farHeld true) (2 ^ 52) = true ∧ peerStalled (farHeld true) 7 = false ∧ farAwaited (farHeld true) (2 ^ 52) false = some 0 ∧
      ((farHeld true).lease.lender 0).borrower.setWidth 12 ≠ (7 : BitVec 12) ∧ farAwaited (farHeld false) (2 ^ 52) true = none ∧
      (∀ y ∈ (farHeld false).lease.far, ∀ d, y.2.mod = some d → d.1.length = 128) ∧
      (let s := (borrows 3).onSlot 0 (fun x => { x with silent := true })
       (s.lease.slot 0).wait = none ∧ (s.lease.slot 0).silent = true ∧ (slotLines s 0).any (fun y => y.2.dirty) = true) ∧
      (((borrows 3).onSlot 0 (fun x => { x with wait := some 0 })).lease.slot 0).wait ≠ none := by
  refine ⟨by decide +kernel, by decide +kernel, by decide +kernel, by decide +kernel, by decide +kernel, ?_, by decide +kernel, by decide +kernel⟩
  intro y hy d hd
  simp only [farHeld, List.mem_singleton] at hy
  subst hy; cases hd; rfl

/-- A host's access to a lease whose lender answers no more. -/
def hostToLease : State :=
  { (borrows 2).onSlot 0 (fun x => { x with silent := true }) with
    sys := { State.reset.sys with ports := [(2, { hostPort with asid := 0 })] }
    xlat := { State.reset.xlat with tlb := [⟨.chip, 0, 0, 0x30, 0, 0xF0000000000, 7, false, 0⟩] } }

/-- Links that fit their port, and that do not; a boot with a fabric link, with and without the fabric's time. -/
theorem witness_linksAndBoot :
    (match inboundXlat hostToLease 2 needLoad 2 0x30200 8 with | .wait _ => true | _ => false) = true ∧
    linkFits (ported hostPort 0) 2 4 = true ∧ linkFits (ported hostPort 0) 2 5 = false ∧
      linkFits (ported { hostPort with width := 3 } 0) 18 3 = true ∧ linkFits (ported { hostPort with width := 4 } 0) 18 3 = false ∧
      linkFits State.reset 16 4 = false ∧
    (let s := { State.reset with power := { State.reset.power with ends := [(5, (.fabric, 4, true))], fabricTime := some 77 } }
     let t := coldBootOp s
     fabricUp t = true ∧ (t.sys.port 5).up = true ∧ (t.sys.port 5).tagExt = true ∧ t.time.ftime = 77 ∧ t.time.sync = true ∧
       (coldBootOp { s with power := { s.power with fabricTime := none } }).time.ftime = 1600000000 ∧
       (coldBootOp { s with power := { s.power with failing := some 3 } }).time = State.reset.time ∧
       (coldBootOp { s with power := { s.power with failing := some 2 } }).sys = State.reset.sys) := by decide +kernel

/-- The one group parked with no delivery and no handler, in trap mode, and waiting for a save area; an ATTEST that waits. -/
theorem witness_parkAnswers :
    selected (parkedAs .parked 0 0) (fun g => pwOpen g && g.trap.isNone && !g.hasHandler && g.sup.isNone) &&
    selected ((parkedAs .parked 0 0).setGroup 0 { handled with clause := none, park := .parked }) (fun g => pwOpen g && g.hasHandler && g.sup.isNone) &&
    selected ((parkedAs .parked 0 0).setGroup 0 { trapped with clause := none, park := .parked }) (fun g => pwOpen g && g.trap.isSome) &&
    (let s := (retiring 1).onGroup 0 (fun g => { g with park := .requested })
     (match s.group 0 with | some g => groupDone s g && g.park == .requested | none => false)) = true := by decide +kernel

end Sys2Proof.Tests
end

/-! The encoder undoes the decoder (O2). Three layers: the words rebuilt from the fields the decoder takes from them; the
opcode tables, each entry of which has the form of the codes it stands under; and the decoder, which by these reads no word
but what the encoder writes. The lengths of R106 then follow from the encoder alone. -/

namespace Sys2Proof

open Machine

/-! ### A word is its fields (R7, R108, R109, R119, R124) -/

theorem getLsbD_toNat {n : Nat} (x : BitVec n) (k : Nat) : (x.getLsbD k).toNat = x.toNat / 2 ^ k % 2 := by
  rw [BitVec.getLsbD, Nat.toNat_testBit]

theorem extract_toNat {n : Nat} (x : BitVec n) (k m : Nat) : (x.extractLsb' k m).toNat = x.toNat / 2 ^ k % 2 ^ m := by
  rw [BitVec.extractLsb'_toNat, Nat.shiftRight_eq_div_pow]

/-- Word 0 is rebuilt from LEN, OP and the fields that `base0` takes (R108). -/
theorem word0_base0 (w : W32) :
    word0 (w.extractLsb' 0 2) (w.extractLsb' 2 6) (base0 w).u (base0 w).d (base0 w).a (base0 w).b (base0 w).la (base0 w).lb =
      w := by
  apply BitVec.eq_of_toNat_eq
  simp only [word0_toNat, base0, extract_toNat, getLsbD_toNat]
  omega

/-- W1 is rebuilt from FN and the fields that `ext12` takes (R109). -/
theorem word1_ext12 (o : Base) (w1 w2 : W32) (lit : Option W64) :
    word1 (w1.extractLsb' 0 8) (ext12 o w1 w2 lit) = w1 := by
  apply BitVec.eq_of_toNat_eq
  simp only [word1_toNat, ext12, extract_toNat, getLsbD_toNat]
  omega

/-- W2 is rebuilt from the fields that `ext12` takes (R109). -/
theorem word2_ext12 (o : Base) (w1 w2 : W32) (lit : Option W64) : word2 (ext12 o w1 w2 lit) = w2 := by
  apply BitVec.eq_of_toNat_eq
  simp only [word2_toNat, ext12, extract_toNat]
  omega

theorem litWords_append (h l : W32) : litWords (h ++ l) = [l, h] := by
  have hl := l.isLt
  have hh := h.isLt
  have hlow : (h ++ l).extractLsb' 0 32 = l := by apply extract_num; rw [toNat_app]; omega
  have hhigh : (h ++ l).extractLsb' 32 32 = h := by apply extract_num; rw [toNat_app]; omega
  rw [litWords, hlow, hhigh]

/-- A clause header's word is rebuilt from its fields: OP and LEN are zero (R119). -/
theorem header_fields (w : W32) (hlen : (w.extractLsb' 0 2).toNat = 0) (hop : (w.extractLsb' 2 6).toNat = 0) :
    w.extractLsb' 28 4 ++ w.extractLsb' 24 4 ++ w.extractLsb' 20 4 ++ w.extractLsb' 8 12 ++ (0 : BitVec 8) = w := by
  apply BitVec.eq_of_toNat_eq
  simp only [toNat_app, extract_toNat, BitVec.ofNat_eq_ofNat, BitVec.toNat_ofNat] at hlen hop ⊢
  omega

/-- The word of ILL is rebuilt from LEN and its upper bits: OP is 0x3F (R124). -/
theorem ill_fields (w : W32) (hop : (w.extractLsb' 2 6).toNat = 0x3F) :
    w.extractLsb' 8 24 ++ (0x3F : BitVec 6) ++ w.extractLsb' 0 2 = w := by
  apply BitVec.eq_of_toNat_eq
  simp only [toNat_app, extract_toNat, BitVec.ofNat_eq_ofNat, BitVec.toNat_ofNat] at hop ⊢
  omega

/-! ### The encoder, by the form of the instruction -/

/-- The words of a literal, where there is one (R111). -/
def tailWords (lit : Option W64) : List W32 := lit.elim [] litWords

/-- What has a form in a base major is word 0, with LEN 00 or 10, and the literal (R107, R108). -/
theorem encode_baseForm {i : Instr} {f : Form} {e : Ext} (h : formOf i = some (f, e)) (hm : f.maj < 0x20) :
    encode i = word0 (if e.lit.isSome then 2 else 0) (BitVec.ofNat 6 f.maj) e.u e.d e.a e.b e.la e.lb :: tailWords e.lit := by
  unfold encode
  split
  · cases h
  · cases h
  · rw [h]
    cases hl : e.lit <;> simp [hm, hl, tailWords]

/-- What has a form in an extended major is words 0 to 2, with LEN 01 or 11, and the literal (R107 to R109). -/
theorem encode_extForm {i : Instr} {f : Form} {e : Ext} (h : formOf i = some (f, e)) (hm : ¬ f.maj < 0x20) :
    encode i = word0 (if e.lit.isSome then 3 else 1) (BitVec.ofNat 6 f.maj) e.u e.d e.a e.b e.la e.lb ::
      word1 (BitVec.ofNat 8 f.fn) e :: word2 e :: tailWords e.lit := by
  unfold encode
  split
  · cases h
  · cases h
  · rw [h]
    cases hl : e.lit <;> simp [hm, hl, tailWords]

theorem encode_clauseHeader (wait : BitVec 12) (s0 s1 n : BitVec 4) :
    encode (.clauseHeader wait s0 s1 n) = [n ++ s1 ++ s0 ++ wait ++ (0 : BitVec 8)] := rfl

theorem encode_ill (len : BitVec 2) (r : BitVec 24) : encode (.ill len r) = [r ++ (0x3F : BitVec 6) ++ len] := rfl

/-- An instruction of a base major's form, with the fields of word `w`, is encoded as `w` and the literal. -/
theorem encode_of_word0 {i : Instr} {f : Form} {w : W32} {lit : Option W64} {ty : BitVec 6} {c : BitVec 7}
    (hf : formOf i = some (f, Ext.ofBase (base0 w) lit ty c)) (hmaj : f.maj = (w.extractLsb' 2 6).toNat) (hm : f.maj < 0x20)
    (hlen : w.extractLsb' 0 2 = if lit.isSome then 2 else 0) : encode i = w :: tailWords lit := by
  have hw := word0_base0 w
  rw [hlen] at hw
  rw [encode_baseForm hf hm, hmaj, BitVec.ofNat_toNat, BitVec.setWidth_eq]
  exact congrArg (· :: tailWords lit) hw

/-- An instruction of an extended major's form, with the fields of words `w`, `w1` and `w2`, is encoded as these and the
literal. -/
theorem encode_of_words {i : Instr} {f : Form} {w w1 w2 : W32} {lit : Option W64}
    (hf : formOf i = some (f, ext12 (base0 w) w1 w2 lit)) (hmaj : f.maj = (w.extractLsb' 2 6).toNat)
    (hfn : f.fn = (w1.extractLsb' 0 8).toNat) (hm : ¬ f.maj < 0x20)
    (hlen : w.extractLsb' 0 2 = if lit.isSome then 3 else 1) : encode i = w :: w1 :: w2 :: tailWords lit := by
  have hw := word0_base0 w
  rw [hlen] at hw
  rw [encode_extForm hf hm, hmaj, hfn, BitVec.ofNat_toNat, BitVec.ofNat_toNat, BitVec.setWidth_eq, BitVec.setWidth_eq,
    word1_ext12, word2_ext12]
  exact congrArg (· :: w1 :: w2 :: tailWords lit) hw

/-! ### The opcode tables: an entry has the form of its codes (R126 to R131) -/

theorem formOf_baseInstr {op : Nat} {o : Base} {i : Instr} (h : baseInstr op o = some i) :
    ∃ f ty c, formOf i = some (f, Ext.ofBase o none ty c) ∧ f.maj = op := by
  unfold baseInstr at h
  split at h <;> cases h <;> exact ⟨_, _, _, rfl, rfl⟩

theorem formOf_litInstr {op : Nat} {o : Base} {l : W64} {i : Instr} (h : litInstr op o l = some i) :
    ∃ f ty c, formOf i = some (f, Ext.ofBase o (some l) ty c) ∧ f.maj = op := by
  unfold litInstr at h
  split at h <;> cases h <;> exact ⟨_, _, _, rfl, rfl⟩

/-- The two levels of the extended table are its majors and, in each, its minors (R124). -/
theorem formOf_extInstr {op fn : Nat} {e : Ext} {i : Instr} (h : extInstr op fn e = some i) :
    ∃ f, formOf i = some (f, e) ∧ f.maj = op ∧ f.fn = fn := by
  unfold extInstr at h
  split at h
  case h_22 => cases h
  all_goals
    simp only [ext20, ext21, ext22, ext23, ext24, ext25, ext26, ext27, ext28, ext29, ext2a, ext2b, ext2c, ext2d, ext2e, ext2f,
      ext30, ext31, ext32, ext33, ext34] at h
    split at h <;> cases h <;> exact ⟨_, rfl, rfl, rfl⟩

/-! ### The decoder reads what the encoder writes -/

/-- The words that a base form is decoded from are those it is encoded as (R107, R111). -/
theorem encode_of_decodeBase {w : W32} {ws rest : List W32} {i : Instr} (hlt : (w.extractLsb' 2 6).toNat < 0x18)
    (h : decodeBase (w.extractLsb' 2 6).toNat (w.extractLsb' 0 2).toNat (base0 w) ws = .ok (i, rest)) :
    ∃ l, encode i = w :: l ∧ ws = l ++ rest := by
  unfold decodeBase at h
  split at h
  case isTrue hlen =>
    split at h
    case h_2 => cases h
    case h_1 j hj =>
      cases h
      obtain ⟨f, ty, c, hf, hmaj⟩ := formOf_baseInstr hj
      exact ⟨[], encode_of_word0 hf hmaj (by omega) (BitVec.eq_of_toNat_eq hlen), rfl⟩
  case isFalse =>
    split at h
    case isFalse => cases h
    case isTrue hlen =>
      split at h
      case h_2 => cases h
      case h_1 lo hi tl =>
        split at h
        case h_2 => cases h
        case h_1 j hj =>
          cases h
          obtain ⟨f, ty, c, hf, hmaj⟩ := formOf_litInstr hj
          refine ⟨[lo, hi], ?_, rfl⟩
          rw [← litWords_append]
          exact encode_of_word0 hf hmaj (by omega) (BitVec.eq_of_toNat_eq hlen)

/-- The words that an extended form is decoded from are those it is encoded as (R107, R111). -/
theorem encode_of_decodeExt {w : W32} {ws rest : List W32} {i : Instr} (hge : 0x20 ≤ (w.extractLsb' 2 6).toNat)
    (h : decodeExt (w.extractLsb' 2 6).toNat (w.extractLsb' 0 2).toNat (base0 w) ws = .ok (i, rest)) :
    ∃ l, encode i = w :: l ∧ ws = l ++ rest := by
  unfold decodeExt at h
  split at h
  case h_2 => cases h
  case h_1 w1 w2 tl =>
    simp only at h
    split at h
    case isTrue hlen =>
      split at h
      case h_2 => cases h
      case h_1 j hj =>
        cases h
        obtain ⟨f, hf, hmaj, hfn⟩ := formOf_extInstr hj
        exact ⟨[w1, w2], encode_of_words hf hmaj hfn (by omega) (BitVec.eq_of_toNat_eq hlen), rfl⟩
    case isFalse =>
      split at h
      case isFalse => cases h
      case isTrue hlen =>
        rw [Bool.and_eq_true, decide_eq_true_eq] at hlen
        split at h
        case h_2 => cases h
        case h_1 lo hi tl =>
          split at h
          case h_2 => cases h
          case h_1 j hj =>
            cases h
            obtain ⟨f, hf, hmaj, hfn⟩ := formOf_extInstr hj
            refine ⟨[w1, w2, lo, hi], ?_, rfl⟩
            rw [← litWords_append]
            exact encode_of_words hf hmaj hfn (by omega) (BitVec.eq_of_toNat_eq hlen.1)

/-- What the decoder reads is encoded as the word it begins with and those up to the rest. -/
theorem encode_of_decode {w : W32} {ws rest : List W32} {i : Instr} (h : decode (w :: ws) = .ok (i, rest)) :
    ∃ l, encode i = w :: l ∧ ws = l ++ rest := by
  simp only [decode] at h
  split at h
  case isTrue hop =>
    split at h
    case isFalse => cases h
    case isTrue hlen =>
      cases h
      exact ⟨[], by rw [encode_clauseHeader, header_fields w hlen hop], rfl⟩
  case isFalse =>
    split at h
    case isTrue hop =>
      cases h
      exact ⟨[], by rw [encode_ill, ill_fields w hop], rfl⟩
    case isFalse =>
      split at h
      case isTrue hlt => exact encode_of_decodeBase hlt h
      case isFalse =>
        split at h
        case isTrue hext => exact encode_of_decodeExt hext.1 h
        case isFalse => cases h

/-! ### Lengths (R106) -/

theorem length_tailWords (lit : Option W64) : (tailWords lit).length = if lit.isSome then 2 else 0 := by
  cases lit <;> rfl

/-- The bytes of an encoding are as many as the length of its instruction. -/
theorem length_encode {i : Instr} (h : encode i ≠ []) : 4 * (encode i).length = instrLen i := by
  cases hf : formOf i with
  | none =>
    unfold encode at h ⊢
    split at h
    · rfl
    · rfl
    · simp only [hf, ne_eq, not_true_eq_false] at h
  | some p =>
    obtain ⟨f, e⟩ := p
    by_cases hm : f.maj < 0x20
    · cases hl : e.lit <;> simp [encode_baseForm hf hm, length_tailWords, instrLen, hf, hm, hl]
    · cases hl : e.lit <;> simp [encode_extForm hf hm, length_tailWords, instrLen, hf, hm, hl]

/-- LEN of the first word gives the length of all encodings but that of ILL. -/
theorem instrLen_of_len {i : Instr} {w : W32} {l : List W32} (h : encode i = w :: l) (hi : ∀ len r, i ≠ .ill len r) :
    instrLen i = if w.extractLsb' 0 2 = 0 then 4 else if w.extractLsb' 0 2 = 3 then 20 else 12 := by
  cases hf : formOf i with
  | none =>
    unfold encode at h
    split at h
    case h_1 wait s0 s1 n =>
      cases h
      have hlen : (n ++ s1 ++ s0 ++ wait ++ (0 : BitVec 8)).extractLsb' 0 2 = 0 := by
        apply extract_num; rw [toNat_app]; simp only [BitVec.ofNat_eq_ofNat, BitVec.toNat_ofNat]; omega
      rw [if_pos hlen]; rfl
    case h_2 len r => exact absurd rfl (hi len r)
    case h_3 => simp only [hf, reduceCtorEq] at h
  | some p =>
    obtain ⟨f, e⟩ := p
    by_cases hm : f.maj < 0x20
    · rw [encode_baseForm hf hm] at h
      obtain ⟨rfl, -⟩ := List.cons.inj h
      rw [word0_len]
      cases hl : e.lit <;> simp [instrLen, hf, hm, hl]
    · rw [encode_extForm hf hm] at h
      obtain ⟨rfl, -⟩ := List.cons.inj h
      rw [word0_len]
      cases hl : e.lit <;> simp [instrLen, hf, hm, hl]

/-- Settles O2. The decoder's words are the encoder's by `encode_of_decode`, one opcode table entry at a time; their number and
LEN then follow from the encoder. -/
theorem encodeOfDecode : Obligations.EncodeOfDecode := by
  unfold Obligations.EncodeOfDecode
  refine ⟨fun ws rest i h => ?_, fun w ws rest i h hi => ?_⟩
  · cases ws with
    | nil => cases h
    | cons w ws =>
      obtain ⟨l, hl, rfl⟩ := encode_of_decode h
      rw [hl, List.cons_append]
  · obtain ⟨l, hl, rfl⟩ := encode_of_decode h
    have hlength := length_encode (i := i) (by rw [hl]; exact List.cons_ne_nil w l)
    refine ⟨instrLen_of_len hl hi, ?_⟩
    rw [hl] at hlength
    simp only [List.length_cons, List.length_append] at hlength ⊢
    omega

end Sys2Proof

/-! Integer arithmetic (O8). Two layers: the common sweep of R143, which completes with whatever its operation gives thread by
thread; and the operations, each in the spec's terms: an exact integer narrowed to TYPE, or one that TYPE holds already. -/

namespace Sys2Proof.Machine

/-! ### The common sweep (R143) -/

/-- The sources of thread t give `val w t` under the operation of a common sweep. -/
def Gives (op : Sw → Nat → W64 → W64 → W64 → W64 × Flags) (val : Sw → Nat → W64 × Flags) : Prop :=
  ∀ w t, op w t (w.srcA t) (w.srcB t) (w.srcC t) = val w t

/-- An instruction that runs the common sweep and writes at once computes what its operation gives. -/
theorem Gives.computes {op : Sw → Nat → W64 → W64 → W64 → W64 × Flags} {val : Sw → Nat → W64 × Flags} (h : Gives op val)
    {i : Instr} (hexec : ∀ s, exec i s = alu i s op) (hform : (formOf i).map (fun p => p.1.ll) = some false) :
    Computes i val := by
  intro s w hw hq
  have hll : w.f.ll = false := by simpa [ready_form hw] using hform
  refine completes_value hw hll (hexec s) _ _ (fun t _ g d => ?_) hq
  rw [h w t]

/-- The base, literal and extended forms of an operation that writes at once compute the same (R126). -/
theorem Gives.computes_forms {op : Sw → Nat → W64 → W64 → W64 → W64 × Flags} {val : Sw → Nat → W64 × Flags} (h : Gives op val)
    {i j k : Instr} (hexec : ∀ s, exec i s = alu i s op ∧ exec j s = alu j s op ∧ exec k s = alu k s op)
    (hform : [i, j, k].map (fun x => (formOf x).map (fun p => p.1.ll)) = [some false, some false, some false]) :
    Computes i val ∧ Computes j val ∧ Computes k val := by
  simp only [List.map_cons, List.map_nil, List.cons.injEq, and_true] at hform
  obtain ⟨hi, hj, hk⟩ := hform
  exact ⟨h.computes (fun s => (hexec s).1) hi, h.computes (fun s => (hexec s).2.1) hj, h.computes (fun s => (hexec s).2.2) hk⟩

/-! ### Integers of TYPE (R52) -/

/-- An operand read as an integer of TYPE is in the range of TYPE. -/
theorem Sw.whole_mem (w : Sw) (x : W64) : w.whole x ∈ Set.Icc (intMin w.n w.sg) (intMax w.n w.sg) := by
  unfold Sw.whole intMin intMax
  rw [show tySigned w.e.ty = w.sg from rfl]
  cases w.sg
  · have := (w.bits x).isLt
    have hlt : ((w.bits x).toNat : Int) < 2 ^ w.n := by exact_mod_cast this
    exact ⟨Int.natCast_nonneg _, Int.le_sub_one_of_lt hlt⟩
  · exact ⟨BitVec.le_toInt _, Int.le_sub_one_of_lt (BitVec.toInt_lt ..)⟩

/-- An integer in the range of TYPE is narrowed to itself, whatever SAT is, without a flag. -/
theorem Sw.fit_of_mem {w : Sw} {x : Int} (h : x ∈ Set.Icc (intMin w.n w.sg) (intMax w.n w.sg)) :
    w.fit x = (w.fill (BitVec.ofInt _ x), 0) := by
  obtain ⟨hlo, hhi⟩ := h
  unfold Sw.fit
  exact (if_neg fun h => not_lt.mpr hlo h.2).trans (if_neg fun h => not_lt.mpr hhi h.2)

/-- Narrowing that wraps keeps the N bits of TYPE. -/
theorem narrow_wrap (w : Sw) (x : Int) : narrow w.n w.sg false x = (w.fill (BitVec.ofInt _ x), 0) := by
  rw [w.fill_ofInt w.n_le]; rfl

/-- An operand read as an integer of TYPE has the operand's N bits. -/
theorem Sw.ofInt_whole (w : Sw) (x : W64) : BitVec.ofInt _ (w.whole x) = w.bits x := by
  unfold Sw.whole
  split
  · exact BitVec.ofInt_toInt
  · rw [BitVec.ofInt_natCast, BitVec.ofNat_toNat, BitVec.setWidth_eq]

/-- All ones in 64 bits are all ones in the N bits of TYPE. -/
theorem Sw.bits_allOnes (w : Sw) : w.bits (BitVec.allOnes 64) = BitVec.allOnes _ := by
  have hn := w.n_le
  ext i hi
  simp only [Sw.bits, BitVec.getElem_setWidth, BitVec.getLsbD_allOnes, BitVec.getElem_allOnes, decide_eq_true_eq]
  exact lt_of_lt_of_le hi hn

/-! ### The operations in the spec's terms (R146, R147) -/

/-- An exact integer function of the operands, narrowed to TYPE. -/
theorem opInt_eq_fit (f : Int → Int → Int → Int) (w : Sw) (t : Nat) (a b c : W64) :
    opInt f w t a b c = w.fit (f (w.whole a) (w.whole b) (w.whole c)) := by
  simp only [w.fit_eq, w.whole_eq, opInt]

/-- The lesser of two operands needs no narrowing. -/
theorem opImin_eq (w : Sw) (t : Nat) (a b c : W64) :
    opImin w t a b c = (w.fill (BitVec.ofInt _ (min (w.whole a) (w.whole b))), 0) := by
  refine (opInt_eq_fit _ w t a b c).trans (Sw.fit_of_mem ?_)
  rcases min_choice (w.whole a) (w.whole b) with h | h <;> rw [h] <;> exact w.whole_mem _

/-- The greater of two operands needs no narrowing. -/
theorem opImax_eq (w : Sw) (t : Nat) (a b c : W64) :
    opImax w t a b c = (w.fill (BitVec.ofInt _ (max (w.whole a) (w.whole b))), 0) := by
  refine (opInt_eq_fit _ w t a b c).trans (Sw.fit_of_mem ?_)
  rcases max_choice (w.whole a) (w.whole b) with h | h <;> rw [h] <;> exact w.whole_mem _

theorem opIabs_eq_fit (w : Sw) (t : Nat) (a b c : W64) : opIabs w t a b c = w.fit |w.whole a| := by
  rw [Int.abs_eq_natAbs]; exact opInt_eq_fit _ w t a b c

/-- The high half of the product is the quotient by 2^N, rounded down. -/
theorem opImulh_eq (w : Sw) (t : Nat) (a b c : W64) :
    opImulh w t a b c = (w.fill (BitVec.ofInt _ ((w.whole a * w.whole b) / 2 ^ w.n)), 0) := by
  rw [w.whole_eq, w.whole_eq]; exact narrow_wrap w _

/-- A quotient by zero is all ones, without a flag; any other is truncated toward zero and narrowed. -/
theorem opIdiv_eq (w : Sw) (t : Nat) (a b c : W64) :
    opIdiv w t a b c =
      if w.whole b = 0 then (w.fill (BitVec.allOnes _), 0) else w.fit ((w.whole a).tdiv (w.whole b)) := by
  rw [w.fit_eq, w.whole_eq, w.whole_eq, ← w.bits_allOnes, w.fill_eq]; rfl

/-- The remainder by zero is the dividend; any other has the dividend's sign and is never out of range. -/
theorem opIrem_eq (w : Sw) (t : Nat) (a b c : W64) :
    opIrem w t a b c = (w.fill (BitVec.ofInt _ (if w.whole b = 0 then w.whole a
      else w.whole a - w.whole b * (w.whole a).tdiv (w.whole b))), 0) := by
  unfold opIrem
  rw [← w.whole_eq, ← w.whole_eq]
  by_cases h : w.whole b = 0
  · rw [if_pos h, if_pos h, w.ofInt_whole, w.fill_eq]
  · rw [if_neg h, if_neg h, ← Int.tmod_def, w.fill_ofInt w.n_le]

/-! ### The codes of TYPE (R147) -/

/-- A legal instruction whose TYPE is an integer's has one of the codes 0x00 to 0x07. -/
theorem ty_lt_of_legalExt {f : Form} {e : Ext} (hf : f.ty = .int) (h : legalExt f e = true) : e.ty.toNat < 8 := by
  have hty : tyOk f.ty e.ty e.imm = true := by
    simp only [legalExt, Bool.and_eq_true] at h
    tauto
  rw [hf] at hty
  exact Nat.lt_succ_of_le (of_decide_eq_true hty)

/-- Settles O8. Each operation is first put in the spec's terms; its instructions then compute it by the common sweep. -/
theorem integerArithmetic : Obligations.IntegerArithmetic := by
  unfold Obligations.IntegerArithmetic
  refine ⟨fun o l e => ⟨?add, ?sub, ?mul, ?min, ?max, ?mad, ?mulh, ?abs, ?neg⟩, fun e => ⟨?codes, ?div, ?rem⟩⟩
  case add => exact Gives.computes_forms (op := opIadd) (fun w t => opInt_eq_fit _ w t _ _ _) (fun _ => ⟨rfl, rfl, rfl⟩) rfl
  case sub => exact Gives.computes_forms (op := opIsub) (fun w t => opInt_eq_fit _ w t _ _ _) (fun _ => ⟨rfl, rfl, rfl⟩) rfl
  case mul => exact Gives.computes_forms (op := opImul) (fun w t => opInt_eq_fit _ w t _ _ _) (fun _ => ⟨rfl, rfl, rfl⟩) rfl
  case min => exact Gives.computes_forms (fun w t => opImin_eq w t _ _ _) (fun _ => ⟨rfl, rfl, rfl⟩) rfl
  case max => exact Gives.computes_forms (fun w t => opImax_eq w t _ _ _) (fun _ => ⟨rfl, rfl, rfl⟩) rfl
  case mad => exact Gives.computes (op := opImad) (fun w t => opInt_eq_fit _ w t _ _ _) (fun _ => rfl) rfl
  case mulh => exact Gives.computes (fun w t => opImulh_eq w t _ _ _) (fun _ => rfl) rfl
  case abs => exact Gives.computes (fun w t => opIabs_eq_fit w t _ _ _) (fun _ => rfl) rfl
  case neg => exact Gives.computes (op := opIneg) (fun w t => opInt_eq_fit _ w t _ _ _) (fun _ => rfl) rfl
  case codes => exact fun h => h.elim (ty_lt_of_legalExt rfl) (ty_lt_of_legalExt rfl)
  case div => exact Gives.computes (fun w t => opIdiv_eq w t _ _ _) (fun _ => rfl) rfl
  case rem => exact Gives.computes (fun w t => opIrem_eq w t _ _ _) (fun _ => rfl) rfl

end Sys2Proof.Machine

/-! Jumps through capabilities (O23). A jump steers each thread it processes to a new code capability, or stops at the first that
may not go. O23 holds of every group that lists each of its threads once, which is the form of a table (`Tab.wf`), and fails of a
group that lists one twice: at the end, RET of such a group refutes it. -/

namespace Sys2Proof

/-- A table that lists each key once finds every entry it lists. -/
theorem Tab.look_of_mem {α : Type} {l : Tab α} {k : Nat} {x : α} (hl : Tab.wf l = true) (h : (k, x) ∈ l) :
    Tab.look l k = some x := by
  have habove : ∀ {l : Tab α} {m : Nat}, Tab.above l m = true → (k, x) ∈ l → m < k := by
    intro l m hm hk
    induction l with
    | nil => cases hk
    | cons p l ih =>
      simp only [Tab.above, Bool.and_eq_true, decide_eq_true_eq] at hm
      rcases List.mem_cons.mp hk with rfl | hk
      · exact hm.1
      · exact ih hm.2 hk
  induction l with
  | nil => cases h
  | cons p l ih =>
    simp only [Tab.wf, Bool.and_eq_true] at hl
    rcases List.mem_cons.mp h with rfl | h
    · exact if_pos rfl
    · exact (if_neg (habove hl.1 h).ne).trans (ih hl.2 h)

namespace Machine

/-! ### The threads that a sweep processes -/

/-- Where the group lists each thread once, the threads a sweep processes have not exited. -/
theorem Ready.live {i : Instr} {s : State} {w : Sw} (h : Ready i s w) (hth : Tab.wf w.g.th = true) {t : Nat} (ht : t ∈ w.todo) :
    (w.g.thread t).st ≠ .exited := by
  obtain ⟨g, f, e, -, -, rfl, -⟩ := sweepNow_some h.now
  have hd := h.settled
  rw [sweepOf_g] at hd hth ⊢
  have hall : t ∈ (wholeSweep s s.focus g i f e).all := by
    have hm := sweepOf_todo s s.focus g i f e hd t ht
    unfold sweepOf at hm
    rcases Sw.cutTo_cases (wholeSweep s s.focus g i f e) s.cut with hc | ⟨k, hc⟩ <;> rw [hc] at hm <;> exact hm
  have hpick : ∀ p : Nat → Thread → Bool, (∀ u x, p u x = true → x.st = .runnable) → t ∈ g.pick p →
      (g.thread t).st ≠ .exited := by
    intro p hp hm
    obtain ⟨⟨u, x⟩, hx, rfl⟩ := List.mem_map.mp hm
    obtain ⟨hx, hpx⟩ := List.mem_filter.mp hx
    have hst : x.st = .runnable := hp _ _ hpx
    simp [Group.thread, Tab.lookD, Tab.look_of_mem hth hx, hst]
  unfold wholeSweep at hall
  rw [hd] at hall
  cases hh : g.held with
  | cons r l =>
    rw [hh] at hall
    simpa using (List.mem_filter.mp ((mem_ascending _ t).mp hall)).2
  | nil =>
    rw [hh] at hall
    have hex := (mem_ascending _ t).mp hall
    unfold Group.execSet at hex
    split at hex
    · exact hpick _ (fun u x hx => by simp only [Bool.and_eq_true, beq_iff_eq] at hx; exact hx.1.2) hex
    · split at hex
      · exact hpick _ (fun u x hx => by simp only [Bool.and_eq_true, beq_iff_eq] at hx; exact hx.1) hex
      · cases hex

/-- A ready sweep visits its threads once each. -/
theorem Ready.todo_nodup {i : Instr} {s : State} {w : Sw} (h : Ready i s w) : w.todo.Nodup := by
  obtain ⟨g, f, e, -, -, rfl, -⟩ := sweepNow_some h.now
  exact (sweepOf_sorted s s.focus g i f e).2.imp Nat.ne_of_lt

/-! ### What a stop leaves (R24, R346, R359, R361, R365) -/

/-- Entry to the handler gives tpc to a thread that the delivery names and that has not exited. -/
theorem enterHandler_tpc {g : Group} {d : Delivery} {t : Nat} (hlive : (g.thread t).st ≠ .exited) (ht : t ∈ d.tmask) :
    ((enterHandler g d).thread t).tpc = d.tpc := by
  cases hx : Tab.look g.th t with
  | none => simp [Group.thread, Tab.lookD, hx, Thread.reset] at hlive
  | some x =>
    have hst : x.st ≠ .exited := by simpa [Group.thread, Tab.lookD, hx] using hlive
    simp [enterHandler, Group.thread, Tab.lookD, Tab.look_mapv, hx, hst, (KeySet.has_iff_mem _ _).mpr ht]

/-- A group that holds sweep w at a thread that has not exited stands stopped there once the exception is taken, whichever way it
is taken. -/
theorem takeException_stoppedAt {s : State} {w : Sw} {g : Group} {d : Delivery} {h : Held} {t0 : Nat} {st : Stop}
    (hg : s.group w.gk = some g) (hheld : g.held.head? = some h) (hh : h.holds w t0) (hd : d.names w t0 st)
    (hlive : (g.thread t0).st ≠ .exited) :
    ∃ g', (takeException s w.gk d).group w.gk = some g' ∧ g'.stoppedAt w t0 st := by
  obtain ⟨hcause, htres, htmask, htpc, hseq, hfaddr, hdetail⟩ := hd
  cases hsup : causeSup (d.tcause.extractLsb' 8 8) || g.trap.isSome || !g.hasHandler with
  | true =>
    refine ⟨_, (takeException_sup hg hsup).1, h, hh, .inr (.inl ⟨{ d with inHandler := g.trap.isSome },
      ⟨hcause, htres, htmask, htpc, hseq, hfaddr, hdetail⟩, hheld, .inl ⟨rfl, ?_⟩⟩)⟩
    split
    · exact .inr rfl
    · exact .inl rfl
  | false =>
    cases hw : takeWindow s w.gk with
    | none =>
      rw [takeException_waits hg hsup hw]
      exact ⟨_, State.group_setGroup _ _ _, h, hh,
        .inr (.inl ⟨d, ⟨hcause, htres, htmask, htpc, hseq, hfaddr, hdetail⟩, hheld, .inr rfl⟩)⟩
    | some s' =>
      rw [takeException_enters hg hsup hw]
      refine ⟨_, State.group_setGroup _ _ _, h, hh, .inr (.inr ⟨_, rfl, hcause, htres, htmask, hheld, ?_⟩)⟩
      rw [← htpc]
      exact enterHandler_tpc (d := d) hlive (by rw [htmask]; exact List.mem_singleton_self t0)

/-- A stop at a thread that has not exited leaves the group stopped there, if no older stop is drained and the group runs no
engine program. -/
theorem stopSweep_stoppedAt {s : State} {w : Sw} {g : Group} {t0 : Nat} {st : Stop} (hg : s.group w.gk = some g)
    (hdrain : g.drain = none) (hprog : g.prog = none) (hc : st.cause ≠ cWAIT) (hlive : (g.thread t0).st ≠ .exited) (ti : W32)
    (df : KeySet) (fl : Flags) (data : Tab W64) (n : Option Nat) :
    ∃ g', (stopSweep s w ti t0 st df fl data n).group w.gk = some g' ∧ g'.stoppedAt w t0 st := by
  by_cases ha : inFlightBehind (dropRefused s w.g.ids.asid st) w g t0 df fl data n = 0
  · rw [stopSweep_alone hdrain hg hprog ti t0 st hc df fl data n ha]
    exact takeException_stoppedAt (State.group_setGroup _ _ _) rfl ⟨rfl, rfl, rfl, rfl, rfl⟩
      ⟨rfl, rfl, rfl, rfl, rfl, rfl, rfl⟩ hlive
  · have e : ∀ h, (holdAt g 0 w.replay h).sched.ahead = g.sched.ahead := fun _ => rfl
    simp only [inFlightBehind] at ha
    simp only [stopSweep, dropRefused_group, hg, hdrain, hprog, hc, e, ha, Option.isSome_none, Bool.false_eq_true, if_false]
    exact ⟨_, State.group_setGroup _ _ _, _, ⟨rfl, rfl, rfl, rfl, rfl⟩,
      .inl ⟨_, rfl, rfl, ⟨_, rfl, rfl, rfl, rfl, rfl, rfl, rfl, rfl⟩, rfl⟩⟩

/-! ### The clause in which a sweep issues -/

/-- Mapping registers leaves the clause. -/
theorem mapRegs_clause {s s' : State} {w : Sw} {g : Group} {rs : List Nat} (hg : s.group w.gk = some g)
    (h : mapRegs s w.gk rs = .ok s') : ∃ g', s'.group w.gk = some g' ∧ g'.clause = g.clause := by
  obtain ⟨g', -, hg', ⟨m, n, rfl⟩, -, -⟩ := mapRegs_spec hg h
  exact ⟨_, hg', rfl⟩

/-- An instruction that binds no flag leaves the groups as it issues. -/
theorem issue_group {w : Sw} (hll : w.f.ll = false) (s : State) (k : Nat) : (issue s w).1.group k = s.group k := by
  unfold issue
  split
  · rfl
  · simp only [nextSeq, hll, State.group_setCore, Bool.false_eq_true, if_false]
    split <;> rfl

/-- A ready instruction that binds no flag issues within its clause as it stands. -/
theorem enter_ready_clause {i : Instr} {s : State} {w : Sw} (h : Ready i s w) (hll : w.f.ll = false) :
    ∃ s2 g2, Begun s w s2 none g2 ∧ g2.clause = w.g.clause ∧ ∀ k, enter i s k = k w none s2 := by
  obtain ⟨s2, n, g2, hb, he⟩ := enter_ready h
  have hn : n = none := hb.flag.trans (h.unbound hll)
  subst hn
  refine ⟨s2, g2, hb, ?_, he⟩
  have hk := he (fun _ _ t => .next t)
  obtain ⟨g, f, e, hg, hf, hw, hall⟩ := sweepNow_some h.now
  have hgw : w.g = g := by rw [hw, sweepOf_g]
  obtain ⟨t0, tl, hall⟩ := List.exists_cons_of_ne_nil hall
  have hdr : g.drain = none := hgw ▸ h.settled
  have hsub : (g.prog.isSome && !engineOk f e) = false := by
    cases hp : g.prog.isSome
    · rfl
    · have := h.subset (by rw [hgw, hp])
      rw [hw, sweepOf_f, sweepOf_e] at this
      simp [this]
  have hpl : placeOk g i e = true := by
    have := h.place
    rwa [hgw, hw, sweepOf_e] at this
  have hrows := h.rows
  unfold rowsReady at hrows
  split at hrows
  case h_2 => cases hrows
  case h_1 s1 h1 =>
    unfold enter at hk
    simp only [hg, hf, ← hw, hall, hdr, hsub, h.legal, hpl, h.free, h1, Bool.and_self, Bool.not_true, Bool.false_eq_true,
      if_false] at hk
    obtain rfl : (issue s1 w).1 = s2 := by cases hk; rfl
    have hg' : State.group { s with ctr := s.ctr + ctrStep } w.gk = some g := by rw [hw, sweepOf_gk]; exact hg
    obtain ⟨g', hg1, hc⟩ := mapRegs_clause hg' h1
    have hg2 := hb.group
    rw [issue_group hll, hg1, Option.some.injEq] at hg2
    rw [← hg2, hc, hgw]

/-! ### A transfer of control, thread by thread (R167) -/

/-- g' differs from g in registers, code capabilities, pending writes, the clause, held sweeps and the override's count of
clauses alone, and has no pending write that g has not. -/
structure Steered (g g' : Group) : Prop where
  rest : ∃ n, g'.rest = { g.rest with sched := { g.rest.sched with ovc := n } }
  threads : ∀ u, (g'.thread u).rest = (g.thread u).rest
  pend : PendSub g g'

theorem Steered.refl (g : Group) : Steered g g := ⟨⟨g.sched.ovc, rfl⟩, fun _ => rfl, PendSub.refl g⟩

theorem Steered.trans {a b c : Group} (h : Steered a b) (h' : Steered b c) : Steered a c := by
  obtain ⟨n, hn⟩ := h.rest
  obtain ⟨n', hn'⟩ := h'.rest
  exact ⟨⟨n', by rw [hn', hn]⟩, fun u => (h'.threads u).trans (h.threads u), h.pend.trans h'.pend⟩

theorem Mild.steered {g g' : Group} (h : Mild g g') : Steered g g' := ⟨⟨g.sched.ovc, h.rest⟩, h.threads, h.pend⟩

theorem Steered.setCode (g : Group) (t : Nat) (c : Thread → Cap) :
    Steered g (g.onThread t (fun x => { x with code := c x })) := by
  refine ⟨⟨g.sched.ovc, rfl⟩, fun u => ?_, PendSub.refl g⟩
  rw [Group.thread_onThread]
  split
  · subst_vars; rfl
  · rfl

/-- A change of code capabilities changes no register. -/
theorem regs_setCode (g : Group) (t : Nat) (c : Thread → Cap) :
    (g.onThread t (fun x => { x with code := c x })).regs = g.regs := by
  refine regs_onThread g t _ _ ?_ ?_ ?_ ?_ ?_ rfl rfl rfl rfl rfl <;> intro u <;> (try intro q) <;>
    by_cases hu : u = t <;> simp [hu, Group.regs, Thread.vreg, Thread.pred, Thread.cap]

theorem Begun.steered {s s2 : State} {w : Sw} {n : Option Nat} {g2 : Group} (hb : Begun s w s2 n g2) : Steered w.g g2 :=
  ⟨⟨w.g.sched.ovc, hb.rest⟩, fun u => by rw [Group.thread, hb.th, Group.thread], PendSub.of_eq hb.pend⟩

/-- One thread's part in a transfer: its return sentry where it leaves one, and its code capability. Both may depend on the code
capability it had. -/
def steer (link : Nat → Cap → Option Cap) (dest : Nat → Cap → Cap) (g : Group) (t : Nat) : Group :=
  let g' := match link t (g.thread t).code with
    | some c => writeC g t 31 c
    | none => g
  g'.onThread t (fun x => { x with code := dest t x.code })

/-- The registers with c31 of thread t as its part in a transfer leaves it. -/
def Regs.link (l : Option Cap) (t : Nat) (R : Regs) : Regs :=
  { R with c := fun u r => if u = t ∧ r = 31 then l.getD (R.c u r) else R.c u r }

section
variable (link : Nat → Cap → Option Cap) (dest : Nat → Cap → Cap) (g : Group)

theorem steer_steered (t : Nat) : Steered g (steer link dest g t) := by
  unfold steer
  split
  · exact (mild_writeC g t 31 _).steered.trans (Steered.setCode _ t _)
  · exact Steered.setCode g t _

theorem steer_clause (t : Nat) : (steer link dest g t).clause = g.clause := by
  unfold steer writeC
  split <;> rfl

theorem steer_regs (t : Nat) : (steer link dest g t).regs = Regs.link (link t (g.thread t).code) t g.regs := by
  unfold steer
  cases link t (g.thread t).code with
  | none => simp [regs_setCode, Regs.link]
  | some c => simp [regs_setCode, regs_writeC, Regs.link, Regs.setC]

theorem steer_code (t u : Nat) :
    ((steer link dest g t).thread u).code = if u = t then dest t (g.thread t).code else (g.thread u).code := by
  unfold steer
  rw [Group.thread_onThread]
  cases link t (g.thread t).code with
  | none => split <;> rfl
  | some c =>
    have hc : ∀ v, ((writeC g t 31 c).thread v).code = (g.thread v).code := (mild_writeC g t 31 c).code
    split
    · exact congrArg (dest t) (hc t)
    · exact hc u

theorem foldl_steer_steered (ts : List Nat) : Steered g (ts.foldl (steer link dest) g) := by
  induction ts generalizing g with
  | nil => exact Steered.refl g
  | cons t ts ih => exact (steer_steered link dest g t).trans (ih _)

theorem foldl_steer_clause (ts : List Nat) : (ts.foldl (steer link dest) g).clause = g.clause := by
  induction ts generalizing g with
  | nil => rfl
  | cons t ts ih => exact (ih _).trans (steer_clause link dest g t)

/-- Threads visited once each are steered by the code capabilities they had before. -/
theorem foldl_steer_code {ts : List Nat} (hts : ts.Nodup) (u : Nat) :
    ((ts.foldl (steer link dest) g).thread u).code =
      if ts.contains u then dest u (g.thread u).code else (g.thread u).code := by
  induction ts generalizing g with
  | nil => rfl
  | cons t ts ih =>
    obtain ⟨hnot, hts⟩ := List.nodup_cons.mp hts
    rw [List.foldl_cons, ih _ hts, steer_code]
    by_cases hut : u = t
    · subst hut; simp [hnot]
    · simp [hut]

theorem foldl_steer_regs {ts : List Nat} (hts : ts.Nodup) :
    (ts.foldl (steer link dest) g).regs = ts.foldl (fun R t => Regs.link (link t (g.thread t).code) t R) g.regs := by
  induction ts generalizing g with
  | nil => rfl
  | cons t ts ih =>
    obtain ⟨hnot, hts⟩ := List.nodup_cons.mp hts
    rw [List.foldl_cons, List.foldl_cons, ih _ hts, steer_regs]
    refine List.foldl_ext _ _ _ (fun R u hu => ?_)
    rw [steer_code, if_neg (fun h : u = t => hnot (h ▸ hu))]

end

/-- A sweep over threads that all take their part goes on with the threads after them. -/
theorem runThreads_steer {w : Sw} {h : Group → Tab W64 → Nat → Except Stop One} {link : Nat → Cap → Option Cap}
    {dest : Nat → Cap → Cap} (hl : w.lim = none) (rest : List Nat) :
    ∀ (ts : List Nat) (r : Run), (∀ t ∈ ts, abandonedAt w t = false) →
      (∀ t ∈ ts, ∀ g d, h g d t = .ok ⟨steer link dest g t, 0, [], d⟩) →
      runThreads w h (ts ++ rest) r = runThreads w h rest { r with g := ts.foldl (steer link dest) r.g } := by
  intro ts
  induction ts with
  | nil => exact fun r _ _ => rfl
  | cons t ts ih =>
    intro r hab hok
    obtain ⟨hat, hab⟩ := List.forall_mem_cons.mp hab
    obtain ⟨hot, hok⟩ := List.forall_mem_cons.mp hok
    have h0 : trapFlags w.g 0 = 0 := BitVec.zero_and
    have hd : r.dfl ||| 0 = r.dfl := BitVec.or_zero
    rw [List.cons_append, runThreads, commonStop_none hl hat]
    simp only [hot, h0, hd, if_true, List.append_nil, ih _ hab hok, List.foldl_cons]

theorem foldl_link (l : Nat → Option Cap) (ts : List Nat) (R : Regs) :
    ts.foldl (fun R t => Regs.link (l t) t R) R =
      { R with c := fun u r => if u ∈ ts ∧ r = 31 then (l u).getD (R.c u r) else R.c u r } := by
  induction ts generalizing R with
  | nil => simp
  | cons t ts ih =>
    rw [List.foldl_cons, ih]
    simp only [Regs.link, Regs.mk.injEq, and_true, true_and]
    funext u r
    by_cases hu : u = t
    · subst hu
      cases l u <;> by_cases hr : r = 31 <;> simp [hr]
    · simp [hu]

/-! ### Jumps through capabilities -/

/-- The form of JMP, CALLR and RET. -/
def jumpForm (fn : Nat) (a : Role) : Form :=
  ⟨0x27, fn, .no, a, .no, .no, .no, .no, .no, .no, .no, false, false, false, false, .zero, .zero, .no⟩

section
variable {i : Instr} {s : State} {w : Sw} {e : Ext} {fn : Nat} {a : Role}

theorem jump_form (h : Ready i s w) (hf : formOf i = some (jumpForm fn a, e)) : w.f = jumpForm fn a ∧ w.e = e := by
  have := (ready_form h).symm.trans hf
  simpa using this

/-- A legal jump is not uniform and has no literal. -/
theorem jump_fields (hi : legal i = true) (hf : formOf i = some (jumpForm fn a, e)) : e.u = false ∧ e.lit = none := by
  have hl : legalExt (jumpForm fn a) e = true := by
    unfold legal at hi
    split at hi
    · cases hf
    · cases hf
    · rwa [hf] at hi
  simp only [legalExt, litOk, jumpForm, Bool.and_eq_true] at hl
  simp_all

theorem jump_lastRead (h : Ready i s w) (hf : formOf i = some (jumpForm fn a, e)) (ha : a = .c ∨ a = .no) :
    w.lastRead = [] := by
  obtain ⟨hwf, -⟩ := jump_form h hf
  unfold Sw.lastRead
  rcases ha with rfl | rfl <;> simp [hwf, jumpForm, fieldRegs]

end

/-! ### The end of a transfer -/

/-- Counting a backward branch changes the override's count alone. -/
theorem countBackward_eq (w : Sw) (g0 g : Group) :
    ∃ n, countBackward w g0 g = { g with sched := { g.sched with ovc := n } } := by
  simp only [countBackward]
  split
  · split
    · exact ⟨_, rfl⟩
    · exact ⟨g.sched.ovc, rfl⟩
  · exact ⟨g.sched.ovc, rfl⟩

theorem countBackward_keeps (w : Sw) (g0 g : Group) :
    Steered g (countBackward w g0 g) ∧ (countBackward w g0 g).regs = g.regs ∧ (countBackward w g0 g).clause = g.clause ∧
      (countBackward w g0 g).thread = g.thread := by
  obtain ⟨n, hn⟩ := countBackward_eq w g0 g
  rw [hn]
  exact ⟨⟨⟨n, rfl⟩, fun _ => rfl, PendSub.refl g⟩, rfl, rfl, rfl⟩

/-- A group without the record of the sweep that it has replayed. -/
def replayed (w : Sw) (g : Group) : Group := if w.replay then { g with held := g.held.drop 1 } else g

theorem replayed_keeps (w : Sw) (g : Group) : Steered g (replayed w g) ∧ (replayed w g).regs = g.regs ∧
    (replayed w g).clause = g.clause ∧ (replayed w g).thread = g.thread := by
  unfold replayed
  split <;> exact ⟨⟨⟨g.sched.ovc, rfl⟩, fun _ => rfl, PendSub.refl g⟩, rfl, rfl, rfl⟩

theorem clauseStep_steered (g : Group) (len : Nat) : Steered g (clauseStep g len) :=
  ⟨⟨g.sched.ovc, rfl⟩, fun _ => rfl, PendSub.refl g⟩

/-- Where no register is marked last read, none is freed. -/
theorem Regs.freed_eq {w : Sw} (hlr : w.lastRead = []) (R : Regs) : Regs.freed w R = R := by
  simp [Regs.freed, Sw.frees, hlr]

/-- A sweep without pending results or a flag pushes nothing. -/
theorem pushPend_nil (g : Group) (w : Sw) : pushPend g w none false [] = g := by simp [pushPend, clearFlag]

/-- One thread's part in a jump: `link` and `dest` where its predicate holds, and past the instruction otherwise. -/
def jumpStep (w : Sw) (link : Nat → Cap → Option Cap) (dest : Nat → Cap) : Group → Nat → Group :=
  steer (fun t c => if w.on t then link t c else none)
    (fun t c => if w.on t then dest t else capSetAddr c ((w.iaddr + 12 : Nat) : Int))

/-- A thread's part as `branch` has it. -/
def jumpPart (w : Sw) (f : Sw → Group → Nat → Except Stop Group) (g : Group) (d : Tab W64) (t : Nat) : Except Stop One :=
  if w.on t then (match f w g t with | .error e => .error e | .ok g => .ok ⟨g, 0, [], d⟩)
  else .ok ⟨setPc g t ((w.iaddr + 12 : Nat) : Int), 0, [], d⟩

/-- The sweep of a jump over its threads, its backward branch counted where none of them stops (R290). -/
def jumpRun (w : Sw) (f : Sw → Group → Nat → Except Stop Group) (g : Group) : Run :=
  let r := runThreads w (jumpPart w f) w.todo (Run.start w g)
  match r.stop with
  | none => { r with g := countBackward w g r.g }
  | some _ => r

section
variable {i : Instr} {s : State} {w : Sw} {e : Ext} {fn : Nat} {a : Role} {f : Sw → Group → Nat → Except Stop Group}
  {link : Nat → Cap → Option Cap} {dest : Nat → Cap}

theorem jumpPart_ok (g : Group) (d : Tab W64) (t : Nat)
    (hok : w.on t = true → f w g t = .ok (steer link (fun u _ => dest u) g t)) :
    jumpPart w f g d t = .ok ⟨jumpStep w link dest g t, 0, [], d⟩ := by
  unfold jumpPart jumpStep
  cases hon : w.on t
  · simp [steer, hon, setPc]
  · simp [hok hon, steer, hon]

/-- A jump issues, and concludes with what its threads make of it. -/
theorem exec_jump (h : Ready i s w) (hf : formOf i = some (jumpForm fn a, e))
    (hex : exec i s = branch i s (fun _ => true) f) :
    ∃ s2 g2, Begun s w s2 none g2 ∧ g2.clause = w.g.clause ∧
      exec i s = .next (conclude w none false false s2 (jumpRun w f g2)) := by
  obtain ⟨hwf, -⟩ := jump_form h hf
  obtain ⟨s2, g2, hb, hc, he⟩ := enter_ready_clause h (by rw [hwf]; rfl)
  refine ⟨s2, g2, hb, hc, ?_⟩
  have hlen : instrLen i = 12 := by simp [instrLen, hf, jumpForm, (jump_fields h.legal hf).2]
  rw [hex, branch, he]
  simp only [hb.group, hlen, Bool.and_true]
  rfl

theorem jump_doers (h : Ready i s w) (hf : formOf i = some (jumpForm fn a, e)) : w.doers = w.todo.filter w.on :=
  doers_plain (by rw [(jump_form h hf).2]; exact (jump_fields h.legal hf).1)

/-- The sweep of a jump each of whose doers takes its part. -/
theorem jumpRun_ok (h : Ready i s w) (hf : formOf i = some (jumpForm fn a, e))
    (hok : ∀ t ∈ w.doers, ∀ g, f w g t = .ok (steer link (fun u _ => dest u) g t)) (g : Group) :
    jumpRun w f g = Run.start w (countBackward w g (w.todo.foldl (jumpStep w link dest) g)) := by
  have hsweep := runThreads_steer (h := jumpPart w f) h.fetched [] w.todo (Run.start w g) (ready_whole h)
    (fun t ht g d => jumpPart_ok g d t (fun ho => hok t (by rw [jump_doers h hf]; exact List.mem_filter.mpr ⟨ht, ho⟩) g))
  rw [List.append_nil] at hsweep
  rw [jumpRun, hsweep]
  rfl

/-- The last instruction of a clause closes it. -/
theorem clauseStep_closes {g g' : Group} (hp : placeOk g i e = true) (hend : endsClause i = true)
    (hc : g'.clause = g.clause) (len : Nat) : (clauseStep g' len).clause = none := by
  unfold placeOk at hp
  cases hg : g.clause with
  | none => simp [hg] at hp
  | some c =>
    have hl : c.left = 1 := by simp_all
    simp [clauseStep, hc, hg, hl]

/-- A jump that no thread stops, and that frees no row, ends without moving its threads on. -/
theorem conclude_jump (h : Ready i s w) (hlr : w.lastRead = []) (s2 : State) (g : Group) :
    conclude w none false false s2 (Run.start w g) =
      (s2.setGroup w.gk g).setGroup w.gk (clauseStep (replayed w g) (instrLen w.i)) := by
  simp [conclude, Run.start, h.uncut, h.fresh, pushPend_nil, finishSweep, hlr, freeRegs, replayed]

/-- A jump each of whose doers takes its part is a transfer of control. -/
theorem jump_turns (h : Ready i s w) (hf : formOf i = some (jumpForm fn a, e)) (ha : a = .c ∨ a = .no)
    (hend : endsClause i = true) (hex : exec i s = branch i s (fun _ => true) f)
    (hok : ∀ t ∈ w.doers, ∀ g, f w g t = .ok (steer link (fun u _ => dest u) g t)) :
    Turns i s w
      (Regs.freed w { w.g.regs with
        c := fun u r => if w.acts u ∧ r = 31 then (link u (w.g.thread u).code).getD (w.g.regs.c u r) else w.g.regs.c u r })
      (fun t => if w.on t then dest t else capSetAddr (w.g.thread t).code ((w.iaddr + 12 : Nat) : Int)) := by
  obtain ⟨s2, g2, hb, hc, hrun⟩ := exec_jump h hf hex
  have hlr := jump_lastRead h hf ha
  have hth : g2.thread = w.g.thread := by funext u; rw [Group.thread, hb.th, Group.thread]
  rw [jumpRun_ok h hf hok, conclude_jump h hlr] at hrun
  have hsteer : Steered g2 (w.todo.foldl (jumpStep w link dest) g2) := foldl_steer_steered _ _ _ _
  have hclause : (w.todo.foldl (jumpStep w link dest) g2).clause = g2.clause := foldl_steer_clause _ _ _ _
  have hcode : ∀ u, ((w.todo.foldl (jumpStep w link dest) g2).thread u).code =
      if w.todo.contains u then
        if w.on u then dest u else capSetAddr (g2.thread u).code ((w.iaddr + 12 : Nat) : Int)
      else (g2.thread u).code := foldl_steer_code _ _ g2 h.todo_nodup
  have hregs : (w.todo.foldl (jumpStep w link dest) g2).regs = { g2.regs with
      c := fun u r => if u ∈ w.todo ∧ r = 31 then
        (if w.on u then link u (g2.thread u).code else none).getD (g2.regs.c u r) else g2.regs.c u r } :=
    (foldl_steer_regs _ _ g2 h.todo_nodup).trans (foldl_link _ _ _)
  generalize w.todo.foldl (jumpStep w link dest) g2 = gf at *
  obtain ⟨hsteerB, hregsB, hclauseB, hthB⟩ := countBackward_keeps w g2 gf
  generalize countBackward w g2 gf = gb at *
  obtain ⟨hsteerR, hregsR, hclauseR, hthR⟩ := replayed_keeps w gb
  obtain ⟨⟨n, hrest⟩, hthreads, hpend⟩ := (((hb.steered.trans hsteer).trans hsteerB).trans hsteerR).trans
    (clauseStep_steered _ (instrLen w.i))
  refine ⟨_, _, hrun, ?_, State.group_setGroup _ _ _, ?_, ?_, hthreads, ?_, ?_, ?_⟩
  · exact (hb.frame.trans (SweepFrame.setGroup w _ _)).trans (SweepFrame.setGroup w _ _)
  · refine (hregsR.trans (hregsB.trans hregs)).trans ?_
    rw [Regs.freed_eq hlr, hb.regs, hth]
    simp only [Regs.mk.injEq, and_true, true_and, Sw.acts, jump_doers h hf, List.contains_iff_mem, List.mem_filter]
    funext u r
    by_cases hu : u ∈ w.todo <;> cases hon : w.on u <;> simp [hu]
  · have hn : (clauseStep (replayed w gb) (instrLen w.i)).sched.ovc = n := congrArg (·.sched.ovc) hrest
    rw [hrest, hn]
    rfl
  · intro u
    refine (congrArg (fun th : Nat → Thread => (th u).code) (hthR.trans hthB)).trans ?_
    rw [hcode, hth]
  · exact ⟨fun p hp => absurd hp List.not_mem_nil, hpend⟩
  · exact clauseStep_closes h.place hend (hclauseR.trans (hclauseB.trans (hclause.trans hc))) _

/-- A jump whose first doer that meets `p` stops, the others below it taking their part, stops there. -/
theorem jump_stops (h : Ready i s w) (hf : formOf i = some (jumpForm fn a, e))
    (hex : exec i s = branch i s (fun _ => true) f) {p : Nat → Bool} {t0 : Nat} {st : Stop} (hfind : w.doers.find? p = some t0)
    (hok : ∀ t, p t = false → ∀ g, f w g t = .ok (steer link (fun u _ => dest u) g t)) (herr : ∀ g, f w g t0 = .error st)
    (hprog : w.g.prog = none) (hc : st.cause ≠ cWAIT) (hlive : (w.g.thread t0).st ≠ .exited) : Stops i s w t0 st := by
  obtain ⟨s2, g2, hb, -, hrun⟩ := exec_jump h hf hex
  rw [jump_doers h hf, List.find?_filter, List.find?_eq_some_iff_append] at hfind
  obtain ⟨hp0, pre, post, htodo, hpre⟩ := hfind
  have hsub : ∀ t ∈ pre ++ t0 :: post, abandonedAt w t = false := htodo ▸ ready_whole h
  have hon : w.on t0 = true := by simp_all
  have hsweep := runThreads_steer (h := jumpPart w f) h.fetched (t0 :: post) pre (Run.start w g2)
    (fun t ht => hsub t (List.mem_append_left _ ht))
    (fun t ht g d => jumpPart_ok (link := link) (dest := dest) g d t (fun ho => hok t (by simpa [ho] using hpre t ht) g))
  have herr0 : ∀ g d, jumpPart w f g d t0 = .error st := fun g d => by simp [jumpPart, hon, herr]
  have hcs : commonStop w t0 = none := commonStop_none h.fetched (hsub t0 (List.mem_append_right _ List.mem_cons_self))
  have hsteer : Steered w.g (pre.foldl (jumpStep w link dest) g2) := hb.steered.trans (foldl_steer_steered _ _ _ _)
  change runThreads w _ _ _ = runThreads w _ _ { Run.start w g2 with g := pre.foldl (jumpStep w link dest) g2 } at hsweep
  generalize pre.foldl (jumpStep w link dest) g2 = gf at *
  obtain ⟨n, hrest⟩ := hsteer.rest
  have hdrain : gf.drain = none := (congrArg Group.drain hrest).trans h.settled
  have hlive' : (gf.thread t0).st ≠ .exited := (congrArg Thread.st (hsteer.threads t0)).trans_ne hlive
  have hstop := stopSweep_stoppedAt (w := w) (s := s2.setGroup w.gk gf) (State.group_setGroup _ _ _) hdrain
    ((congrArg Group.prog hrest).trans hprog) hc hlive' (tinstOf s2 w) w.defer0 w.dfl0 w.data0 none
  obtain ⟨g', hg', hst⟩ := hstop
  refine ⟨_, g', hrun, ?_, hst⟩
  rw [jumpRun, htodo, hsweep]
  simpa only [runThreads, hcs, herr0, conclude, Run.start, pushPend_nil] using hg'

end

/-! ### JMP, CALLR and RET (R94, R168 to R170) -/

/-- A target that a jump takes: a tagged entry with X, word-aligned. -/
def goodTarget (c : Cap) : Prop :=
  c.tag = true ∧ (capOtype c = 0 ∨ capOtype c = 2) ∧ capHas c pX = true ∧ (capAddr c).toNat % 4 = 0

/-- The first check that a target fails. -/
def targetCause (c : Cap) : Cause :=
  if c.tag = false then cCAP_TAG
  else if capOtype c ≠ 0 ∧ capOtype c ≠ 2 then cCAP_SEAL
  else if capHas c pX = false then cCAP_PERM
  else cCAP_ALIGN

theorem targetCheck_good {c : Cap} (h : goodTarget c) : targetCheck c = none := by
  obtain ⟨ht, ho, hx, ha⟩ := h
  simp [targetCheck, ht, hx, ha, show ¬(capOtype c ≠ 0 ∧ capOtype c ≠ 2) by tauto]

theorem targetCheck_bad {c : Cap} (h : ¬ goodTarget c) : targetCheck c = some ⟨targetCause c, capAddr c, 0, none⟩ := by
  unfold targetCheck targetCause stopAt
  unfold goodTarget at h
  split_ifs <;> grind

/-- No check of a target waits for another package. -/
theorem targetCause_ne (c : Cap) : targetCause c ≠ cWAIT := by
  unfold targetCause
  split_ifs <;> decide

/-- The return sentry that a jump leaves, if it is a call. -/
def jumpLink (w : Sw) (call : Bool) (_ : Nat) (code : Cap) : Option Cap :=
  if call then some (capReturn code (w.iaddr + 12)) else none

theorem jumpTo_ok {w : Sw} {t : Nat} (h : targetCheck (w.capA t) = none) (call : Bool) (g : Group) :
    jumpTo w g t call = .ok (steer (jumpLink w call) (fun u _ => capWithOtype (w.capA u) 0) g t) := by
  cases call <;> simp [jumpTo, h, steer, jumpLink, capUnseal]

theorem jumpTo_error {w : Sw} {t : Nat} {st : Stop} (h : targetCheck (w.capA t) = some st) (call : Bool) (g : Group) :
    jumpTo w g t call = .error st := by simp [jumpTo, h]

theorem returnTo_ok {w : Sw} {t : Nat} (htag : (readC w.g w.base 0 t 31).tag = true)
    (ho : capOtype (readC w.g w.base 0 t 31) = 1) (g : Group) :
    returnTo w g t = .ok (steer (fun _ _ => none) (fun u _ => capWithOtype (readC w.g w.base 0 u 31) 0) g t) := by
  simp [returnTo, htag, ho, steer, capUnseal]

/-- RET stops where c31 is no return sentry (R170). -/
theorem returnTo_error {w : Sw} {t : Nat}
    (h : ((readC w.g w.base 0 t 31).tag && capOtype (readC w.g w.base 0 t 31) == 1) = false) (g : Group) :
    returnTo w g t = .error ⟨if (readC w.g w.base 0 t 31).tag then cCAP_SEAL else cRETURN_UNTAGGED, 0, 0, none⟩ := by
  cases ht : (readC w.g w.base 0 t 31).tag <;> simp_all [returnTo, stopAt]

theorem exec_jmp (e : Ext) (s : State) :
    exec (.jmp e) s = branch (.jmp e) s (fun _ => true) (fun w g t => jumpTo w g t false) := rfl
theorem exec_callr (e : Ext) (s : State) :
    exec (.callr e) s = branch (.callr e) s (fun _ => true) (fun w g t => jumpTo w g t true) := rfl
theorem exec_ret (e : Ext) (s : State) : exec (.ret e) s = branch (.ret e) s (fun _ => true) returnTo := rfl

theorem form_jmp (e : Ext) : formOf (.jmp e) = some (jumpForm 3 .c, e) := rfl
theorem form_callr (e : Ext) : formOf (.callr e) = some (jumpForm 5 .c, e) := rfl
theorem form_ret (e : Ext) : formOf (.ret e) = some (jumpForm 6 .no, e) := rfl

section
variable {i : Instr} {s : State} {w : Sw} {e : Ext} {fn : Nat} {call : Bool}

/-- JMP and CALLR go on at their targets, CALLR with its return sentry in c31. -/
theorem jumpTo_turns (h : Ready i s w) (hf : formOf i = some (jumpForm fn .c, e)) (hend : endsClause i = true)
    (hex : exec i s = branch i s (fun _ => true) (fun w g t => jumpTo w g t call))
    (hgood : ∀ t ∈ w.doers, goodTarget (w.capA t)) :
    Turns i s w
      (Regs.freed w (if call then
        Regs.linked w (fun t => capReturn (w.g.thread t).code (w.iaddr + 12)) w.g.regs else w.g.regs))
      (fun t => if w.on t then capWithOtype (w.capA t) 0 else capSetAddr (w.g.thread t).code ((w.iaddr + 12 : Nat) : Int)) := by
  have := jump_turns h hf (.inl rfl) hend hex (fun t ht => jumpTo_ok (targetCheck_good (hgood t ht)) call)
  cases call <;> simpa [jumpLink, Regs.linked] using this

/-- JMP and CALLR stop at the first target that fails a check. -/
theorem jumpTo_stops (h : Ready i s w) (hth : Tab.wf w.g.th = true) (hf : formOf i = some (jumpForm fn .c, e))
    (hex : exec i s = branch i s (fun _ => true) (fun w g t => jumpTo w g t call)) {p : Nat → Bool} {t0 : Nat}
    (hfind : w.doers.find? p = some t0) (hp : ∀ t, p t = false ↔ goodTarget (w.capA t)) (hprog : w.g.prog = none) :
    Stops i s w t0 ⟨targetCause (w.capA t0), capAddr (w.capA t0), 0, none⟩ := by
  obtain ⟨ht0, -⟩ := todo_doers (List.mem_of_find?_eq_some hfind)
  have hbad : ¬ goodTarget (w.capA t0) := by simp [← hp, List.find?_some hfind]
  exact jump_stops h hf hex hfind (fun t ht => jumpTo_ok (targetCheck_good ((hp t).mp ht)) call)
    (jumpTo_error (targetCheck_bad hbad) call) hprog (targetCause_ne _) (h.live hth ht0)

/-- RET goes on where the return sentries of its threads say (R170). -/
theorem ret_turns (h : Ready (.ret e) s w)
    (hlink : ∀ t ∈ w.doers, (readC w.g w.base 0 t 31).tag = true ∧ capOtype (readC w.g w.base 0 t 31) = 1) :
    Turns (.ret e) s w (Regs.freed w w.g.regs)
      (fun t => if w.on t then capWithOtype (readC w.g w.base 0 t 31) 0
        else capSetAddr (w.g.thread t).code ((w.iaddr + 12 : Nat) : Int)) := by
  have := jump_turns h (form_ret e) (.inr rfl) rfl (exec_ret e s) (fun t ht => returnTo_ok (hlink t ht).1 (hlink t ht).2)
  simpa using this

/-- RET stops at the first thread whose c31 is no return sentry. -/
theorem ret_stops (h : Ready (.ret e) s w) (hth : Tab.wf w.g.th = true) {t0 : Nat}
    (hfind : w.doers.find? (fun t => !((readC w.g w.base 0 t 31).tag && capOtype (readC w.g w.base 0 t 31) == 1)) = some t0)
    (hprog : w.g.prog = none) :
    Stops (.ret e) s w t0 ⟨if (readC w.g w.base 0 t0 31).tag then cCAP_SEAL else cRETURN_UNTAGGED, 0, 0, none⟩ := by
  obtain ⟨ht0, -⟩ := todo_doers (List.mem_of_find?_eq_some hfind)
  have hbad := List.find?_some hfind
  rw [Bool.not_eq_true'] at hbad
  have hsentry : ∀ {c : Cap}, (!(c.tag && capOtype c == 1)) = false → c.tag = true ∧ capOtype c = 1 := by simp
  refine jump_stops h (form_ret e) (exec_ret e s) hfind
    (fun t ht => returnTo_ok (hsentry ht).1 (hsentry ht).2) (returnTo_error hbad) hprog ?_ (h.live hth ht0)
  show (if _ then cCAP_SEAL else cRETURN_UNTAGGED) ≠ cWAIT
  split <;> decide

end

/-- What O23 says of one state and sweep. -/
def CapabilityJumpsAt (e : Ext) (s : State) (w : Sw) : Prop :=
  let past : Int := ((w.iaddr + 12 : Nat) : Int)
  let code := fun (t : Nat) => (w.g.thread t).code
  let target := fun (t : Nat) => w.capA t
  let good := fun (c : Cap) => c.tag = true ∧ (capOtype c = 0 ∨ capOtype c = 2) ∧ capHas c pX = true ∧
    (capAddr c).toNat % 4 = 0
  let cause := fun (c : Cap) => if c.tag = false then cCAP_TAG
    else if capOtype c ≠ 0 ∧ capOtype c ≠ 2 then cCAP_SEAL else if capHas c pX = false then cCAP_PERM else cCAP_ALIGN
  let go := fun (dest : Nat → Cap) (t : Nat) => if w.on t then capWithOtype (dest t) 0 else capSetAddr (code t) past
  let link := fun (t : Nat) => readC w.g w.base 0 t 31
  (Ready (.jmp e) s w →
    ((∀ t ∈ w.doers, good (target t)) → Turns (.jmp e) s w (Regs.freed w w.g.regs) (go target)) ∧
    (∀ t0, w.doers.find? (fun t => !decide (good (target t))) = some t0 → w.g.prog = none →
      Stops (.jmp e) s w t0 ⟨cause (target t0), capAddr (target t0), 0, none⟩)) ∧
  (Ready (.callr e) s w →
    ((∀ t ∈ w.doers, good (target t)) → Turns (.callr e) s w
      (Regs.freed w (Regs.linked w (fun t => capWithOtype (capSetAddr (code t) past) 1) w.g.regs)) (go target)) ∧
    (∀ t0, w.doers.find? (fun t => !decide (good (target t))) = some t0 → w.g.prog = none →
      Stops (.callr e) s w t0 ⟨cause (target t0), capAddr (target t0), 0, none⟩)) ∧
  (Ready (.ret e) s w →
    ((∀ t ∈ w.doers, (link t).tag = true ∧ capOtype (link t) = 1) →
      Turns (.ret e) s w (Regs.freed w w.g.regs) (go link)) ∧
    (∀ t0, w.doers.find? (fun t => !((link t).tag && capOtype (link t) == 1)) = some t0 → w.g.prog = none →
      Stops (.ret e) s w t0 ⟨if (link t0).tag then cCAP_SEAL else cRETURN_UNTAGGED, 0, 0, none⟩))

theorem capabilityJumps_iff : Obligations.CapabilityJumps ↔ ∀ e s w, CapabilityJumpsAt e s w := Iff.rfl

/-- Where the group lists each of its threads once, O23 holds. -/
theorem capabilityJumpsAt_of_wf (e : Ext) (s : State) (w : Sw) (hth : Tab.wf w.g.th = true) : CapabilityJumpsAt e s w := by
  have hp : ∀ (p : Prop) [Decidable p], (!decide p) = false ↔ p := by simp
  refine ⟨fun h => ⟨fun hgood => ?_, fun t0 hfind hprog => ?_⟩, fun h => ⟨fun hgood => ?_, fun t0 hfind hprog => ?_⟩,
    fun h => ⟨fun hlink => ?_, fun t0 hfind hprog => ?_⟩⟩
  · exact jumpTo_turns h (form_jmp e) rfl (exec_jmp e s) hgood
  · exact jumpTo_stops h hth (form_jmp e) (exec_jmp e s) hfind (fun t => hp _) hprog
  · exact jumpTo_turns h (form_callr e) rfl (exec_callr e s) hgood
  · exact jumpTo_stops h hth (form_callr e) (exec_callr e s) hfind (fun t => hp _) hprog
  · exact ret_turns h hlink
  · exact ret_stops h hth hfind hprog

/-! ### RET where the table of threads lists one twice -/

/-- A group about to execute the one instruction of its clause, with a handler. Its table lists thread 0 twice: as exited,
which is what a read of the thread finds, and as runnable, by which the executing set counts it. -/
def groupTwice : Group :=
  { newGroup ⟨0, 0, 0, 0, 128, 0, 0, 0⟩ [] [(0, Thread.reset), (0, newThread (codeAt placeAt) [])] with
    clause := some ⟨placeAt, 1, 15, 15, false, [0]⟩, handler := codeAt 0x40 }

def listedTwice : State := (placeWords State.reset []).setGroup 0 groupTwice

/-- The sweep that RET makes there: thread 0, whose c31 is untagged. -/
def sweepTwice : Sw :=
  ⟨0, groupTwice, .ret bareExt, jumpForm 6 .no, bareExt, placeAt, [0], [0], none, false, none, none, 0, 0⟩

theorem ready_listedTwice : Ready (.ret bareExt) listedTwice sweepTwice where
  now := by decide +kernel
  subset := by decide +kernel
  legal := by decide +kernel
  place := by decide +kernel
  free := by decide +kernel
  fetched := rfl
  whole := by decide +kernel
  rows := by decide +kernel
  settled := rfl
  uncut := rfl
  fresh := rfl
  unbound := fun _ => rfl

/-- The group enters its handler, and no thread of it stands with the address of the stop in tpc. -/
theorem exec_listedTwice : (match exec (.ret bareExt) listedTwice with
    | .next t => (t.group 0).any (fun g => g.drain.isNone && g.held.isEmpty && (g.thread 0).tpc == 0)
    | _ => false) = true := by decide +kernel

/-- A group that is stopped at a thread, with no sweep held or drained outside its handler, shows the stop's address in that
thread's tpc. -/
theorem Group.stoppedAt.tpc_eq {g : Group} {w : Sw} {t0 : Nat} {st : Stop} (h : g.stoppedAt w t0 st) (hd : g.drain = none)
    (hh : g.held = []) : (g.thread t0).tpc = BitVec.ofNat 64 w.iaddr := by
  obtain ⟨h, -, ⟨dr, hdr, -⟩ | ⟨d, -, hhead, -⟩ | ⟨tr, -, -, -, -, -, htpc⟩⟩ := h
  · rw [hd] at hdr; cases hdr
  · rw [hh] at hhead; cases hhead
  · exact htpc

/-- Refutes O23: RET stops there at thread 0 with RETURN_UNTAGGED and the group enters its handler, but tpc of thread 0 stays 0:
entry to the handler goes by the first entry of the table, an exited thread (R346). That the table lists each thread once is the
one hypothesis O23 lacks (`capabilityJumpsAt_of_wf`). -/
theorem not_capabilityJumps : ¬ Obligations.CapabilityJumps := by
  unfold Obligations.CapabilityJumps
  intro h
  obtain ⟨-, -, hret⟩ := h bareExt listedTwice sweepTwice
  obtain ⟨-, hstop⟩ := hret ready_listedTwice
  obtain ⟨t, g, hex, hg, hst⟩ := hstop 0 (by decide +kernel) rfl
  have hrun := exec_listedTwice
  rw [hex] at hrun
  change (t.group 0).any _ = true at hrun
  rw [show t.group 0 = some g from hg] at hrun
  simp only [Option.any_some, Bool.and_eq_true, Option.isNone_iff_eq_none, List.isEmpty_iff, beq_iff_eq] at hrun
  obtain ⟨⟨hdrain, hheld⟩, htpc⟩ := hrun
  have haddr : (g.thread 0).tpc = BitVec.ofNat 64 placeAt := hst.tpc_eq hdrain hheld
  rw [htpc] at haddr
  exact absurd haddr (by decide)

end Machine
end Sys2Proof
